-- ==== Sys2Proof/Word.lean ====
section
/-!
DEFINITION. The word types and their plainest operations (R6: little-endian bytes, 32-bit register words).
-/
namespace Sys2Proof

abbrev Byte := BitVec 8
/-- A register word (R38). -/
abbrev Word := BitVec 32
/-- A 64-bit operand, address or instruction word. -/
abbrev DWord := BitVec 64

/-- Bits `hi` to `lo` of a word, as a number. -/
abbrev bits {n : Nat} (x : BitVec n) (hi lo : Nat) : Nat := (x.extractLsb' lo (hi + 1 - lo)).toNat

/-- Bit `i` of a word. -/
abbrev bit {n : Nat} (x : BitVec n) (i : Nat) : Bool := x.getLsbD i

/-- The two 32-bit words of a pair, low word first (R6). -/
abbrev pairOf (lo hi : Word) : DWord := hi ++ lo
abbrev loWord (x : DWord) : Word := x.extractLsb' 0 32
abbrev hiWord (x : DWord) : Word := x.extractLsb' 32 32

/-- A thread's name: its group, its layer and its lane in the group (R15, R18). -/
structure Tid where
  vgid : Nat
  layer : Nat
  lane : Nat
  deriving DecidableEq, Repr

end Sys2Proof
end

