-- ==== Sys2Proof/Config.lean ====
section
/-!
DEFINITION. What an implementation fixes, and the free values: constants without a body, of which nothing can be
proved (log 6, log 7).
-/
namespace Sys2Proof.Config

/-- The fresh free value number `k` (log 6): State.fresh counts them. -/
opaque freeValue : Nat → BitVec 64

/-- Whether the approximate function `f` of an operand takes the upper of the two neighbours of the exact result (R210,
log 7): a fixed function of the operand's bits. -/
opaque approxUp : (f : Nat) → (bits : BitVec 64) → Bool

/-- The bits of FEXP2, FLOG2, FSIN and FCOS away from their exact points (R210, log 7): fixed functions of the operand. -/
opaque approx : (f : Nat) → (bits : BitVec 32) → BitVec 32

/-- The estimate a copy engine promises, in cycles beyond the least it may promise (R235, log 6). -/
opaque estimate : Nat → Nat

/-- The keystream of the understudy's records: byte number `i` of a record's stream, under a session's key and a nonce (R432, log 13). -/
opaque cipher : (key nonce i : Nat) → BitVec 8

/-- The tag of an encrypted record's stored payload, under a session's key and a nonce (R432, log 13). -/
opaque tag : (key nonce : Nat) → List (BitVec 8) → BitVec 128

/-- Whether the signature in an image's header checks against its header and body (R435, log 13): a fixed function of their bytes. -/
opaque signed : List (BitVec 8) → Bool

end Sys2Proof.Config
end

