-- ==== Sys2Proof/Syntax.lean ====
section
/-!
DEFINITION. The instructions: one constructor for each row of spec/opcode_table.json (R77, R74, and the
device and host events that no word encodes).
-/
namespace Sys2Proof

/-- The type codes of R61, in code order. -/
inductive Ty where
  | s32 | z32 | s64 | z64 | f64 | f32 | f16 | bf16 | e4m3 | e5m2 | i8 | c4
  deriving DecidableEq, Repr

/-- The scopes of R62, in code order. -/
inductive Scope where
  | core | gang | troupe | company | house
  deriving DecidableEq, Repr

/-- ORD of R111: relaxed, or acquire (loads) or release (stores) at a scope. -/
inductive MemOrd where
  | relaxed | atCore | atGang | atTroupe | atCompany | atHouse
  deriving DecidableEq, Repr

/-- ATOM of R62: the default 4-byte atomicity, .a8 or .a16. -/
inductive Atomicity where
  | word | a8 | a16
  deriving DecidableEq, Repr

/-- RM of R168: the thread's default mode, or one of the four modes. -/
inductive RMode where
  | dflt | rne | rtz | rdn | rup
  deriving DecidableEq, Repr

/-- COND of ICMP (R93). -/
inductive ICond where
  | eq | ne | lt | le | gt | ge
  deriving DecidableEq, Repr

/-- COND of FCMP (R208). -/
inductive FCond where
  | eq | ne | lt | le | gt | ge | un | ord
  deriving DecidableEq, Repr

/-- OP of the atomics (R336). -/
inductive AtomOp where
  | add | min | max | and | or | xor | exch | cas
  deriving DecidableEq, Repr

/-- SPACE of the copies (R244). -/
inductive Space where
  | g | f | h
  deriving DecidableEq, Repr

/-- KIND of FENCE (R135). -/
inductive FenceKind where
  | full | acq | rel
  deriving DecidableEq, Repr

/-- STATE of TAGSET (R115). -/
inductive TagState where
  | empty | full | poison
  deriving DecidableEq, Repr

/-- The identity values SREG reads, in selector order 0x00 to 0x10 (R97). -/
inductive SregName where
  | lane | layer | gwidth | gdepth | group | gang | ngang | core | cluster | die | vgid | cyc | hbt | phase
  | sibidx | sibn | karg
  deriving DecidableEq, Repr

/-- The system registers that SRD reads and SWR writes without popping or clearing a queue (R301). -/
inductive SysReg where
  | trapMask | trapBase | trapPc | trapAddr | trapInfo | trapCause | mgnCtl | mgnStat | mgnInj
  | asid | world | ckCtl | ckStat | evBase
  deriving DecidableEq, Repr

/-- The two queue registers, MGN_LOG and FLT_LOG (R301, R302). -/
inductive LogReg where
  | mgnLog | fltLog
  deriving DecidableEq, Repr

/-- RETAIN of R58. -/
inductive Retain where
  | none | a | b | c
  deriving DecidableEq, Repr

/-- The fields every full-form word carries beside its operands: guard, N and RETAIN (R58). -/
structure Hdr where
  pidx : BitVec 3
  pinv : Bool
  nw : Bool
  retain : Retain
  deriving DecidableEq, Repr

/-- A source: a register, a latch (R68), or the FI immediate (R63). -/
inductive Src where
  | reg (i : BitVec 9)
  | latch (k : BitVec 3)
  | imm (v : BitVec 18)
  deriving DecidableEq, Repr

/-- PSET's modes with the fields each uses (R94). -/
inductive PsetOp where
  | and (d a b : BitVec 3)
  | or (d a b : BitVec 3)
  | xor (d a b : BitVec 3)
  | andn (d a b : BitVec 3)
  | nz (d : BitVec 3) (a : Src)
  | save (d : BitVec 9)
  | load (a : Src)
  deriving DecidableEq, Repr

/-- VOTE's modes with their destinations (R95). -/
inductive VoteOp where
  | any (d : BitVec 3)
  | all (d : BitVec 3)
  | uni (d : BitVec 3)
  | ballot (d : BitVec 9)
  deriving DecidableEq, Repr

/-- FSTAT's modes (R213). -/
inductive FstatOp where
  | read
  | clr (b : Src)
  | set (b : Src)
  deriving DecidableEq, Repr

/-- NCVT's directions: .up reads one register, .dn an operand of four (R217). -/
inductive NcvtOp where
  | up (a : Src)
  | dn (rm : RMode) (sat : Bool) (a : Src)
  deriving DecidableEq, Repr

/-- MARM's spaces: a granule at an address pair, or a word of a window (R138). -/
inductive MarmOp where
  | g (a : Src)
  | w (a b : Src)
  deriving DecidableEq, Repr

/-- The register side of ACOPY and AWRITE: own registers from a base, or a (handle, offset) pair (R244). -/
inductive CopyReg where
  | own (base : BitVec 9)
  | win (a : Src)
  deriving DecidableEq, Repr

/-- The rights of WEXP (R116). -/
structure Rights where
  r : Bool
  w : Bool
  t : Bool
  g : Bool
  deriving DecidableEq, Repr

/-- The pair opcodes of R74. -/
inductive PairOp where
  | mov | iadd | isub | imul | imin | imax | and | or | xor | shl | shr | sar | rot
  | fadd | fsub | fmul | fmin | fmax
  | movi | iaddImm | andImm | shlImm | shrImm | sarImm | rotImm
  deriving DecidableEq, Repr

/-- A pair half's fields other than its opcode (R71); `src` is a register or the 9-bit immediate. -/
structure Half where
  dst : BitVec 9
  src : BitVec 9
  pidx : BitVec 3
  ty : Ty
  deriving DecidableEq, Repr

/-- Half B of a pair word, with its opcode (R71). -/
structure PairHalf where
  op : PairOp
  half : Half
  deriving DecidableEq, Repr

/-- Every step of opcode_table.json: 170 full-form, FI, FB and X rows, 25 pair-half rows, 99 event rows. -/
inductive Instr where
  | nop (h : Hdr)
  | bra (h : Hdr) (off : BitVec 28)
  | brx (h : Hdr) (ty : Ty) (a : Src) (b : Src)
  | call (h : Hdr) (off : BitVec 28)
  | callx (h : Hdr) (d : BitVec 9) (x : DWord)
  | ret (h : Hdr) (ty : Ty) (a : Src)
  | exit (h : Hdr)
  | yield (h : Hdr)
  | sleep (h : Hdr) (a : Src)
  | sleepP (h : Hdr) (a : Src)
  | cancp (h : Hdr)
  | trap (h : Hdr) (b : Src)
  | tret (h : Hdr)
  | tfence (h : Hdr)
  | iadd (h : Hdr) (ty : Ty) (sat : Bool) (d : BitVec 9) (a : Src) (b : Src)
  | isub (h : Hdr) (ty : Ty) (sat : Bool) (d : BitVec 9) (a : Src) (b : Src)
  | imul (h : Hdr) (ty : Ty) (hi : Bool) (d : BitVec 9) (a : Src) (b : Src)
  | imad (h : Hdr) (ty : Ty) (sat : Bool) (d : BitVec 9) (a : Src) (b : Src) (c : Src)
  | idiv (h : Hdr) (ty : Ty) (rem : Bool) (d : BitVec 9) (a : Src) (b : Src)
  | iabs (h : Hdr) (ty : Ty) (sat : Bool) (d : BitVec 9) (a : Src)
  | imin (h : Hdr) (ty : Ty) (d : BitVec 9) (a : Src) (b : Src)
  | imax (h : Hdr) (ty : Ty) (d : BitVec 9) (a : Src) (b : Src)
  | and (h : Hdr) (ty : Ty) (nb : Bool) (d : BitVec 9) (a : Src) (b : Src)
  | or (h : Hdr) (ty : Ty) (nb : Bool) (d : BitVec 9) (a : Src) (b : Src)
  | xor (h : Hdr) (ty : Ty) (nb : Bool) (d : BitVec 9) (a : Src) (b : Src)
  | shl (h : Hdr) (ty : Ty) (d : BitVec 9) (a : Src) (b : Src)
  | shr (h : Hdr) (ty : Ty) (d : BitVec 9) (a : Src) (b : Src)
  | sar (h : Hdr) (ty : Ty) (d : BitVec 9) (a : Src) (b : Src)
  | rot (h : Hdr) (ty : Ty) (d : BitVec 9) (a : Src) (b : Src)
  | bfe (h : Hdr) (ty : Ty) (d : BitVec 9) (a : Src) (b : Src)
  | bfi (h : Hdr) (ty : Ty) (d : BitVec 9) (a : Src) (b : Src) (c : Src)
  | popc (h : Hdr) (ty : Ty) (d : BitVec 9) (a : Src)
  | clz (h : Hdr) (ty : Ty) (d : BitVec 9) (a : Src)
  | brev (h : Hdr) (ty : Ty) (d : BitVec 9) (a : Src)
  | prmt (h : Hdr) (ty : Ty) (d : BitVec 9) (a : Src) (b : Src) (c : Src)
  | isel (h : Hdr) (ty : Ty) (psel : BitVec 3) (pneg : Bool) (d : BitVec 9) (a : Src) (b : Src)
  | icmp (h : Hdr) (ty : Ty) (cond : ICond) (d : BitVec 3) (a : Src) (b : Src)
  | pset (h : Hdr) (op : PsetOp)
  | vote (h : Hdr) (op : VoteOp) (a : BitVec 3)
  | mov (h : Hdr) (ty : Ty) (d : BitVec 9) (a : Src)
  | movi (h : Hdr) (ty : Ty) (d : BitVec 9) (x : DWord)
  | sreg (h : Hdr) (ty : Ty) (d : BitVec 9) (sel : SregName)
  | lea (h : Hdr) (ty : Ty) (shift : BitVec 4) (d : BitVec 9) (a : Src) (b : Src)
  | fadd (h : Hdr) (ty : Ty) (rm : RMode) (ftz : Bool) (d : BitVec 9) (a : Src) (b : Src)
  | fsub (h : Hdr) (ty : Ty) (rm : RMode) (ftz : Bool) (d : BitVec 9) (a : Src) (b : Src)
  | fmul (h : Hdr) (ty : Ty) (rm : RMode) (ftz : Bool) (d : BitVec 9) (a : Src) (b : Src)
  | ffma (h : Hdr) (ty : Ty) (rm : RMode) (ftz : Bool) (d : BitVec 9) (a : Src) (b : Src) (c : Src)
  | fmin (h : Hdr) (ty : Ty) (num : Bool) (ftz : Bool) (d : BitVec 9) (a : Src) (b : Src)
  | fmax (h : Hdr) (ty : Ty) (num : Bool) (ftz : Bool) (d : BitVec 9) (a : Src) (b : Src)
  | fcmp (h : Hdr) (ty : Ty) (cond : FCond) (ftz : Bool) (d : BitVec 3) (a : Src) (b : Src)
  | fclass (h : Hdr) (ty : Ty) (ftz : Bool) (d : BitVec 9) (a : Src)
  | fdiv (h : Hdr) (ty : Ty) (rm : RMode) (ftz : Bool) (d : BitVec 9) (a : Src) (b : Src)
  | fsqrt (h : Hdr) (ty : Ty) (rm : RMode) (ftz : Bool) (d : BitVec 9) (a : Src)
  | frcp (h : Hdr) (ty : Ty) (ftz : Bool) (d : BitVec 9) (a : Src)
  | frsq (h : Hdr) (ty : Ty) (ftz : Bool) (d : BitVec 9) (a : Src)
  | fexp2 (h : Hdr) (ty : Ty) (ftz : Bool) (d : BitVec 9) (a : Src)
  | flog2 (h : Hdr) (ty : Ty) (ftz : Bool) (d : BitVec 9) (a : Src)
  | fsin (h : Hdr) (ty : Ty) (ftz : Bool) (d : BitVec 9) (a : Src)
  | fcos (h : Hdr) (ty : Ty) (ftz : Bool) (d : BitVec 9) (a : Src)
  | frnd (h : Hdr) (ty : Ty) (rm : RMode) (ftz : Bool) (d : BitVec 9) (a : Src)
  | fscale (h : Hdr) (ty : Ty) (rm : RMode) (ftz : Bool) (d : BitVec 9) (a : Src) (b : Src)
  | fxtr (h : Hdr) (ty : Ty) (man : Bool) (ftz : Bool) (d : BitVec 9) (a : Src)
  | fcvt (h : Hdr) (ty : Ty) (rm : RMode) (ftz : Bool) (sat : Bool) (d : BitVec 9) (a : Src) (sty : Ty)
  | f2i (h : Hdr) (ty : Ty) (rm : RMode) (ftz : Bool) (d : BitVec 9) (a : Src) (sty : Ty)
  | i2f (h : Hdr) (ty : Ty) (rm : RMode) (d : BitVec 9) (a : Src) (sty : Ty)
  | fdot2 (h : Hdr) (ty : Ty) (rm : RMode) (ftz : Bool) (d : BitVec 9) (a : Src) (b : Src) (c : Src)
  | fstat (h : Hdr) (op : FstatOp) (d : BitVec 9)
  | fmode (h : Hdr) (b : Src)
  | dbdec (h : Hdr) (ty : Ty) (rm : RMode) (d : BitVec 9) (a : BitVec 9) (b : Src) (fam : Ty) (slot : BitVec 2)
  | dbenc (h : Hdr) (rm : RMode) (sat : Bool) (d : BitVec 9) (a : BitVec 9) (b : Src)
  | cbld (h : Hdr) (slot : BitVec 2) (a : BitVec 9)
  | cbread (h : Hdr) (slot : BitVec 2) (d : BitVec 9) (b : Src)
  | ncvt (h : Hdr) (ty : Ty) (op : NcvtOp) (d : BitVec 9)
  | bsum (h : Hdr) (ty : Ty) (d : BitVec 9) (a : BitVec 9) (fam : Ty) (slot : BitVec 2)
  | mtask (h : Hdr) (d : BitVec 9) (a : BitVec 9)
  | mtwait (h : Hdr) (d : BitVec 9) (a : Src)
  | mtqry (h : Hdr) (eng : Bool) (d : BitVec 9) (a : Src)
  | mdrain (h : Hdr) (a : Src) (b : Src)
  | mfill (h : Hdr) (a : Src) (b : Src)
  | mfreeze (h : Hdr) (a : Src)
  | mthaw (h : Hdr) (a : Src)
  | rdx (h : Hdr) (ty : Ty) (d : BitVec 9) (a : BitVec 9) (b : Src)
  | wrx (h : Hdr) (ty : Ty) (d : BitVec 9) (a : Src) (b : Src)
  | take (h : Hdr) (ty : Ty) (d : BitVec 9) (a : BitVec 9)
  | give (h : Hdr) (ty : Ty) (d : BitVec 9) (a : Src)
  | tagset (h : Hdr) (st : TagState) (d : BitVec 9) (b : Src)
  | tagq (h : Hdr) (d : BitVec 9) (a : BitVec 9) (n : BitVec 18)
  | wexp (h : Hdr) (rights : Rights) (clus : Bool) (d : BitVec 9) (a : BitVec 9) (b : Src)
  | wrev (h : Hdr) (a : Src)
  | wld (h : Hdr) (ty : Ty) (d : BitVec 9) (a : Src) (b : Src)
  | wst (h : Hdr) (ty : Ty) (a : Src) (b : Src) (c : Src)
  | wtake (h : Hdr) (ty : Ty) (d : BitVec 9) (a : Src) (b : Src)
  | wgive (h : Hdr) (ty : Ty) (a : Src) (b : Src) (c : Src)
  | lnrd (h : Hdr) (ty : Ty) (d : BitVec 9) (a : Src) (b : BitVec 9)
  | lnwr (h : Hdr) (ty : Ty) (d : BitVec 9) (a : Src) (b : Src)
  | mcast (h : Hdr) (ty : Ty) (d : BitVec 9) (a : Src) (b : Src) (c : Src)
  | ldg (h : Hdr) (ty : Ty) (ord : MemOrd) (am : Atomicity) (d : BitVec 9) (a : Src)
  | ldf (h : Hdr) (ty : Ty) (ord : MemOrd) (am : Atomicity) (d : BitVec 9) (a : Src)
  | ldh (h : Hdr) (ty : Ty) (ord : MemOrd) (am : Atomicity) (d : BitVec 9) (a : Src)
  | stg (h : Hdr) (ty : Ty) (ord : MemOrd) (am : Atomicity) (a : Src) (b : Src)
  | stf (h : Hdr) (ty : Ty) (ord : MemOrd) (am : Atomicity) (a : Src) (b : Src)
  | sth (h : Hdr) (ty : Ty) (ord : MemOrd) (am : Atomicity) (a : Src) (b : Src)
  | waitq (h : Hdr) (st : Bool) (b : Src)
  | binit (h : Hdr) (sc : Scope) (d : BitVec 9) (b : Src)
  | barr (h : Hdr) (d : BitVec 9) (a : Src) (b : Src)
  | barrGrp (h : Hdr)
  | bwait (h : Hdr) (a : Src) (b : Src) (c : Src)
  | bxfer (h : Hdr) (out : Bool) (a : Src) (b : Src) (c : Src)
  | fence (h : Hdr) (kind : FenceKind) (sc : Scope)
  | fencesc (h : Hdr)
  | marm (h : Hdr) (op : MarmOp)
  | mwait (h : Hdr) (d : BitVec 9) (b : Src)
  | wbar (h : Hdr) (sc : Scope)
  | hbwait (h : Hdr) (b : Src)
  | atom (h : Hdr) (ty : Ty) (ord : MemOrd) (d : BitVec 9) (a : Src) (b : Src) (op : AtomOp)
  | acas (h : Hdr) (ty : Ty) (ord : MemOrd) (d : BitVec 9) (a : Src) (b : Src) (c : Src)
  | red (h : Hdr) (ty : Ty) (ord : MemOrd) (a : Src) (b : Src) (op : AtomOp)
  | vatom (h : Hdr) (ty : Ty) (ord : MemOrd) (d : BitVec 9) (a : Src) (b : BitVec 9) (op : AtomOp) (nm1 : BitVec 5)
  | fatom (h : Hdr) (ty : Ty) (ord : MemOrd) (d : BitVec 9) (a : Src) (b : Src) (op : AtomOp)
  | atomw (h : Hdr) (ty : Ty) (op : AtomOp) (d : BitVec 9) (a : Src) (b : Src) (c : Src)
  | acopy (h : Hdr) (nm1 : BitVec 6) (sp : Space) (d : BitVec 9) (r : CopyReg) (b : Src) (c : BitVec 9)
  | awrite (h : Hdr) (nm1 : BitVec 6) (sp : Space) (d : BitVec 9) (r : CopyReg) (b : Src) (c : Src)
  | bcopy (h : Hdr) (sp : Space) (d : BitVec 9) (a : Src) (b : BitVec 9) (c : BitVec 9) (x : DWord)
  | bstore (h : Hdr) (sp : Space) (d : BitVec 9) (a : Src) (b : BitVec 9) (c : Src) (x : DWord)
  | acq (h : Hdr) (nt : Bool) (d : BitVec 9) (a : Src)
  | publish (h : Hdr) (a : Src)
  | wopen (h : Hdr) (d : BitVec 9) (a : Src) (c : BitVec 9)
  | launch (h : Hdr) (d : BitVec 9) (a : BitVec 9) (x : DWord)
  | qpush (h : Hdr) (a : Src) (b : BitVec 9)
  | qpop (h : Hdr) (d : BitVec 9) (a : BitVec 9)
  | qpopH (h : Hdr) (d : BitVec 9) (a : BitVec 9)
  | qdepth (h : Hdr) (d : BitVec 9)
  | qsteal (h : Hdr) (d : BitVec 9)
  | lwait (h : Hdr) (d : BitVec 9) (a : Src)
  | hold (h : Hdr) (try_ : Bool) (d : BitVec 9) (a : Src)
  | hfree (h : Hdr) (a : Src)
  | hfreeTask (h : Hdr) (a : Src)
  | heir (h : Hdr) (a : Src) (b : Src)
  | hconvey (h : Hdr) (d : BitVec 9) (a : Src)
  | hconveyAll (h : Hdr) (d : BitVec 9)
  | prom (h : Hdr) (d : BitVec 9) (a : Src)
  | keep (h : Hdr) (ty : Ty) (a : Src) (b : Src)
  | pwait (h : Hdr) (d : BitVec 9) (a : Src)
  | estq (h : Hdr) (d : BitVec 9) (a : Src)
  | estqRec (h : Hdr) (d : BitVec 9) (a : Src)
  | sibpost (h : Hdr) (d : BitVec 9) (a : Src)
  | sibq (h : Hdr) (d : BitVec 9)
  | sibwait (h : Hdr) (d : BitVec 9)
  | sibacct (h : Hdr) (d : BitVec 9)
  | kvcopy (h : Hdr) (nm1 : BitVec 4) (d : BitVec 9) (a : BitVec 9) (b : Src) (c : BitVec 9)
  | pgalloc (h : Hdr) (t : Bool) (d : BitVec 9)
  | pgfree (h : Hdr) (t : Bool) (d : BitVec 9) (a : Src)
  | pgref (h : Hdr) (t : Bool) (d : BitVec 9) (a : Src)
  | tierin (h : Hdr) (nm1 : BitVec 4) (d : BitVec 9) (b : Src) (c : BitVec 9)
  | tierq (h : Hdr) (d : BitVec 9) (b : Src) (c : Src)
  | invr (h : Hdr) (a : Src) (b : Src) (c : Src)
  | invwait (h : Hdr)
  | srd (h : Hdr) (ty : Ty) (d : BitVec 9) (reg : SysReg)
  | srdLogPop (h : Hdr) (ty : Ty) (d : BitVec 9) (reg : LogReg)
  | swr (h : Hdr) (ty : Ty) (reg : SysReg) (b : Src)
  | swrLogClear (h : Hdr) (ty : Ty) (reg : LogReg) (b : Src)
  | swrMgnInj (h : Hdr) (ty : Ty) (b : Src)
  | syscall (h : Hdr) (b : Src)
  | halt (h : Hdr) (b : Src)
  | quar (h : Hdr) (a : Src)
  | ckcut (h : Hdr) (d : BitVec 9) (a : Src)
  | ckwait (h : Hdr) (d : BitVec 9) (a : Src)
  | evpop (h : Hdr) (d : BitVec 9)
  | evwait (h : Hdr) (d : BitVec 9) (b : Src)
  | csave (h : Hdr) (whole : Bool) (d : BitVec 9) (a : Src) (b : Src) (c : Src)
  | pairMov (a : Half) (b : PairHalf)
  | pairIadd (a : Half) (b : PairHalf)
  | pairIsub (a : Half) (b : PairHalf)
  | pairImul (a : Half) (b : PairHalf)
  | pairImin (a : Half) (b : PairHalf)
  | pairImax (a : Half) (b : PairHalf)
  | pairAnd (a : Half) (b : PairHalf)
  | pairOr (a : Half) (b : PairHalf)
  | pairXor (a : Half) (b : PairHalf)
  | pairShl (a : Half) (b : PairHalf)
  | pairShr (a : Half) (b : PairHalf)
  | pairSar (a : Half) (b : PairHalf)
  | pairRot (a : Half) (b : PairHalf)
  | pairFadd (a : Half) (b : PairHalf)
  | pairFsub (a : Half) (b : PairHalf)
  | pairFmul (a : Half) (b : PairHalf)
  | pairFmin (a : Half) (b : PairHalf)
  | pairFmax (a : Half) (b : PairHalf)
  | pairMovi (a : Half) (b : PairHalf)
  | pairIaddImm (a : Half) (b : PairHalf)
  | pairAndImm (a : Half) (b : PairHalf)
  | pairShlImm (a : Half) (b : PairHalf)
  | pairShrImm (a : Half) (b : PairHalf)
  | pairSarImm (a : Half) (b : PairHalf)
  | pairRotImm (a : Half) (b : PairHalf)
  | loadArrival (id : Nat)
  | storePerformed (vgid : Nat)
  | sleepWake (t : Tid)
  | mwaitTimeout (t : Tid)
  | evwaitTimeout (t : Tid)
  | windowWaitTimeout (id : Nat)
  | windowAccessComplete (id : Nat)
  | wrevDrainEnd (t : Tid)
  | gangRelaunch (gang : Nat)
  | groupRetire (vgid : Nat)
  | kernelComplete (k : Nat)
  | phaseStart (gang : Nat) (others : Nat)
  | preemptHandlerTimeout (t : Tid)
  | contextSave (vgid : Nat)
  | contextRestore (vgid : Nat) (core : Nat)
  | marginStepRise (core : Nat)
  | marginSettleEnd (core : Nat)
  | replayWindowEnd (core : Nat)
  | escalationWindowEnd (core : Nat)
  | ceRequestStart (cl : Nat) (seq : Nat)
  | ceWordArrival (cl : Nat) (seq : Nat) (j : Nat)
  | ceLoss (cl : Nat) (seq : Nat) (j : Nat)
  | wopenGranuleCopy (cl : Nat) (seq : Nat) (j : Nat)
  | publishExchange (t : Tid)
  | seAtomicApply (id : Nat)
  | redAccept (vgid : Nat)
  | redApply (id : Nat)
  | mtTaskReady (cl : Nat) (seq : Nat)
  | pcHashDisplace (core : Nat)
  | mtDispatch (cl : Nat) (seq : Nat)
  | mtComputeEnd (cl : Nat) (eng : Nat)
  | mtChecksum (cl : Nat) (eng : Nat) (upset : Bool)
  | mtWritebackEnd (cl : Nat) (eng : Nat)
  | launchRecordTake (dev : Bool) (src : Nat) (q : Nat)
  | waitListCheck (part : Nat) (n : Nat)
  | gangPlace (gang : Nat)
  | priorityAging (gang : Nat)
  | schedPreempt (gang : Nat)
  | gangSteal (cl : Nat) (victim : Nat)
  | queueDepthExchange (cl : Nat)
  | cellarRefill (core : Nat)
  | wbarRoomSave (gang : Nat)
  | invrAck (id : Nat)
  | pageIn (id : Nat)
  | cancelSignal (vgid : Nat)
  | collComplete (fn : Nat) (ins : (List (List Byte)))
  | cutTick (part : Nat)
  | cutGranuleCopy (part : Nat) (addr : Nat)
  | resultArrival (id : Nat)
  | heartbeatTick
  | mtReadyAging (cl : Nat) (seq : Nat)
  | preemptRequest (cl : Nat) (mask : Nat)
  | instructionReplay (core : Nat) (late : Bool) (again : Nat)
  | lqTailWrite (fn : Nat) (q : Nat) (v : DWord)
  | meshRouteRecompute (die : Nat)
  | hostMemWrite (addr : Nat) (data : (List Byte))
  | hostMemRead (addr : Nat) (n : Nat)
  | hostSnoop (addr : Nat)
  | vfCfgWrite (v : Nat) (x : DWord)
  | partitionTableWrite (p : Nat) (off : Nat) (x : DWord)
  | clholdClear (cl : Nat) (x : DWord)
  | registerWrite (fn : Nat) (off : Nat) (x : DWord)
  | getVersion
  | getCapabilities
  | negotiateAlgorithms (algs : Nat)
  | getDigests
  | getCertificate (off : Nat) (n : Nat)
  | challenge (nonce : Nat)
  | getMeasurements (idx : Nat)
  | keyExchange (id : Nat)
  | finish (id : Nat) (ok : Bool)
  | endSession (id : Nat)
  | lockInterfaceRequest (v : Nat)
  | startInterfaceRequest (v : Nat) (nonce : Nat)
  | stopInterfaceRequest (v : Nat)
  | ideFailure (v : Nat)
  | collAllReduce (fn : Nat)
  | collReduceScatter (fn : Nat)
  | collAllGather (fn : Nat)
  | collBroadcast (fn : Nat)
  | collBarrier (fn : Nat)
  | collAbort (fn : Nat)
  | abortToken (fn : Nat) (comm : Nat) (attempt : Nat)
  | powerOn
  | telemetry
  | powerSet
  | coreReset
  | history
  | imageWrite
  | packageReset
  | stateExport
  | stateImport
  | powerSample (watts : Nat) (temps : (List Nat))
  | lifetimeWrite
  | remoteHouseAccess (key : Nat) (addr : Nat) (n : Nat) (data : (Option (List Byte)))
  | functionReset (fn : Nat)
  | powerLoss
  | memoryScrub (addr : Nat) (bad : Nat)
  | translationCacheEviction (unit : Nat) (n : Nat)
  deriving DecidableEq, Repr

end Sys2Proof
end

