-- ==== Sys2Proof/Machine/State.lean ====
section
/-!
DEFINITION. The state of the machine as plain data, every piece the spec names (INVENTORY.md, State), and the
state after reset (R436). A field's default is its reset value; the log entry that chose it is named where the
spec gives none.
-/
namespace Sys2Proof.Machine

/-- A table keyed by number; an absent key reads as the default its reader names. -/
abbrev Tab (α : Type) := List (Nat × α)

/-- R39. -/
inductive Tag where
  | empty | full | pend | poison
  deriving DecidableEq, Repr

/-- A register word: its value and its tag (R38). -/
structure RegWord where
  val : Word := 0
  tag : Tag := .empty
  deriving DecidableEq, Repr

/-- A bypass latch with its producer record: address and issue sequence number (R67). -/
structure Latch where
  val : DWord := 0
  valid : Bool := false
  prod : Option (DWord × Word) := none
  deriving DecidableEq, Repr

/-- The retained entry: the register index and the words read from it (R70, log 11). -/
structure Retained where
  idx : Nat
  words : List Word
  deriving DecidableEq, Repr

/-- An armed monitor (R138): a 64-byte granule by physical address, or a register word of a thread; `spill` where its entry lies in the
forerunner table (R324). -/
structure Monitor where
  fired : Bool
  window : Bool
  addr : Nat
  owner : Tid
  reg : Nat
  spill : Bool := false
  deriving DecidableEq, Repr

/-- The link of a promise pair to its copy request (R235, R272). -/
structure Link where
  pair : Nat
  cl : Nat
  seq : Nat
  deriving DecidableEq, Repr

/-- The group-collective instruction a thread has arrived at (R28). -/
inductive CollKind where
  | vote (op : VoteOp) (nw : Bool)
  | barr
  | wbar (sc : Scope)
  deriving DecidableEq, Repr

/-- What a WAITING thread waits for. `retry` reissues (wait kind 1 of R268); the others hold the absolute cycle,
tick or request they wait for (kinds 2 to 5). `window` is a retry whose PEND window words stand in State.accs as probes (R46, R49), `header` one that has read its record's header (R368), `freeze` an MFREEZE that has asked
for its freeze (R221). `promised` is a SLEEP.P before its promised cycle, and `slept`
one after it, with whether its request had not ended then (R107, R236). `posted` is an EVWAIT whose post has come, or a BWAIT whose generation has ended
(R312, R131), and `invr` an INVR that waits for the oldest of eight (R372). `barrier`, `arrive` and `promise` are kind 1 too, and name what they wait on: `arrive` is a deferred arrival, and
`counted` one that a new generation has counted (R131); `ballot` is a VOTE.ballot whose result waits for a PEND word (R40);
`kept` is a PWAIT whose promise has ended, with the word that ended it (R386, R408); `tags` is
a TAGSET held at a PEND word (R115), and `csave` a CSAVE with the number of groups it has saved and those still to be saved (R306). -/
inductive Wait where
  | none
  | retry
  | access (id : Nat)
  | wrev (core slot : Nat)
  | fence (kind : FenceKind) (sc : Scope)
  | fencesc (mark core : Nat) (tick : Option Nat)
  | publish (mark : Nat) (inv : Option Nat)
  | window
  | sleep (cyc : Nat)
  | promised (cyc pair : Nat)
  | slept (cyc : Nat) (miss : Bool)
  | mwait (cyc d : Nat)
  | evwait (cyc d : Nat)
  | posted
  | header (ws : List Word)
  | freeze
  | hbt (tick : Nat)
  | barrier (o : Tid) (reg : Nat)
  | arrive (o : Tid) (reg : Nat)
  | counted (gen : Nat)
  | ballot (r : DWord)
  | promise (addr : Nat)
  | kept (x : DWord)
  | coll (k : CollKind) (contrib : Option Bool)
  | phase (sc : Scope)
  | vatom (id : Nat)
  | hold (id : Nat)
  | tags (next : Nat)
  | csave (n : Nat) (vs : List Nat)
  | invr (id : Nat)
  deriving DecidableEq, Repr

/-- R23; SAVED is a property of the thread's group. -/
inductive ThState where
  | ready | waiting | exited
  deriving DecidableEq, Repr

/-- A thread (R15, R23, R67, R70, R80, R172, R257). `regs` holds V[0..R-1] and, from R on, the handler bank; accesses numbered below
`moved` were issued before the thread last moved (R144), and those of other threads of its core below `seen` before it last saw, or let
another see, a register word that both reach (R152, log 86). `ecc` lists the words whose check bits disagree with value and tag: a single-bit error, or with
`true` an uncorrectable one (R38, R288, log 76). `replays` is the replay count, with its PC, that the instruction of a replay notice keeps
(R284, R285). -/
structure Thread where
  st : ThState := .ready
  wait : Wait := .none
  pc : DWord := 0
  sys : Bool := false
  preds : BitVec 8 := 0x80
  fcw : Word := 0
  latches : Tab Latch := []
  retained : Option Retained := none
  iseq : Word := 0
  ready : Nat := 0
  regs : Tab RegWord := []
  links : List Link := []
  monitor : Option Monitor := none
  invrs : List Nat := []
  resuming : Bool := false
  vdone : Word := 0
  stopped : Bool := false
  noticed : Bool := false
  moved : Nat := 0
  seen : Nat := 0
  ecc : List (Nat × Bool) := []
  replays : Option (DWord × Nat) := none
  deriving DecidableEq, Repr

/-- A codebook slot (R166). -/
structure Codebook where
  loaded : Bool := false
  entries : List (BitVec 16) := List.replicate 16 0
  deriving DecidableEq, Repr

/-- A reduction as the store queue and the SE hold it (R339). -/
structure RedOp where
  op : AtomOp
  ty : Ty
  val : DWord
  deriving DecidableEq, Repr

/-- A store-queue entry: the pieces still to be performed, in address order, or a reduction (R122, R339). `overtaken` marks one that a
later atomic of its thread has passed (log 5), `after` is the number below which the accesses of other threads of its core stand before it (R152, log 86), and `bad` one whose own data has an uncorrectable error (R291). -/
structure StoreEntry where
  id : Nat
  tid : Tid
  va : Nat
  asid : Nat
  size : Nat
  pieces : List (Nat × List Byte)
  rel : MemOrd
  red : Option RedOp
  overtaken : Bool := false
  after : Nat := 0
  bad : Bool := false
  deriving DecidableEq, Repr

/-- The running account of a sibling (R393). -/
structure SibRec where
  issue : Nat := 0
  engine : Nat := 0
  bytes : Nat := 0
  pages : List Nat := []
  deriving DecidableEq, Repr

/-- Where a saved group's image lies, and the shape it was saved with (R240, R267, R270). -/
structure SavedAt where
  base : Nat
  pool : Bool
  regOff : Nat := 0
  tagOff : Nat := 0
  cyc : Nat := 0
  whole : Bool := false
  deriving DecidableEq, Repr

/-- A group (R17-R22, R122, R166, R303, R382). `stop` is the cycle at which a request to vacate its core reached it, and
`area` the save area CSAVE gave it (R265, R306). -/
structure Group where
  gang : Nat
  gidx : Nat
  core : Nat
  lane0 : Nat := 0
  bases : List Nat := []
  saved : Option SavedAt := none
  cbs : Tab Codebook := []
  queue : List StoreEntry := []
  created : Word := 0
  evBase : Nat := 0
  evPhys : Nat := 0
  stop : Option Nat := none
  conveying : Bool := false
  area : Option SavedAt := none
  deriving DecidableEq, Repr

/-- Where a gang stands between acceptance and retirement (R22, R325, R35). -/
inductive GangSt where
  | pending | placed | ended
  deriving DecidableEq, Repr

/-- A gang (R22, R30, R277, R325, R397). `signal` holds the index of a cancellation signal on its way,
`cancel` that of a pending cancellation; `killed` whether the gang has been killed, and whether finally; `slotCores` the cores on which
the window slots of its groups are reserved (R324); `room` whether it waits at a WBAR and was saved to make room (R328). `created` keeps the
creation counter of a group that is gone (R382), and `inbox` the inbox, EV_BASE and where it lies, of each of its groups that awaits a relaunch
(R277, R309); `sib` is its sibling record (R393). -/
structure Gang where
  kernel : Nat
  idx : Nat
  st : GangSt := .pending
  die : Nat := 0
  cl : Nat := 0
  since : Nat := 0
  boost : Nat := 0
  groups : List Nat := []
  phase : Nat := 0
  relaunches : Nat := 0
  signal : Option Nat := none
  cancel : Option Nat := none
  killed : Option Bool := none
  created : Tab Word := []
  inbox : Tab (Nat × Nat) := []
  sib : SibRec := {}
  slotCores : List Nat := []
  room : Bool := false
  deriving DecidableEq, Repr

/-- The first final kill of a kernel, as its completion record carries it (R261, R323). -/
structure KillInfo where
  cause : Nat
  pc : DWord
  addr : DWord
  info : Word
  deriving DecidableEq, Repr

/-- Who ran the launch (R383). -/
inductive Parent where
  | host
  | group (vgid : Nat)
  deriving DecidableEq, Repr

/-- STATE of a completion record (R323). -/
inductive KState where
  | pending | running | ended
  deriving DecidableEq, Repr

/-- An accepted kernel and its retained launch record, whose copy in device memory stands at `record` (R319, R323); `code` is memory as it stood at its acceptance, of which an
instruction cache may still give a word (R76). -/
structure Kernel where
  words : List Word
  code : List Host.Cell := []
  parent : Parent := .host
  fn : Nat := 0
  order : Nat := 0
  st : KState := .pending
  kill : Option KillInfo := none
  halted : Bool := false
  hstatus : Word := 0
  rfault : Option (DWord × Word) := none
  relaunches : Nat := 0
  cycStart : Nat := 0
  scopes : List (Nat × Scope) := []
  ballot : Option (Nat × Nat) := none
  record : Nat := 0
  irq : Bool := false
  deriving DecidableEq, Repr

/-- A window slot's descriptor (R49); INFLIGHT is the number of accepted accesses that name the slot. -/
structure Slot where
  owner : Tid := ⟨0, 0, 0⟩
  vf : Nat := 0
  part : Nat := 0
  opened : Bool := false
  world : Bool := false
  clus : Bool := false
  rights : Rights := ⟨false, false, false, false⟩
  gen : Nat := 0
  base : Nat := 0
  lenm1 : Nat := 0
  deriving DecidableEq, Repr

/-- A key of the PC hash table (R24). -/
structure PcKey where
  pc : DWord
  asid : Nat
  world : Bool
  sys : Bool
  deriving DecidableEq, Repr

/-- An entry of a task queue (R315, R329, R392). -/
structure QEntry where
  key : Nat
  kernel : Nat
  words : List Word
  bereaved : Bool := false
  deriving DecidableEq, Repr

/-- An entry of a core's remap table (R240); one that is listed is VALID, and none is RESTORING between two steps (log 78). -/
structure Remap where
  restoring : Bool := false
  vgid : Nat
  lane0 : Nat
  nlm1 : Nat
  word0 : Nat
  nwm1 : Nat
  sabase : Nat
  deriving DecidableEq, Repr

/-- A core (R24, R49, R240, R280-R284, R329). `refill` holds the refills under way, each for the kernel whose pop waits for it or, none,
for a chip that fell to 48 entries. `calm` is the cycle since which nothing has been replayed, `rise` the one by which a
rise of STEP settles, `settle` the one until which a step-back lets nothing issue; `winNo` and `escNo` number the windows in
which WINCNT and BACKCNT count; `last` is the issue group last formed. `injPc` is the PC of
an injection's target, and `doom` a dispatch fault that strikes once the issue group has issued (R287). -/
structure Core where
  slots : Tab Slot := []
  table : Tab PcKey := []
  waitKeys : List (PcKey × Nat) := []
  slot : List Tid := []
  free : Nat := 0
  mgnCtl : DWord := 0x0000008214404000
  rtotal : Nat := 0
  wincnt : Nat := 0
  backcnt : Nat := 0
  quar : Bool := false
  settle : Nat := 0
  step : Nat := 0
  mgnInj : DWord := 0x0100000000000000
  injSeen : Nat := 0
  injLeft : Nat := 0
  injPc : DWord := 0
  doom : Bool := false
  mgnLog : List DWord := []
  calm : Nat := 0
  nrep : Nat := 0
  mismatch : Bool := false
  winNo : Nat := 0
  escNo : Nat := 0
  rise : Nat := 0
  last : List Tid := []
  onchip : List QEntry := []
  cellar : List QEntry := []
  refill : List (Option Nat) := []
  remap : Tab Remap := []
  deriving DecidableEq, Repr

/-- A region of a copy or a tile task (R187), resolved: the group, the layer, the first register and the length. -/
structure Region where
  vgid : Nat
  layer : Nat
  base : Nat
  len : Nat
  handle : Word
  deriving DecidableEq, Repr

/-- One item of a copy request: where its bytes come from and where they go (R247-R249, R348). `kept` is an element of a
2:4 unit (R233); the pieces of a memory destination are (address, bytes). -/
inductive CeSrc where
  | mem (va : Nat) (n : Nat)
  | bytes (b : List Byte)
  | win (h : Word) (t : Tid) (r : Nat)
  | reg (t : Tid) (r : Nat)
  | kept (unit g pos e : Nat)
  deriving DecidableEq, Repr

inductive CeDst where
  | claim (t : Tid) (r : Nat)
  | win (h : Word) (t : Tid) (r : Nat)
  | mem (ps : List (Nat × Nat))
  | drop
  /-- No word: a KVCOPY starts the page-in of a far entry, by index, block and position, or joins it (R348). -/
  | page (i block j : Nat)
  deriving DecidableEq, Repr

structure CeItem where
  src : List CeSrc
  dst : CeDst
  done : Bool := false
  since : Option Nat := none
  deriving DecidableEq, Repr

/-- What a request does, as its instruction gave it. -/
inductive CeKind where
  | acopy | awrite | bcopy | bstore | kvcopy | tierin | wopen
  deriving DecidableEq, Repr

/-- The stamp of a request (R149, R244). -/
inductive StampTo where
  | none
  | pair (t : Tid) (r : Nat)
  | mem (va : Nat)
  deriving DecidableEq, Repr

/-- States of R228. -/
inductive CeState where
  | accepted | running | ended | cancelled
  deriving DecidableEq, Repr

/-- A copy-engine request (R228-R237). `record` is the layout record's address, or the KV record's; `args` holds the
operands it reads when it starts; `rest` the claimed words of a bulk fill with the tags they had; `barriers` the barrier objects it is attached to, `total` its destination bytes once they
are known, and `counted` those counted down (R134, R237). -/
structure CeReq where
  seq : Nat
  kind : CeKind
  tid : Tid
  space : Space
  asid : Nat
  part : Nat
  vf : Nat
  pf : Bool
  world : Bool
  house : Nat
  st : CeState := .accepted
  va : Nat := 0
  record : Nat := 0
  args : List Word := []
  region : Option Region := none
  rest : List (Tid × Nat × Tag) := []
  items : List CeItem := []
  stamp : StampTo := .none
  own : Bool := false
  reason : Nat := 0
  fault : Bool := false
  first : Nat := 0
  barriers : List (Tid × Nat × Bool) := []
  total : Option Nat := none
  counted : Nat := 0
  order : Nat := 0
  short : Option Nat := none
  deriving DecidableEq, Repr

/-- Task states (R184, R220). -/
inductive MtState where
  | queued | ready | running | frozen | checking | writing | done | faulted | cancelled
  deriving DecidableEq, Repr

/-- A tile task (R184-R200). `home` is the cluster of its ticket; `cb` and `loaded` the codebook slot copied by MTASK; `lost` the
claimed C words that held POISON when they were claimed; `since` the PEND window word it waits for, and since when (R46); `kept` the index
list and the codebook as they were before MFILL loaded those of an image (R199, R221); `filled` whether the index list, the shape record and the initial C have
been read; `freeze` a freeze asked for while it checks or writes; `bad` whether its checksum will fail; `wrote` the C words
written back. -/
structure MtTask where
  home : Nat
  seq : Nat
  order : Nat
  tid : Tid
  kernel : Nat
  words : List Word
  regions : List Region
  cb : List (BitVec 16) := []
  loaded : Bool := false
  lost : List (Tid × Nat) := []
  st : MtState := .queued
  ready : Nat := 0
  aged : Bool := false
  filled : Bool := false
  since : Option (Tid × Nat × Nat) := none
  kept : Option (List Nat × List (BitVec 16)) := none
  freeze : Bool := false
  replayed : Bool := false
  knext : Nat := 0
  rows : List Nat := []
  shape : List Word := []
  c0 : List DWord := []
  shadow : List Word := []
  acc : List DWord := []
  bad : Bool := false
  wrote : Nat := 0
  flags : BitVec 6 := 0
  deriving DecidableEq, Repr

/-- A matrix engine: whether it is frozen, and its task by home cluster and sequence number. -/
structure Engine where
  frozen : Bool := false
  task : Option (Nat × Nat) := none
  deriving DecidableEq, Repr

/-- A cluster: its copy engine and its matrix task scheduler (R184, R228, R330); `xchg` numbers the last boundary at which its cores
exchanged their queue depths (R331). -/
structure Cluster where
  ceSeq : Nat := 0
  ce : List CeReq := []
  mtSeq : Nat := 0
  mt : List MtTask := []
  stamps : Tab (MtState × DWord) := []
  engines : Tab Engine := []
  hold : BitVec 24 := 0
  xchg : Nat := 0
  deriving DecidableEq, Repr

/-- A load in its decoupling queue (R122, R123): the pieces not yet sampled and the bytes sampled. -/
structure Load where
  id : Nat
  tid : Tid
  dst : Nat
  ty : Ty
  va : Nat
  asid : Nat
  pieces : List (Nat × Nat)
  got : List Byte := []
  lost : Option Nat := none
  acq : MemOrd := .relaxed
  overtaken : Bool := false
  after : Nat := 0
  deriving DecidableEq, Repr

/-- A claimed result on its way (R42, R174): the words it writes and the flags it sets. -/
structure Result where
  id : Nat
  tid : Tid
  writes : List (Nat × Word)
  flags : BitVec 6 := 0
  float : Bool := false
  deriving DecidableEq, Repr

/-- The kinds of access that reach another thread's word (R118-R120, R342); `probe` is a word that AWRITE, MDRAIN or MFILL waits for in a
window (R248, R221). -/
inductive WinKind where
  | wld | wst | wtake | wgive | lnrd | lnwr
  | atomw (op : AtomOp) (signed : Bool)
  | mcast (parent : Nat)
  | probe
  deriving DecidableEq, Repr

/-- A window or lane access that has been accepted and not completed (R46, R54, R118). `waiting` marks one that has
found its word not ready; `ended` holds the fault (cause, address, information) with which it ends. -/
structure WinAcc where
  id : Nat
  kind : WinKind
  tid : Tid
  slot : Option (Nat × Nat)
  owner : Tid
  reg : Nat
  n : Nat
  vals : List Word
  dst : Nat
  handle : Word
  off : Nat
  since : Option Nat := none
  waiting : Bool := false
  overtaken : Bool := false
  after : Nat := 0
  ended : Option (Nat × Nat × Word) := none
  deriving DecidableEq, Repr

/-- A multicast under way (R120): `timedOut` is the reason with which a delivery ended, at the offset `off` (R52). -/
structure Mcast where
  id : Nat
  tid : Tid
  dst : Nat
  handle : Word
  left : Nat
  n : Nat := 0
  timedOut : Option Nat := none
  off : Nat := 0
  next : DWord
  deriving DecidableEq, Repr

/-- Memory metadata of a granule (R290, R291). -/
inductive Gran where
  | badCrc | poisoned | uncorrectable
  deriving DecidableEq, Repr

/-- What an SE atomic does with its old value (R337, R341). -/
inductive AtomKind where
  | op (o : AtomOp)
  | cas
  | vatom (i n : Nat) (o : AtomOp)
  deriving DecidableEq, Repr

/-- An atomic on its way to its SE (R337). For VATOM, `vals` holds the operands of its elements as read at issue (R341), and `nw` says
that its old values are not written (R58). With `live` false its issuer's group has ended, and its old value is discarded (R34).
`got` is the old value, and what its granule's check gave, of an element that has been applied and waits for its register word (R40, R341). -/
structure Atomic where
  id : Nat
  tid : Tid
  kind : AtomKind
  ty : Ty
  va : Nat
  asid : Nat
  addr : Nat
  b : DWord
  c : DWord
  dst : Nat
  ord : MemOrd
  vals : List Word := []
  live : Bool := true
  overtaken : Bool := false
  after : Nat := 0
  nw : Bool := false
  got : Option (Nat × Option Gran) := none
  deriving DecidableEq, Repr

/-- A reduction the SE has accepted (R339). -/
structure Red where
  id : Nat
  tid : Tid
  kernel : Nat
  va : Nat
  asid : Nat
  part : Nat
  world : Bool
  r : RedOp
  ord : MemOrd := .relaxed
  after : Nat := 0
  deriving DecidableEq, Repr

/-- A HOLD waiting in an SE's queue, with its reserved estate entry: its index, and whether it lies in the forerunner table (R403, R324). -/
structure HoldWait where
  id : Nat
  tid : Tid
  addr : Nat
  va : Nat
  dst : Nat
  seq : Word
  idx : Nat := 0
  spill : Bool := false
  deriving DecidableEq, Repr

/-- A translation that a copy-engine request holds for one 64 KiB page of its reads or of its writes, until it has done what it has to do there
(R359, R360, log 88); `req` is the request's order plus one, `phys` the page's physical address. -/
structure Piece where
  req : Nat
  part : Nat
  asid : Nat
  page : Nat
  write : Bool
  run : Nat := 0
  phys : Nat
  deriving DecidableEq, Repr

/-- An invalidation under way (R360, R372), with the numbers of the accesses that translated before it. -/
structure Inv where
  id : Nat
  tid : Option Tid
  part : Nat
  asid : Nat
  lo : Nat
  hi : Nat
  after : List Nat
  held : List Piece := []
  deriving DecidableEq, Repr

/-- States of a tier-tracker entry (R363). -/
inductive TierSt where
  | inflight | done
  | faulted (reason : Nat)
  deriving DecidableEq, Repr

/-- A tier-tracker entry with its page-in's operands and the posts it owes (R349, R363). -/
structure Tracker where
  id : Nat
  record : Nat
  k : Nat
  st : TierSt
  ord : Nat
  asid : Nat
  vf : Nat
  world : Bool
  src : Nat
  dst : Nat
  bytes : Nat
  flag : Nat
  posts : List (Nat × DWord × Nat)
  cl : Nat
  pf : Bool := false
  deriving DecidableEq, Repr

/-- A barrier-table entry (R128). The object is V[reg] to V[reg + 3] of the owner; ABSENT is whether its group is SAVED, and
WAITERS the threads whose wait is this object. -/
structure Barrier where
  die : Nat
  owner : Tid
  reg : Nat
  scope : Scope
  spill : Bool := false
  deriving DecidableEq, Repr

/-- Estate kinds and heir kinds (R381, R319). -/
inductive EstKind where
  | lock | promise | task
  deriving DecidableEq, Repr
inductive HeirKind where
  | none | vgid | parent | host
  deriving DecidableEq, Repr

/-- An estate entry (R381). `holder` none is the host; `arr` orders the conveyed holdings (R382); `va` is the word's virtual
address, as a KIND 0x01 post carries it (R311); `fn` the function that owns the creator's launch. WAITERS is the number of
threads whose wait is this word. -/
structure Est where
  die : Nat
  idx : Nat
  kind : EstKind
  bereaved : Bool := false
  rsvd : Option Nat := none
  hkind : HeirKind
  heir : Nat
  holder : Option Nat
  creator : Nat
  fn : Nat
  vf : Nat
  part : Nat
  world : Bool
  links : Nat := 0
  seq : Word
  addr : Nat
  va : Nat := 0
  qcore : Nat := 0
  arr : Nat := 0
  claim : Option QEntry := none
  spill : Bool := false
  deriving DecidableEq, Repr

structure BallotSlot where
  hash : DWord
  count : Nat
  firstIdx : Nat
  firstTick : Nat
  deriving DecidableEq, Repr

/-- A sibling ballot (R393). -/
structure Ballot where
  die : Nat
  idx : Nat
  kernel : Nat
  part : Nat
  sibn : Nat
  quorum : Nat
  verdict : Bool := false
  closed : Bool := false
  noVerdict : Bool := false
  overflow : Nat := 0
  vhash : DWord := 0
  slots : List BallotSlot := []
  baseTick : Nat := 0
  posted : BitVec 64 := 0
  counted : BitVec 64 := 0
  cancel : BitVec 64 := 0
  ended : BitVec 64 := 0
  cancelled : Nat := 0
  late : Nat := 0
  issue : Nat := 0
  engine : Nat := 0
  bytes : Nat := 0
  recBase : Nat := 0
  deriving DecidableEq, Repr

/-- A cached translation (R359), with the address of the leaf entry it copies. -/
structure TlbEntry where
  part : Nat
  asid : Nat
  va : Nat
  size : Nat
  leaf : DWord
  wings : Nat
  src : Nat := 0
  deriving DecidableEq, Repr

/-- A host launch queue (R320). `stuck` is set by a TAIL too far ahead, until EN is cleared. -/
structure Lq where
  stuck : Bool := false
  en : Bool := false
  err : Bool := false
  errcode : Nat := 0
  irq : Bool := false
  log2n : Nat := 4
  base : Nat := 0
  head : Word := 0
  tail : Word := 0
  deriving DecidableEq, Repr

/-- A collective descriptor being run (R426-R428). -/
structure Coll where
  op : Nat
  ty : Nat
  redop : Nat
  attempt : Nat
  comm : Nat
  count : Nat
  root : Nat
  src : Nat
  dst : Nat
  stamp : Nat
  seq : Nat
  deriving DecidableEq, Repr

/-- A function: 0 the PF, v + 1 the VF v (R320, R330, R364, R417-R428, R292, R398). -/
structure Fn where
  en : Bool := false
  tdisp : Nat := 0
  world : Bool := false
  part : Nat := 0
  asid : Nat := 0
  lq : Tab Lq := []
  heqEn : Bool := false
  heqDropped : Nat := 0
  heqLog2n : Nat := 4
  heqBase : Nat := 0
  heqHead : Word := 0
  heqTail : Word := 0
  counts : Tab Nat := []
  cIssue : Nat := 0
  cEngine : Nat := 0
  cBytes : Nat := 0
  collBase : DWord := 0
  comm : Tab DWord := []
  cur : Tab Nat := []
  collSeq : Nat := 0
  colls : List Coll := []
  weight : Nat := 1
  served : Tab Nat := []
  kvqUsed : Nat := 0
  kvqQuota : Nat := 0xFFFFFFFF
  fltLog : List DWord := []
  msix : List Nat := []
  deriving DecidableEq, Repr

/-- A record the front of house holds in a wait list (R326) or a device launch queue (R344), with the claimed word that
LAUNCH awaits. -/
structure LaunchReq where
  words : List Word
  fn : Nat
  parent : Parent
  irq : Bool
  order : Nat
  ret : Option (Tid × Nat) := none
  deriving DecidableEq, Repr

/-- One granule of a cut: the leaf entry it belongs to, its ASID, virtual and physical address (R429, R432). -/
structure CutItem where
  leafAt : Nat
  asid : Nat
  va : Nat
  phys : Nat
  done : Bool := false
  deriving DecidableEq, Repr

/-- The partition's cut under way (R429-R432), with the destination and the other fields of CK_CTL as its CKCUT found them; `saves` are the groups whose save areas are still to be written (R431). -/
structure Cut where
  tick : Nat
  ticked : Bool := false
  dest : Nat
  asidsel : Nat
  sel : Nat := 0
  no : Nat := 0
  regs : Bool
  at_ : Nat := 0
  seqno : Nat := 0
  items : List CutItem := []
  saves : List Nat := []
  deriving DecidableEq, Repr

/-- A partition (R303, R330, R364, R421). `cut` is the cut under way or, of those accepted, the one whose tick comes next, `later` the others by
tick, `latest` the tick and the number of the last accepted, and `lastCut` its outcome once it has one (R307, R308, log 46). `pins` are the runs of its device memory that the device itself holds: inboxes, retained records
and save areas (R309, R323, R270, log 67). -/
structure Part where
  clu : DWord := 0
  sec : DWord := 0
  mems : Tab DWord := []
  asidDir : DWord := 0
  houseKey : Word := 0
  qctl : Word := 0x08001000
  frtBase : DWord := 0
  frtSize : Word := 0
  savePool : DWord := 0
  saveSize : Word := 0
  kvpCtl : Word := 0x00A00000
  kvpVa : DWord := 0
  kvpCnt : DWord := 0
  ckCtl : DWord := 0
  ckActive : Bool := false
  ckFault : Bool := false
  ckNo : Nat := 0
  cut : Option Cut := none
  later : List Cut := []
  latest : Option (Nat × Nat) := none
  lastCut : Option Bool := none
  tracker : List Tracker := []
  waits : List LaunchReq := []
  devq : List LaunchReq := []
  pool : List (Nat × Nat) := []
  pins : List (Nat × Nat) := []
  deriving DecidableEq, Repr

/-- A configuration image: its header's fields, whether its signature checks, and the bytes of header and body (R435). -/
structure Image where
  version : Nat
  farways : Nat
  torus : Bool
  position : Nat
  harvest : DWord
  plimit : Nat
  mtarget : Nat
  valid : Bool
  bytes : List Byte := []
  deriving DecidableEq, Repr

/-- A copy of the lifetime histograms in flash (R293, R440). -/
structure Lifetime where
  seq : Nat := 0
  bins : Tab Nat := []
  good : Bool := true
  deriving DecidableEq, Repr

/-- Byte `i` of the lifetime region of flash, whose layout the spec does not give: a fixed function of its two copies (R440, log 13). -/
opaque lifeByte (a b : Lifetime) (i : Nat) : Byte

/-- The management controller (R293, R435-R440). `ended` says that a mailbox command has ended since the reset (R437). -/
structure Mgmt where
  slotA : Option Image := some ⟨1, 0, false, 0, 0, 3200, 0, true, []⟩
  slotB : Option Image := none
  active : Option Image := some ⟨1, 0, false, 0, 0, 3200, 0, true, []⟩
  inUseB : Bool := false
  noImage : Bool := false
  powered : Bool := true
  cmd : Word := 0
  busy : Bool := false
  ended : Bool := false
  err : Nat := 0
  arg : Tab Word := []
  plimit : Nat := 3200
  watts : Nat := 0
  dieWatts : Tab Nat := []
  temps : Tab Nat := []
  heldMs : Nat := 0
  holding : Bool := false
  bins : Tab Nat := []
  lifeA : Lifetime := {}
  lifeB : Lifetime := {}
  quarRing : List (Nat × Nat × Nat) := []
  quarLost : Nat := 0
  deriving DecidableEq, Repr

/-- Whether the package has come out of reset (R436, log 91): it has power and a valid image. -/
def Mgmt.up (m : Mgmt) : Bool := m.powered && !m.noImage

/-- The SPDM responder's progress (R423, log 13): the requests answered on the connection, and sessions with whether
FINISH has been accepted; `reply` is the last response's number, a free value. -/
structure Spdm where
  version : Bool := false
  caps : Bool := false
  algs : Bool := false
  sessions : Tab Bool := []
  reply : Option (BitVec 64) := none
  refused : Bool := false
  deriving DecidableEq, Repr

/-- What the state records of a migrated VF hold, beside their bytes (R433, log 32): its kernels, gangs, groups and threads, the
save areas, the window slots and barriers that a WHOLE save took, the estate entries, ballots, queue entries by core, wait-list
records, page count words, KVQ USED, and the ended requests that links name. -/
structure VfImage where
  kernels : Tab Kernel := []
  gangs : Tab Gang := []
  groups : Tab Group := []
  threads : List (Tid × Thread) := []
  areas : Tab (List Byte) := []
  slots : Tab (Tab Slot) := []
  fwd : List ((Nat × Nat × Nat) × (Nat × Nat × Nat)) := []
  barriers : List Barrier := []
  estate : List Est := []
  ballots : List Ballot := []
  queues : Tab (List QEntry × List QEntry) := []
  waits : List LaunchReq := []
  pages : Tab Word := []
  kvqUsed : Nat := 0
  reqs : List (Nat × CeReq) := []
  deriving DecidableEq, Repr

/-- What state records from another package hold, by their payloads, whose layout the spec does not give: a free function (R433, log 32). -/
opaque foreignImage : List Byte → Option VfImage

/-- What this package knows of the house: other packages' exported ranges by house key (R425), the HCOUNT each key and
partition has been counted with (R328), the last answer to a remote access, abort tokens (R427), and what the state records that were
exported here hold, by their payloads (R433, log 32). -/
structure House where
  exports : List (Nat × Nat × Nat × Nat) := []
  reply : Option (List Byte) := none
  hcounts : List (Nat × Nat × Nat) := []
  tokens : List (Nat × Nat × Nat) := []
  images : List (List Byte × VfImage) := []
  deriving DecidableEq, Repr

/-- The host port (R414, R415): lines the host holds, the last answer to a read (none where poison was returned). -/
structure HostPort where
  lines : List Nat := []
  reply : Option (List Byte) := none
  snooped : Bool := false
  deriving DecidableEq, Repr

/-- Which agent moves next: a core's issue stage, or an event. The model's own field (log 1). -/
inductive Turn where
  | issue (core : Nat)
  | event (e : Instr)
  deriving DecidableEq, Repr

/-- The whole machine. `rot` numbers the launch queue whose turn is next (R320); `fwd` is the forwarding map of windows that a WHOLE save moved (R269): a handle's core, slot and
generation, and where it leads. -/
structure State where
  cyc : Nat := 0
  hbt : Nat := 0
  mem : List Host.Cell := []
  gran : Tab Gran := []
  threads : List (Tid × Thread) := []
  groups : Tab Group := []
  gangs : Tab Gang := []
  kernels : Tab Kernel := []
  cores : Tab Core := []
  clusters : Tab Cluster := []
  tlbs : Tab (List TlbEntry) := []
  loads : List Load := []
  results : List Result := []
  accs : List WinAcc := []
  mcasts : List Mcast := []
  atomics : List Atomic := []
  reds : List Red := []
  holdq : List HoldWait := []
  fwd : List ((Nat × Nat × Nat) × (Nat × Nat × Nat)) := []
  pieces : List Piece := []
  invs : List Inv := []
  barriers : List Barrier := []
  estate : List Est := []
  ballots : List Ballot := []
  fns : Tab Fn := []
  parts : Tab Part := []
  retired : Tab (Nat × Nat) := []
  mgmt : Mgmt := {}
  spdm : Spdm := {}
  house : House := {}
  host : HostPort := {}
  routes : BitVec 48 := 0
  turns : List Turn := []
  cur : Option Tid := none
  fresh : Nat := 0
  nextId : Nat := 1
  rr : Nat := 0
  due : Nat := 0
  rot : Nat := 0
  epoch : Nat := 0
  deriving DecidableEq, Repr

/-- Faults of the model. The spec's own traps are next states. -/
inductive Fault where
  /-- Raised by every meaning of an encoded instruction when no thread is issuing (State.cur names no live resident
  thread). Safe: the machine stops where the hardware has no such step. -/
  | noIssuer
  deriving DecidableEq, Repr

/-- Refusals of the model. -/
inductive Refusal where
  /-- An instruction without a meaning, raised by Dispatch alone. Safe: nothing is claimed about it. -/
  | notModelled (mnemonic : String)
  deriving DecidableEq, Repr

/-- The machine right after reset (R436): nothing runs, memory lists nothing, every register at its stated reset value
or the value log 8 and log 9 name. -/
def State.reset : State := { mem := [] }

end Sys2Proof.Machine
end

