-- ==== Sys2Proof/Machine/Tab.lean ====
section
/-!
DEFINITION. Tables: read, write and remove one key; and the memory's cells in canonical form (addresses strictly
rising, no entry equal to what an unlisted address reads as).
-/
namespace Sys2Proof.Machine

variable {κ α : Type} [DecidableEq κ]

def look : List (κ × α) → κ → Option α
  | [], _ => none
  | (k, v) :: r, x => if k = x then some v else look r x

def put : List (κ × α) → κ → α → List (κ × α)
  | [], x, a => [(x, a)]
  | (k, v) :: r, x, a => if k = x then (k, a) :: r else (k, v) :: put r x a

def del : List (κ × α) → κ → List (κ × α)
  | [], _ => []
  | (k, v) :: r, x => if k = x then r else (k, v) :: del r x

/-- The value at a key, or the default. -/
def at_ (t : List (κ × α)) (k : κ) (dflt : α) : α := (look t k).getD dflt

/-- Change the value at a key. -/
def upd (t : List (κ × α)) (k : κ) (dflt : α) (f : α → α) : List (κ × α) := put t k (f (at_ t k dflt))

/-- What a byte that nothing has written reads as: zero for device memory (R436 step 3), the model's choice elsewhere
(log 3). -/
def unlisted : Byte := 0

def memGet : List Host.Cell → Nat → Byte
  | [], _ => unlisted
  | (a, b) :: r, x => if a = x then b else memGet r x

def memSet : List Host.Cell → Nat → Byte → List Host.Cell
  | [], x, v => if v = unlisted then [] else [(x, v)]
  | (a, b) :: r, x, v =>
    if x < a then (if v = unlisted then (a, b) :: r else (x, v) :: (a, b) :: r)
    else if x = a then (if v = unlisted then r else (a, v) :: r)
    else (a, b) :: memSet r x v

/-- Addresses strictly rising from `lo` up, no entry equal to the unlisted byte. -/
def memWfFrom : Nat → List Host.Cell → Bool
  | _, [] => true
  | lo, (a, b) :: r => decide (lo ≤ a) && decide (b ≠ unlisted) && memWfFrom (a + 1) r

/-- The canonical form of memory. -/
def Memory.wf (m : List Host.Cell) : Bool := memWfFrom 0 m

def memRead (m : List Host.Cell) (a : Nat) : Nat → List Byte
  | 0 => []
  | n + 1 => memGet m a :: memRead m (a + 1) n

def memWrite (m : List Host.Cell) (a : Nat) : List Byte → List Host.Cell
  | [] => m
  | b :: bs => memWrite (memSet m a b) (a + 1) bs

/-- A number from bytes, least significant first (R6). -/
def ofBytes : List Byte → Nat
  | [] => 0
  | b :: bs => b.toNat + 256 * ofBytes bs

/-- The 32-bit words of a byte list. -/
def wordsOf : List Byte → List Word
  | a :: b :: c :: d :: r => BitVec.ofNat 32 (ofBytes [a, b, c, d]) :: wordsOf r
  | [] => []
  | r => [BitVec.ofNat 32 (ofBytes r)]

/-- The bytes of a list of words (R6). -/
def bytesOf (ws : List Word) : List Byte := ws.flatMap (fun w => leBytes4 w)
where
  leBytes4 (w : Word) : List Byte :=
    [w.extractLsb' 0 8, w.extractLsb' 8 8, w.extractLsb' 16 8, w.extractLsb' 24 8]

/-- The first number of x, x + 1, … below `m`, going round, that is not in use. -/
def pickFree (m : Nat) (used : List Nat) (x : Nat) : Nat → Option Nat
  | 0 => none
  | n + 1 => if used.contains (x % m) then pickFree m used (x + 1) n else some (x % m)

/-- `n` numbers from `a`. -/
def upto (a : Nat) : Nat → List Nat
  | 0 => []
  | n + 1 => a :: upto (a + 1) n

end Sys2Proof.Machine
end

