-- ==== Sys2Proof/Machine/Map.lean ====
section
/-!
DEFINITION. The physical map (R352), the launch record's fields (R319), and the accessors of State.
-/
namespace Sys2Proof.Machine

/-- The space a physical address falls in, with the canonical address of its storage (R352, R425). -/
inductive Place where
  | dev (a : Nat)
  | far (a : Nat)
  | house (a : Nat)
  | host (a : Nat)
  | nowhere
  deriving DecidableEq, Repr

/-- 576 GiB of device memory. -/
def devBytes : Nat := 0x9000000000

/-- The interleaved address of a byte of the troupe-local view of die `d` at offset `o`: local granule m lies in stack
3d + m mod 3, row m div 3, and interleaved granule 12r + s in stack s, row r (R352). -/
def localToInter (d o : Nat) : Nat :=
  let m := o / 4096
  (12 * (m / 3) + (3 * d + m % 3)) * 4096 + o % 4096

/-- Where a 52-bit physical address lies. -/
def place (pa : Nat) : Place :=
  if pa < devBytes then .dev pa
  else if 0x10000000000 ≤ pa && pa < 0x20000000000 then
    let d := (pa - 0x10000000000) / 0x4000000000
    let o := (pa - 0x10000000000) % 0x4000000000
    if d < 4 && o < 0x2400000000 then .dev (localToInter d o) else .nowhere
  else if 0x100000000000 ≤ pa && pa < 0x200000000000 then .far pa
  else if 0x4000000000000 ≤ pa && pa < 0x8000000000000 then .house pa
  else if 0x8000000000000 ≤ pa && pa < 0x10000000000000 then .host pa
  else .nowhere

/-- The die whose HBM stack holds a device byte (R352): granule n lies in stack n mod 12, stack s on die s div 3. -/
def dieOf (a : Nat) : Nat := (a / 4096) % 12 / 3

/-- The clusters and dies of a core's number (R20): core k of cluster c is 24c + k. -/
def clusterOf (core : Nat) : Nat := core / 24
def coreDie (core : Nat) : Nat := core / 288
def clusterDie (cl : Nat) : Nat := cl / 12

namespace State

def thread (s : State) (t : Tid) : Thread := at_ s.threads t {}
def setThread (s : State) (t : Tid) (x : Thread) : State := { s with threads := put s.threads t x }
def updThread (s : State) (t : Tid) (f : Thread → Thread) : State := s.setThread t (f (s.thread t))

/-- Change every thread of a group. -/
def mapGroup (s : State) (v : Nat) (f : Tid → Thread → Thread) : State :=
  { s with threads := s.threads.map (fun (p : Tid × Thread) => if p.1.vgid = v then (p.1, f p.1 p.2) else p) }

def group (s : State) (v : Nat) : Group := at_ s.groups v { gang := 0, gidx := 0, core := 0 }
def updGroup (s : State) (v : Nat) (f : Group → Group) : State := { s with groups := put s.groups v (f (s.group v)) }

def gang (s : State) (g : Nat) : Gang := at_ s.gangs g { kernel := 0, idx := 0 }
def updGang (s : State) (g : Nat) (f : Gang → Gang) : State := { s with gangs := put s.gangs g (f (s.gang g)) }

def kernel (s : State) (k : Nat) : Kernel := at_ s.kernels k { words := [] }
def updKernel (s : State) (k : Nat) (f : Kernel → Kernel) : State := { s with kernels := put s.kernels k (f (s.kernel k)) }

def core (s : State) (c : Nat) : Core := at_ s.cores c {}
def updCore (s : State) (c : Nat) (f : Core → Core) : State := { s with cores := put s.cores c (f (s.core c)) }

def cluster (s : State) (c : Nat) : Cluster := at_ s.clusters c {}
def updCluster (s : State) (c : Nat) (f : Cluster → Cluster) : State :=
  { s with clusters := put s.clusters c (f (s.cluster c)) }

def fn (s : State) (f : Nat) : Fn := at_ s.fns f {}
def updFn (s : State) (k : Nat) (f : Fn → Fn) : State := { s with fns := put s.fns k (f (s.fn k)) }

def part (s : State) (p : Nat) : Part := at_ s.parts p {}
def updPart (s : State) (p : Nat) (f : Part → Part) : State := { s with parts := put s.parts p (f (s.part p)) }

/-- CYC and HBT move together: HBT counts every 128 cycles (R4). -/
def setCyc (s : State) (c : Nat) : State := { s with cyc := c, hbt := c / 128 }

/-- The next free value (log 6). -/
def free (s : State) : DWord × State := (Config.freeValue s.fresh, { s with fresh := s.fresh + 1 })

/-- A new request number. -/
def newId (s : State) : Nat × State := (s.nextId, { s with nextId := s.nextId + 1 })

/-- This package's house index (R425, R435). -/
def houseIndex (s : State) : Nat := match s.mgmt.active with
  | some i => i.position % 1024
  | none => 0

/-- A physical address, with the house window's own index resolved to this package's memory (R425). -/
def where_ (s : State) (pa : Nat) : Place :=
  match place pa with
  | .house a =>
    let o := a - 0x4000000000000
    if o / 2 ^ 40 = s.houseIndex && o % 2 ^ 40 < devBytes then .dev (o % 2 ^ 40) else .house a
  | p => p

end State

/-- The storage key of a physical address: two views of one byte have one key (R352). -/
def canon (s : State) (pa : Nat) : Nat :=
  match s.where_ pa with
  | .dev a => a
  | _ => pa

namespace Kernel

def w (k : Kernel) (i : Nat) : Word := k.words.getD i 0
def dw (k : Kernel) (i : Nat) : DWord := pairOf (k.w i) (k.w (i + 1))
def entry (k : Kernel) : DWord := k.dw 0
def handler (k : Kernel) : DWord := k.dw 2
def hasHandler (k : Kernel) : Bool := k.handler != 0
def karg (k : Kernel) : DWord := k.dw 4
def done (k : Kernel) : DWord := k.dw 6
def phm1 (k : Kernel) : Nat := bits (k.w 8) 31 24
def gpg (k : Kernel) : Nat := bits (k.w 8) 23 16 + 1
def depth (k : Kernel) : Nat := bits (k.w 8) 13 10 + 1
def width (k : Kernel) : Nat := 8 * 2 ^ bits (k.w 8) 9 8
def rdiv (k : Kernel) : Nat := bits (k.w 8) 4 0
def regs (k : Kernel) : Nat := 32 * k.rdiv
/-- NW of R36: the registers and, with a handler, its bank. -/
def nw (k : Kernel) : Nat := k.regs + (if k.hasHandler then 32 else 0)
def ngang (k : Kernel) : Nat := bits (k.w 9) 19 0 + 1
def monitors (k : Kernel) : Nat := bits (k.w 10) 31 16
def barriers (k : Kernel) : Nat := bits (k.w 10) 15 0
def estate (k : Kernel) : Nat := bits (k.w 11) 30 16
def windows (k : Kernel) : Nat := bits (k.w 11) 8 0
def sib (k : Kernel) : Bool := bit (k.w 12) 7
def fr (k : Kernel) : Bool := bit (k.w 12) 6
def prio (k : Kernel) : Nat := bits (k.w 12) 5 4
def allowance (k : Kernel) : Nat := bits (k.w 12) 3 0
def pf (k : Kernel) : Bool := bit (k.w 13) 28
def world (k : Kernel) : Bool := bit (k.w 13) 27
def part (k : Kernel) : Nat := bits (k.w 13) 26 22
def vf (k : Kernel) : Nat := bits (k.w 13) 21 16
def asid (k : Kernel) : Nat := bits (k.w 13) 15 0
def hkind (k : Kernel) : Nat := bits (k.w 14) 31 30
def hvgid (k : Kernel) : Nat := bits (k.w 14) 21 0
def pred (k : Kernel) (i : Nat) : DWord := k.dw (16 + 2 * i)
def quorumField (k : Kernel) : Nat := bits (k.w 24) 14 8
def sibn (k : Kernel) : Nat := bits (k.w 24) 6 0
def house (k : Kernel) : Nat := (k.w 25).toNat
def hcount (k : Kernel) : Nat := bits (k.w 26) 10 0

end Kernel

/-- The function that owns a kernel's launch: 0 the PF, v + 1 VF v. -/
def Kernel.owner (k : Kernel) : Nat := if k.pf then 0 else k.vf + 1

/-- What an instruction knows of its issuer. -/
structure Who where
  t : Tid
  th : Thread
  g : Group
  gk : Nat
  gang : Gang
  kn : Nat
  k : Kernel

def State.who (s : State) (t : Tid) : Who :=
  let g := s.group t.vgid
  let gang := s.gang g.gang
  ⟨t, s.thread t, g, g.gang, gang, gang.kernel, s.kernel gang.kernel⟩

/-- The issuing thread, live and resident (log 1). -/
def State.who? (s : State) : Option Who :=
  match s.cur with
  | none => none
  | some t =>
    match look s.threads t with
    | none => none
    | some th => if th.st = .exited || (s.group t.vgid).saved.isSome then none else some (s.who t)

/-- The threads of a group, in lane order within each layer. -/
def tidsOf (k : Kernel) (v : Nat) : List Tid :=
  (upto 0 k.depth).flatMap (fun y => (upto 0 k.width).map (fun l => ⟨v, y, l⟩))

/-- The threads of one layer, in lane order. -/
def layerTids (k : Kernel) (v y : Nat) : List Tid := (upto 0 k.width).map (fun l => ⟨v, y, l⟩)

/-- A register-space address by its form (R36). -/
inductive RegForm where
  | bank (cluster core lane word : Nat)
  | attic (die word : Nat)
  deriving DecidableEq, Repr

/-- The address of a word, in either form (R36). -/
def RegForm.addr : RegForm → Nat
  | .bank cl c l w => cl * 2 ^ 24 + c * 2 ^ 19 + l * 2 ^ 13 + w
  | .attic d w => 2 ^ 30 + d * 2 ^ 20 + w

/-- What an address names; none for one that raises cause 0x06 against the request that holds it (R36). -/
def regForm (x : Word) : Option RegForm :=
  match bits x 31 30 with
  | 0 => if bits x 29 24 ≤ 47 && bits x 23 19 ≤ 23 then some (.bank (bits x 29 24) (bits x 23 19) (bits x 18 13) (bits x 12 0)) else none
  | 1 => if bits x 29 22 = 0 then some (.attic (bits x 21 20) (bits x 19 0)) else none
  | _ => none

/-- The register-space address of V[i] of a thread (R36), in the lane-bank form. -/
def regAddr (s : State) (t : Tid) (i : Nat) : Nat :=
  let g := s.group t.vgid
  (RegForm.bank (clusterOf g.core) (g.core % 24) (g.lane0 + t.lane) (g.bases.getD t.layer 0 + i)).addr

/-- Add to a function's counter of R292, saturating at 64 bits. -/
def count (s : State) (f i n : Nat) : State :=
  s.updFn f (fun x => { x with counts := upd x.counts i 0 (fun c => min (c + n) (2 ^ 64 - 1)) })

end Sys2Proof.Machine
end

