-- ==== Sys2Proof/Machine/Phys.lean ====
section
/-!
DEFINITION. Physical memory as the units reach it: a partition's ranges (R421, R422), reads and writes of bytes through the map (R352), and
whether two runs of bytes share one.
-/
namespace Sys2Proof.Machine

/-- Whether an enabled range of the partition holds a physical byte (R421, R422). -/
def inRanges (p : Part) (pa : Nat) : Bool :=
  p.mems.any (fun m => bit m.2 63 && decide (bits m.2 29 0 ≤ pa / 2 ^ 21) && decide (pa / 2 ^ 21 ≤ bits m.2 61 32))

/-- Whether the range that holds the byte is marked secure (R415, R422). -/
def inSecure (p : Part) (pa : Nat) : Bool :=
  p.mems.any (fun m => bit m.2 63 && bit m.2 62 && decide (bits m.2 29 0 ≤ pa / 2 ^ 21) && decide (pa / 2 ^ 21 ≤ bits m.2 61 32))

/-- Whether `n` bytes lie inside the partition's enabled ranges, every unit of 2 MiB they touch (R422). -/
def runInRanges (p : Part) (a n : Nat) : Bool :=
  (upto (a / 2 ^ 21) ((a + n - 1) / 2 ^ 21 + 1 - a / 2 ^ 21)).all (fun u => inRanges p (2 ^ 21 * u))

/-- Whether one of `n` bytes lies in a range marked secure (R415, R422). -/
def secureMeets (p : Part) (a n : Nat) : Bool :=
  n ≠ 0 && p.mems.any (fun m => bit m.2 63 && bit m.2 62 && decide (bits m.2 29 0 ≤ (a + n - 1) / 2 ^ 21) && decide (a / 2 ^ 21 ≤ bits m.2 61 32))

/-- Whether an uncorrectable error lies in the granule of a byte (R290). -/
def granBad (s : State) (a : Nat) : Option Gran := look s.gran (canon s a / 64)

/-- Read `n` bytes of memory at a physical address, byte by byte through the map. -/
def physRead (s : State) (pa : Nat) : Nat → List Byte
  | 0 => []
  | n + 1 => memGet s.mem (canon s pa) :: physRead s (pa + 1) n

def physWriteRaw (s : State) (pa : Nat) : List Byte → State
  | [] => s
  | b :: bs => physWriteRaw { s with mem := memSet s.mem (canon s pa) b } (pa + 1) bs

def read64 (s : State) (pa : Nat) : DWord := BitVec.ofNat 64 (ofBytes (physRead s pa 8))
def read32 (s : State) (pa : Nat) : Word := BitVec.ofNat 32 (ofBytes (physRead s pa 4))
def bytes64 (x : DWord) : List Byte := bytesOf [loWord x, hiWord x]

/-- The frame that a table entry names (R354, R355). -/
def frameOf (e : DWord) : Nat := bits e 47 12 * 65536

/-- The die and offset of an address in a troupe-local view (R352). -/
def localView (pa : Nat) : Option (Nat × Nat) :=
  if 0x10000000000 ≤ pa && pa < 0x20000000000 then some ((pa - 0x10000000000) / 0x4000000000, (pa - 0x10000000000) % 0x4000000000) else none

/-- The offset that a byte of device memory has in its die's troupe-local view: the inverse of `localToInter` (R352). -/
def interToLocal (a : Nat) : Nat :=
  let n := a / 4096
  (3 * (n / 12) + n % 12 % 3) * 4096 + a % 4096

/-- Whether the byte at `x` is one of the `m` bytes from `b`, in whichever view either address is (R352). -/
def inRun (s : State) (x b m : Nat) : Bool :=
  match localView b with
  | some (d, o) =>
    (match s.where_ x with
     | .dev a => dieOf a = d && decide (o ≤ interToLocal a) && decide (interToLocal a < o + m)
     | _ => false)
  | none => decide (canon s b ≤ canon s x) && decide (canon s x < canon s b + m)

/-- Whether two runs of physical bytes meet: the first is taken block by block of 4 KiB, in which both views ascend together (R352). -/
def meets (s : State) (a n b m : Nat) : Bool :=
  n ≠ 0 && m ≠ 0 &&
  (upto (a / 4096) ((a + n - 1) / 4096 + 1 - a / 4096)).any (fun k =>
    let lo := max a (4096 * k)
    let hi := min (a + n) (4096 * k + 4096)
    inRun s lo b m || (decide (canon s lo ≤ canon s b) && decide (canon s b < canon s lo + (hi - lo))))

end Sys2Proof.Machine
end

