-- ==== Sys2Proof/Machine/Mem.lean ====
section
/-!
DEFINITION. Performing a write in memory: granule checks (R290, R291), monitors (R138), CRC-32C, and the memory that
the device itself holds (R309, R323, R270).
-/
namespace Sys2Proof.Machine

/-- A write reaching a granule fires every monitor armed on it (R138). -/
def fireGranule (s : State) (g : Nat) : State :=
  { s with threads := s.threads.map (fun p =>
      match p.2.monitor with
      | some m => if !m.window && m.addr / 64 = g then (p.1, { p.2 with monitor := some { m with fired := true } }) else p
      | none => p) }

/-- The granule's metadata after a write of `n` bytes (R291): a whole granule gets a new CRC; a partial write to a granule
whose rest fails its check marks it poisoned. -/
def mergeGran (s : State) (g n : Nat) : State :=
  match look s.gran g with
  | none => s
  | some _ => if n = 64 then { s with gran := del s.gran g } else { s with gran := put s.gran g .poisoned }

/-- A back-invalidate snoop: the host gives a line up before the device writes it (R414). -/
def dropLine (s : State) (g : Nat) : State := { s with host := { s.host with lines := s.host.lines.filter (· ≠ g) } }

/-- Perform one piece inside a granule. -/
def performPiece (s : State) (pa : Nat) (bs : List Byte) : State :=
  let g := canon s pa / 64
  fireGranule (mergeGran (physWriteRaw (dropLine s g) pa bs) g bs.length) g

/-- Perform a write of any length, granule by granule, in ascending order. -/
def performWrite (s : State) (pa : Nat) (bs : List Byte) : Nat → State
  | 0 => s
  | fuel + 1 =>
    match bs with
    | [] => s
    | _ =>
      let n := 64 - pa % 64
      performWrite (performPiece s pa (bs.take n)) (pa + n) (bs.drop n) fuel

/-- The first byte offset, of `n` from `pa`, whose granule fails its check, with what failed (R290). -/
def badAt (s : State) (pa : Nat) : Nat → Option (Nat × Gran)
  | 0 => none
  | n + 1 =>
    match badAt s pa n with
    | some x => some x
    | none => (granBad s (pa + n)).map (fun g => (n, g))

/-- A failed check of a memory granule is counted (R292): for function `f`, where the page lies in its partition's memory, else for the physical
function. -/
def countGran (s : State) (f part pa : Nat) (g : Gran) : State :=
  count s (if inRanges (s.part part) pa then f else 0) (if g = .uncorrectable then 10 else 8) 1

/-- The enabled ranges of a partition's device memory, as first byte and bytes (R421). -/
def partRanges (p : Part) : List (Nat × Nat) :=
  p.mems.filterMap (fun m => if bit m.2 63 then some (bits m.2 29 0 * 2 ^ 21, (bits m.2 61 32 + 1 - bits m.2 29 0) * 2 ^ 21) else none)

/-- A place for `n` bytes that the device itself holds: in a range of the partition, apart from what it holds already and from the save
pool, in units of 2 KiB from the top; which one is a free value (log 67). -/
def pinPlace (p : Part) (n x : Nat) : Option Nat :=
  let u := (n + 2047) / 2048 * 2048
  let used := (bits p.savePool 51 6 * 64, p.saveSize.toNat) :: p.pins
  let tries := used.foldl (fun m a => m + a.2 / u + 2) 1
  (partRanges p).findSome? (fun r =>
    ((upto 0 tries).map (fun j => r.1 + r.2 - ((x + j) % (r.2 / u) + 1) * u)).find? (fun a =>
      decide (0 < a) && decide (r.1 ≤ a) && decide (a + u ≤ r.1 + r.2) && decide (a + u ≤ devBytes) &&
        used.all (fun q => decide (q.1 + q.2 ≤ a) || decide (a + u ≤ q.1))))

/-- Hold `n` bytes of a partition's memory, where there is room. -/
def pinTake (s : State) (part n : Nat) : Option (Nat × State) :=
  (pinPlace (s.part part) n (Config.freeValue s.fresh).toNat).map (fun a =>
    (a, { s.updPart part (fun p => { p with pins := p.pins ++ [(a, n)] }) with fresh := s.fresh + 1 }))

def pinDrop (s : State) (part a : Nat) : State := s.updPart part (fun p => { p with pins := p.pins.filter (fun x => x.1 ≠ a) })

/-- One bit of CRC-32C, reflected (RFC 3720, R290). -/
def crcBit (c : BitVec 32) : BitVec 32 := if bit c 0 then (c >>> 1) ^^^ 0x82F63B78 else c >>> 1
def crcByte (c : BitVec 32) (b : Byte) : BitVec 32 :=
  (upto 0 8).foldl (fun x _ => crcBit x) (c ^^^ b.setWidth 32)
/-- CRC-32C with initial value and final XOR 0xFFFF_FFFF (R290). -/
def crc32c (bs : List Byte) : Word := (bs.foldl crcByte 0xFFFFFFFF) ^^^ 0xFFFFFFFF

end Sys2Proof.Machine
end

