-- ==== Sys2Proof/Machine/Cut.lean ====
section
/-!
DEFINITION. The understudy's records (R429-R432) and performing a write with copy-before-write: a write to a granule a cut
still owes is preceded by that granule's copy (R430).
-/
namespace Sys2Proof.Machine

/-- Whether the understudy can write `n` bytes at a destination of kind `sel` (R303, R422, R432). -/
def cutDestOk (p : Part) (sel a n : Nat) : Bool :=
  let ok (x : Nat) : Bool := match place x with
    | .dev _ => sel == 0 && inRanges p x
    | .far _ => sel == 1
    | .host _ => sel == 2
    | _ => false
  ok a && ok (a + n - 1)

/-- The VF whose ASID it is, in CONFIG_LOCKED or RUN: its payloads are encrypted (R432). -/
def cutEncrypts (s : State) (part asid : Nat) : Bool :=
  s.fns.any (fun f => f.1 ≠ 0 && f.2.part = part && f.2.asid = asid && (f.2.tdisp = 1 || f.2.tdisp = 2))

/-- The key of the migration session: that of the newest SPDM session that FINISH has completed (R432, R433, log 13). -/
def sessionKey (s : State) : Nat := ((s.spdm.sessions.filter (fun x => x.2)).map (·.1)).foldl max 0

/-- Encrypt or decrypt a payload with the keystream of a key; the record's number is its nonce (R432, log 13). -/
def cutCrypt (key q : Nat) (bs : List Byte) : List Byte := bs.zipIdx.map (fun x => x.1 ^^^ Config.cipher key q x.2)

/-- A record's header and its stored payload (R432), encrypted under a key where there is one. -/
def recordBytes (enc : Option Nat) (q rkind asid : Nat) (where_ : DWord) (payload : List Byte) : List Byte :=
  let stored := match enc with
    | some key => cutCrypt key q payload
    | none => payload
  let t : BitVec 128 := match enc with
    | some key => Config.tag key q stored
    | none => 0
  let tag : List Word := (upto 0 4).map (fun i => (t >>> (32 * i)).setWidth 32)
  bytesOf ([BitVec.ofNat 32 (rkind * 2 ^ 24 + asid), 0, loWord where_, hiWord where_,
     BitVec.ofNat 32 stored.length, crc32c stored] ++ tag ++ [BitVec.ofNat 32 q, BitVec.ofNat 32 (q / 2 ^ 32), 0, 0, 0, 0]) ++ stored

/-- The trailer: the record count in LEN, and FAULT in word 5 (R432). -/
def cutTrailer (c : Cut) (fault : Bool) : List Byte :=
  bytesOf [0, 0, 0, 0, BitVec.ofNat 32 c.seqno, (if fault then 1 else 0), 0, 0, 0, 0,
    BitVec.ofNat 32 (c.seqno + 1), BitVec.ofNat 32 ((c.seqno + 1) / 2 ^ 32), 0, 0, 0, 0]

/-- Clear K of a leaf, and D where its page has been copied (R429, R432); a cached copy loses its D too, so that the next write
sets D again (R358, R433, log 25). -/
def cutClear (s : State) (at_ : Nat) (dirty : Bool) : State :=
  let e := read64 s at_
  let m : DWord := if dirty then ~~~(0x420 : DWord) else ~~~(0x400 : DWord)
  let clean (x : TlbEntry) : TlbEntry :=
    if dirty && frameOf x.leaf = frameOf e then { x with leaf := x.leaf &&& ~~~(0x20 : DWord) } else x
  let s1 : State := { s with tlbs := s.tlbs.map (fun p => (p.1, p.2.map clean)) }
  performWrite s1 at_ (bytes64 (e &&& m)) 2

/-- What a cut leaves for CKWAIT, where it is the partition's latest (R308). -/
def cutOutcome (q : Part) (c : Cut) (fault : Bool) : Option Bool := if q.latest.any (fun x => x.2 = c.no) then some fault else q.lastCut

/-- The cut ends: the trailer is written if it can be, ACTIVE clears, and the outcome is kept for CKWAIT (R308, R432). -/
def cutEnd (s : State) (p : Nat) (c : Cut) (fault : Bool) : State :=
  let part := s.part p
  let t := cutTrailer c fault
  let s1 := if cutDestOk part c.sel (c.dest + c.at_) 64 then performWrite s (c.dest + c.at_) t 3 else s
  let s2 := if fault then (c.items.filter (fun i => !i.done)).foldl (fun s i => cutClear s i.leafAt false) s1 else s1
  s2.updPart p (fun q => { q with cut := q.later.head?, later := q.later.drop 1, ckActive := false, ckFault := fault, lastCut := cutOutcome q c fault })

/-- Append a record to the checkpoint; a failed write faults the cut (R432). -/
def cutAppend (s : State) (p : Nat) (c : Cut) (rkind asid : Nat) (where_ : DWord) (payload : List Byte) : Except State (Cut × State) :=
  let bs := recordBytes (if cutEncrypts s p asid then some (sessionKey s) else none) (c.seqno + 1) rkind asid where_ payload
  if cutDestOk (s.part p) c.sel (c.dest + c.at_) bs.length then
    .ok ({ c with at_ := c.at_ + bs.length, seqno := c.seqno + 1 }, performWrite s (c.dest + c.at_) bs (bs.length / 64 + 2))
  else .error (cutEnd s p c true)

/-- The granules of 64 bytes, of `n` bytes from `pa`, that fail their check: their offsets. -/
def badGrans (s : State) (pa n : Nat) : List Nat :=
  if s.gran.isEmpty then [] else (upto 0 (n / 64)).filterMap (fun k => (granBad s (pa + 64 * k)).map (fun _ => 64 * k))

/-- Granules that leave as data poison stand poisoned where they were written (R291). -/
def poisonGrans (s : State) (base : Nat) (offs : List Nat) : State :=
  offs.foldl (fun s o => count { s with gran := put s.gran (canon s (base + o) / 64) .poisoned } 0 9 1) s

/-- Whether a frame lies in device memory outside the partition's ranges: the understudy does not read it (R422). -/
def cutBarred (s : State) (p : Part) (pa : Nat) : Bool :=
  match s.where_ pa with
  | .dev _ => !inRanges p pa
  | _ => false

/-- Copy one granule of the cut of partition `p` (R429); what fails its check goes out as data poison (R291). -/
def cutCopy (s : State) (p : Nat) (i : CutItem) : State :=
  match (s.part p).cut with
  | none => s
  | some c =>
    if cutBarred s (s.part p) i.phys then cutEnd s p c true
    else
      match cutAppend s p c 1 i.asid (BitVec.ofNat 64 i.va) (physRead s i.phys 65536) with
      | .error s1 => s1
      | .ok (c1, s0) =>
        let s1 := poisonGrans s0 (c1.dest + c1.at_ - 65536) (badGrans s i.phys 65536)
        let items := c1.items.map (fun x => if x.va = i.va && x.asid = i.asid then { x with done := true } else x)
        let c2 := { c1 with items := items }
        let s2 := if items.all (fun x => x.leafAt ≠ i.leafAt || x.done) then cutClear s1 i.leafAt true else s1
        if items.all (·.done) && c2.saves.isEmpty then cutEnd s2 p c2 false
        else s2.updPart p (fun q => { q with cut := some c2 })

/-- REMAIN: the pages of the current cut that still have K (R303). -/
def cutRemain (c : Cut) : Nat := ((c.items.filter (fun i => !i.done)).map (·.leafAt)).eraseDups.length

/-- The uncopied granules of cuts past their tick that a write of `n` bytes reaches. -/
def cutOwed (s : State) (pa n : Nat) : List (Nat × CutItem) :=
  s.parts.flatMap (fun p =>
    match p.2.cut with
    | some c => if c.ticked then (c.items.filter (fun i => !i.done && meets s pa n i.phys 65536)).map (fun i => (p.1, i)) else []
    | none => [])

/-- Perform a write. One that reaches a granule which a cut still owes holds until the understudy has copied that granule, ahead of its order
(R429, R430): copy and write are one step (log 87). -/
def performBytes (s : State) (pa : Nat) (bs : List Byte) : State :=
  let s1 := (cutOwed s pa bs.length).foldl (fun s x => cutCopy s x.1 x.2) s
  performWrite s1 pa bs (bs.length / 64 + 2)

end Sys2Proof.Machine
end

