-- ==== Sys2Proof/Machine/Regs.lean ====
section
/-!
DEFINITION. Register words (R36-R47): reading and writing the word of any thread, in its bank or, while its group is
SAVED, in its save image (R47, R240, R274); tags, links (R235) and word monitors (R138).
-/
namespace Sys2Proof.Machine

/-- Addresses of the image word and of the tag word of V[i] of a saved thread, with the tag's bit (R240, R274). -/
def imageAt (k : Kernel) (sv : SavedAt) (t : Tid) (i : Nat) : Nat × Nat × Nat :=
  let n := t.lane * k.nw + i
  (sv.base + sv.regOff + t.layer * (4 * k.width * k.nw) + 4 * n,
   sv.base + sv.tagOff + t.layer * (k.width * k.nw / 4) + n / 16 * 4, 2 * (n % 16))

def Tag.code : Tag → Nat
  | .empty => 0
  | .full => 1
  | .pend => 2
  | .poison => 3

def Tag.ofCode : Nat → Tag
  | 0 => .empty
  | 1 => .full
  | 2 => .pend
  | _ => .poison

/-- `n` bytes of a save area, through the physical map (R352). -/
def imageRead (s : State) (pa n : Nat) : Nat := ofBytes ((upto pa n).map (fun a => memGet s.mem (canon s a)))

/-- V[i] of a thread; v0 reads zero and FULL (R41). -/
def regGet (s : State) (t : Tid) (i : Nat) : RegWord :=
  if i = 0 then ⟨0, .full⟩
  else
    match (s.group t.vgid).saved with
    | none => at_ (s.thread t).regs i {}
    | some sv =>
      let (va, ta, b) := imageAt (s.who t).k sv t i
      ⟨BitVec.ofNat 32 (imageRead s va 4), Tag.ofCode (imageRead s ta 4 / 2 ^ b % 4)⟩

/-- Set V[i] and its tag in one step, with new check bits; v0 keeps its value (R38, R41). -/
def regPut (s : State) (t : Tid) (i : Nat) (w : RegWord) : State :=
  if i = 0 then s
  else
    match (s.group t.vgid).saved with
    | none => s.updThread t (fun th => { th with regs := put th.regs i w, ecc := th.ecc.filter (fun e => e.1 ≠ i) })
    | some sv =>
      let (va, ta, b) := imageAt (s.who t).k sv t i
      let old := imageRead s ta 4
      let new := old - old / 2 ^ b % 4 * 2 ^ b + w.tag.code * 2 ^ b
      performBytes (performBytes s va (bytesOf [w.val])) ta (bytesOf [BitVec.ofNat 32 new])

/-- A write or tag change of a word fires the monitors armed on it (R138). -/
def fireWord (s : State) (t : Tid) (i : Nat) : State :=
  { s with threads := s.threads.map (fun p =>
      match p.2.monitor with
      | some m => if m.window && m.owner = t && m.reg = i then (p.1, { p.2 with monitor := some { m with fired := true } }) else p
      | none => p) }

/-- A write to a word of a linked promise pair ends the link (R235). -/
def unlink (s : State) (t : Tid) (i : Nat) : State :=
  s.updThread t (fun th => { th with links := th.links.filter (fun l => !(l.pair = i || l.pair + 1 = i)) })

/-- Write a value: the word turns FULL, links of the pair end, monitors of the word fire (R40, R235, R138). -/
def writeWord (s : State) (t : Tid) (i : Nat) (v : Word) : State :=
  if i = 0 then s else fireWord (unlink (regPut s t i ⟨v, .full⟩) t i) t i

/-- Change a word's tag, keeping its value. -/
def setTag (s : State) (t : Tid) (i : Nat) (g : Tag) : State :=
  if i = 0 then s else fireWord (regPut s t i ⟨(regGet s t i).val, g⟩) t i

/-- The poison record of R44. -/
def poisonRecord (origin first : Nat) : Word := BitVec.ofNat 32 (origin * 2 ^ 28 + first % 2 ^ 28)

/-- A loss: the word turns POISON with its record (R40, R44). -/
def loseWord (s : State) (t : Tid) (i : Nat) (r : Word) : State :=
  if i = 0 then s else fireWord (regPut s t i ⟨r, .poison⟩) t i

/-- The arrival of a claim (R40): the value lands where the claim made the word PEND; a write that waits for it lands after it (log 82). -/
def arriveWord (s : State) (t : Tid) (i : Nat) (v : Word) : State :=
  if (regGet s t i).tag = .pend then writeWord s t i v else s

/-- The loss of a claim (R40). -/
def lossWord (s : State) (t : Tid) (i : Nat) (r : Word) : State :=
  if (regGet s t i).tag = .pend then loseWord s t i r else s

/-- `n` words from V[i]. -/
def regGets (s : State) (t : Tid) (i n : Nat) : List RegWord := (upto i n).map (regGet s t)

def anyPend (ws : List RegWord) : Bool := ws.any (fun w => w.tag == .pend)

/-- Write consecutive words. -/
def writeWords (s : State) (t : Tid) (i : Nat) : List Word → State
  | [] => s
  | v :: vs => writeWords (writeWord s t i v) t (i + 1) vs

/-- Claim consecutive words (R42); v0 claims nothing (R41). -/
def claimWords (s : State) (t : Tid) (i : Nat) : Nat → State
  | 0 => s
  | n + 1 => claimWords (setTag s t i .pend) t (i + 1) n

def arriveWords (s : State) (t : Tid) (i : Nat) : List Word → State
  | [] => s
  | v :: vs => arriveWords (arriveWord s t i v) t (i + 1) vs

def lossWords (s : State) (t : Tid) (i : Nat) (r : Word) : Nat → State
  | 0 => s
  | n + 1 => lossWords (lossWord s t i r) t (i + 1) r n

/-- A 64-bit register pair as a value (R6, R79): v0 as a pair reads 0 and does not read v1. -/
def pairVal (s : State) (t : Tid) (i : Nat) : DWord :=
  if i = 0 then 0 else pairOf (regGet s t i).val (regGet s t (i + 1)).val

/-- A trap register: bank word `n` of the handler bank (R257, R258). -/
def bankGet (s : State) (t : Tid) (n : Nat) : Word := (regGet s t ((s.who t).k.regs + n)).val
def bankPut (s : State) (t : Tid) (n : Nat) (v : Word) : State := regPut s t ((s.who t).k.regs + n) ⟨v, .full⟩
def bankPair (s : State) (t : Tid) (n : Nat) : DWord := pairOf (bankGet s t n) (bankGet s t (n + 1))
def bankPutPair (s : State) (t : Tid) (n : Nat) (v : DWord) : State :=
  bankPut (bankPut s t n (loWord v)) t (n + 1) (hiWord v)

/-- ENTRY of TRAP_MASK (R258); a thread without a handler has no bank and is never in one. -/
def entryBit (s : State) (t : Tid) : Bool := (s.who t).k.hasHandler && bit (bankGet s t 23) 31

end Sys2Proof.Machine
end

