-- ==== Sys2Proof/Machine/Trans.lean ====
section
/-!
DEFINITION. Translation (R352-R359): the directory and table walk, leaf checks in their order, accessed and dirty
updates, and the translation caches.
-/
namespace Sys2Proof.Machine

/-- Who translates: a core, a copy engine, an SE or a walker, for one thread or request. `unit` numbers its cache:
core c is c, the copy engine of cluster c is 1152 + c, the SE of die d is 1200 + d (R359). `req` is the copy-engine request, its order plus one,
that holds its translations for the 64 KiB pages it is in (R359), 0 for none, and `item` the item of it that is being performed. -/
structure Ctx where
  unit : Nat
  part : Nat
  asid : Nat
  world : Bool
  house : Nat
  req : Nat := 0
  item : Nat := 0
  deriving DecidableEq, Repr

def Who.ctx (w : Who) : Ctx := { unit := w.g.core, part := w.k.part, asid := w.k.asid, world := w.k.world, house := w.k.house }

/-- The right an access needs; engine writes reach the wings frame (R238, R357). -/
inductive Need where
  | read | write | atomic | fetch | engWrite | engRead
  deriving DecidableEq, Repr

def Need.writes : Need → Bool
  | .write | .atomic | .engWrite => true
  | _ => false

/-- A failed translation: a walk failure (cause 0x05) with reason and level, a failed leaf check (cause 0x06), or a page whose Execute bit a
fetch finds clear (cause 0x03). -/
inductive TErr where
  | walk (reason level : Nat)
  | prot (info : Nat)
  | exec
  deriving DecidableEq, Repr

def TErr.cause : TErr → Nat
  | .walk _ _ => 0x05
  | .prot _ => 0x06
  | .exec => 0x03
def TErr.info : TErr → Word
  | .walk r l => BitVec.ofNat 32 (r * 16 + l)
  | .prot i => BitVec.ofNat 32 i
  | .exec => 0

/-- Whether a failed fetch is one of an absent or non-executable page (R64, R66); an address beyond 54 bits names no page (R357, log 93). -/
def TErr.absent : TErr → Bool
  | .walk r _ => r = 1 || r = 4
  | .exec => true
  | .prot _ => false
/-- The reason an engine's request loses with (R357). -/
def TErr.reason : TErr → Nat
  | .walk _ _ => 0x01
  | .prot _ | .exec => 0x02

/-- A walk that an uncorrectable error in an entry read stops is counted (R353, R292); tables are read inside the partition's ranges alone. -/
def walkCharge (s : State) (f : Nat) : TErr → State
  | .walk 3 _ => count s f 10 1
  | _ => s

/-- The index of a level and its leaf size (R353). -/
def tblIndex (va lvl : Nat) : Nat :=
  match lvl with
  | 0 => va / 2 ^ 39 % 2 ^ 15
  | 1 => va / 2 ^ 30 % 2 ^ 9
  | 2 => va / 2 ^ 21 % 2 ^ 9
  | _ => va / 2 ^ 16 % 2 ^ 5
def leafSize (lvl : Nat) : Nat :=
  match lvl with
  | 1 => 2 ^ 30
  | 2 => 2 ^ 21
  | _ => 2 ^ 16
def tblEntries (lvl : Nat) : Nat :=
  match lvl with
  | 0 => 2 ^ 15
  | 3 => 2 ^ 5
  | _ => 2 ^ 9

/-- R356, for an entry at index `i` of a table of level `lvl` with the entry after it. -/
def malformed (e next : DWord) (lvl i : Nat) : Bool :=
  if bit e 1 then
    bit e 11 || lvl == 0
    || (lvl == 2 && bits e 16 12 != 0) || (lvl == 1 && bits e 25 12 != 0)
    || (bit e 8 != (match place (frameOf e) with | .far _ => true | _ => false))
    || (bit e 9 && (i + 1 == tblEntries lvl || !(bit next 0 && bit next 1)))
  else
    bits e 11 10 != 0 || lvl == 3 || (lvl ≤ 1 && bits e 5 2 != 0)

/-- A leaf as found: its entry, the physical address of the entry, its level and its wings frame. -/
structure Leaf where
  e : DWord
  at_ : Nat
  lvl : Nat
  wings : Nat
  deriving DecidableEq, Repr

/-- The table levels from `lvl` on, at most `fuel` of them (R353). -/
def walkFrom (s : State) (p : Part) (va t lvl : Nat) : Nat → Except TErr Leaf
  | 0 => .error (.walk 2 lvl)
  | fuel + 1 =>
    let a := t + 8 * tblIndex va lvl
    if !inRanges p a then .error (.walk 5 lvl)
    else if granBad s a = some .uncorrectable then .error (.walk 3 lvl)
    else
      let e := read64 s a
      let nx := read64 s (a + 8)
      if !bit e 0 then .error (.walk 1 lvl)
      else if bit e 1 && bit e 9 && granBad s (a + 8) = some .uncorrectable then .error (.walk 3 lvl)
      else if malformed e nx lvl (tblIndex va lvl) then .error (.walk 2 lvl)
      else if bit e 1 then .ok ⟨e, a, lvl, frameOf nx⟩
      else walkFrom s p va (frameOf e + bits e 9 2 * 256) (lvl + 1) fuel

/-- A whole walk (R353). -/
def walk (s : State) (c : Ctx) (va : Nat) : Except TErr Leaf :=
  let p := s.part c.part
  let d := bits p.asidDir 51 20 * 2 ^ 20 + 16 * c.asid
  if va / 2 ^ 54 ≠ 0 then .error (.walk 4 0)
  else if !inRanges p d then .error (.walk 5 15)
  else if granBad s d = some .uncorrectable then .error (.walk 3 15)
  else
    let w0 := read64 s d
    if !bit w0 0 || bit (read32 s (d + 8)) 0 != c.world then .error (.walk 1 15)
    else walkFrom s p va (bits w0 51 18 * 2 ^ 18) 0 4

/-- Whether another package exports a house-window byte to a key (R425). -/
def houseOk (s : State) (key a : Nat) : Bool :=
  let o := a - 0x4000000000000
  o / 2 ^ 40 < 1024 && o % 2 ^ 40 < devBytes &&
  s.house.exports.any (fun x => x.1 = o / 2 ^ 40 && x.2.1 = key && decide (x.2.2.1 ≤ o % 2 ^ 40) && decide (o % 2 ^ 40 < x.2.2.2))

/-- The space that a place belongs to (R121). -/
def Place.space : Place → Option Space
  | .dev _ => some .g
  | .far _ => some .f
  | .house _ | .host _ => some .h
  | .nowhere => none

/-- The leaf checks of R357 in their order, for the byte at `pa`; `sp` is the opcode's space. -/
def leafCheck (s : State) (c : Ctx) (e : DWord) (pa : Nat) (need : Need) (sp : Option Space) : Option TErr :=
  let p := s.part c.part
  let raw := place pa
  if raw = .nowhere then some (.prot 0x18)
  else if (match sp with | some x => raw.space != some x | none => false) then some (.prot 0x10)
  else if (match raw with | .dev _ => !inRanges p pa | _ => false) then some (.prot 0x1B)
  else if (match s.where_ pa with
      | .house a => !houseOk s c.house a
      | .dev a => (match raw with | .house _ => !(s.parts.any (fun q => q.2.houseKey.toNat = c.house && c.house ≠ 0 && inRanges q.2 a)) | _ => false)
      | _ => false) then some (.prot 0x60)
  else if bit e 7 != c.world || (inSecure p pa && !bit e 7) then some (.prot 0x17)
  else if (match need with | .read | .engRead | .atomic => !bit e 2 | _ => false) then some (.prot 0x14)
  else if need.writes && !bit e 3 then some (.prot 0x15)
  else if need = .fetch && !bit e 4 then some .exec
  else none

/-- The frame an access reaches: engine writes reach the wings frame of a pair (R238). -/
def frameFor (e : DWord) (wings : Nat) (need : Need) : Nat :=
  if need = .engWrite && bit e 9 then wings else frameOf e

/-- A and D as the walker sets them, in one step at the owning SE, before it caches a translation (R358). -/
def adSet (e : DWord) (need : Need) : DWord := e ||| 0x40 ||| (if need.writes then 0x20 else 0)

/-- The walker that serves a unit: walker 1204 + d is that of die d (log 94). -/
def walkerOf (u : Nat) : Nat := 1204 + (if u < 1152 then coreDie u else if u < 1200 then clusterDie (u - 1152) else (u - 1200) % 4)

/-- The translation that a unit, or its walker, has cached for a byte (R359). -/
def cacheHit (s : State) (c : Ctx) (va : Nat) : Option TlbEntry :=
  (at_ s.tlbs c.unit [] ++ at_ s.tlbs (walkerOf c.unit) []).find? (fun x =>
    x.part = c.part && x.asid = c.asid && decide (x.va ≤ va) && decide (va < x.va + x.size))

def cacheAdd (s : State) (u : Nat) (x : TlbEntry) : State :=
  { s with tlbs := put s.tlbs u (x :: (at_ s.tlbs u []).filter (fun y =>
      !(y.part = x.part && y.asid = x.asid && decide (y.va < x.va + x.size) && decide (x.va < y.va + y.size)))) }

/-- The inboxes that groups have, placed or awaiting a relaunch: the kernel, EV_BASE and where each lies (R309). -/
def inboxes (s : State) : List (Kernel × Nat × Nat) :=
  (s.groups.filter (fun g => g.2.evBase ≠ 0)).map (fun g => (s.kernel (s.gang g.2.gang).kernel, g.2.evBase, g.2.evPhys))
  ++ s.gangs.flatMap (fun g => (g.2.inbox.filter (fun b => b.2.1 ≠ 0)).map (fun b => (s.kernel g.2.kernel, b.2)))

/-- Where the inbox of a group of the address space stands, for an address that no table maps (R309, log 67). -/
def inboxFrame (s : State) (c : Ctx) (va : Nat) : Option Nat :=
  (inboxes s).findSome? (fun b =>
    if b.1.part = c.part && b.1.asid = c.asid && b.1.world == c.world && va / 2048 = b.2.1 / 2048
    then some (b.2.2 + va % 2048) else none)

/-- A leaf that grants what an inbox does. -/
def inboxLeaf (c : Ctx) : DWord := if c.world then 0xCF else 0x4F

/-- Translate one byte's address: the cached translation where it serves, else a walk from memory, which is always made
before a fault is reported (R357, R358, R359). -/
def translate (s : State) (c : Ctx) (va : Nat) (need : Need) (sp : Option Space) : Except TErr (Nat × State) :=
  let fromCache : Option Nat :=
    match cacheHit s c va with
    | some x =>
      if need.writes && !bit x.leaf 5 then none
      else
        let pa := frameFor x.leaf x.wings need + (va - x.va)
        if (leafCheck s c x.leaf pa need sp).isNone then some pa else none
    | none => none
  match fromCache with
  | some pa => .ok (pa, s)
  | none =>
    match walk s c va with
    | .error e =>
      (match inboxFrame s c va with
       | none => .error e
       | some pa => match leafCheck s c (inboxLeaf c) pa need sp with
         | some x => .error x
         | none => .ok (pa, s))
    | .ok l =>
      let size := leafSize l.lvl
      let pa := frameFor l.e l.wings need + va % size
      match leafCheck s c l.e pa need sp with
      | some e => .error e
      | none =>
        let e' := adSet l.e need
        let s1 := if e' = l.e then s else performBytes s l.at_ (bytes64 e')
        let x : TlbEntry := ⟨c.part, c.asid, va - va % size, size, e', l.wings, l.at_⟩
        .ok (pa, cacheAdd (cacheAdd s1 (walkerOf c.unit) x) c.unit x)

/-- Translate every byte of an access with a translator, page by page: the address of its first byte on each 64 KiB step, with the first
faulting byte where one fails (R121). -/
def rangeWith (f : State → Nat → Except TErr (Nat × State)) (s : State) (va n : Nat) : Except (TErr × Nat) (List (Nat × Nat) × State) :=
  let first := 65536 - va % 65536
  match f s va with
  | .error e => .error (e, va)
  | .ok (pa, s1) =>
    if n ≤ first then .ok ([(pa, n)], s1)
    else
      match f s1 (va + first) with
      | .error e => .error (e, va + first)
      | .ok (pb, s2) => .ok ([(pa, first), (pb, n - first)], s2)

/-- Translate every byte of an access (R121). -/
def translateRange (s : State) (c : Ctx) (va n : Nat) (need : Need) (sp : Option Space) :
    Except (TErr × Nat) (List (Nat × Nat) × State) :=
  rangeWith (fun s va => translate s c va need sp) s va n

end Sys2Proof.Machine
end

