-- ==== Sys2Proof/Machine/Post.lean ====
section
/-!
DEFINITION. The device's posts: event inboxes (R309-R311), host event queues and MSI-X (R420), and the two log queues.
-/
namespace Sys2Proof.Machine

/-- An entry's eight words (R310). -/
def entryWords (s : State) (kind : Nat) (bereaved : Bool) (source : Nat) (payload : List Word) : List Word :=
  [BitVec.ofNat 32 (kind + (if bereaved then 256 else 0)), BitVec.ofNat 32 source,
   BitVec.ofNat 32 s.hbt, BitVec.ofNat 32 (s.hbt / 2 ^ 32)] ++ (payload ++ [0, 0, 0, 0]).take 4

/-- The inbox's control fields: HEAD, COUNT, DROPPED (R309). -/
def inbox (s : State) (base : Nat) : Nat × Nat × Nat :=
  (bits (read32 s base) 5 0, bits (read32 s (base + 4)) 5 0, (read32 s (base + 8)).toNat)

def inboxBad (s : State) (base : Nat) : Bool :=
  let (h, c, _) := inbox s base
  (read32 s base).toNat ≠ h || (read32 s (base + 4)).toNat ≠ c || h = 0

/-- A post ends the EVWAITs of the group's threads (R312). -/
def postWakes (s : State) (v : Nat) : State :=
  s.mapGroup v (fun _ th => match th.wait with
    | .evwait _ _ => { th with wait := .posted }
    | _ => th)

/-- The gang under which a group awaits its relaunch, with the inbox it keeps (R277, R309). -/
def awaiting (s : State) (v : Nat) : Option (Nat × Gang) := s.gangs.find? (fun g => (look g.2.inbox v).isSome)

/-- Where the inbox of a group lies that is placed, or that awaits its relaunch. -/
def inboxAt (s : State) (v : Nat) : Option Nat :=
  match look s.groups v with
  | some g => some g.evPhys
  | none => (awaiting s v).bind (fun g => (look g.2.inbox v).map (·.2))

/-- Post an entry to a group's inbox, or count it dropped (R309, R311). -/
def postInbox (s : State) (v kind : Nat) (bereaved : Bool) (source : Nat) (payload : List Word) : State :=
  match inboxAt s v with
  | none => s
  | some b =>
    let (h, c, d) := inbox s b
    if inboxBad s b || c = 63 then performBytes s (b + 8) (bytesOf [BitVec.ofNat 32 (d + 1)])
    else
      let slot := (h - 1 + c) % 63 + 1
      let s1 := performBytes s (b + 32 * slot) (bytesOf (entryWords s kind bereaved source payload))
      postWakes (performBytes s1 (b + 4) (bytesOf [BitVec.ofNat 32 (c + 1)])) v

/-- Signal an MSI-X vector of a function (R420, R437). -/
def msix (s : State) (f v : Nat) : State := s.updFn f (fun x => { x with msix := x.msix ++ [v] })

/-- Write one entry of the host event queue, if there is room. -/
def heqWrite (s : State) (f : Nat) (ws : List Word) : State :=
  let x := s.fn f
  let s1 := performBytes s (x.heqBase + 32 * (x.heqTail.toNat % 2 ^ x.heqLog2n)) (bytesOf ws)
  msix (s1.updFn f (fun x => { x with heqTail := x.heqTail + 1 })) f 1

def heqRoom (x : Fn) : Bool := x.heqEn && (x.heqTail - x.heqHead).toNat < 2 ^ x.heqLog2n

/-- With entries dropped and room, the overflow entry comes first (R420). -/
def heqFlush (s : State) (f : Nat) : State :=
  let x := s.fn f
  if heqRoom x && x.heqDropped > 0 then
    (heqWrite s f (entryWords s 0x0F false 0 [BitVec.ofNat 32 x.heqDropped])).updFn f (fun y => { y with heqDropped := 0 })
  else s

/-- Post to a function's host event queue, or drop and count (R420). -/
def postHost (s : State) (f kind : Nat) (bereaved : Bool) (source : Nat) (payload : List Word) : State :=
  let s1 := heqFlush s f
  if heqRoom (s1.fn f) then heqWrite s1 f (entryWords s1 kind bereaved source payload)
  else s1.updFn f (fun x => { x with heqDropped := min (x.heqDropped + 1) 0xFFFF })

/-- Add to a bin of the lifetime histograms, saturating (R293). Bin 16c + n counts replays of core c at step n; bins from
0x10000, 0x20000, 0x21000 hold temperatures, register errors and memory errors by die. -/
def histAdd (s : State) (k : Nat) : State :=
  { s with mgmt := { s.mgmt with bins := upd s.mgmt.bins k 0 (fun n => min (n + 1) (2 ^ 64 - 1)) } }

/-- Log an entry of MGN_LOG for cycle `cyc`: sixteen, the oldest dropped (R283). -/
def mgnLog (s : State) (c kind cyc : Nat) : State :=
  s.updCore c (fun x =>
    let e := BitVec.ofNat 64 (2 ^ 63 + kind * 2 ^ 60 + x.step % 16 * 2 ^ 56 + x.nrep % 16 * 2 ^ 52 + cyc % 2 ^ 48)
    let l := x.mgnLog ++ [e]
    { x with mgnLog := if l.length > 16 then l.drop (l.length - 16) else l })

/-- Log a kill in a function's FLT_LOG: thirty-two, the oldest dropped (R303). -/
def fltLog (s : State) (f cause v : Nat) (info : Word) : State :=
  s.updFn f (fun x =>
    let e := BitVec.ofNat 64 (2 ^ 63 + cause * 2 ^ 55 + v * 2 ^ 33 + info.toNat)
    let l := x.fltLog ++ [e]
    { x with fltLog := if l.length > 32 then l.drop (l.length - 32) else l })

end Sys2Proof.Machine
end

