-- ==== Sys2Proof/Machine/Win.lean ====
section
/-!
DEFINITION. Accesses to another thread's words (R46, R52-R55, R118-R120, R342): finding the window, performing one access
at its word, ending the ones that wait, and revoking a window.
-/
namespace Sys2Proof.Machine

/-- TRAP_INFO of a window fault: the reason and the offset (R52). -/
def windowInfo (reason off : Nat) : Word := BitVec.ofNat 32 (reason + off % 512 * 256)

/-- The words of a 32- or 64-bit operand at V[i]; v0 is the constant 0, as a pair too (R41, R79). -/
def operandWords (s : State) (t : Tid) (i n : Nat) : List RegWord :=
  if i = 0 then List.replicate n ⟨0, .full⟩ else regGets s t i n

/-- Whether two threads share a core. -/
def sameCore (s : State) (t u : Tid) : Bool := t ≠ u && (s.group t.vgid).core = (s.group u.vgid).core

/-- Whether an access changes its word after its thread may have gone on. -/
def WinAcc.late (a : WinAcc) : Bool :=
  match a.kind with
  | .atomw _ _ => true
  | _ => false

/-- Whether an access reaches one of the words from V[i] up of a thread. -/
def WinAcc.on (a : WinAcc) (t : Tid) (i n : Nat) : Bool := a.owner = t && decide (a.reg < i + n) && decide (i < a.reg + a.n)

/-- Whether a direct access of the thread to its own words from V[i] up must wait for one under way through a window or a lane: its own, which
comes earlier in program order (R150), or of another thread of its core one that has been overtaken, or that the thread has seen to come earlier
(R152, log 86). -/
def ownAccOn (s : State) (t : Tid) (i n : Nat) : Bool :=
  s.accs.any (fun a => a.on t i n && (a.tid = t || (sameCore s t a.tid && (a.overtaken || (a.late && decide (a.id < (s.thread t).seen))))))

/-- Words that a direct read or write must wait for: one is PEND (R40), or an earlier access of the thread's own reaches one. -/
def busy (s : State) (t : Tid) (i n : Nat) : Bool := anyPend (regGets s t i n) || ownAccOn s t i n

/-- Write a 32- or 64-bit operand; v0 discards every word (R41, R79). -/
def operandWrite (s : State) (t : Tid) (i : Nat) (ws : List Word) : State := if i = 0 then s else writeWords s t i ws
def operandClaim (s : State) (t : Tid) (i n : Nat) : State := if i = 0 then s else claimWords s t i n
def operandArrive (s : State) (t : Tid) (i : Nat) (ws : List Word) : State := if i = 0 then s else arriveWords s t i ws
def operandLoss (s : State) (t : Tid) (i : Nat) (r : Word) (n : Nat) : State := if i = 0 then s else lossWords s t i r n
def operandTags (s : State) (t : Tid) (i n : Nat) (g : Tag) : State :=
  if i = 0 then s else (upto i n).foldl (fun s j => setTag s t j g) s

/-- The handle of a slot (R51): the cluster, core and slot of the export, and the generation. -/
def handleOf (core slot gen : Nat) : Word :=
  BitVec.ofNat 32 (clusterOf core * 2 ^ 26 + core % 24 * 2 ^ 21 + slot * 2 ^ 13 + gen * 2 ^ 5)

/-- The core, slot and generation a handle names. -/
def handleParts (h : Word) : Nat × Nat × Nat := (bits h 31 26 * 24 + bits h 25 21, bits h 20 13, bits h 12 5)

/-- Where the forwarding map leads a handle (R51, R269): its core and slot, and the generation it must find there. -/
def handleSlot (s : State) (h : Word) : Nat × Nat × Nat := at_ s.fwd (handleParts h) (handleParts h)

/-- The generation of the next export of a slot: from 255 on to 1 (R50). -/
def Slot.nextGen (x : Slot) : Nat := x.gen % 255 + 1

def slotAt (s : State) (core slot : Nat) : Slot := at_ (s.core core).slots slot {}
def setSlot (s : State) (core slot : Nat) (x : Slot) : State := s.updCore core (fun c => { c with slots := put c.slots slot x })

/-- The rights an access can need. -/
inductive Right where
  | read | write | take | give | readWrite
  deriving DecidableEq, Repr

def rightHeld (r : Rights) : Right → Bool
  | .read => r.r
  | .write => r.w
  | .take => r.t
  | .give => r.g
  | .readWrite => r.r && r.w

/-- The checks of R52 before the scope check, which WREV shares (R117). -/
def handleCheck (s : State) (w : Who) (h : Word) : Option Nat :=
  let (core, slot, gen) := handleSlot s h
  let d := slotAt s core slot
  if bits h 4 0 ≠ 0 || bits h 31 26 > 47 || bits h 25 21 > 23 then some 0x01
  else if d.part ≠ w.k.part || d.vf ≠ w.k.vf then some 0x04
  else if d.world != w.k.world then some 0x05
  else if !d.opened || d.gen ≠ gen then some 0x02
  else none

/-- All of R52's checks for an access of right `r` at offset `off`, `n` words. -/
def windowCheck (s : State) (w : Who) (h : Word) (off n : Nat) (r : Right) : Option Nat :=
  match handleCheck s w h with
  | some x => some x
  | none =>
    let (core, slot, _) := handleSlot s h
    let d := slotAt s core slot
    let oc := (s.group d.owner.vgid).core
    if (if d.clus then clusterOf oc ≠ clusterOf w.g.core else oc ≠ w.g.core) then some 0x06
    else if !rightHeld d.rights r then some 0x07
    else if off + n - 1 > d.lenm1 then some 0x08
    else none

/-- Make a thread READY at its instruction again, which reissues (R23). -/
def wakeRetry (s : State) (t : Tid) : State :=
  s.updThread t (fun th => if th.st = .waiting then { th with st := .ready, ready := s.cyc } else th)

/-- Make a held thread READY at the next instruction (R268 kind 2, R28): every such instruction is one word long. -/
def finishHeld (s : State) (t : Tid) : State :=
  s.updThread t (fun th =>
    if th.st = .waiting then { th with st := .ready, wait := .none, pc := th.pc + 8, ready := s.cyc } else th)

/-- A resident thread that waits, with what it waits for. -/
def waiting (s : State) (t : Tid) : Option Wait :=
  match look s.threads t with
  | some th => if th.st = .waiting && (s.group t.vgid).saved.isNone then some th.wait else none
  | none => none

/-- The threads whose tick has come go on (R137). -/
def tickWakes (s : State) : State :=
  s.threads.foldl (fun s p => match waiting s p.1 with
    | some (.hbt n) => if n ≤ s.hbt then finishHeld s p.1 else s
    | _ => s) s

/-- How an attempt at a word ends. -/
inductive AccOut where
  | done (s : State)
  | waits (pend : Bool)
  | traps (cause : Nat) (addr : Nat) (info : Word)

/-- The trap of a POISON word by its origin (R44). -/
def poisonCause (r : Word) : Nat :=
  match bits r 31 28 with
  | 2 => 0x0C
  | 3 => 0x14
  | _ => 0x07

/-- The first POISON word of a range: its register index and record. -/
def firstPoison : List RegWord → Nat → Option (Nat × Word)
  | [], _ => none
  | w :: r, i => if w.tag = .poison then some (i, w.val) else firstPoison r (i + 1)

/-- The operation of an atomic on its old value, `n` bytes wide (R338). -/
def atomApply (op : AtomOp) (signed : Bool) (bitsN : Nat) (old b c : Nat) : Nat :=
  let m := 2 ^ bitsN
  let sx (x : Nat) : Int := if signed && x ≥ m / 2 then (x : Int) - m else x
  match op with
  | .add => (old + b) % m
  | .min => if sx b < sx old then b else old
  | .max => if sx b > sx old then b else old
  | .and => old &&& b
  | .or => old ||| b
  | .xor => old ^^^ b
  | .exch => b
  | .cas => if old = b then c else old

/-- Window slots of a core that a gang reserves and those it has opened there. -/
def slotShare (s : State) (core : Nat) (g : Nat × Gang) : Nat × Nat :=
  ((g.2.slotCores.filter (· = core)).length * (s.kernel g.2.kernel).windows,
   ((s.core core).slots.filter (fun (p : Nat × Slot) => p.2.opened && (s.group p.2.owner.vgid).gang = g.1)).length)

/-- Window slots of a core that are spoken for: what each gang reserves there until it retires, or has opened, where that is more (R324, R35). -/
def slotDemand (s : State) (core : Nat) : Nat :=
  s.gangs.foldl (fun n g => n + max (slotShare s core g).1 (slotShare s core g).2) 0

/-- Whether a gang may open one more slot of a core: one it reserves there, or one that no gang reserves (R324). -/
def slotLeft (s : State) (core gk : Nat) : Bool :=
  let x := slotShare s core (gk, s.gang gk)
  decide (x.2 < x.1) || decide (slotDemand s core < 256)

/-- The words from V[i] up whose check bits disagree (R288). -/
def eccAt (s : State) (t : Tid) (i n : Nat) : List (Nat × Bool) := (s.thread t).ecc.filter (fun e => decide (i ≤ e.1) && decide (e.1 < i + n))

/-- Perform one access at its word, or say why it cannot yet (R40, R46, R118, R342). -/
def accTry (s : State) (a : WinAcc) : AccOut :=
  let ws := operandWords s a.owner a.reg a.n
  let vals := ws.map (·.val)
  let lose (r : Word) : AccOut := .done (operandLoss s a.tid a.dst r a.n)
  let poison := firstPoison ws a.reg
  match a.kind with
  | .wld | .lnrd =>
    if anyPend ws then .waits true
    else match poison with
      | some p => lose p.2
      | none => .done (operandArrive s a.tid a.dst vals)
  | .wst | .lnwr | .mcast _ =>
    if anyPend ws then .waits true else .done (operandWrite s a.owner a.reg a.vals)
  | .wtake =>
    match poison with
    | some p => lose p.2
    | none =>
      if anyPend ws then .waits true
      else if ws.all (·.tag = .full) then
        .done (operandArrive (operandTags s a.owner a.reg a.n .empty) a.tid a.dst vals)
      else .waits false
  | .wgive =>
    match poison with
    | some p => .traps (poisonCause p.2) (regAddr s a.owner p.1) p.2
    | none =>
      if anyPend ws then .waits true
      else if ws.all (·.tag = .empty) then .done (operandWrite s a.owner a.reg a.vals)
      else .waits false
  | .atomw op sg =>
    if anyPend ws then .waits true
    else match poison with
      | some p => lose p.2
      | none =>
        let new := atomApply op sg 32 (vals.headD 0).toNat (a.vals.headD 0).toNat (a.vals.getD 1 0).toNat
        .done (operandArrive (operandWrite s a.owner a.reg [BitVec.ofNat 32 new]) a.tid a.dst vals)
  | .probe => if anyPend ws then .waits true else .done s

def WinAcc.reads (a : WinAcc) : Bool :=
  match a.kind with
  | .wld | .wtake | .lnrd | .atomw _ _ => true
  | _ => false

/-- Whether an access changes its word's value or tag. -/
def WinAcc.writes (a : WinAcc) : Bool :=
  match a.kind with
  | .wld | .lnrd | .probe => false
  | _ => true

/-- Whether the wait on a PEND word has the bound of R46; a lane access has none (R119). -/
def WinAcc.bounded (a : WinAcc) : Bool :=
  match a.kind with
  | .lnrd | .lnwr => false
  | _ => true

def dropAcc (s : State) (id : Nat) : State := { s with accs := s.accs.filter (fun a => a.id ≠ id) }
def putAcc (s : State) (a : WinAcc) : State := { s with accs := s.accs.map (fun x => if x.id = a.id then a else x) }

/-- The number of an MCAST's deliveries falls by one; a performed delivery counts (R120). -/
def mcastStep (s : State) (p : Nat) (counted : Bool) (reason : Option Nat) : State :=
  { s with mcasts := s.mcasts.map (fun m =>
      if m.id = p then { m with left := m.left - 1, n := m.n + (if counted then 1 else 0),
                                timedOut := m.timedOut.or reason } else m) }

/-- What follows a performed access: a held accessor goes on, a multicast counts its delivery. -/
def accFinish (s : State) (a : WinAcc) : State :=
  let s1 := dropAcc s a.id
  match a.kind with
  | .wst | .wgive | .lnwr => finishHeld s1 a.tid
  | .mcast p => mcastStep s1 p true none
  | _ => s1

/-- An access that ends without a value (R46, R54): a read loses its destination, a held writer keeps the fault it will
take, a multicast's delivery is not counted. -/
def accEnd (s : State) (a : WinAcc) (reason : Nat) : State :=
  match a.kind with
  | .mcast p => mcastStep (dropAcc s a.id) p false (some reason)
  | _ =>
    if a.reads then dropAcc (operandLoss s a.tid a.dst (poisonRecord 5 (reason + a.off % 512 * 256)) a.n) a.id
    else putAcc s { a with ended := some (0x08, a.handle.toNat, windowInfo reason a.off) }

/-- Whether the window of an access has been revoked. -/
def WinAcc.closed (s : State) (a : WinAcc) : Bool := a.slot.any (fun x => !(slotAt s x.1 x.2).opened)

/-- Revoke a slot (R54): OPEN clears at once; accesses that do not wait complete, those that wait end with reason 0x0A. A read of a word whose
check bits disagree completes once it has been checked (R288). -/
def revoke (s : State) (core slot : Nat) : State :=
  let s1 := setSlot s core slot { slotAt s core slot with opened := false }
  (s.accs.filter (fun a => a.slot = some (core, slot) && a.ended.isNone)).foldl (fun s a =>
    if a.waiting then accEnd s a 0x0A
    else if a.reads && !(eccAt s a.owner a.reg a.n).isEmpty then s
    else match accTry s a with
      | .done s2 => accFinish s2 a
      | .waits _ => accEnd s a 0x0A
      | .traps c x i => putAcc s { a with ended := some (c, x, i) }) s1

/-- Whether a handle names a slot. -/
def namesSlot (s : State) (core slot : Nat) (h : Word) : Bool := (handleSlot s h).1 = core && (handleSlot s h).2.1 = slot

/-- Whether a word of a copy request waits in a window of a slot (R46). -/
def CeItem.waitsAt (s : State) (core slot : Nat) (i : CeItem) : Bool :=
  !i.done && i.since.isSome &&
    ((match i.dst with | .win h _ _ => namesSlot s core slot h | _ => false)
      || i.src.any (fun x => match x with | .win h _ _ => namesSlot s core slot h | _ => false))

/-- Whether a task waits for a word in a window of a slot (R193, R196). -/
def MtTask.waitsAt (s : State) (core slot : Nat) (t : MtTask) : Bool :=
  match t.since with
  | some (x, r, _) => t.regions.any (fun g => g.handle ≠ 0 && namesSlot s core slot g.handle && g.vgid = x.vgid && g.layer = x.layer &&
      decide (g.base ≤ r) && decide (r < g.base + g.len))
  | none => false

/-- INFLIGHT of a slot (R49): accesses of threads and of engines that have been accepted and are not complete. DESIGN CHOICE (log 96): an engine's
access is accepted as its request comes to the word, so that only one that waits there for PEND counts. -/
def inflight (s : State) (core slot : Nat) : Nat :=
  (s.accs.filter (fun a => a.slot = some (core, slot))).length
  + s.clusters.foldl (fun n c => n + (c.2.ce.foldl (fun n r => n + (r.items.filter (CeItem.waitsAt s core slot)).length) 0)
      + (c.2.mt.filter (MtTask.waitsAt s core slot)).length) 0

/-- The open slots of a group, as (core, slot). -/
def openSlots (s : State) (v : Nat) : List (Nat × Nat) :=
  s.cores.flatMap (fun c => (c.2.slots.filter (fun p => p.2.opened && p.2.owner.vgid = v)).map (fun p => (c.1, p.1)))

/-- Revoke every window a group exported (R34, R276). -/
def revokeAll (s : State) (v : Nat) : State := (openSlots s v).foldl (fun s p => revoke s p.1 p.2) s

end Sys2Proof.Machine
end

