-- ==== Sys2Proof/Machine/Queue.lean ====
section
/-!
DEFINITION. Task queues and the cellar (R329), both lists kept in pop order: by key, then by arrival.
-/
namespace Sys2Proof.Machine

/-- Insert behind every entry with the same key. -/
def qInsert : List QEntry → QEntry → List QEntry
  | [], e => [e]
  | x :: r, e => if x.key ≤ e.key then x :: qInsert r e else e :: x :: r

/-- Insert ahead of every entry with the same key (R392). -/
def qInsertHead : List QEntry → QEntry → List QEntry
  | [], e => [e]
  | x :: r, e => if x.key < e.key then x :: qInsertHead r e else e :: x :: r

/-- Take the place R329 gives a new entry: on chip unless an entry of its kernel in the cellar comes before it, or the chip
is full and its last entry does. -/
def qPlace (c : Core) (e : QEntry) (head : Bool) : Core :=
  let before (x : QEntry) : Bool := if head then x.key < e.key else x.key ≤ e.key
  let ins := if head then qInsertHead else qInsert
  if c.cellar.any (fun x => x.kernel = e.kernel && before x) then { c with cellar := ins c.cellar e }
  else if c.onchip.length < 64 then { c with onchip := ins c.onchip e }
  else
    match c.onchip.getLast? with
    | none => { c with onchip := [e] }
    | some l =>
      if before l then { c with cellar := ins c.cellar e }
      else { c with onchip := ins c.onchip.dropLast e, cellar := qInsertHead c.cellar l }

def qPush (c : Core) (e : QEntry) : Core := qPlace c e false

/-- The depth of a kernel's entries on a core (R343). -/
def qDepth (c : Core) (k : Nat) : Nat := ((c.onchip ++ c.cellar).filter (fun e => e.kernel = k)).length

/-- Remove the first entry that satisfies `p`. -/
def takeFirst {α : Type} (p : α → Bool) : List α → Option (α × List α)
  | [] => none
  | x :: r => if p x then some (x, r) else (takeFirst p r).map (fun y => (y.1, x :: y.2))

/-- The largest key on chip, the youngest among equals, is the last entry (R329). -/
def qReturnOne (c : Core) (e : QEntry) : Core :=
  if c.onchip.length < 64 then { c with onchip := qInsert c.onchip e }
  else
    match c.onchip.getLast? with
    | none => { c with onchip := [e] }
    | some l => { c with onchip := qInsert c.onchip.dropLast e, cellar := qInsertHead c.cellar l }

/-- One entry a refill returns: the next in pop order while the chip has room, or the next of the kernel a pop waits for
(R329); none when the refill has ended. -/
def qRefillOne (c : Core) (want : Option Nat) : Option Core :=
  match want with
  | none =>
    match c.cellar with
    | e :: r => if c.onchip.length < 64 then some { c with cellar := r, onchip := qInsert c.onchip e } else none
    | [] => none
  | some k =>
    match takeFirst (fun e => e.kernel = k) c.cellar with
    | some (e, r) =>
      if c.onchip.length ≥ 64 && c.onchip.getLast?.any (fun l => l.kernel = k) then none
      else some (qReturnOne { c with cellar := r } e)
    | none => none

def qRefill (c : Core) (want : Option Nat) : Nat → Core
  | 0 => c
  | n + 1 =>
    match qRefillOne c want with
    | none => c
    | some c1 => qRefill c1 want n

/-- Remove the last `n` entries, in pop order, that satisfy `p`: what stays and what leaves, in pop order. -/
def takeLast (p : QEntry → Bool) (n : Nat) (l : List QEntry) : List QEntry × List QEntry :=
  let r := l.reverse.foldl (fun (acc : List QEntry × List QEntry) e =>
    if p e && acc.2.length < n then (acc.1, e :: acc.2) else (e :: acc.1, acc.2)) ([], [])
  r

/-- Start a refill of a core's queue, unless the same one is under way (R329). -/
def qStart (c : Core) (want : Option Nat) : Core := if c.refill.contains want then c else { c with refill := c.refill ++ [want] }

/-- After entries have left the chip: at 48 or fewer, with some in the cellar, a refill starts (R329). -/
def qLeft (before c : Core) : Core :=
  if before.onchip.length > 48 && c.onchip.length ≤ 48 && !c.cellar.isEmpty then qStart c none else c

/-- Pop the first entry of a kernel: the entry, or none; `waits` where it must come from the cellar first (R329). -/
inductive QPop where
  | got (e : QEntry) (c : Core)
  | waits (c : Core)
  | empty
  deriving Repr

def qPop (c : Core) (k : Nat) : QPop :=
  match takeFirst (fun e => e.kernel = k) c.onchip with
  | some (e, r) => .got e (qLeft c { c with onchip := r })
  | none => if c.cellar.any (fun e => e.kernel = k) then .waits (qStart c (some k)) else .empty

/-- Move up to `n` of the entries the queue of core `a` would hand out last to core `b` (R315, R331). -/
def qMove (s : State) (a b : Nat) (p : QEntry → Bool) (n : Nat) : State × Nat :=
  let ca := s.core a
  let (cellar', m1) := takeLast p n ca.cellar
  let (chip', m2) := takeLast p (n - m1.length) ca.onchip
  let moved := m2 ++ m1
  let s1 := s.updCore a (fun c => qLeft c { c with onchip := chip', cellar := cellar' })
  (s1.updCore b (fun c => moved.foldl qPush c), moved.length)

end Sys2Proof.Machine
end

