-- ==== Sys2Proof/Machine/Estate.lean ====
section
/-!
DEFINITION. The estate (R380-R392): entries and their reservations, heirs, lock and promise words, conveyance, heirless
ends, settling by the host (R416); and the sibling ballot (R393-R398), with the page references it drops (R365).
-/
namespace Sys2Proof.Machine

/-- The VGID of the host (R381). -/
def hostVgid : Nat := 0x3FFFFF

/-- The kernel of a live or released group. -/
def kernelOfGroup (s : State) (v : Nat) : Option Nat :=
  match look s.groups v, awaiting s v with
  | some g, _ => some (s.gang g.gang).kernel
  | none, some g => some g.2.kernel
  | none, none => (look s.retired v).map (·.1)

/-- A live group: placed and not retired, though it may await a relaunch (R384, R277). -/
def liveGroup (s : State) (v : Nat) : Bool := (look s.groups v).isSome || (awaiting s v).isSome

/-- A default heir, resolved (R383): its kind as the launch record codes it, and its VGID. -/
def defaultHeir (k : Kernel) : HeirKind × Nat :=
  match k.hkind with
  | 0 => (.none, 0)
  | 1 => (.vgid, k.hvgid)
  | 2 => (.parent, match k.parent with | .group v => v | .host => hostVgid)
  | _ => (.host, hostVgid)

/-- Where a conveyance leads (R384). -/
inductive Heir where
  | group (v : Nat)
  | host
  | heirless
  deriving DecidableEq, Repr

/-- Follow dead heirs, each adding one to LINKS; `fuel` is eight less the links passed (R384). A group that conveys as it ends, `self`, counts as
dead (R390, log 90). -/
def followHeir (s : State) (self : Option Nat) (hk : HeirKind) (h : Nat) (links : Nat) : Nat → Heir × Nat
  | 0 => (.heirless, links)
  | fuel + 1 =>
    if hk = .none then (.heirless, links)
    else if h = hostVgid then (.host, links)
    else if liveGroup s h && self ≠ some h then (.group h, links)
    else if fuel = 0 then (.heirless, links + 1)
    else
      match kernelOfGroup s h with
      | none => (.heirless, links + 1)
      | some k =>
        if (s.kernel k).st = .ended then (.heirless, links + 1)
        else
          let d := defaultHeir (s.kernel k)
          followHeir s self d.1 d.2 (links + 1) fuel

def Est.goesTo (s : State) (e : Est) (self : Option Nat) : Heir × Nat := followHeir s self e.hkind e.heir 0 8

/-- The handle of an entry (R401). -/
def Est.handle (e : Est) : Word := BitVec.ofNat 32 (e.die * 2 ^ 16 + e.idx)

def EstKind.code : EstKind → Nat
  | .lock => 0
  | .promise => 1
  | .task => 2
def HeirKind.code : HeirKind → Nat
  | .none => 0
  | .vgid => 1
  | .parent => 2
  | .host => 3

def findEst (s : State) (die idx : Nat) : Option Est := s.estate.find? (fun e => e.die = die && e.idx = idx)
/-- The entry that names the word at an address (R407). -/
def estAt (s : State) (pa : Nat) : Option Est :=
  s.estate.find? (fun e => e.kind ≠ .task && canon s e.addr = canon s pa)
def putEst (s : State) (e : Est) : State :=
  { s with estate := s.estate.map (fun x => if x.die = e.die && x.idx = e.idx then e else x) }
def freeEst (s : State) (e : Est) : State :=
  { s with estate := s.estate.filter (fun x => !(x.die = e.die && x.idx = e.idx)) }

/-- A group's holdings in the order of R382: its own by SEQ, then those conveyed to it by arrival. Entries are kept in
creation and arrival order. -/
def insertBy {α : Type} (le : α → α → Bool) (x : α) : List α → List α
  | [] => [x]
  | y :: r => if le x y then x :: y :: r else y :: insertBy le x r
def sortBy {α : Type} (le : α → α → Bool) : List α → List α
  | [] => []
  | x :: r => insertBy le x (sortBy le r)

/-- SEQ a comes before SEQ b (R382). -/
def seqBefore (a b : Word) : Bool := (b - a).toNat < 2 ^ 31

def holdings (s : State) (v : Nat) : List Est :=
  let mine := s.estate.filter (fun e => e.holder = some v)
  sortBy (fun a b => a.seq = b.seq || seqBefore a.seq b.seq) (mine.filter (·.arr = 0))
    ++ sortBy (fun a b => a.arr ≤ b.arr) (mine.filter (·.arr ≠ 0))

/-- Whether a creation keeps the order of R382: its SEQ lies less than 2^31 after the oldest live holding's. -/
def seqOk (s : State) (v : Nat) : Bool :=
  (s.estate.filter (fun e => e.creator = v && e.holder = some v && e.arr = 0)).all
    (fun e => ((s.group v).created - e.seq).toNat < 2 ^ 31)

/-- Attic entries of a kind that placed gangs reserve on a die (R324). -/
def reserved (s : State) (die : Nat) (f : Kernel → Nat) : Nat :=
  (s.gangs.filter (fun g => g.2.st = .placed && clusterDie g.2.cl = die && !(s.kernel g.2.kernel).fr)).foldl
    (fun n g => n + f (s.kernel g.2.kernel)) 0

/-- Bytes of a partition's forerunner table in use (R324). -/
def frtUsed (s : State) (part : Nat) : Nat :=
  let here (v : Nat) : Bool := (s.kernel (s.gang (s.group v).gang).kernel).part = part
  let b := (s.barriers.filter (fun x => x.spill && here x.owner.vgid)).length
  let m := (s.threads.filter (fun x => x.2.monitor.any (·.spill) && here x.1.vgid)).length
  let e := (s.estate.filter (fun x => x.spill && x.part = part)).length
  let q := (s.holdq.filter (fun h => h.spill && here h.tid.vgid)).length
  b * 32 + m * 16 + e * 32 + q * 32

/-- Where one more entry of a gang comes from (R324): within its reservation, or in forerunner mode from the free entries of the attic,
and then from the forerunner table (true); none where neither has room. `used` are the gang's live entries, `loose` the entries of the
die's attic that no reservation covers. -/
def takeEntry (s : State) (w : Who) (used res : Nat) (die loose cap : Nat) (f : Kernel → Nat) (size : Nat) : Option Bool :=
  if !w.k.fr then (if used < res then some false else none)
  else if loose + reserved s die f < cap then some false
  else if frtUsed s w.k.part + size ≤ (s.part w.k.part).frtSize.toNat then some true
  else none

/-- Entries of a die's attic that no reservation covers: those of forerunner gangs, and conveyed holdings (R324). -/
def looseBarriers (s : State) (die : Nat) : Nat :=
  (s.barriers.filter (fun x => x.die = die && !x.spill && (s.who x.owner).k.fr)).length
def looseMonitors (s : State) (die : Nat) : Nat :=
  (s.threads.filter (fun p => p.2.monitor.any (fun m => !m.spill) && coreDie (s.group p.1.vgid).core = die && (s.who p.1).k.fr)).length
/-- The waiting HOLDs of a die's locks, each with an entry reserved (R403). -/
def holdsOn (s : State) (die : Nat) : List HoldWait := s.holdq.filter (fun h => dieOf (canon s h.addr) = die)
def looseEstate (s : State) (die : Nat) : Nat :=
  (s.estate.filter (fun e => e.die = die && !e.spill && e.rsvd.isNone)).length
    + ((holdsOn s die).filter (fun h => !h.spill && (s.who h.tid).k.fr)).length

/-- Where the issuer's gang can take an estate entry on a die (R402, R403): waiting HOLDs count, and a handle must have an index left to
name it, of the 16,384 that a die has (R401). -/
def estateTake (s : State) (w : Who) (die : Nat) : Option Bool :=
  let used := (s.estate.filter (fun e => e.rsvd = some w.gk)).length
    + (s.holdq.filter (fun h => (s.group h.tid.vgid).gang = w.gk)).length
  if 16384 ≤ (s.estate.filter (fun e => e.die = die)).length + (holdsOn s die).length then none
  else takeEntry s w used w.k.estate die (looseEstate s die) 16384 Kernel.estate 32

def estateFree (s : State) (w : Who) (die : Nat) : Bool := (estateTake s w die).isSome

/-- The index of a new entry on a die: some free one, which the spec leaves open (log 18). -/
def estIdx (s : State) (die : Nat) : Nat :=
  let used := (s.estate.filter (fun e => e.die = die)).map (·.idx) ++ (holdsOn s die).map (·.idx)
  (pickFree 16384 used (Config.freeValue s.fresh).toNat (used.length + 1)).getD 0

/-- A new entry for the group `v` on a die (R380-R383). -/
def newEst (s : State) (v : Nat) (die : Nat) (kind : EstKind) (seq : Word) (addr va : Nat) : Est :=
  let w := s.who ⟨v, 0, 0⟩
  let d := defaultHeir w.k
  { die := die, idx := estIdx s die, kind := kind,
    rsvd := if w.k.fr then none else some w.gk, hkind := d.1, heir := d.2, holder := some v, creator := v,
    fn := w.k.owner, vf := w.k.vf, part := w.k.part, world := w.k.world, seq := seq, addr := addr, va := va,
    spill := estateTake s w die = some true }

def addEst (s : State) (e : Est) : State := { s with estate := s.estate ++ [e], fresh := s.fresh + 1 }

/-- Take the group's next creation number (R382). -/
def nextSeq (s : State) (v : Nat) : Word × State :=
  ((s.group v).created, s.updGroup v (fun g => { g with created := g.created + 1 }))

/-- The fields of a lock word (R385): state, holder, index, count. -/
def lockWord (st holder idx count : Nat) : DWord := BitVec.ofNat 64 (st * 2 ^ 62 + holder * 2 ^ 40 + idx * 2 ^ 24 + count)
def lockState (x : DWord) : Nat := bits x 63 62
def lockHolder (x : DWord) : Nat := bits x 61 40
def lockIndex (x : DWord) : Nat := bits x 39 24
def lockCount (x : DWord) : Nat := bits x 23 0

/-- The fields of a promise word (R376). -/
def promWord (st holder val : Nat) : DWord := BitVec.ofNat 64 (st * 2 ^ 62 + holder * 2 ^ 40 + val)

def writeLockWord (s : State) (pa : Nat) (x : DWord) : State := performBytes s pa (bytes64 x)

def Est.holderCode (e : Est) : Nat := e.holder.getD hostVgid

/-- A stray store shows in the word: its state, holder or index does not match the entry (R387). -/
def stray (s : State) (e : Est) : Bool :=
  let x := read64 s e.addr
  match e.kind with
  | .lock => !((lockState x = 1 || lockState x = 2) && lockHolder x = e.holderCode && lockIndex x = e.idx)
  | .promise => !(lockState x = 0 && lockHolder x = e.holderCode)
  | .task => false

/-- The payload of a holding's post (R311). -/
def estPayload (e : Est) (extra : Nat) : List Word :=
  let va : DWord := if e.kind = .task then 0 else BitVec.ofNat 64 e.va
  [loWord va, hiWord va, BitVec.ofNat 32 (e.idx + e.kind.code * 2 ^ 16), BitVec.ofNat 32 extra]

/-- The function of a holding's holder: that of the holder's kernel, or of the creator's for what the host holds. -/
def Est.holderFn (s : State) (e : Est) : Nat :=
  match e.holder.bind (kernelOfGroup s) with
  | some k => (s.kernel k).owner
  | none => e.fn

/-- Cause 0x0D (R391): to the inbox of the holder's launching group while it lives, else to the host event queue of the
holder's function. -/
def postHeirless (s : State) (e : Est) (info : Nat) : State :=
  let src := e.holderCode
  let p := estPayload e info
  let toHost := postHost s (e.holderFn s) 0x02 e.bereaved src p
  match (e.holder.bind (kernelOfGroup s)).map (fun k => (s.kernel k).parent) with
  | some (.group v) => if liveGroup s v then postInbox s v 0x02 e.bereaved src p else toHost
  | _ => toHost

/-- Waiting HOLDs of the group that now holds a lock end with status 3 and its handle (R403). -/
def lockMine (s : State) (pa v : Nat) (hd : Word) : State :=
  let mine (h : HoldWait) : Bool := canon s h.addr = canon s pa && h.tid.vgid = v
  (s.holdq.filter mine).foldl (fun s h => finishHeld (operandArrive s h.tid h.dst [3, hd]) h.tid)
    { s with holdq := s.holdq.filter (fun h => !mine h) }

/-- A freed lock goes to the oldest waiting HOLD (R403): its thread receives status 0 and the handle of the entry it reserved. -/
def lockGrant (s : State) (pa : Nat) : State :=
  match takeFirst (fun h => canon s h.addr = canon s pa) s.holdq with
  | none => s
  | some (h, q) =>
    let s0 : State := { s with holdq := q }
    let e := { newEst s0 h.tid.vgid (dieOf (canon s pa)) .lock h.seq h.addr h.va with idx := h.idx, spill := h.spill }
    let x := read64 s pa
    let s2 := writeLockWord (addEst s0 e) pa (lockWord 1 h.tid.vgid e.idx ((lockCount x + 1) % 2 ^ 24))
    lockMine (finishHeld (operandArrive s2 h.tid h.dst [0, e.handle]) h.tid) pa h.tid.vgid e.handle

/-- A broken lock answers every waiter with status 2 (R403). -/
def lockBreak (s : State) (pa : Nat) : State :=
  let ws := s.holdq.filter (fun h => canon s h.addr = canon s pa)
  ws.foldl (fun s h => finishHeld (operandArrive s h.tid h.dst [2, 0]) h.tid)
    { s with holdq := s.holdq.filter (fun h => canon s h.addr ≠ canon s pa) }

/-- HFREE by the holder (R385). -/
def lockFree (s : State) (e : Est) : State :=
  let x := read64 s e.addr
  lockGrant (freeEst (writeLockWord s e.addr (lockWord 0 0 0 (lockCount x))) e) e.addr

/-- The end of a promise wakes the threads that wait on it, each with the word that ended it (R386, R408); a SAVED one issues again when it is
restored (R268, log 92). -/
def promWake (s : State) (pa : Nat) (x : DWord) : State :=
  { s with threads := s.threads.map (fun p =>
      if p.2.st = .waiting && p.2.wait = .promise (canon s pa) && (s.group p.1.vgid).saved.isNone then (p.1, { p.2 with wait := .kept x }) else p) }

/-- The end of a promise: its word, its entry and its waiters (R386). -/
def promEnd (s : State) (e : Est) (x : DWord) : State := promWake (freeEst (writeLockWord s e.addr x) e) e.addr x

/-- KEEP by the holder (R386): KEPT, or KEPT-BEREAVED when the entry carries the mark. -/
def promKeep (s : State) (e : Est) (v : Nat) : State :=
  promEnd s e (promWord (if e.bereaved then 3 else 1) e.holderCode (v % 2 ^ 40))

/-- The entry and its cause 0x0D when a stray store is found: the word stays as the store left it (R387). Where the store left a lock FREE or
BROKEN, HOLDs that wait for it are answered as R403 gives for such a word (log 47). -/
def strayEnd (s : State) (e : Est) : State :=
  let s1 := freeEst (postHeirless s e 2) e
  match e.kind, lockState (read64 s1 e.addr) with
  | .lock, 0 => lockGrant s1 e.addr
  | .lock, 3 => lockBreak s1 e.addr
  | _, _ => s1

/-- The claim record in the cellar's memory (R392): the entry's words, the key and the kernel; the others are 0 (log 95). -/
def claimRecordWords (q : QEntry) : List Word :=
  ((q.words ++ List.replicate 8 0).take 8 ++ [BitVec.ofNat 32 q.key, BitVec.ofNat 32 q.kernel] ++ List.replicate 6 0)

/-- The entry that a claim record holds, as memory gives it (R392, R409). -/
def claimOf (s : State) (e : Est) : Option QEntry :=
  e.claim.map (fun q => if e.addr = 0 then q
    else { q with words := wordsOf (physRead s e.addr 32), key := bits (read32 s (e.addr + 32)) 15 0 })

/-- A holding of a task ends: its claim record is freed with its entry (R392). -/
def taskFree (s : State) (e : Est) : State := freeEst (if e.addr = 0 then s else pinDrop s e.part e.addr) e

/-- A claimed task goes back to the head of its queue, marked (R392, R416). -/
def taskReturn (s : State) (e : Est) : State :=
  match claimOf s e with
  | none => freeEst s e
  | some q => taskFree (s.updCore e.qcore (fun c => qPlace c { q with bereaved := true } true)) e

/-- The end of a heirless holding (R391). -/
def heirlessEnd (s : State) (e : Est) : State :=
  match e.kind with
  | .lock =>
    let x := read64 s e.addr
    let s1 := writeLockWord s e.addr (lockWord 3 e.holderCode (lockIndex x) (lockCount x))
    lockBreak (freeEst (postHeirless s1 e 1) e) e.addr
  | .promise => promEnd s e (promWord 2 e.holderCode 0)
  | .task => taskReturn s e

/-- The word's new holder (R385, R386). -/
def holderWrite (s : State) (e : Est) (h : Nat) : State :=
  let x := read64 s e.addr
  match e.kind with
  | .lock => writeLockWord s e.addr (lockWord (if e.bereaved then 2 else lockState x) h e.idx (lockCount x))
  | .promise => writeLockWord s e.addr (promWord 0 h (bits x 39 0))
  | .task => s

/-- Convey one holding (R388-R391), `kill` marking it bereaved, `self` the group that ends: the state, and whether it ended without reaching an
heir. A lock that reaches a group ends the waits of that group's own HOLDs for it (R403). -/
def convey (s : State) (e0 : Est) (kill : Bool) (self : Option Nat) : State × Bool :=
  if stray s e0 then (strayEnd s e0, true)
  else
    let (dest, links) := e0.goesTo s self
    let e := { e0 with bereaved := e0.bereaved || kill, links := links }
    let src := e0.holderCode
    match dest with
    | .group v =>
      let (n, s1) := s.newId
      let e1 := { e with holder := some v, arr := n, rsvd := none }
      let s2 := putEst (holderWrite s1 e v) e1
      let s3 := if e.kind = .lock then lockMine s2 e.addr v e.handle else s2
      (postInbox s3 v 0x01 e.bereaved src (estPayload e 0), false)
    | .host =>
      if e.kind = .task then (postHost (taskReturn s e) (e0.holderFn s) 0x01 e.bereaved src (estPayload e 0), false)
      else
        let e1 := { e with holder := none, rsvd := none, fn := e0.holderFn s }
        (postHost (putEst (holderWrite s e hostVgid) e1) e1.fn 0x01 e.bereaved src (estPayload e 0), false)
    | .heirless => (heirlessEnd (putEst s e) e, true)

/-- Convey every holding of a group (R388, R389): its own in SEQ order, then those that reached it, in arrival order. -/
def conveyAll (s : State) (v : Nat) (kill : Bool) : State :=
  (holdings s v).foldl (fun s e =>
    match findEst s e.die e.idx with
    | some e1 => (convey s e1 kill (some v)).1
    | none => s) (if (look s.groups v).isSome then s.updGroup v (fun g => { g with conveying := true }) else s)

/-- A host write to the word of a holding the host holds (R416), 8 bytes of value `x` when `whole`. -/
def hostSettle (s : State) (e : Est) (x : DWord) (whole : Bool) (perform : State → State) : State :=
  if whole && !stray s e then
    match e.kind with
    | .lock => if x = 0 then lockFree s e else strayEnd (perform s) e
    | .promise => if bits x 63 62 = 1 then promKeep s e (bits x 39 0) else strayEnd (perform s) e
    | .task => perform s
  else strayEnd (perform s) e

/-- The count word of page `i` (R365). -/
def pageAddr (p : Part) (i : Nat) : Nat := bits p.kvpCnt 51 6 * 64 + 4 * i

/-- Write a count word, in one step at the hub (R365). -/
def pageWrite (s : State) (part i : Nat) (w : Nat) : State :=
  performBytes s (pageAddr (s.part part) i) (bytesOf [BitVec.ofNat 32 w])

/-- Whether a page index names an allocated page of the partition's pool (R365). -/
def pageOk (s : State) (part i : Nat) : Bool :=
  let p := s.part part
  bit p.kvpCtl 31 && decide (i ≤ bits p.kvpCtl 19 0) && bit (read32 s (pageAddr p i)) 31

/-- Drop one reference (R365): the status, and the state. -/
def pageDrop (s : State) (part i : Nat) : Nat × State :=
  if !pageOk s part i then (3, s)
  else
    let w := read32 s (pageAddr (s.part part) i)
    if bits w 15 0 > 1 then (0, pageWrite s part i (w.toNat - 1))
    else
      let s1 := pageWrite s part i (bits w 30 0 - bits w 15 0)
      (0, if bit w 24 then s1 else s1.updFn (bits w 30 25 + 1) (fun f => { f with kvqUsed := f.kvqUsed - 1 }))

/-- The ballot of a sibling kernel (R393). -/
def ballotOf (s : State) (k : Nat) : Option Ballot :=
  (s.kernel k).ballot.bind (fun p => s.ballots.find? (fun b => b.die = p.1 && b.idx = p.2))

/-- A sibling record (R393): its counts, NPAGES, and the pages. -/
def sibWords (r : SibRec) : List Word :=
  let two (n : Nat) : List Word := [BitVec.ofNat 32 n, BitVec.ofNat 32 (n / 2 ^ 32)]
  (two r.issue ++ two r.engine ++ two r.bytes ++ [BitVec.ofNat 32 r.pages.length] ++ List.replicate 9 0)
    ++ (r.pages.map (fun i => BitVec.ofNat 32 i) ++ List.replicate 256 0).take 256

/-- Write the record of a sibling's gang at its place (R393, log 53). -/
def sibStore (s : State) (gk : Nat) : State :=
  let g := s.gang gk
  match ballotOf s g.kernel with
  | some b => if b.recBase = 0 then s else performBytes s (b.recBase + 1088 * g.idx) (bytesOf (sibWords g.sib))
  | none => s

/-- Change the sibling record of a gang. -/
def updSib (s : State) (gk : Nat) (f : SibRec → SibRec) : State := s.updGang gk (fun g => { g with sib := f g.sib })

/-- Drop every page of a sibling's record, in record order, and empty it (R398). -/
def dropPages (s : State) (gk : Nat) : State :=
  let g := s.gang gk
  sibStore (updSib (g.sib.pages.foldl (fun s i => (pageDrop s (s.kernel g.kernel).part i).2) s) gk (fun r => { r with pages := [] })) gk
def putBallot (s : State) (b : Ballot) : State :=
  { s with ballots := s.ballots.map (fun x => if x.die = b.die && x.idx = b.idx then b else x) }

/-- The leading slot: the highest COUNT, then the lowest FIRSTTICK, then the lowest FIRSTIDX (R395). -/
def leading : List BallotSlot → Option BallotSlot
  | [] => none
  | x :: r =>
    match leading r with
    | none => some x
    | some y =>
      if x.count > y.count || (x.count = y.count && (x.firstTick < y.firstTick || (x.firstTick = y.firstTick && x.firstIdx ≤ y.firstIdx)))
      then some x else some y

/-- Mark sibling `i` ended, and close the ballot when every sibling has ended (R395). -/
def ballotEnd (s : State) (k i : Nat) : State :=
  match ballotOf s k with
  | none => s
  | some b =>
    let b1 := { b with ended := b.ended ||| BitVec.ofNat 64 (2 ^ i) }
    if (upto 0 b.sibn).all (fun j => bit b1.ended j) && !b.closed then
      let b2 := { b1 with closed := true }
      let b3 := if b2.verdict then b2
        else match leading b2.slots with
          | some x => { b2 with verdict := true, vhash := x.hash }
          | none => { b2 with noVerdict := true }
      putBallot s b3
    else putBallot s b1

/-- Charge a cancelled sibling's work to its ballot and to the cancelled-work counters of its function (R377, R398). -/
def ballotCharge (s : State) (gk : Nat) : State :=
  let k := (s.gang gk).kernel
  match ballotOf s k with
  | none => s
  | some b =>
    let r := (s.gang gk).sib
    let cap (n : Nat) : Nat := min n (2 ^ 64 - 1)
    let s1 := putBallot s { b with issue := b.issue + r.issue, engine := b.engine + r.engine, bytes := b.bytes + r.bytes }
    s1.updFn (s.kernel k).owner (fun f => { f with cIssue := cap (f.cIssue + r.issue), cEngine := cap (f.cEngine + r.engine),
                                                    cBytes := cap (f.cBytes + r.bytes) })

/-- Count sibling `i` in CANCELLED (R377). -/
def ballotCancelled (s : State) (k : Nat) : State :=
  match ballotOf s k with
  | none => s
  | some b => putBallot s { b with cancelled := b.cancelled + 1 }

/-- Whether sibling `i` posted and was counted (R395). -/
def ballotCounted (s : State) (k i : Nat) : Bool :=
  match ballotOf s k with
  | none => false
  | some b => bit b.counted i

end Sys2Proof.Machine
end

