-- ==== Sys2Proof/Machine/Kill.lean ====
section
/-!
DEFINITION. Ending work: settling a group's requests (R34, R276), killing a gang (R276, R261), cancelling a sibling (R377),
and releasing a group (R34, R35).
-/
namespace Sys2Proof.Machine

/-- V[i] as a restore reads it from the image: a word in a granule that fails its check, or whose tag lies in one, is lost (R290, log 16). -/
def imageWord (s : State) (t : Tid) (i : Nat) : RegWord :=
  match (s.group t.vgid).saved with
  | none => regGet s t i
  | some sv =>
    let (va, ta, _) := imageAt (s.who t).k sv t i
    if (granBad s va).isSome || (granBad s ta).isSome then ⟨poisonRecord 1 0, .poison⟩ else regGet s t i

/-- Count the granules of a save area that fail their check as it is read back (R290, R292). -/
def countArea (s : State) (v : Nat) : State :=
  let k := (s.who ⟨v, 0, 0⟩).k
  match (s.group v).saved with
  | none => s
  | some sv => (badGrans s sv.base (sv.tagOff + k.depth * (k.width * k.nw / 4) + 63)).foldl (fun s o =>
      match granBad s (sv.base + o) with
      | some g => countGran s k.owner k.part (sv.base + o) g
      | none => s) s

/-- Write a resident bank from a save image, word by word (R240, R274). -/
def loadImage (s0 : State) (v : Nat) : State :=
  let s := countArea s0 v
  let k := (s.who ⟨v, 0, 0⟩).k
  let regsOf (t : Tid) : Tab RegWord :=
    (upto 1 (k.nw - 1)).filterMap (fun i => let w := imageWord s t i; if w = {} then none else some (i, w))
  (s.mapGroup v (fun t th => { th with regs := regsOf t })).updGroup v (fun g => { g with saved := none })

/-- Return a save area to the partition's pool, or to its memory, and free the remap entries that led to it (R241, R276). -/
def freeArea (s : State) (v : Nat) : State :=
  match (s.group v).saved with
  | none => s
  | some sv =>
    let s1 := s.updCore (s.group v).core (fun c => { c with remap := c.remap.filter (fun e => e.2.vgid ≠ v) })
    s1.updPart (s.who ⟨v, 0, 0⟩).k.part (fun p => { p with
      pool := if sv.pool then p.pool.filter (fun a => a.1 ≠ sv.base) else p.pool, pins := p.pins.filter (fun a => a.1 ≠ sv.base) })

/-- Give back the inbox of a group (R309). -/
def dropInbox (s : State) (v : Nat) : State := pinDrop s (s.who ⟨v, 0, 0⟩).k.part (s.group v).evPhys

def CeState.live : CeState → Bool
  | .accepted | .running => true
  | _ => false

/-- Cancel what a request still owes a group that ends (R34 step 3, R228): the whole request when its payload writes the
group's registers, else only its stamp into them. -/
def CeReq.settle (v : Nat) (r : CeReq) : CeReq :=
  if r.tid.vgid = v && r.st.live then
    if r.own then { r with st := .cancelled, stamp := .none }
    else { r with stamp := match r.stamp with | .pair t x => if t.vgid = v then .none else .pair t x | x => x }
  else r

def MtState.live : MtState → Bool
  | .done | .faulted | .cancelled => false
  | _ => true

/-- A task whose issuer's group ends becomes CANCELLED, its stamp value with FAULT and REASON 0x7E, and its engine is freed
(R184, R219). -/
def mtCancel (s : State) (v : Nat) : State :=
  let gone := s.clusters.flatMap (fun c => (c.2.mt.filter (fun t => t.tid.vgid = v && t.st.live)).map (fun t => (t.home, t.seq)))
  let s1 := { s with clusters := s.clusters.map (fun c => (c.1, { c.2 with
    mt := c.2.mt.filter (fun t => !gone.contains (t.home, t.seq)),
    engines := c.2.engines.map (fun e => match e.2.task with
      | some q => if gone.contains q then (e.1, { e.2 with task := none, frozen := false }) else e
      | none => e) })) }
  gone.foldl (fun s q => s.updCluster q.1 (fun c => { c with
    stamps := put c.stamps q.2 (.cancelled, BitVec.ofNat 64 (2 ^ 63 + 0x7E * 2 ^ 56 + q.1 % 64 * 2 ^ 44 + q.2 % 2 ^ 44)) })) s1

/-- What a group's window accesses become as it ends (R34 step 3): one that writes another group's word goes on, without its result; of a killed
group none that has not been performed is (R34, R148, R276). -/
def accSettle (v : Nat) (kill : Bool) (a : WinAcc) : Option WinAcc :=
  if a.tid.vgid ≠ v then some a
  else if kill then none
  else match a.kind with
    | .atomw _ _ => if a.owner.vgid ≠ v then some { a with dst := 0 } else none
    | _ => none

/-- A request that has ended holds no translation (R359). -/
def onlyLive (s : State) : State :=
  { s with pieces := s.pieces.filter (fun p => s.clusters.any (fun c => c.2.ce.any (fun (r : CeReq) => r.order + 1 = p.req && r.st.live))) }

/-- Settle every request of a group (R34 step 3, R276 step 4). An atomic that has not been applied writes the group's registers: of a killed group it
is never applied, of one that exits its value is discarded (log 70). -/
def settle (s0 : State) (v : Nat) (kill : Bool) : State :=
  let s := mtCancel s0 v
  onlyLive { s with
    loads := s.loads.filter (fun l => l.tid.vgid ≠ v),
    results := s.results.filter (fun r => r.tid.vgid ≠ v),
    accs := s.accs.filterMap (accSettle v kill),
    mcasts := s.mcasts.filter (fun m => m.tid.vgid ≠ v),
    holdq := s.holdq.filter (fun h => h.tid.vgid ≠ v),
    atomics := (s.atomics.filter (fun a => !(kill && a.tid.vgid = v))).map (fun a => if a.tid.vgid = v then { a with live := false } else a),
    parts := s.parts.map (fun p => (p.1, { p.2 with devq := p.2.devq.map (fun q =>
      if q.ret.any (fun x => x.1.vgid = v) then { q with ret := none } else q) })),
    invs := s.invs.map (fun i => if i.tid.any (fun t => t.vgid = v) then { i with tid := none } else i),
    clusters := s.clusters.map (fun c => (c.1, { c.2 with ce := c.2.ce.map (CeReq.settle v) })) }

/-- Every thread of a group becomes EXITED at once, and its queued stores are discarded (R276 steps 1 and 2). -/
def exitGroup (s : State) (v : Nat) : State :=
  (s.mapGroup v (fun _ th => { th with st := .exited, wait := .none })).updGroup v
    (fun g => { g with queue := [], conveying := true })

/-- A gang without groups ends: the VGIDs of groups that awaited a relaunch are released, and their inboxes given back (R21, R35, R309, R324). -/
def releaseGang (s : State) (gk : Nat) : State :=
  let g := s.gang gk
  let s1 := g.inbox.foldl (fun (s : State) b =>
    { pinDrop s (s.kernel g.kernel).part b.2.2 with retired := put s.retired b.1 (g.kernel, s.hbt) }) s
  s1.updGang gk (fun g => { g with st := .ended, slotCores := [], inbox := [] })

/-- Whether an accepted reduction of a group has still to be applied: a conveyance, a release by the group, waits for it (R339, R380). -/
def redsPending (s : State) (v : Nat) : Bool := s.reds.any (fun r => r.tid.vgid = v)

/-- Kill a gang (R276); `final` holds what the completion record reports (R261), none for a kill that will be relaunched, a
cancellation or HALT. Groups that await a relaunch convey what has reached them; a group with a reduction under way conveys as it
retires (log 70). -/
def killGang (s : State) (gk : Nat) (isFinal : Bool) (info : Option KillInfo) : State :=
  let g := s.gang gk
  let vs := g.groups.filter (fun v => (look s.groups v).isSome)
  let s1 := vs.foldl exitGroup s
  let s2 := vs.foldl revokeAll s1
  let s3 := vs.foldl (fun s v => settle s v true) s2
  let s4 := (g.groups.filter (fun v => liveGroup s v && !redsPending s v)).foldl (fun s v => conveyAll s v true) s3
  let s5 := if (s.kernel g.kernel).sib then dropPages s4 gk else s4
  let s6 := vs.foldl (fun s v => if (s.group v).saved.isSome then loadImage (freeArea s v) v else s) s5
  let s7 := s6.updGang gk (fun g => { g with killed := some isFinal })
  let s7 := if vs.isEmpty then releaseGang s7 gk else s7
  let s8 := s7.updKernel g.kernel (fun k => { k with kill := k.kill.or info })
  if isFinal && (s.kernel g.kernel).sib then ballotEnd s8 g.kernel g.idx else s8

/-- The FLT_LOG entries of a kill (R276, R303): the queue of the kernel's VF, and the PF's, which holds every entry. -/
def logKill (s : State) (f cause v : Nat) (info : Word) : State :=
  let s1 := fltLog s f cause v info
  if f = 0 then s1 else fltLog s1 0 cause v info

/-- The final kill of an undelivered trap (R261). -/
def killFinal (s : State) (v cause : Nat) (pc addr : DWord) (info : Word) : State :=
  let w := s.who ⟨v, 0, 0⟩
  logKill (killGang s w.gk true (some ⟨cause, pc, addr, info⟩)) w.k.owner cause v info

/-- A kill by an uncorrectable error or a timing fault (R276, R277, R292): relaunched while the allowance lasts, else final. -/
def killIntegrity (s0 : State) (v : Nat) (pc addr : DWord) (info : Word) : State :=
  let w := s0.who ⟨v, 0, 0⟩
  let s := count s0 w.k.owner 12 1
  if w.gang.relaunches < w.k.allowance then logKill (killGang s w.gk false none) w.k.owner 0x10 v info
  else killFinal s v 0x10 pc addr info

/-- The function that is charged with an event: the requester's, where the place belongs to it, else the physical function (R292). -/
def charge (f owner : Nat) : Nat := if f = owner then f else 0

/-- A read of words of `t`, for function `f` and thread `u`, whose check bits disagree (R288): a single-bit error is corrected in the word and
counted, an uncorrectable one kills the gang that owns the word, in the name of the reader where it belongs to that gang (R303). -/
def eccRead (s : State) (f : Nat) (u t : Tid) (es : List (Nat × Bool)) : State :=
  let c := charge f (s.who t).k.owner
  let x := if (s.who u).gk = (s.who t).gk then u else t
  if es.any (·.2) then killIntegrity (count s c 1 1) x.vgid (s.thread x).pc 0 3
  else es.foldl (fun s e =>
    histAdd (count (s.updThread t (fun th => { th with ecc := th.ecc.filter (fun x => x.1 ≠ e.1) })) c 0 1)
      (0x20000 + coreDie (s.group t.vgid).core)) s

/-- Cancel a sibling's gang (R377): the kill, then the pages, then the account. -/
def cancelGang (s : State) (gk : Nat) : State :=
  let g := s.gang gk
  let s1 := s.updGang gk (fun g => { g with cancel := none, signal := none })
  let s2 := killGang s1 gk false none
  let s3 := ballotCancelled (ballotCharge s2 gk) g.kernel
  ballotEnd (s3.updGang gk (fun g => { g with killed := some true })) g.kernel g.idx

/-- A sibling gang that a verdict overtakes before it is placed never is (R377). -/
def neverPlace (s : State) (gk : Nat) : State :=
  let g := s.gang gk
  ballotEnd (ballotCancelled (releaseGang s gk) g.kernel) g.kernel g.idx

/-- Whether a request of the group's own reads its registers and is under way: retirement waits for it (R34 step 3). -/
def CeReq.readsOwn (v : Nat) (r : CeReq) : Bool :=
  r.tid.vgid = v && r.st.live && !r.own &&
    (r.kind = .bstore || r.items.any (fun i => !i.done && i.src.any (fun x => match x with | .reg t _ => t.vgid = v | _ => false)))

def readsPending (s : State) (v : Nat) : Bool := s.clusters.any (fun c => c.2.ce.any (CeReq.readsOwn v))

/-- A retired gang (R35): its phase arrival counts from now on, and its reservations go with it (R324). -/
def gangEnd (s : State) (gk : Nat) : State :=
  if (s.gang gk).groups.all (fun v => (look s.groups v).isNone) then releaseGang s gk else s

/-- Keep a group's creation counter with its gang (R382). -/
def keepCreated (s : State) (v : Nat) : State :=
  s.updGang (s.group v).gang (fun x => { x with created := put x.created v (s.group v).created })

/-- Free a group's words and release its VGID (R34 step 5, R21); its barrier entries and monitors go too (R128). -/
def freeGroup (s : State) (v : Nat) : State :=
  let w := s.who ⟨v, 0, 0⟩
  let s1 := { dropInbox (keepCreated s v) v with
    threads := s.threads.filter (fun p => p.1.vgid ≠ v),
    groups := s.groups.filter (fun g => g.1 ≠ v),
    barriers := s.barriers.filter (fun b => b.owner.vgid ≠ v),
    retired := put s.retired v (w.kn, s.hbt) }
  gangEnd s1 w.gk

/-- Retire a group whose threads have exited and whose queues are empty (R34). What has reached a killed group since its conveyance goes on bereaved
(R390). -/
def retireGroup (s : State) (v : Nat) : State :=
  let w := s.who ⟨v, 0, 0⟩
  let s1 := conveyAll (settle (revokeAll s v) v w.gang.killed.isSome) v w.gang.killed.isSome
  let s2 := if w.k.sib then sibStore (freeGroup s1 v) w.gk else freeGroup s1 v
  if w.k.sib && w.gang.killed.isNone && (s2.gang w.gk).st = .ended then ballotEnd s2 w.kn w.gang.idx else s2

end Sys2Proof.Machine
end

