-- ==== Sys2Proof/Machine/Ops.lean ====
section
/-!
DEFINITION. What every instruction shares: how an instruction stops, taking a trap and returning from it (R254-R264),
cancellation points (R397), operand reads, result writes and claims with their latches and the retained entry (R40-R43,
R67-R70), what a release or an acquire waits for (R125, R135), and the issue of one instruction by one thread, with the decode checks that need the thread (R75).
-/
namespace Sys2Proof.Machine

/-- How an instruction ends other than by completing its issue step. -/
inductive Stop where
  /-- Performs nothing and waits (R23). -/
  | wait (w : Wait)
  /-- A precise trap (R255). -/
  | trap (cause : Nat) (addr : DWord) (info : Word)
  /-- A latch restart (R68). -/
  | restart (pc : DWord)
  /-- Its effect is dispatched and the thread is held until it completes (R268 kinds 2 to 5). -/
  | hold (w : Wait) (s : State)
  /-- A trap raised after the instruction has completed (R255). -/
  | after (cause : Nat) (addr : DWord) (info : Word) (s : State)
  /-- Performed in part, and waits (R115). -/
  | part (w : Wait) (s : State)
  /-- A pending cancellation takes its place (R397). -/
  | cancel

abbrev Res (α : Type) := Except Stop α

/-- The class of a cause (R259). -/
def trapClass (cause : Nat) : Nat :=
  match cause with
  | 0x03 | 0x04 | 0x05 | 0x06 | 0x09 => 1
  | 0x07 | 0x08 | 0x0C | 0x0E => 2
  | 0x0A | 0x14 | 0x15 => 3
  | 0x0B => 4
  | 0x0F | 0x13 => 5
  | 0x10 => 6
  | 0x12 => 7
  | _ => 0

/-- Every latch invalid, producer records kept (R67). -/
def dropLatches (l : Tab Latch) : Tab Latch := l.map (fun (p : Nat × Latch) => (p.1, { p.2 with valid := false }))

/-- The three conditions of delivery (R260). -/
def delivers (s : State) (t : Tid) (cause : Nat) : Bool :=
  (s.who t).k.hasHandler && !entryBit s t && !bit (bankGet s t 23) (trapClass cause)

/-- Delivery of a trap (R260). -/
def deliver (s : State) (t : Tid) (cause : Nat) (pc addr : DWord) (info : Word) : State :=
  let mode := if (s.thread t).sys then 256 else 0
  let s1 := bankPut s t 31 (BitVec.ofNat 32 (cause + mode))
  let s2 := bankPutPair s1 t 26 pc
  let s3 := bankPutPair s2 t 28 addr
  let s4 := bankPut s3 t 30 info
  let s5 := bankPut s4 t 23 (bankGet s4 t 23 ||| 0x80000000)
  s5.updThread t (fun th => { th with
    st := .ready, wait := .none, sys := true, pc := bankPair s5 t 24, latches := dropLatches th.latches,
    retained := none, resuming := false, ready := s.cyc + 1 })

/-- A trap that reports a walk stopped by an uncorrectable error is an integrity event (R353, R292). -/
def trapCount (s : State) (t : Tid) (cause : Nat) (info : Word) : State :=
  if cause = 0x05 && info.toNat / 16 = 3 then count s (s.who t).k.owner 10 1 else s

/-- Taking a trap of kind P, D or A: its delivery (R260), or the final kill of the gang when it cannot be delivered (R261). -/
def takeTrap (s0 : State) (t : Tid) (cause : Nat) (pc addr : DWord) (info : Word) : State :=
  let s := trapCount s0 t cause info
  if delivers s t cause then deliver s t cause pc addr info else killFinal s t.vgid cause pc addr info

/-- The return from a trap (R262). -/
def trapReturn (s : State) (t : Tid) : State :=
  let s1 := bankPut s t 23 (bankGet s t 23 &&& 0x7FFFFFFF)
  s1.updThread t (fun th => { th with
    sys := bit (bankGet s t 31) 8, pc := bankPair s t 26, latches := dropLatches th.latches, retained := none,
    resuming := true })

/-- A thread of the gang other than `t` in its handler with ENTRY 1 (R397). -/
def otherHolder (s : State) (gk : Nat) (t : Tid) : Bool :=
  s.threads.any (fun (p : Tid × Thread) => (s.group p.1.vgid).gang = gk && p.1 ≠ t && p.2.st ≠ .exited && entryBit s p.1)

/-- What a cancellation point does while a cancellation is pending (R264, R397, R299), or none where it does nothing: the
notice first; then the kill, which waits while another thread of the gang is in its handler. The notified thread's own
handler has then ended: its ENTRY clears, so that two such threads do not wait for each other (log 21). -/
def takeCancel (s : State) (w : Who) (isTret : Bool) : Option State :=
  match w.gang.cancel with
  | none => none
  | some i =>
    let e := entryBit s w.t
    if e && !w.th.noticed && !isTret then none
    else if !isTret && !w.th.noticed && delivers s w.t 0x12 then
      some ((deliver s w.t 0x12 w.th.pc 0 (BitVec.ofNat 32 i)).updThread w.t (fun th => { th with noticed := true }))
    else if otherHolder s w.gk w.t then
      let s1 := if isTret || w.th.noticed then bankPut s w.t 23 (bankGet s w.t 23 &&& 0x7FFFFFFF) else s
      some (s1.updThread w.t (fun th => { th with st := .waiting, wait := .retry, noticed := th.noticed || isTret }))
    else some (cancelGang s w.gk)

/-- An explicit cancellation point. -/
def cancelPoint (w : Who) (s : State) : Res Unit :=
  if (takeCancel s w false).isSome then .error .cancel else .ok ()

/-- When an instruction is a cancellation point (R108, R397): never, where it would wait, or always. -/
inductive Cancel where
  | never | waits | always
  deriving DecidableEq, Repr

/-- What an instruction names, for the checks that come before its own. `srcs` are its A, B and C sources with their width in
words; `named` the other register fields it has, `remote` those
of another thread's registers, which never reach a handler bank (R55, R257), `dst` its destination; `len` its bytes and `cycles` its issue cycles; `sel` the
predicate that picks the one of A and B that is read (R92); `wrote` the registers it writes beside its destination (R70), `lists` those it reads
beside its fields; `polls` marks one that never waits for what it names (R115). -/
structure Use where
  srcs : List (Retain × Src × Nat) := []
  named : List (Nat × Nat) := []
  remote : List (Nat × Nat) := []
  dst : Option (Nat × Nat) := none
  sys : Bool := false
  pf : Bool := false
  cancel : Cancel := .waits
  len : Nat := 8
  cycles : Nat := 1
  collective : Bool := false
  tret : Bool := false
  sel : Option (BitVec 3 × Bool) := none
  wrote : Who → State → List (Nat × Nat) := fun _ _ => []
  lists : Who → State → List (Nat × Nat) := fun _ _ => []
  polls : Bool := false

/-- Every register field of the instruction, with its width in words. -/
def Use.regs (u : Use) : List (Nat × Nat) :=
  u.srcs.filterMap (fun x => match x.2.1 with | .reg i => some (i.toNat, x.2.2) | _ => none) ++ u.named ++ u.remote ++ u.dst.toList

/-- Decode checks 8 to 11 (R75): cause and TRAP_INFO of the first that fails. -/
def useCheck (w : Who) (u : Use) : Option (Nat × Word) :=
  let limit := if w.th.sys then w.k.regs + 23 else w.k.regs
  if u.sys && !w.th.sys then some (0x02, 0)
  else if u.pf && !w.k.pf then some (0x02, 1)
  else if u.regs.any (fun r => r.2 = 2 && r.1 % 2 = 1) then some (0x01, 8)
  else if u.regs.any (fun r => decide (limit ≤ r.1 + (r.2 - 1))) then some (0x01, 9)
  else if u.remote.any (fun r => decide (w.k.regs ≤ r.1 + (r.2 - 1))) then some (0x01, 9)
  else none

/-- The guard of a word (R58). -/
def guardTrue (h : Hdr) (th : Thread) : Bool := th.preds.getLsbD h.pidx.toNat ^^ h.pinv

/-- The sources the thread reads: with a selecting predicate, the selected one alone (R92). -/
def Use.reads (u : Use) (th : Thread) : List (Retain × Src × Nat) :=
  match u.sel with
  | none => u.srcs
  | some (p, neg) => u.srcs.filter (fun x => x.1 = (if th.preds.getLsbD p.toNat ^^ neg then Retain.a else Retain.b))

/-- The latches an instruction reads. -/
def Use.latches (u : Use) (th : Thread) : List Nat :=
  (u.reads th).filterMap (fun x => match x.2.1 with | .latch k => some k.toNat | _ => none)

/-- The restart or the trap of an invalid latch (R68): at the lowest sequence number, compared serially (log 80). -/
def latchGate (th : Thread) (u : Use) : Option Stop :=
  let bad := ((u.latches th).map (fun k => at_ th.latches k {})).filter (fun l => !l.valid)
  if bad.isEmpty then none
  else if bad.any (fun l => l.prod.isNone) then some (.trap 0x01 0 0xFFFFFFFD)
  else
    match sortBy (fun (a b : DWord × Word) => seqBefore a.2 b.2) (bad.filterMap (·.prod)) with
    | p :: _ => some (.restart p.1)
    | [] => none

/-- The words of the retained entry, as many as a read wants; those the entry does not hold are free values (R70, log 11). -/
def retainedWords (s : State) (r : Retained) (n : Nat) : List Word :=
  (upto 0 n).map (fun j => r.words.getD j ((Config.freeValue s.fresh).setWidth 32))

/-- An ordinary read of one operand of the issuer's registers (R40, R44, R45); v0 as a multi-word operand reads 0 (R79,
log 23). -/
def bankRead (w : Who) (s : State) (i n : Nat) : Res (List Word) :=
  let ws := operandWords s w.t i n
  if i ≠ 0 && busy s w.t i n then .error (.wait .retry)
  else match firstPoison ws i with
    | some p => .error (.trap (poisonCause p.2) (BitVec.ofNat 64 (regAddr s w.t p.1)) p.2)
    | none => .ok (ws.map (·.val))

/-- An ordinary read of a list of words, each its own register (R45). -/
def listRead (w : Who) (s : State) (i n : Nat) : Res (List Word) :=
  let ws := regGets s w.t i n
  if busy s w.t i n then .error (.wait .retry)
  else match firstPoison ws i with
    | some p => .error (.trap (poisonCause p.2) (BitVec.ofNat 64 (regAddr s w.t p.1)) p.2)
    | none => .ok (ws.map (·.val))

/-- A read of words that an instruction reaches but does not name (R288): one whose check bits disagree is corrected, or its gang is killed,
before the instruction goes on. -/
def readCheck (w : Who) (s : State) (ws : List (Tid × Nat)) : Res Unit :=
  match ws.find? (fun x => !(eccAt s x.1 x.2 1).isEmpty) with
  | none => .ok ()
  | some x => .error (.part .retry (eccRead s w.k.owner w.t x.1 (eccAt s x.1 x.2 1)))

/-- A register source: the retained entry where it serves, else the register file (R70). -/
def regRead (w : Who) (s : State) (i n : Nat) : Res (List Word) :=
  match w.th.retained with
  | some r => if r.idx = i && i ≠ 0 then .ok (retainedWords s r n) else bankRead w s i n
  | none => bankRead w s i n

def valueOf (ws : List Word) : DWord := pairOf (ws.getD 0 0) (ws.getD 1 0)
def wordsN (n : Nat) (v : DWord) : List Word := [loWord v, hiWord v].take n

/-- The value of a source of `n` words (R63, R68, R79, R81). -/
def src (w : Who) (s : State) (x : Src) (n : Nat) : Res DWord :=
  match x with
  | .reg i => (regRead w s i.toNat n).map valueOf
  | .latch k =>
    let v := (at_ w.th.latches k.toNat {}).val
    .ok (if n = 1 then pairOf (loWord v) 0 else v)
  | .imm v => .ok (if n = 1 then pairOf (v.signExtend 32) 0 else v.signExtend 64)

def src32 (w : Who) (s : State) (x : Src) : Res Word := (src w s x 1).map loWord

/-- Write a latch with its producer record (R67). -/
def setLatch (w : Who) (s : State) (d : Nat) (v : DWord) (valid : Bool) : State :=
  s.updThread w.t (fun th =>
    let l : Latch := ⟨if valid then v else (at_ th.latches (d % 8) {}).val, valid, some (w.th.pc, w.th.iseq)⟩
    { th with latches := put th.latches (d % 8) l })

/-- An ordinary write without a latch. -/
def writeReg (w : Who) (s : State) (d n : Nat) (v : DWord) : Res State :=
  if d ≠ 0 && busy s w.t d n then .error (.wait .retry) else .ok (operandWrite s w.t d (wordsN n v))

/-- A result complete at issue: the register write, unless N suppresses it, and the latch (R67). -/
def res (w : Who) (h : Hdr) (s : State) (d : BitVec 9) (n : Nat) (v : DWord) : Res State :=
  (if h.nw then .ok s else writeReg w s d.toNat n v).map (fun s1 => setLatch w s1 d.toNat (if n = 1 then pairOf (loWord v) 0 else v) true)

/-- Claim the words of one destination operand (R42); the latch turns invalid with this instruction as producer (R67). -/
def claim (w : Who) (s : State) (d n : Nat) : Res State :=
  if d ≠ 0 && busy s w.t d n then .error (.wait .retry)
  else .ok (setLatch w (operandClaim s w.t d n) d 0 false)

/-- Claim a list of words, each its own register (R42, R41). -/
def claimList (w : Who) (s : State) (d n : Nat) : Res State :=
  if busy s w.t d n then .error (.wait .retry)
  else .ok (setLatch w (claimWords s w.t d n) d 0 false)

/-- A result on its way to claimed words (R42, R174). -/
def pushResult (s : State) (t : Tid) (writes : List (Nat × Word)) (flags : BitVec 6) (float : Bool) : State :=
  let (n, s1) := s.newId
  { s1 with results := s1.results ++ [⟨n, t, writes, flags, float⟩] }

def numbered (d : Nat) (ws : List Word) : List (Nat × Word) := ws.zipIdx.map (fun x => (d + x.2, x.1))

/-- A claimed result of `n` words of a 32- or 64-bit destination; a destination v0 discards it (R41). -/
def resLater (w : Who) (s : State) (d : BitVec 9) (n : Nat) (v : DWord) : Res State :=
  (claim w s d.toNat n).map (fun s1 => pushResult s1 w.t (if d = 0 then [] else numbered d.toNat (wordsN n v)) 0 false)

/-- A claimed result of a list of words. -/
def resWords (w : Who) (s : State) (d : BitVec 9) (ws : List Word) : Res State :=
  (claimList w s d.toNat ws.length).map (fun s1 => pushResult s1 w.t (numbered d.toNat ws) 0 false)

/-- A predicate write; p7 discards it (R80). -/
def setPred (s : State) (t : Tid) (p : BitVec 3) (v : Bool) : State :=
  if p = 7 then s
  else s.updThread t (fun th =>
    let m : BitVec 8 := 1 <<< p.toNat
    { th with preds := if v then th.preds ||| m else th.preds &&& ~~~m })

/-- Set the program counter. -/
def setPc (s : State) (t : Tid) (pc : DWord) : State := s.updThread t (fun th => { th with pc := pc })

/-- A precise trap from an instruction's own check. -/
def trapIf (c : Bool) (cause : Nat) (addr : DWord) (info : Word) : Res Unit := if c then .error (.trap cause addr info) else .ok ()

/-- A destination or source range that reaches the declared count (0x0000_0020). -/
def rangeIf (w : Who) (d n : Nat) : Res Unit := trapIf (decide (w.k.regs < d + n)) 0x06 0 0x20

/-- A run of words that the thread's mode must be able to name (R257, log 66). -/
def spanIf (w : Who) (d n : Nat) : Res Unit :=
  trapIf (decide ((if w.th.sys then w.k.regs + 23 else w.k.regs) < d + n)) 0x06 0 0x20

/-- Whether a source with the retained index reads more words than the entry holds. -/
def retainedShort (w : Who) (u : Use) : Bool :=
  match w.th.retained with
  | some r => (u.reads w.th).any (fun x => match x.2.1 with | .reg i => i.toNat = r.idx && decide (r.words.length < x.2.2) | _ => false)
  | none => false

/-- The thread past an instruction issued in cycle `c`: next PC, one more issued instruction, READY the cycle after, no retained
entry. -/
def pastThread (u : Use) (c : Nat) (th : Thread) : Thread :=
  { th with
    pc := th.pc + BitVec.ofNat 64 u.len, iseq := th.iseq + 1, ready := c + u.cycles, retained := none,
    resuming := false, wait := .none }

/-- A core whose issue stage an instruction of `n` cycles holds from cycle `c` (R26). -/
def holdIssue (n c : Nat) (x : Core) : Core := if n = 1 then x else { x with free := max x.free (c + n) }

/-- The issuer past this instruction, and its core's issue stage held for the instruction's cycles. -/
def advance (w : Who) (u : Use) (s : State) : State :=
  { s with
    threads := put s.threads w.t (pastThread u s.cyc (s.thread w.t)),
    cores := put s.cores w.g.core (holdIssue u.cycles s.cyc (s.core w.g.core)),
    fresh := if retainedShort w u then s.fresh + 1 else s.fresh }

/-- The retained entry an instruction leaves (R70): the words of the source it names, as read for it in `s`; none where it writes one of them, by
its destination, as its meaning says, or as `s1`, which it leaves, shows. -/
def retainOf (h : Hdr) (u : Use) (w : Who) (s s1 : State) : Option Retained :=
  match (u.reads w.th).find? (fun x => x.1 = h.retain) with
  | some (_, .reg i, n) =>
    let wrote := ((if h.nw then [] else u.dst.toList) ++ u.wrote w s).any (fun x => decide (x.1 < i.toNat + n) && decide (i.toNat < x.1 + x.2))
    if h.retain = .none || wrote || regGets s w.t i.toNat n ≠ regGets s1 w.t i.toNat n then none
    else match regRead w s i.toNat n with
      | .ok ws => some ⟨i.toNat, ws⟩
      | .error _ => none
  | _ => none

/-- Count one issued thread-instruction in the account of a sibling (R377). -/
def countIssue (w : Who) (s : State) : State :=
  if w.k.sib then updSib s w.gk (fun r => { r with issue := r.issue + 1 }) else s

/-- Make a thread WAITING, its instruction not performed (R23). -/
def waitOn (w : Who) (s : State) (k : Wait) : State :=
  s.updThread w.t (fun th => { th with st := .waiting, wait := k })

/-- The thread as it was before this instruction, for a trap that keeps a change made on the way to it. -/
def unissued (w : Who) (s : State) : State :=
  s.updThread w.t (fun th => { th with pc := w.th.pc, iseq := w.th.iseq, retained := w.th.retained, resuming := w.th.resuming })

/-- Accesses of a thread numbered below `n` that are still under way. -/
def outBefore (s : State) (t : Tid) (n : Nat) : Bool :=
  s.loads.any (fun l => l.tid = t && l.id < n) || s.atomics.any (fun a => a.tid = t && a.id < n) || s.accs.any (fun a => a.tid = t && a.id < n)
  || (s.group t.vgid).queue.any (fun e => e.tid = t && e.id < n) || s.reds.any (fun r => r.tid = t && r.id < n)

/-- A WTAKE under way, an acquire if it synchronises (R144, R145, log 65). -/
def takePending (s : State) (t : Tid) : Bool := s.accs.any (fun a => a.tid = t && a.kind = .wtake)

/-- An access of the thread that its later ones wait for: an acquire whose data has not arrived (R125, R144, R337), or one issued before the
thread moved to another core (R144). -/
def acqPending (s : State) (t : Tid) : Bool :=
  s.loads.any (fun l => l.tid = t && l.acq ≠ .relaxed) || s.atomics.any (fun a => a.tid = t && a.ord ≠ .relaxed)
  || s.reds.any (fun r => r.tid = t && r.ord ≠ .relaxed) || takePending s t
  || (s.group t.vgid).queue.any (fun e => e.tid = t && e.red.isSome && e.rel ≠ .relaxed) || outBefore s t (s.thread t).moved

/-- A later access to memory, through a window or by an engine waits behind an acquire, whatever names its operands (R125, R144). -/
def acqGate (w : Who) (s : State) : Res Unit := if acqPending s w.t then .error (.wait .retry) else .ok ()

/-- Outstanding reads of a thread: loads, returning atomics, and window and lane accesses. -/
def loadsOut (s : State) (t : Tid) : Bool :=
  s.loads.any (fun l => l.tid = t) || s.atomics.any (fun a => a.tid = t) || s.accs.any (fun a => a.tid = t)

/-- The thread's own queued stores and REDs, and REDs accepted and not applied (R339). -/
def storesOut (s : State) (t : Tid) : Bool :=
  (s.group t.vgid).queue.any (fun e => e.tid = t) || s.reds.any (fun r => r.tid = t)

/-- What a release waits for (R125, R135, R339): earlier loads and window accesses done, every observed write performed. -/
def releaseReady (s : State) (t : Tid) : Bool := !loadsOut s t && !storesOut s t

def releaseGate (w : Who) (s : State) : Res Unit := if releaseReady s w.t then .ok () else .error (.wait .retry)

/-- A held instruction that issues again when its wait ends, and counts as issued only then (R67). -/
def Wait.reissues : Wait → Bool
  | .promised _ _ | .csave _ _ => true
  | _ => false

/-- A wait of an instruction that has read its operands, and whose effect or wait goes on: it reads none again, and nothing holds it back
(R107, R131, R268, R306). -/
def Wait.begun : Wait → Bool
  | .promised _ _ | .slept _ _ | .csave _ _ | .counted _ => true
  | _ => false

/-- What an instruction held back by an earlier access waits for: what it waited for already, where it did. -/
def Wait.held (x : Wait) : Wait := if x = .none then .retry else x

/-- What a stopped instruction leaves, from the state `s` before it issued; a check-byte event is counted (R179, R292). -/
def stopped (h : Hdr) (u : Use) (w : Who) (s : State) (x : Stop) : State :=
  match x with
  | .wait k =>
    match (if u.cancel = .never then none else takeCancel s w false) with
    | some s1 => s1
    | none => waitOn w s k
  | .trap c a i =>
    takeTrap (if c = 0x10 && i = 0x100 then count s w.k.owner 11 1 else s) w.t c w.th.pc a i
  | .restart pc => s.updThread w.t (fun th => { th with pc := pc, retained := none, resuming := false, ready := s.cyc + 1 })
  | .hold k s1 =>
    if k.reissues then
      s1.updThread w.t (fun th => { th with st := .waiting, wait := k, pc := w.th.pc, iseq := w.th.iseq, retained := w.th.retained })
    else countIssue w (s1.updThread w.t (fun th => { th with st := .waiting, wait := k, pc := w.th.pc, retained := retainOf h u w s s1 }))
  | .after c a i s1 => countIssue w (takeTrap s1 w.t c (s1.thread w.t).pc a i)
  | .part k s1 =>
    if (s1.thread w.t).st = .exited then s1 else
    let s2 := s1.updThread w.t (fun th => { th with
      st := .waiting, wait := k, pc := w.th.pc, iseq := w.th.iseq, retained := w.th.retained, resuming := w.th.resuming })
    (takeCancel s2 w false).getD s2
  | .cancel => (takeCancel s w u.tret).getD (waitOn w s .retry)

/-- Whether an instruction that reads or writes a register must wait for an earlier acquire (R125, R144); TAGQ never does (R115, log 65). -/
def accessHeld (w : Who) (u : Use) (s : State) : Bool := !u.regs.isEmpty && !u.polls && acqPending s w.t

/-- Whether the retained entry serves a read of V[i] (R70). -/
def served (w : Who) (i : Nat) : Bool := i ≠ 0 && w.th.retained.any (fun r => r.idx = i)

/-- The words an instruction reads from the register file whose check bits disagree (R70, R288): a field it names and does not read is none. -/
def consumed (w : Who) (u : Use) (s : State) : List (Nat × Bool) :=
  ((u.reads w.th).filterMap (fun x => match x.2.1 with | .reg i => if served w i.toNat then none else some (i.toNat, x.2.2) | _ => none)
    ++ u.lists w s).flatMap (fun r => eccAt s w.t r.1 r.2)

/-- The instruction's own effect, in the state after its issue. -/
def perform (h : Hdr) (u : Use) (body : Who → State → Res State) (w : Who) (s : State) : State :=
  match body w (advance w u s) with
  | .error x => stopped h u w s x
  | .ok s1 => countIssue w (s1.updThread w.t (fun th => { th with retained := retainOf h u w s s1 }))

/-- The issue of one instruction by one thread: the checks that need the thread, the guard, the cancellation point, the
latches, the check bits of the words it reads, and then its own effect. DESIGN CHOICE (log 96): an instruction whose guard is false reads no
source, and so leaves no retained entry, whatever it names (R70). -/
def issue (h : Hdr) (u : Use) (body : Who → State → Res State) (w : Who) (s : State) : State :=
  match useCheck w u with
  | some c => takeTrap s w.t c.1 w.th.pc 0 c.2
  | none =>
    if !guardTrue h w.th && !u.collective then countIssue w (advance w u s)
    else
      match (if u.cancel = .always then takeCancel s w false else none) with
      | some s1 => s1
      | none =>
        match (if w.th.wait.begun then none else if accessHeld w u s then some (.wait w.th.wait.held) else latchGate w.th u) with
        | some x => stopped h u w s x
        | none =>
          match (if w.th.wait.begun then [] else consumed w u s) with
          | [] => perform h u body w s
          | es =>
            let s1 := eccRead s w.k.owner w.t w.t es
            if es.any (·.2) then s1 else perform h u body (s1.who w.t) s1

/-- The meaning of an encoded instruction: the issuing thread issues it (log 1). -/
def runInstr (h : Hdr) (u : Use) (body : Who → State → Res State) (s : State) : Host.Outcome State Fault Refusal :=
  match s.who? with
  | none => .fault .noIssuer
  | some w => .next (issue h u body w s)

end Sys2Proof.Machine
end

