-- ==== Sys2Proof/Machine/Record.lean ====
section
/-!
DEFINITION. The thread record of a save area (R268, R272), which follows its thread while the group is SAVED (R267).
-/
namespace Sys2Proof.Machine

/-- The wait kinds of R268. -/
def Wait.kind : Wait → Nat
  | .none => 0
  | .retry | .posted | .barrier _ _ | .arrive _ _ | .ballot _ | .promise _ | .kept _ | .tags _ | .window | .header _ | .freeze | .invr _ => 1
  | .access _ | .wrev _ _ | .fence _ _ | .fencesc _ _ _ | .vatom _ | .hold _ | .csave _ _ | .counted _ => 2
  | .publish _ i => if i.isSome then 2 else 1
  | .sleep _ | .promised _ _ | .slept _ _ | .mwait _ _ | .evwait _ _ => 3
  | .hbt _ => 4
  | .coll _ _ | .phase _ => 5

/-- WAITV of a thread record (R272). -/
def Wait.value : Wait → Nat
  | .sleep c | .promised c _ | .slept c _ | .mwait c _ | .evwait c _ => c
  | .hbt t => t
  | _ => 0

/-- STATE of a thread record with the wait it records: none where the thread does not wait. One whose arrival has been counted waits until its
result is written (R268, R272). -/
def recordState (th : Thread) : Nat × Wait :=
  match th.st, th.wait with
  | .exited, _ => (3, .none)
  | _, .counted g => (1, .counted g)
  | .waiting, x => (1, x)
  | .ready, _ => (0, .none)

/-- `n` 32-bit words of a number, least significant first. -/
def natWords (n x : Nat) : List Word := (upto 0 n).map (fun i => BitVec.ofNat 32 (x / 2 ^ (32 * i)))

def flagAt (b : Bool) (n : Nat) : Nat := if b then 2 ^ n else 0

/-- The monitor entry of a thread (R138). -/
def monitorWords (s : State) (t : Tid) (m : Option Monitor) : List Word :=
  match m with
  | none => List.replicate 4 0
  | some x =>
    let a := if x.window then regAddr s x.owner x.reg else x.addr
    natWords 4 (2 ^ 127 + flagAt x.fired 126 + flagAt x.window 125 + t.vgid * 2 ^ 103 + t.lane * 2 ^ 97 + t.layer * 2 ^ 93 + a % 2 ^ 52)

/-- The producer record of a latch (R67, R272). -/
def latchWords (l : Latch) : List Word :=
  match l.prod with
  | some (pc, n) => [loWord pc, hiWord pc, n, 1]
  | none => [0, 0, 0, 0]

/-- A thread record (R272). -/
def threadWords (s : State) (t : Tid) : List Word :=
  let th := s.thread t
  let (st, wait) := recordState th
  let w2 := wait.kind * 16 + flagAt (entryBit s t) 3 + flagAt th.sys 2 + st
  let link : Nat := match th.links.getLast? with
    | some l => 2 ^ 63 + l.pair % 512 * 2 ^ 54 + l.cl % 64 * 2 ^ 44 + l.seq % 2 ^ 44
    | none => 0
  [loWord th.pc, hiWord th.pc, BitVec.ofNat 32 w2, th.preds.setWidth 32, th.fcw, th.iseq] ++ natWords 2 wait.value
    ++ natWords 2 link ++ monitorWords s t th.monitor ++ [0, 0]
    ++ (upto 0 8).flatMap (fun n => latchWords (at_ th.latches n {})) ++ List.replicate 16 0

/-- Write the record of a thread whose group is SAVED as the thread now stands (R267). -/
def recordAway (s : State) (t : Tid) : State :=
  match (s.group t.vgid).saved with
  | none => s
  | some sv =>
    let k := (s.who t).k
    performBytes s (sv.base + 256 + 256 * (t.layer * k.width + t.lane)) (bytesOf (threadWords s t))

end Sys2Proof.Machine
end

