-- ==== Sys2Proof/Machine/Coll.lean ====
section
/-!
DEFINITION. Group collectives (R28, R29): arrival, completion, the mismatch trap, and EXIT's part in them (R33).
-/
namespace Sys2Proof.Machine

/-- The live threads of a layer (R28). -/
def liveLayer (s : State) (v y : Nat) : List Tid :=
  (layerTids (s.who ⟨v, y, 0⟩).k v y).filter (fun t => (s.thread t).st ≠ .exited)

def atColl (th : Thread) : Option (CollKind × Option Bool) :=
  if th.st = .waiting then (match th.wait with | .coll k c => some (k, c) | _ => none) else none

/-- A vote's result from the contributions, by lane (R95). -/
def voteResult (op : VoteOp) (cs : List (Nat × Bool)) : DWord :=
  let b (x : Bool) : DWord := if x then 1 else 0
  match op with
  | .any _ => b (cs.any (·.2))
  | .all _ => b (cs.all (·.2))
  | .uni _ => b (cs.all (·.2) || cs.all (fun c => !c.2))
  | .ballot _ => BitVec.ofNat 64 (cs.foldl (fun n c => n + (if c.2 then 2 ^ c.1 else 0)) 0)

/-- Give one contributing thread the result (R95); the instruction has no latch. -/
def voteGive (s : State) (t : Tid) (op : VoteOp) (nw : Bool) (r : DWord) : State :=
  match op with
  | .any d | .all d | .uni d => setPred s t d (r = 1)
  | .ballot d => if nw then s else operandWrite s t d.toNat (wordsN 2 r)

/-- Whether a ballot's pair has a word that turned PEND since the thread arrived: the thread writes it later (R40). -/
def voteBusy (s : State) (t : Tid) (op : VoteOp) (nw : Bool) : Bool :=
  match op with
  | .ballot d => !nw && d ≠ 0 && busy s t d.toNat 2
  | _ => false

/-- The completion of an instance (R28): every arrived thread takes its result and goes on, or, at WBAR, waits for the phase
(R30); of a SAVED thread its record tells so (R267). -/
def collComplete (s : State) (live : List Tid) (k : CollKind) : State :=
  match k with
  | .barr => live.foldl (fun s t => recordAway (finishHeld s t) t) s
  | .wbar sc => live.foldl (fun s t => s.updThread t (fun th => { th with wait := .phase sc })) s
  | .vote op nw =>
    let cs := live.filterMap (fun t => match atColl (s.thread t) with | some (_, some b) => some (t.lane, b) | _ => none)
    let r := voteResult op cs
    live.foldl (fun s t => match atColl (s.thread t) with
      | some (_, some _) =>
        if voteBusy s t op nw then recordAway (s.updThread t (fun th => { th with wait := .ballot r, iseq := th.iseq - 1 })) t
        else recordAway (finishHeld (voteGive s t op nw r) t) t
      | _ => recordAway (finishHeld s t) t) s

/-- When every live thread of a layer is at a collective: the instance completes, or the layer traps (R28, R29). A SAVED
group's threads are not WAITING for the trap. -/
def collCheck (s : State) (v y : Nat) : State :=
  let live := liveLayer s v y
  match live with
  | [] => s
  | t0 :: _ =>
    match atColl (s.thread t0) with
    | none => s
    | some (k, _) =>
      if live.all (fun t => (atColl (s.thread t)).isSome) then
        if live.all (fun t => (s.thread t).pc = (s.thread t0).pc) then collComplete s live k
        else if (s.group v).saved.isSome then s
        else live.foldl (fun s t => if (s.thread t).st = .waiting then takeTrap s t 0x01 (s.thread t).pc 0 0xFFFFFFFF else s) s
      else s

/-- Arrive at a collective (R28). A wait is a cancellation point (R397). -/
def collArrive (w : Who) (s : State) (k : CollKind) (contrib : Option Bool) : Res State :=
  let s1 := s.updThread w.t (fun th => { th with st := .waiting, wait := .coll k contrib, pc := w.th.pc })
  let s2 := collCheck s1 w.t.vgid w.t.layer
  if (s2.thread w.t).st = .waiting && (takeCancel s w false).isSome then .error .cancel else .ok s2

/-- EXIT's effect (R33, R235): the thread is EXITED, its promise links end, and a collective it held open may complete. -/
def exitThread (s : State) (t : Tid) : State :=
  collCheck (s.updThread t (fun th => { th with st := .exited, wait := .none, links := [] })) t.vgid t.layer

end Sys2Proof.Machine
end

