-- ==== Sys2Proof/Machine/Operands.lean ====
section
/-!
DEFINITION. Operand forms: types and their widths (R61, R79), what an instruction of each shape names, address pairs and
translated accesses (R121), window operands (R118), and what an access stays behind (R122, R150, R152).
-/
namespace Sys2Proof.Machine

/-- Register words of an operand of a type (R79, R202). -/
def tyWords : Ty → Nat
  | .s64 | .z64 | .f64 => 2
  | _ => 1

def tyBits : Ty → Nat
  | .s64 | .z64 | .f64 => 64
  | .f16 | .bf16 => 16
  | .e4m3 | .e5m2 | .i8 => 8
  | .c4 => 4
  | _ => 32

def tySigned : Ty → Bool
  | .s32 | .s64 | .i8 => true
  | _ => false

/-- Operands DST, A, B of one type. -/
def useDAB (ty : Ty) (d : BitVec 9) (a b : Src) : Use :=
  { srcs := [(.a, a, tyWords ty), (.b, b, tyWords ty)], dst := some (d.toNat, tyWords ty) }
/-- DST and A of one type, B always 32 bits (R79). -/
def useDAw (ty : Ty) (d : BitVec 9) (a b : Src) : Use :=
  { srcs := [(.a, a, tyWords ty), (.b, b, 1)], dst := some (d.toNat, tyWords ty) }
def useDA (ty : Ty) (d : BitVec 9) (a : Src) : Use :=
  { srcs := [(.a, a, tyWords ty)], dst := some (d.toNat, tyWords ty) }

/-- The address in a 64-bit pair. -/
def addrOf (w : Who) (s : State) (a : Src) : Res Nat := (src w s a 2).map (·.toNat)

/-- Translate an access of `n` bytes at issue (R121); a fault is precise. -/
def accessTo (w : Who) (s : State) (va n : Nat) (need : Need) (sp : Option Space) : Res (List (Nat × Nat) × State) :=
  match translateRange s w.ctx va n need sp with
  | .ok r => .ok r
  | .error (e, a) => .error (.trap e.cause (BitVec.ofNat 64 a) e.info)

/-- Translate one address of device memory that an SE or a table serves. -/
def deviceAt (w : Who) (s : State) (va : Nat) (need : Need) : Res (Nat × State) :=
  match translate s w.ctx va need (some .g) with
  | .ok r => .ok r
  | .error e => .error (.trap e.cause (BitVec.ofNat 64 va) e.info)

/-- The aligned 4-byte pieces an access touches, or its one piece, as (physical address, bytes), ascending (R123). -/
def cutPieces (pa n : Nat) : Nat → List (Nat × Nat)
  | 0 => []
  | fuel + 1 => if n = 0 then [] else let k := min n (4 - pa % 4); (pa, k) :: cutPieces (pa + k) (n - k) fuel

def piecesOf (ps : List (Nat × Nat)) (whole : Bool) : List (Nat × Nat) :=
  if whole then ps else ps.flatMap (fun p => cutPieces p.1 p.2 6)

/-- A window operand: the handle, the offset, and the access it gives once R52's checks pass (R118). -/
def windowAccess (w : Who) (s : State) (h : Word) (o n : Nat) (r : Right) : Res (Nat × Nat × Slot) :=
  let (core, slot, _) := handleSlot s h
  let fail (reason : Nat) : Res (Nat × Nat × Slot) := .error (.trap 0x08 (h.setWidth 64) (windowInfo reason o))
  match windowCheck s w h o 1 r with
  | some reason => fail reason
  | none =>
    let d := slotAt s core slot
    if n = 2 && o % 2 = 1 then .error (.trap 0x09 (h.setWidth 64) 0)
    else if n = 2 && decide (d.lenm1 < o + 1) then fail 0x08
    else .ok (core, slot, d)

/-- The own registers that an access of `n` words through a window operand reaches, where it does (R70). -/
def ownWindow (a b : Src) (n : Nat) (w : Who) (s : State) : List (Nat × Nat) :=
  match src32 w s a, src32 w s b with
  | .ok h, .ok o =>
    let (core, slot, _) := handleSlot s h
    let d := slotAt s core slot
    if d.owner = w.t then [(d.base + o.toNat, n)] else []
  | _, _ => []

/-- The physical address of an accepted or queued reduction, where it translates. -/
def redPhys (s : State) (part asid va : Nat) (world : Bool) : Option Nat :=
  match walk s { unit := 0, part := part, asid := asid, world := world, house := 0 } va with
  | .ok l => some (frameOf l.e + va % leafSize l.lvl)
  | .error _ => none

/-- Whether a reduction of `n` bytes may reach the same bytes as a physical access. -/
def redMeets (s : State) (part asid va : Nat) (world : Bool) (n a m : Nat) : Bool :=
  match redPhys s part asid va world with
  | some x => meets s x n a m
  | none => false

def Red.size (r : Red) : Nat := 4 * tyWords r.r.ty
def Atomic.size (a : Atomic) : Nat := 4 * tyWords a.ty

/-- Earlier atomics and reductions of a thread to the same bytes, which its access number `id` stays behind (R150, log 5). -/
def behindAtomic (s : State) (t : Tid) (id a n : Nat) : Bool :=
  let k := (s.who t).k
  s.atomics.any (fun x => x.tid = t && x.id < id && x.got.isNone && meets s a n x.addr x.size)
  || (s.group t.vgid).queue.any (fun e => e.tid = t && e.id < id && e.red.isSome && redMeets s k.part e.asid e.va k.world e.size a n)
  || s.reds.any (fun r => r.tid = t && r.id < id && redMeets s r.part r.asid r.va r.world r.size a n)

/-- Earlier loads of a thread of the same bytes. -/
def behindLoad (s : State) (t : Tid) (id a n : Nat) : Bool :=
  s.loads.any (fun l => l.tid = t && l.id < id && l.pieces.any (fun p => meets s a n p.1 p.2))

/-- Whether another thread of the same core has a store that a later atomic of its own has passed (log 5). -/
def othersStores (s : State) (t : Tid) : Bool :=
  s.groups.any (fun g => g.2.core = (s.group t.vgid).core && g.2.queue.any (fun e => e.overtaken && e.tid ≠ t))

/-- An access stays behind an earlier one of its thread to the same words (R150). -/
def accBehind (s : State) (a : WinAcc) : Bool :=
  s.accs.any (fun b => b.tid = a.tid && b.id < a.id && b.on a.owner a.reg a.n)

/-- A read through a window or a lane that waits for its word's tag, or stands behind one that does: what passes it leaves no mark, since what it
waits for may itself wait for that (log 86). -/
def accStuck (s : State) (a : WinAcc) : Bool :=
  a.waiting || s.accs.any (fun b => b.waiting && b.tid = a.tid && b.id < a.id && b.on a.owner a.reg a.n)

/-- A read of a word that other accesses of the thread may pass. -/
def WinAcc.passable (a : WinAcc) : Bool :=
  match a.kind with
  | .wld | .lnrd | .atomw _ _ => true
  | _ => false

/-- Whether another thread of the same core has an access that a later one of its own has overtaken (log 5). -/
def othersOvertaken (s : State) (t : Tid) : Bool :=
  let mine (u : Tid) : Bool := u ≠ t && (s.group u.vgid).core = (s.group t.vgid).core
  s.loads.any (fun l => l.overtaken && mine l.tid) || s.atomics.any (fun a => a.overtaken && mine a.tid)
  || s.accs.any (fun a => a.overtaken && mine a.tid && !accStuck s a) || othersStores s t

/-- Whether an access numbered below `n` of another thread of the core is under way: a write by a thread that has seen it to come earlier waits
for it (R152, log 86). -/
def coreBefore (s : State) (t : Tid) (n : Nat) : Bool :=
  let earlier (u : Tid) (id : Nat) : Bool := decide (id < n) && sameCore s t u
  n ≠ 0 && (s.loads.any (fun l => earlier l.tid l.id) || s.atomics.any (fun a => earlier a.tid a.id && a.got.isNone) || s.reds.any (fun r => earlier r.tid r.id)
    || s.groups.any (fun g => g.2.queue.any (fun e => earlier e.tid e.id))
    || s.accs.any (fun a => a.passable && earlier a.tid a.id && !accStuck s a))

/-- Whether a write of `m` bytes at `a` numbered below `n` of another thread of the core is under way: a read by a thread that has seen it to
come earlier waits for it (R152, log 86). -/
def coreWrites (s : State) (t : Tid) (n a m : Nat) : Bool :=
  let earlier (u : Tid) (id : Nat) : Bool := decide (id < n) && sameCore s t u
  n ≠ 0 && (s.atomics.any (fun x => earlier x.tid x.id && x.got.isNone && meets s a m x.addr x.size)
    || s.reds.any (fun r => earlier r.tid r.id && redMeets s r.part r.asid r.va r.world r.size a m)
    || s.groups.any (fun g => g.2.queue.any (fun e => earlier e.tid e.id && (e.pieces.any (fun p => meets s a m p.1 p.2.length)
        || (e.red.isSome && (let k := (s.who e.tid).k; redMeets s k.part e.asid e.va k.world e.size a m))))))

/-- A load that cannot be read yet, for earlier accesses of its own thread, or of its core that its thread has seen. -/
def Load.behind (l : Load) (s : State) : Bool :=
  l.pieces.any (fun p => behindAtomic s l.tid l.id p.1 p.2 || coreWrites s l.tid l.after p.1 p.2)

/-- Whether a relaxed atomic may pass the earlier stores of its thread that are queued (R122, R152, log 5): they are to other bytes,
relaxed, at the head of their group's queue with no other thread's between them, and nothing else of the thread is under way. -/
def Atomic.passesStores (a : Atomic) (s : State) : Bool :=
  a.ord = .relaxed && !othersOvertaken s a.tid
  && ((s.group a.tid.vgid).queue.filter (fun e => e.id < a.id)).all (fun e =>
    e.tid = a.tid && e.rel = .relaxed && e.red.isNone && e.pieces.all (fun p => !meets s a.addr a.size p.1 p.2.length))
  && s.loads.all (fun l => l.tid ≠ a.tid || decide (a.id ≤ l.id)) && s.atomics.all (fun x => x.tid ≠ a.tid || decide (a.id ≤ x.id))
  && s.reds.all (fun r => r.tid ≠ a.tid)

/-- An atomic that cannot be applied yet, for earlier accesses of its own thread, or of its core that its thread has seen (R122, R150, R152). -/
def Atomic.behind (a : Atomic) (s : State) : Bool :=
  coreBefore s a.tid a.after ||
  ((s.group a.tid.vgid).queue.any (fun e => e.tid = a.tid && e.id < a.id) && !a.passesStores s) || behindLoad s a.tid a.id a.addr a.size
    || s.atomics.any (fun x => x.tid = a.tid && x.id < a.id && meets s a.addr a.size x.addr x.size)
    || s.reds.any (fun r => r.id < a.id && (r.tid = a.tid || redMeets s r.part r.asid r.va r.world r.size a.addr a.size))

/-- Mark the earlier outstanding loads, atomics and reads of words of a thread as overtaken by an access of its own (log 5, log 86). -/
def overtake (s : State) (t : Tid) (id : Nat) : State :=
  { s with
    loads := s.loads.map (fun l => if l.tid = t && l.id < id then { l with overtaken := true } else l),
    atomics := s.atomics.map (fun a => if a.tid = t && a.id < id then { a with overtaken := true } else a),
    accs := s.accs.map (fun a => if a.passable && a.tid = t && decide (a.id < id) && !accStuck s a then { a with overtaken := true } else a) }

/-- Mark the earlier queued stores of a thread as passed by an atomic of its own (log 5). -/
def overtakeStores (s : State) (t : Tid) (id : Nat) : State :=
  s.updGroup t.vgid (fun g => { g with queue := g.queue.map (fun e => if e.tid = t && e.id < id then { e with overtaken := true } else e) })

/-- Whether an access through a window or a lane must wait for one of another thread of its core that its thread has seen (R152, log 86). -/
def accAfter (s : State) (a : WinAcc) : Bool :=
  (a.late && coreBefore s a.tid a.after)
  || s.accs.any (fun b => b.late && b.on a.owner a.reg a.n && decide (b.id < a.after) && sameCore s a.tid b.tid)

/-- Whether access number `id` of a thread may go before its earlier loads, atomics and reads of words that are outstanding (log 5, log 86): none
of them waits for another, and it passes an atomic only where no other thread of the core has been overtaken. -/
def mayPass (s : State) (t : Tid) (id : Nat) : Bool :=
  s.loads.all (fun l => l.tid ≠ t || decide (id ≤ l.id) || !l.behind s)
  && s.atomics.all (fun a => a.tid ≠ t || decide (id ≤ a.id) || (!a.behind s && !othersOvertaken s t))
  && s.accs.all (fun a => a.tid ≠ t || decide (id ≤ a.id) || !a.passable || accStuck s a
    || (!accAfter s a && !(a.late && othersOvertaken s t)))

/-- What a read that acts in memory as its instruction issues waits for (R150, R152): the thread's own earlier loads and atomics, its
stores and reductions to the same bytes, and stores of the core that have been passed. -/
def ownPending (w : Who) (s : State) (a n : Nat) : Bool :=
  s.loads.any (fun l => l.tid = w.t) || s.atomics.any (fun x => x.tid = w.t)
  || (s.group w.t.vgid).queue.any (fun e => e.tid = w.t &&
      (e.pieces.any (fun p => meets s a n p.1 p.2.length) || (e.red.isSome && redMeets s w.k.part e.asid e.va w.k.world e.size a n)))
  || s.reds.any (fun r => r.tid = w.t && redMeets s r.part r.asid r.va r.world r.size a n)
  || othersStores s w.t || coreWrites s w.t (s.thread w.t).seen a n

/-- What a write that acts in memory as its instruction issues waits for (R152): as a read, and all the thread's stores. -/
def ownPendingW (w : Who) (s : State) (a n : Nat) : Bool := ownPending w s a n || storesOut s w.t || othersOvertaken s w.t || coreBefore s w.t (s.thread w.t).seen

/-- Accept a window or lane access (R118, R119): it is performed by a later step, and counts in INFLIGHT until then. -/
def accept (s : State) (kind : WinKind) (t : Tid) (slot : Option (Nat × Nat)) (owner : Tid) (reg n : Nat) (vals : List Word)
    (dst : Nat) (h : Word) (o : Nat) : Nat × State :=
  let (id, s1) := s.newId
  (id, { s1 with accs := s1.accs ++ [{ id := id, kind := kind, tid := t, slot := slot, owner := owner, reg := reg, n := n,
                                       vals := vals, dst := dst, handle := h, off := o, after := (s.thread t).seen }] })

/-- An instruction that goes on gives up the waits it had at window words. -/
def dropProbes (s : State) (t : Tid) : State := { s with accs := s.accs.filter (fun a => !(a.kind = .probe && a.tid = t)) }

/-- A fault with which a window word ended that the instruction waits for (R46, R54); one that has not waited finds nothing left of an earlier
wait. -/
def probeGate (w : Who) (s : State) : Res State :=
  if w.th.wait ≠ .window then .ok (dropProbes s w.t)
  else match (s.accs.find? (fun a => a.kind = .probe && a.tid = w.t && a.ended.isSome)).bind (·.ended) with
    | some (c, x, i) => .error (.trap c (BitVec.ofNat 64 x) i)
    | none => .ok s

/-- Wait for PEND words of an operand that is read or written through a window (R40, R46): each is an access in flight, whose bound counts
from when it was first found PEND. `ws` are their owners and registers. -/
def windowWait {α : Type} (w : Who) (s : State) (h : Word) (ws : List (Tid × Nat)) : Res α :=
  let (core, slot, _) := handleSlot s h
  let base := (slotAt s core slot).base
  let new := ws.filter (fun x => !(s.accs.any (fun a => a.kind = .probe && a.tid = w.t && a.owner = x.1 && a.reg = x.2)))
  let s1 := new.foldl (fun (s : State) x =>
    let (id, s1) := s.newId
    { s1 with accs := s1.accs ++ [{ id := id, kind := .probe, tid := w.t, slot := some (core, slot), owner := x.1, reg := x.2, n := 1, vals := [],
                                    dst := 0, handle := h, off := x.2 - base, since := some s.cyc, waiting := true }] }) s
  .error (.part .window s1)

/-- The PEND words among some registers. -/
def pendingOf (s : State) (ws : List (Tid × Nat)) : List (Tid × Nat) := ws.filter (fun x => (regGet s x.1 x.2).tag = .pend)

end Sys2Proof.Machine
end

