-- ==== Sys2Proof/Machine/Memory.lean ====
section
/-!
DEFINITION. Loads and stores through the decoupling queues, and WAITQ (R121-R126).
-/
namespace Sys2Proof.Machine

/-- Bytes of a load or store (R123). -/
def accessBytes (ty : Ty) (am : Atomicity) : Nat :=
  if am = .a16 then 16 else match ty with
    | .i8 => 1
    | .f16 | .bf16 => 2
    | .s64 | .z64 | .f64 => 8
    | _ => 4

/-- Register words of a load or store of `n` bytes. -/
def accessWords (n : Nat) : Nat := max 1 (n / 4)

/-- Entries of a thread in the load and store queues (R122, R339). -/
def loadsHeld (s : State) (t : Tid) : Nat := (s.loads.filter (fun l => l.tid = t)).length
def storesHeld (s : State) (t : Tid) : Nat := ((s.group t.vgid).queue.filter (fun e => e.tid = t)).length

/-- A load (R123): translated and claimed at issue; its pieces are sampled by later steps. -/
def loadFrom (h : Hdr) (sp : Space) (ty : Ty) (ord : MemOrd) (am : Atomicity) (d : BitVec 9) (a : Src) : State → Host.Outcome State Fault Refusal :=
  let n := accessBytes ty am
  runInstr h { srcs := [(.a, a, 2)], dst := some (d.toNat, accessWords n) } (fun w s => do
    acqGate w s
    let va ← addrOf w s a
    trapIf (am ≠ .word && va % n ≠ 0) 0x09 (BitVec.ofNat 64 va) 0
    let (ps, s1) ← accessTo w s va n .read (some sp)
    if 32 ≤ loadsHeld s w.t then .error (.wait .retry)
    let s2 ← claim w s1 d.toNat (accessWords n)
    let (id, s3) := s2.newId
    .ok { s3 with loads := s3.loads ++ [{ id := id, tid := w.t, dst := d.toNat, ty := ty, va := va, asid := w.k.asid,
                                          pieces := piecesOf ps (am ≠ .word), acq := ord, after := w.th.seen }] })

/-- Cut bytes into the pieces of an access. -/
def splitBytes : List (Nat × Nat) → List Byte → List (Nat × List Byte)
  | [], _ => []
  | p :: r, bs => (p.1, bs.take p.2) :: splitBytes r (bs.drop p.2)

/-- Add an entry at the tail of the group's store queue. -/
def enqueue (s : State) (e : StoreEntry) : State := s.updGroup e.tid.vgid (fun g => { g with queue := g.queue ++ [e] })

/-- A store (R124): its value is read and its address translated at issue; it then waits in the group's queue. -/
def storeTo (h : Hdr) (sp : Space) (ty : Ty) (ord : MemOrd) (am : Atomicity) (a b : Src) : State → Host.Outcome State Fault Refusal :=
  let n := accessBytes ty am
  runInstr h { srcs := [(.a, a, 2), (.b, b, accessWords n)] } (fun w s => do
    acqGate w s
    let va ← addrOf w s a
    let ws ← match b with
      | .reg i => regRead w s i.toNat (accessWords n)
      | _ => (src w s b (min 2 (accessWords n))).map (wordsN (accessWords n))
    trapIf (am ≠ .word && va % n ≠ 0) 0x09 (BitVec.ofNat 64 va) 0
    let (ps, s1) ← accessTo w s va n .write (some sp)
    if 32 ≤ storesHeld s w.t then .error (.wait .retry)
    let (id, s2) := s1.newId
    .ok (enqueue s2 { id := id, tid := w.t, va := va, asid := w.k.asid, size := n,
                      pieces := splitBytes (piecesOf ps (am ≠ .word)) ((bytesOf ws).take n), rel := ord, red := none,
                      after := w.th.seen }))

def execLdg (h : Hdr) (ty : Ty) (ord : MemOrd) (am : Atomicity) (d : BitVec 9) (a : Src) : State → Host.Outcome State Fault Refusal :=
  loadFrom h .g ty ord am d a
def execLdf (h : Hdr) (ty : Ty) (ord : MemOrd) (am : Atomicity) (d : BitVec 9) (a : Src) : State → Host.Outcome State Fault Refusal :=
  loadFrom h .f ty ord am d a
def execLdh (h : Hdr) (ty : Ty) (ord : MemOrd) (am : Atomicity) (d : BitVec 9) (a : Src) : State → Host.Outcome State Fault Refusal :=
  loadFrom h .h ty ord am d a
def execStg (h : Hdr) (ty : Ty) (ord : MemOrd) (am : Atomicity) (a b : Src) : State → Host.Outcome State Fault Refusal :=
  storeTo h .g ty ord am a b
def execStf (h : Hdr) (ty : Ty) (ord : MemOrd) (am : Atomicity) (a b : Src) : State → Host.Outcome State Fault Refusal :=
  storeTo h .f ty ord am a b
def execSth (h : Hdr) (ty : Ty) (ord : MemOrd) (am : Atomicity) (a b : Src) : State → Host.Outcome State Fault Refusal :=
  storeTo h .h ty ord am a b

/-- WAITQ (R126), a blocking wait and so a cancellation point. In the handler of a cancellation notice the wait ends first,
and then the cancellation, so that stores drained there are performed (R264, log 21). -/
def execWaitq (h : Hdr) (st : Bool) (b : Src) : State → Host.Outcome State Fault Refusal :=
  runInstr h { srcs := [(.b, b, 1)], cancel := .never } (fun w s => do
    let late := w.th.noticed && entryBit s w.t
    if !late then cancelPoint w s
    let n ← src32 w s b
    if n.toNat < (if st then storesHeld s w.t else loadsHeld s w.t) then .error (.wait .retry)
    if late then cancelPoint w s
    .ok s)

end Sys2Proof.Machine
end

