-- ==== Sys2Proof/Machine/Atomics.lean ====
section
/-!
DEFINITION. Atomics (R336-R342): issued here, applied by a later step of their SE or of the word's core.
-/
namespace Sys2Proof.Machine

/-- Put an atomic on its way. -/
def sendAtomic (s : State) (a : Atomic) : Nat × State :=
  let (id, s1) := s.newId
  (id, { s1 with atomics := s1.atomics ++ [{ a with id := id, after := (s.thread a.tid).seen }] })

/-- The address checks of R337 for an access of `n` bytes, in order. -/
def atomicAddr (w : Who) (s : State) (va n : Nat) : Res (Nat × State) := do
  trapIf (va % n ≠ 0) 0x09 (BitVec.ofNat 64 va) 0
  deviceAt w s va .atomic

/-- ATOM, ACAS and FATOM: checked and claimed at issue; with ORD a release and an acquire (R337). -/
def atomicTo (w : Who) (s : State) (kind : AtomKind) (ty : Ty) (ord : MemOrd) (d : BitVec 9) (va : Nat) (b c : DWord) : Res State := do
  let (pa, s1) ← atomicAddr w s va (4 * tyWords ty)
  if ord ≠ .relaxed then releaseGate w s
  let s2 ← claim w s1 d.toNat (tyWords ty)
  .ok (sendAtomic s2 { id := 0, tid := w.t, kind := kind, ty := ty, va := va, asid := w.k.asid, addr := pa, b := b, c := c,
                       dst := d.toNat, ord := ord }).2

/-- An atomic with operand B. -/
def atomicB (h : Hdr) (ty : Ty) (ord : MemOrd) (d : BitVec 9) (a b : Src) (op : AtomOp) : State → Host.Outcome State Fault Refusal :=
  runInstr h { srcs := [(.a, a, 2), (.b, b, tyWords ty)], dst := some (d.toNat, tyWords ty) } (fun w s => do
    acqGate w s
    let va ← addrOf w s a
    let y ← src w s b (tyWords ty)
    atomicTo w s (.op op) ty ord d va y 0)

/-- ATOM (R337, R338). -/
def execAtom (h : Hdr) (ty : Ty) (ord : MemOrd) (d : BitVec 9) (a b : Src) (op : AtomOp) : State → Host.Outcome State Fault Refusal :=
  atomicB h ty ord d a b op

/-- FATOM (R337, R338). -/
def execFatom (h : Hdr) (ty : Ty) (ord : MemOrd) (d : BitVec 9) (a b : Src) (op : AtomOp) : State → Host.Outcome State Fault Refusal :=
  atomicB h ty ord d a b op

/-- ACAS (R337, R338): B is compared, C is the new value. -/
def execAcas (h : Hdr) (ty : Ty) (ord : MemOrd) (d : BitVec 9) (a b c : Src) : State → Host.Outcome State Fault Refusal :=
  runInstr h { srcs := [(.a, a, 2), (.b, b, tyWords ty), (.c, c, tyWords ty)], dst := some (d.toNat, tyWords ty) } (fun w s => do
    acqGate w s
    let va ← addrOf w s a
    let y ← src w s b (tyWords ty)
    let z ← src w s c (tyWords ty)
    atomicTo w s .cas ty ord d va y z)

/-- RED (R337 step 3, R339): it takes a store entry. -/
def execRed (h : Hdr) (ty : Ty) (ord : MemOrd) (a b : Src) (op : AtomOp) : State → Host.Outcome State Fault Refusal :=
  runInstr h { srcs := [(.a, a, 2), (.b, b, tyWords ty)] } (fun w s => do
    acqGate w s
    let va ← addrOf w s a
    let y ← src w s b (tyWords ty)
    trapIf (va % (4 * tyWords ty) ≠ 0) 0x09 (BitVec.ofNat 64 va) 0
    let other := match cacheHit s w.ctx va with
      | some x => (place (frameOf x.leaf + (va - x.va))).space ≠ some .g
      | none => false
    trapIf other 0x06 (BitVec.ofNat 64 va) 0x10
    if 32 ≤ storesHeld s w.t then .error (.wait .retry)
    let (id, s1) := s.newId
    .ok (enqueue s1 { id := id, tid := w.t, va := va, asid := w.k.asid, size := 4 * tyWords ty, pieces := [], rel := ord, after := w.th.seen,
                      red := some ⟨op, ty, y⟩ }))

/-- The next element of a VATOM that has not been applied, from `i` on. -/
def vatomNext (done : Word) (n : Nat) : Nat → Nat → Option Nat
  | _, 0 => none
  | i, fuel + 1 => if i ≥ n then none else if bit done i then vatomNext done n (i + 1) fuel else some i

/-- Send element `i` of a VATOM, or trap at it with the mask of the applied elements (R341). -/
def vatomSend (w : Who) (s : State) (a : Atomic) (i n : Nat) (op : AtomOp) (done : Word) (va : Nat) : Res (Nat × State) :=
  match translate s w.ctx (va + 4 * i) .atomic (some .g) with
  | .error e => .error (.trap e.cause (BitVec.ofNat 64 (va + 4 * i)) done)
  | .ok (pa, s1) => .ok (sendAtomic s1 { a with kind := .vatom i n op, va := va, addr := pa, b := (a.vals.getD i 0).setWidth 64 })

/-- VATOM (R341): elements in order, the thread held until the last old value is written. -/
def execVatom (h : Hdr) (ty : Ty) (ord : MemOrd) (d : BitVec 9) (a : Src) (b : BitVec 9) (op : AtomOp) (nm1 : BitVec 5) : State → Host.Outcome State Fault Refusal :=
  let n := nm1.toNat + 1
  runInstr h { srcs := [(.a, a, 2)], named := [(b.toNat, 1)], dst := some (d.toNat, 1), wrote := fun _ _ => if h.nw then [] else [(d.toNat, n)],
               lists := fun _ _ => [(b.toNat, n)] } (fun w s => do
    acqGate w s
    let va ← addrOf w s a
    trapIf (va % 4 ≠ 0) 0x09 (BitVec.ofNat 64 va) 0
    rangeIf w d.toNat n
    rangeIf w b.toNat n
    let ws ← listRead w s b.toNat n
    if ord ≠ .relaxed then releaseGate w s
    let done : Word := if w.th.resuming && w.th.pc = bankPair s w.t 26 then bankGet s w.t 30 else 0
    match vatomNext done n 0 33 with
    | none => .ok s
    | some i => do
      let a0 : Atomic := { id := 0, tid := w.t, kind := .cas, ty := ty, va := va, asid := w.k.asid, addr := 0, b := 0, c := 0,
                           dst := d.toNat, ord := ord, vals := ws, nw := h.nw }
      let (id, s1) ← vatomSend w s a0 i n op done va
      .error (.hold (.vatom id) (s1.updThread w.t (fun th => { th with vdone := done }))))

/-- ATOMW (R342): .cas takes its pair (compare, new) from C. A word that is POISON at issue traps (R44, log 34). -/
def execAtomw (h : Hdr) (ty : Ty) (op : AtomOp) (d : BitVec 9) (a b c : Src) : State → Host.Outcome State Fault Refusal :=
  let nc := if op = .cas then 2 else 1
  runInstr h { srcs := [(.a, a, 1), (.b, b, 1), (.c, c, nc)], dst := some (d.toNat, 1), wrote := ownWindow a b 1 } (fun w s => do
    acqGate w s
    let x ← src32 w s a
    let o ← src32 w s b
    let v ← src w s c nc
    let (core, slot, sl) ← windowAccess w s x o.toNat 1 .readWrite
    let old := regGet s sl.owner (sl.base + o.toNat)
    if old.tag = .poison then .error (.trap (poisonCause old.val) (BitVec.ofNat 64 (regAddr s sl.owner (sl.base + o.toNat))) old.val)
    let s1 ← claim w s d.toNat 1
    .ok (accept s1 (.atomw op (tySigned ty)) w.t (some (core, slot)) sl.owner (sl.base + o.toNat) 1 (wordsN nc v) d.toNat x o.toNat).2)

end Sys2Proof.Machine
end

