-- ==== Sys2Proof/Machine/Barrier.lean ====
section
/-!
DEFINITION. Barrier objects (R127-R131): their fields, the one step that changes one, and their table entries; and the
link of a promise pair to its copy request (R235).
-/
namespace Sys2Proof.Machine

/-- The fields of a barrier object (R127). -/
structure BarObj where
  gen : Nat
  pending : Nat
  expected : Nat
  inbound : Nat
  outbound : Nat
  deriving DecidableEq, Repr

/-- The object at V[b] of a thread. -/
def barGet (s : State) (o : Tid) (b : Nat) : BarObj :=
  let ws := regGets s o b 4
  let x : Nat := (ws.foldr (fun w n => w.val.toNat + 2 ^ 32 * n) 0)
  ⟨x / 2 ^ 124 % 16, x / 2 ^ 108 % 2 ^ 16, x / 2 ^ 92 % 2 ^ 16, x / 2 ^ 62 % 2 ^ 30, x / 2 ^ 32 % 2 ^ 30⟩

/-- Its four words. -/
def barWords (x : BarObj) : List Word :=
  let n := x.gen * 2 ^ 124 + x.pending * 2 ^ 108 + x.expected * 2 ^ 92 + x.inbound * 2 ^ 62 + x.outbound * 2 ^ 32
  (upto 0 4).map (fun i => BitVec.ofNat 32 (n / 2 ^ (32 * i)))

/-- Whether nothing of a generation is outstanding (R131). -/
def BarObj.complete (x : BarObj) : Bool := x.pending = 0 && x.inbound = 0 && x.outbound = 0

/-- The resident threads whose arrival at an object is deferred. -/
def deferred (s : State) (o : Tid) (b : Nat) : List Tid :=
  (s.threads.filter (fun p => waiting s p.1 = some (.arrive o b))).map (·.1)

/-- A deferred arrival has been counted in generation `g` (R131). -/
def countArrival (s : State) (g : Nat) (t : Tid) : State :=
  s.updThread t (fun th => { th with st := .ready, ready := s.cyc, wait := .counted g })

/-- The resident BWAIT waiters of an object are READY, their generation over (R131). -/
def barReady (s : State) (o : Tid) (b : Nat) : State :=
  { s with threads := s.threads.map (fun p =>
      if waiting s p.1 = some (.barrier o b) then (p.1, { p.2 with st := .ready, ready := s.cyc, wait := .posted }) else p) }

/-- The completion of a generation (R131): GEN advances, every BWAIT waiter becomes READY, and the deferred arrivals count in the new one, which they may complete in turn. -/
def barTurn : Nat → State → Tid → Nat → BarObj → State × BarObj
  | 0, s, _, _, x => (s, x)
  | n + 1, s, o, b, x =>
    if !x.complete then (s, x)
    else
      let g := (x.gen + 1) % 16
      let ts := (deferred s o b).take x.expected
      let y := { x with gen := g, pending := x.expected - ts.length }
      let s1 := barReady s o b
      if ts.isEmpty then (s1, y) else barTurn n (ts.foldl (fun s t => countArrival s g t) s1) o b y

/-- Write the object in one step (R131), completing its generation when nothing is outstanding. -/
def barPut (s : State) (o : Tid) (b : Nat) (x : BarObj) : State :=
  let (s1, y) := barTurn ((deferred s o b).length + 1) s o b x
  writeWords s1 o b (barWords y)

/-- A malformed object (R127). -/
def barBad (x : BarObj) : Bool := x.expected = 0 || decide (x.expected < x.pending)

/-- The table entry of an object (R128). -/
def barEntry (s : State) (o : Tid) (b : Nat) : Option Barrier := s.barriers.find? (fun e => e.owner = o && e.reg = b)

/-- Count bytes of an attached copy down (R131, R134). DESIGN CHOICE (log 96): an object that was freed and initialised again since the copy was
attached is counted down as the one before it. -/
def barDown (s : State) (o : Tid) (b : Nat) (out : Bool) (n : Nat) : State :=
  if (barEntry s o b).isNone || n = 0 then s
  else
    let x := barGet s o b
    barPut s o b (if out then { x with outbound := x.outbound - n } else { x with inbound := x.inbound - n })

/-- The link of a promise pair (R235). -/
def linkOf (s : State) (t : Tid) (pair : Nat) : Option Link := (s.thread t).links.find? (fun (l : Link) => l.pair = pair)

/-- The request a source's pair is linked to; a latch is no linked pair. -/
def linkOfSrc (s : State) (t : Tid) (x : Src) : Option Link :=
  match x with
  | .reg i => linkOf s t i.toNat
  | _ => none

/-- A request by its cluster and sequence number. -/
def findReq (s : State) (cl seq : Nat) : Option CeReq := (s.cluster cl).ce.find? (fun (r : CeReq) => r.seq = seq)

def updReq (s : State) (cl seq : Nat) (f : CeReq → CeReq) : State :=
  s.updCluster cl (fun c => { c with ce := c.ce.map (fun (r : CeReq) => if r.seq = seq then f r else r) })

/-- A linked request that has not ended. -/
def liveReq (s : State) (l : Link) : Option CeReq := (findReq s l.cl l.seq).bind (fun r => if r.st.live then some r else none)

end Sys2Proof.Machine
end

