-- ==== Sys2Proof/Machine/Flags.lean ====
section
/-!
DEFINITION. The float control word: sticky flags, enables, default mode and flushing (R172-R175).
-/
namespace Sys2Proof.Machine

/-- The sticky flags, in the order of R172. -/
abbrev Flags := BitVec 6
def ivl : Flags := 0x01
def dvz : Flags := 0x02
def ovf : Flags := 0x04
def unf : Flags := 0x08
def inx : Flags := 0x10
def den : Flags := 0x20

/-- The four rounding modes (R167). -/
inductive Round where
  | rne | rtz | rdn | rup
  deriving DecidableEq, Repr

/-- The mode an instruction rounds in (R168): its own, or the thread's default when it issues. -/
def RMode.round (fcw : Word) : RMode → Round
  | .rne => .rne
  | .rtz => .rtz
  | .rdn => .rdn
  | .rup => .rup
  | .dflt => match bits fcw 17 16 with
    | 0 => .rne
    | 1 => .rtz
    | 2 => .rdn
    | _ => .rup

/-- The mode of a word's RM field for a thread. -/
def roundOf (th : Thread) (rm : RMode) : Round := RMode.round th.fcw rm

/-- Whether a vector float instruction flushes (R169). -/
def ftzOf (th : Thread) (ftz : Bool) : Bool := ftz || bit th.fcw 18

/-- Set flags; an instruction never clears one (R173). -/
def raise (s : State) (t : Tid) (f : Flags) : State := s.updThread t (fun th => { th with fcw := th.fcw ||| f.setWidth 32 })

/-- Set the flag field of the control word (R213). -/
def setFlags (s : State) (t : Tid) (f : Flags) : State :=
  s.updThread t (fun th => { th with fcw := (th.fcw &&& 0xFFFFFFC0) ||| f.setWidth 32 })

def flagsOf (th : Thread) : Flags := th.fcw.setWidth 6

/-- Whether a float or format instruction or IDIV of the thread has a result outstanding (R175, R213). -/
def floatsOut (s : State) (t : Tid) : Bool := s.results.any (fun r => r.tid = t && r.float)

end Sys2Proof.Machine
end

