-- ==== Sys2Proof/Machine/Control.lean ====
section
/-!
DEFINITION. Control instructions: NOP to CANCP (R100-R108), TRAP, TRET and TFENCE (R298-R300).
-/
namespace Sys2Proof.Machine

/-- A taken branch (R102): a backward one is a cancellation point, before any check of the target (R64, R101); then the
effect on the link, and the PC. -/
def branchTo (w : Who) (s : State) (target : DWord) (aligned : Bool) (link : State → Res State) : Res State := do
  if target ≤ w.th.pc then cancelPoint w s
  trapIf (!aligned && bits target 2 0 != 0) 0x09 target 0
  trapIf (bits target 63 54 != 0) 0x03 target 0
  let s1 ← link s
  .ok (setPc s1 w.t target)

/-- The target of an FB word (R64). -/
def fbTarget (w : Who) (off : BitVec 28) : DWord := w.th.pc + 8 * off.signExtend 64

/-- NOP (R103). -/
def execNop (h : Hdr) : State → Host.Outcome State Fault Refusal :=
  runInstr h { cancel := .never } (fun _ s => .ok s)

/-- BRA (R100). -/
def execBra (h : Hdr) (off : BitVec 28) : State → Host.Outcome State Fault Refusal :=
  runInstr h { cancel := .never } (fun w s => branchTo w s (fbTarget w off) true .ok)

/-- BRX (R101). -/
def execBrx (h : Hdr) (ty : Ty) (a b : Src) : State → Host.Outcome State Fault Refusal :=
  runInstr h { srcs := [(.a, a, tyWords ty), (.b, b, 1)] } (fun w s => do
    let x ← src w s a 2
    let y ← src32 w s b
    branchTo w s (x + 8 * y.setWidth 64) false .ok)

/-- CALL (R100): the link is written first, to v30 and v31. -/
def execCall (h : Hdr) (off : BitVec 28) : State → Host.Outcome State Fault Refusal :=
  runInstr h {} (fun w s => branchTo w s (fbTarget w off) true (fun s => writeReg w s 30 2 (w.th.pc + 8)))

/-- CALLX (R101). -/
def execCallx (h : Hdr) (d : BitVec 9) (x : DWord) : State → Host.Outcome State Fault Refusal :=
  runInstr h { dst := some (d.toNat, 2), len := 16, cycles := 2 } (fun w s =>
    branchTo w s x false (fun s => res w h s d 2 (w.th.pc + 16)))

/-- RET (R101). -/
def execRet (h : Hdr) (ty : Ty) (a : Src) : State → Host.Outcome State Fault Refusal :=
  runInstr h { srcs := [(.a, a, tyWords ty)] } (fun w s => do
    let x ← src w s a 2
    branchTo w s x false .ok)

/-- EXIT (R104). -/
def execExit (h : Hdr) : State → Host.Outcome State Fault Refusal :=
  runInstr h { cancel := .always, tret := true } (fun w s => do
    if (takeCancel s w true).isSome then .error .cancel
    .ok (exitThread s w.t))

/-- YIELD (R105): its new ready cycle is the cycle after it issues. -/
def execYield (h : Hdr) : State → Host.Outcome State Fault Refusal :=
  runInstr h { cancel := .never } (fun _ s => .ok s)

/-- SLEEP (R106, R108). -/
def execSleep (h : Hdr) (a : Src) : State → Host.Outcome State Fault Refusal :=
  runInstr h { srcs := [(.a, a, 1)], cancel := .always } (fun w s => do
    let n ← src32 w s a
    if n = 0 then .ok s else .error (.hold (.sleep (s.cyc + n.toNat)) s))

/-- The words a linked request has claimed in its issuer's registers that have had neither an arrival nor a loss (R236); before it
starts, those it claimed as it was accepted; a stamp pair is claimed until the stamp is written (R246). -/
def claimsOut (r : CeReq) : Nat :=
  (r.rest.filter (fun x => x.2.1 ≠ 0)).length + (match r.stamp with | .pair _ _ => 2 | _ => 0) + (r.items.filter (fun i => !i.done && (match i.dst with | .claim _ x => x ≠ 0 | _ => false))).length

/-- The index of a pair that may be linked (R235): a latch or v0 is none. -/
def pairIndex : Src → Nat
  | .reg i => i.toNat
  | _ => 0

/-- The trap of a missed promise (R236). -/
def promiseTrap (w : Who) (s : State) (a : Src) : Stop :=
  let n := match (linkOfSrc s w.t a).bind (liveReq s) with | some r => claimsOut r | none => 0
  .trap 0x0B (BitVec.ofNat 64 (regAddr s w.t (pairIndex a))) (BitVec.ofNat 32 n)

/-- SLEEP.P (R107, R236): at the promised cycle a linked request that has not ended is a missed promise, whatever it does after it. Once it
waits, the pair is not read again. -/
def execSleepP (h : Hdr) (a : Src) : State → Host.Outcome State Fault Refusal :=
  runInstr h { srcs := [(.a, a, 2)], cancel := .always } (fun w s => do
    match w.th.wait with
    | .slept _ miss => if miss then .error (promiseTrap w s a) else .ok s
    | .promised c p => .error (.hold (.promised c p) s)
    | _ => do
      let p ← (src w s a 2).map (·.toNat)
      if s.cyc < p then .error (.hold (.promised p (pairIndex a)) s)
      else if ((linkOfSrc s w.t a).bind (liveReq s)).isSome then .error (promiseTrap w s a)
      else .ok s)

/-- CANCP (R108). -/
def execCancp (h : Hdr) : State → Host.Outcome State Fault Refusal :=
  runInstr h { cancel := .always } (fun _ s => .ok s)

/-- TRAP (R298). -/
def execTrap (h : Hdr) (b : Src) : State → Host.Outcome State Fault Refusal :=
  runInstr h { srcs := [(.b, b, 1)], cancel := .never } (fun w s => do
    let v ← src32 w s b
    .error (.after 0x17 0 v s))

/-- TRET (R299, R262); like every instruction that sets the PC it traps on a TRAP_PC that is no multiple of 8 (R57). -/
def execTret (h : Hdr) : State → Host.Outcome State Fault Refusal :=
  runInstr h { sys := true, cancel := .never, tret := true } (fun w s => do
    if (takeCancel s w true).isSome then .error .cancel
    let pc := bankPair s w.t 26
    trapIf (pc.toNat % 8 ≠ 0) 0x09 pc 0
    .ok (trapReturn s w.t))

/-- TFENCE (R300, R175): it waits for the thread's float results, then traps on the enabled flags. -/
def execTfence (h : Hdr) : State → Host.Outcome State Fault Refusal :=
  runInstr h { cancel := .never } (fun w s => do
    if floatsOut s w.t then .error (.wait .retry)
    let m : BitVec 6 := flagsOf w.th &&& w.th.fcw.extractLsb' 8 6
    trapIf (m != 0) 0x0A 0 (m.setWidth 32)
    .ok s)

end Sys2Proof.Machine
end

