-- ==== Sys2Proof/Machine/Engine.lean ====
section
/-!
DEFINITION. The copy engine's own work (R228-R241): regions (R187), layout records and boxes (R230-R234), what one item of a
request reads and writes, losses (R237), the stamp and the end of a request (R149, R236), and invalidations (R360).
-/
namespace Sys2Proof.Machine

/-- The width of a group (R187). -/
def groupWidth (s : State) (v : Nat) : Nat := (s.who ⟨v, 0, 0⟩).k.width

/-- The region a region word and its handle name (R185, R187). -/
def regionOf (w : Who) (s : State) (x h : Word) : Region :=
  let base := bits x 8 0
  let len := bits x 18 9
  if h = 0 then ⟨w.t.vgid, w.t.layer, base, len, 0⟩
  else
    let (core, slot, _) := handleSlot s h
    let d := slotAt s core slot
    ⟨d.owner.vgid, d.owner.layer, base, len, h⟩

/-- R52 for a region with a handle, whose window must cover its registers (R187): TRAP_INFO of the first failure. DESIGN CHOICE (log 96): the
offset of a region is that of its BASE in the window, 0 where it lies below; 0 too where the check that fails comes before the window's
own, so that a handle of another tenant shows nothing of the slot. -/
def regionFault (w : Who) (s : State) (r : Region) (right : Right) : Option Word :=
  if r.handle = 0 then none
  else
    let (core, slot, _) := handleSlot s r.handle
    let d := slotAt s core slot
    let off := r.base - d.base
    match windowCheck s w r.handle off (max 1 r.len) right with
    | some reason => some (windowInfo reason (if reason < 6 then 0 else off))
    | none => if r.base < d.base then some (windowInfo 0x08 off) else none

/-- The thread and register of word j of a region (R187). -/
def regionWord (r : Region) (j : Nat) : Tid × Nat := (⟨r.vgid, r.layer, j / max 1 r.len⟩, r.base + j % max 1 r.len)

/-- Whether the window of a handle is still open (R54). -/
def handleLive (s : State) (h : Word) : Bool :=
  let (core, slot, gen) := handleSlot s h
  let d := slotAt s core slot
  d.opened && d.gen = gen

/-- Who a request's accesses translate for (R56, R238). -/
def ceCtx (cl : Nat) (r : CeReq) : Ctx := 
  { unit := 1152 + cl, part := r.part, asid := r.asid, world := r.world, house := r.house }

/-- Who item `j` of a request translates for: the request holds its translation (R359). -/
def pieceCtx (cl : Nat) (r : CeReq) (j : Nat) : Ctx := { ceCtx cl r with req := r.order + 1, item := j }

/-- The function that owns a request's launch. -/
def CeReq.owner (r : CeReq) : Nat := if r.pf then 0 else r.vf + 1

/-- The reason an engine read loses with at a bad granule (R237, R290, R291). -/
def granReason : Gran → Nat
  | .uncorrectable => 0x04
  | _ => 0x03

/-- Whether `n` bytes from `va` reach a 64 KiB page. -/
def inPage (page va n : Nat) : Bool := decide (va / 65536 ≤ page) && decide (page ≤ (va + n - 1) / 65536)

/-- Whether an item reads, or with `write` writes, in a 64 KiB page. -/
def CeItem.touches (i : CeItem) (page : Nat) (write : Bool) : Bool :=
  if write then (match i.dst with
    | .mem ps => ps.any (fun q => inPage page q.1 q.2)
    | _ => false)
  else i.src.any (fun x => match x with
    | .mem va n => inPage page va n
    | .kept unit _ _ e => inPage page unit (32 * e + 8)
    | _ => false)

/-- The first item of the run in which a request's stream stays in a page, up to item `j`: where the stream comes back to the page it
translates again (R359). -/
def pieceRun (items : List CeItem) (page : Nat) (write : Bool) : Nat → Nat
  | 0 => 0
  | j + 1 => if (match items[j]? with | some i => i.touches page write | none => false) then pieceRun items page write j else j + 1

/-- The run of a page that the item being performed is in. -/
def runOf (s : State) (c : Ctx) (va : Nat) (need : Need) : Nat :=
  match (s.cluster (c.unit - 1152)).ce.find? (fun r => r.order + 1 = c.req) with
  | some r => pieceRun r.items (va / 65536) need.writes c.item
  | none => 0

/-- The translation that a request holds for a byte (R359). -/
def pieceAt (s : State) (c : Ctx) (va : Nat) (need : Need) : Option Nat :=
  if c.req = 0 then none
  else (s.pieces.find? (fun p => p.req = c.req && p.page = va / 65536 && p.write = need.writes && p.run = runOf s c va need)).map
    (fun p => p.phys + va % 65536)

/-- Hold a translation for a request. -/
def holdPiece (s : State) (c : Ctx) (va pa : Nat) (need : Need) : State :=
  if c.req = 0 then s
  else { s with pieces := s.pieces ++ [{ req := c.req, part := c.part, asid := c.asid, page := va / 65536, write := need.writes,
                                         run := runOf s c va need, phys := pa - va % 65536 }] }

/-- Translate a byte for an engine: a request translates once for each 64 KiB page it is in, and again at the next (R359). -/
def engTranslate (s : State) (c : Ctx) (va : Nat) (need : Need) (sp : Space) : Except TErr (Nat × State) :=
  match pieceAt s c va need with
  | some pa => .ok (pa, s)
  | none => match translate s c va need (some sp) with
    | .ok (pa, s1) => .ok (pa, holdPiece s1 c va pa need)
    | .error e => .error e

/-- Translate every byte of an engine's access. -/
def engRange (s : State) (c : Ctx) (va n : Nat) (need : Need) (sp : Space) : Except (TErr × Nat) (List (Nat × Nat) × State) :=
  rangeWith (fun s va => engTranslate s c va need sp) s va n

/-- The first byte, in the physical pieces of a read, whose granule fails its check. -/
def badPiece (s : State) (ps : List (Nat × Nat)) : Option (Nat × Gran) :=
  ps.findSome? (fun p => (badAt s p.1 p.2).map (fun b => (p.1 + b.1, b.2)))

/-- What made an engine's access fail is counted for function `f`, where it is an integrity event (R292, R353). -/
def engCount (s : State) (c : Ctx) (f va n : Nat) (need : Need) (sp : Space) : State :=
  match engRange s c va n need sp with
  | .error e => walkCharge s f e.1
  | .ok (ps, s1) => match (if need.writes then none else badPiece s1 ps) with
    | some (pa, g) => countGran s f c.part pa g
    | none => s

/-- A read of `n` bytes by an engine: the bytes, or the reason it fails (R237). -/
def engRead (s : State) (c : Ctx) (va n : Nat) (sp : Space) : Except Nat (List Byte × State) :=
  match engRange s c va n .engRead sp with
  | .error e => .error e.1.reason
  | .ok (ps, s1) =>
    match badPiece s1 ps with
    | some (_, g) => .error (granReason g)
    | none => .ok (ps.flatMap (fun p => physRead s1 p.1 p.2), s1)

/-- What an attempt at an item gives. -/
inductive ItemOut (α : Type) where
  | ok (x : α)
  /-- The word is PEND; the wait for one in a window, which is named, is bounded (R46). -/
  | pend (window : Option (Tid × Nat))
  /-- Held by a cut or behind an earlier write. -/
  | blocked
  | fault (reason : Nat)

/-- A register word as an engine reads it (R40, R249, R288, log 19). -/
def wordRead (s : State) (t : Tid) (r : Nat) (window : Bool) : ItemOut (List Byte × State) :=
  let x := regGet s t r
  match x.tag with
  | .pend =>
    if (s.group t.vgid).conveying || (look s.groups t.vgid).isNone then .fault (bits s.free.1 6 0) else .pend (if window then some (t, r) else none)
  | .poison => .fault 0x08
  | _ =>
    let es := eccAt s t r 1
    if es.any (·.2) then .fault 0x04
    else .ok (bytesOf [x.val], if es.isEmpty then s else eccRead s (s.who t).k.owner t t es)

/-- The kept value, of the two of a group, that stands at a position; none where the position holds a zero (R233). -/
def keptValue (md g pos : Nat) : Option Nat :=
  if pos = md / 2 ^ (4 * g) % 4 then some 0 else if pos = md / 2 ^ (4 * g + 2) % 4 then some 1 else none

/-- One source of an item. -/
def srcRead (s : State) (c : Ctx) (sp : Space) : CeSrc → ItemOut (List Byte × State)
  | .bytes b => .ok (b, s)
  | .mem va n => match engRead s c va n sp with
    | .ok x => .ok x
    | .error r => .fault r
  | .reg t r => wordRead s t r false
  | .win h t r => if handleLive s h then wordRead s t r true else .fault 0x0A
  | .kept unit g pos e =>
    match engRead s c (unit + 32 * e) 8 sp with
    | .error r => .fault r
    | .ok (m, s1) =>
      let md := ofBytes m
      if md / 2 ^ (4 * g + 2) % 4 ≤ md / 2 ^ (4 * g) % 4 then .fault 0x05
      else match keptValue md g pos with
        | some i => (match engRead s1 c (unit + e * (2 * g + i)) e sp with
          | .ok x => .ok x
          | .error r => .fault r)
        | none => .ok (List.replicate e 0, s1)

/-- All sources of an item, joined. -/
def srcsRead (s : State) (c : Ctx) (sp : Space) : List CeSrc → ItemOut (List Byte × State)
  | [] => .ok ([], s)
  | x :: r =>
    match srcRead s c sp x with
    | .ok (b, s1) => match srcsRead s1 c sp r with
      | .ok (bs, s2) => .ok (b ++ bs, s2)
      | o => o
    | o => o

/-- The physical pieces of a memory destination, up to the first that fails (R237), engine writes reaching the wings (R238). -/
def dstPhys (s : State) (c : Ctx) (sp : Space) : List (Nat × Nat) → List (Nat × Nat) × Option Nat × State
  | [] => ([], none, s)
  | (va, n) :: r =>
    match engRange s c va n .engWrite sp with
    | .error e => ([], some e.1.reason, s)
    | .ok (ps, s1) =>
      let (qs, f, s2) := dstPhys s1 c sp r
      (ps ++ qs, f, s2)

/-- Perform consecutive bytes into physical pieces. -/
def performPieces (s : State) : List (Nat × Nat) → List Byte → State
  | [], _ => s
  | (pa, n) :: r, bs => performPieces (performBytes s pa (bs.take n)) r (bs.drop n)

/-- The front and wings frame a request's page has now (R238, R251). -/
def pageLeaf (s : State) (c : Ctx) (va : Nat) : Option Leaf :=
  match walk s c va with
  | .ok l => some l
  | .error _ => none

/-- The physical bytes that a WOPEN has still to copy to: the rest of its 64 KiB page in the frame it holds for it, where it holds one, and
the pages after it in the wings frame that its entry names now (R251, R359). -/
def wopenRest (s : State) (cl : Nat) (r : CeReq) : List (Nat × Nat) :=
  let edge := r.counted / 65536 * 65536 + 65536
  let held := (pieceAt s (pieceCtx cl r 0) (r.record + r.counted) .engWrite).map (fun pa => (pa, edge - r.counted))
  match pageLeaf s (ceCtx cl r) r.record with
  | some l =>
    let size := leafSize l.lvl
    held.getD (l.wings + r.counted, edge - r.counted) :: (if edge < size then [(l.wings + edge, size - edge)] else [])
  | none => held.toList

/-- Whether an earlier WOPEN has still to copy a granule that `n` physical bytes reach (R251). -/
def wopenHolds (s : State) (order pa n : Nat) : Bool :=
  s.clusters.any (fun x => x.2.ce.any (fun (r : CeReq) =>
    r.kind = .wopen && r.st.live && r.order < order && (wopenRest s x.1 r).any (fun p => meets s pa n p.1 p.2)))

/-- A write of a memory destination that must wait (R251). -/
def dstBlocked (s : State) (order : Nat) (ps : List (Nat × Nat)) : Bool := ps.any (fun p => wopenHolds s order p.1 p.2)

/-- Where a memory destination of item j lies, if the request holds every translation of it. -/
def heldDst (s : State) (cl : Nat) (r : CeReq) (j : Nat) (ps : List (Nat × Nat)) : Option (List (Nat × Nat)) :=
  let c := pieceCtx cl r j
  ps.foldr (fun p acc => match pieceAt s c p.1 .engWrite, pieceAt s c (p.1 + p.2 - 1) .engWrite, acc with
    | some a, some b, some l => some ((if p.1 / 65536 = (p.1 + p.2 - 1) / 65536 then [(a, p.2)]
        else [(a, 65536 - p.1 % 65536), (b / 65536 * 65536, (p.1 + p.2) % 65536)]) ++ l)
    | _, _, _ => none) (some [])

/-- An outbound item that can no longer fail: its words have been read and its destination is translated. -/
def itemSure (s : State) (cl : Nat) (r : CeReq) (j : Nat) (i : CeItem) : Option (List (Nat × Nat)) :=
  match i.dst with
  | .mem ps => if i.src.all (fun x => match x with | .bytes _ => true | _ => false) then heldDst s cl r j ps else none
  | _ => none

/-- Whether an outbound item, whose destination is `qs`, must wait for one before it: for one that can still fail, so that no byte from a
faulting piece on is written (R237), and for one that writes a byte of its own, since of two positions with one element the higher is
written last (R232); else payload writes have no order (R149, log 75). -/
def itemBehind (s : State) (cl : Nat) (r : CeReq) (j : Nat) (qs : List (Nat × Nat)) : Bool :=
  (r.items.take j).zipIdx.any (fun x => !x.1.done && match itemSure s cl r x.2 x.1 with
    | some ps => ps.any (fun p => qs.any (fun q => meets s p.1 p.2 q.1 q.2))
    | none => true)

/-- A ticket or stamp (R188). -/
def ticketVal (fault : Bool) (reason flags cl seq : Nat) : DWord :=
  BitVec.ofNat 64 ((if fault then 2 ^ 63 else 0) + reason % 128 * 2 ^ 56 + flags % 64 * 2 ^ 50 + cl % 64 * 2 ^ 44 + seq % 2 ^ 44)

/-- The header of a KV block table record (R348). -/
structure KvHead where
  count : Nat
  roww : Nat
  base : Nat
  fbase : Nat
  deriving DecidableEq, Repr

def kvHeadOf (ws : List Word) : KvHead :=
  { count := (ws.getD 0 0).toNat, roww := bits (ws.getD 1 0) 4 0, base := (pairOf (ws.getD 2 0) (ws.getD 3 0)).toNat,
    fbase := (pairOf (ws.getD 4 0) (ws.getD 5 0)).toNat }

/-- The header a request kept. -/
def CeReq.head (r : CeReq) : KvHead := kvHeadOf r.args
def CeReq.idx (r : CeReq) : List Nat := (r.args.drop 6).map (·.toNat)

/-- The tracker's entry for a record's entry (R363). -/
def trackAt (p : Part) (asid record k : Nat) : Option Tracker :=
  p.tracker.find? (fun t => t.asid = asid && t.record = record && t.k = k)

/-- Whether the tracker can take `n` more page-ins (R363): with every entry in flight none can start, and the request waits. -/
def trackRoom (s : State) (part n : Nat) : Bool :=
  decide (((s.part part).tracker.filter (fun t => t.st = .inflight)).length + n ≤ 1024)

/-- The oldest entry that is not in flight makes room (R363). -/
def trackDrop (l : List Tracker) : List Tracker :=
  if l.length < 1024 then l
  else match sortBy (fun a b => a.ord ≤ b.ord) (l.filter (fun t => t.st ≠ .inflight)) with
    | t :: _ => l.filter (fun x => x.id ≠ t.id)
    | [] => l

/-- Start a page-in of an entry, or join the one in flight (R349, R363). -/
def pageStart (s : State) (cl : Nat) (r : CeReq) (k : KvHead) (i block j : Nat) : State :=
  let post := (r.tid.vgid, ticketVal false 0 0 cl r.seq, j)
  match trackAt (s.part r.part) r.asid r.record i with
  | some t =>
    if t.st = .inflight then
      s.updPart r.part (fun p => { p with tracker := p.tracker.map (fun x => if x.id = t.id then { x with posts := x.posts ++ [post], ord := min x.ord r.order } else x) })
    else again s t.id (fun l => l.filter (fun x => x.id ≠ t.id)) post
  | none => let (n, s1) := s.newId; again s1 n trackDrop post
where
  again (s : State) (id : Nat) (clear : List Tracker → List Tracker) (post : Nat × DWord × Nat) : State :=
    s.updPart r.part (fun p => { p with tracker := clear p.tracker ++ [{
      id := id, record := r.record, k := i, st := .inflight, ord := r.order, asid := r.asid, vf := r.vf, pf := r.pf, world := r.world,
      src := k.fbase + 64 * k.roww * block, dst := k.base + 64 * k.roww * block, bytes := 64 * k.roww,
      flag := r.record + 32 + 4 * i, posts := [post], cl := cl }] })

/-- An attempt at item j of a request (R247-R249, R348). -/
def itemTry (s : State) (cl : Nat) (r : CeReq) (j : Nat) (x : CeItem) : ItemOut State :=
  let c := pieceCtx cl r j
  match srcsRead s c r.space x.src with
  | .pend w => .pend w
  | .blocked => .blocked
  | .fault f => .fault f
  | .ok (bs, s1) =>
    let v := BitVec.ofNat 32 (ofBytes bs)
    match x.dst with
    | .drop => .ok s1
    | .page i block j => if trackRoom s1 r.part 1 then .ok (pageStart s1 cl r r.head i block j) else .blocked
    | .claim t i => .ok (arriveWord s1 t i v)
    | .win h t i =>
      if !handleLive s1 h then .fault 0x0A
      else if (regGet s1 t i).tag = .pend then .pend (some (t, i))
      else .ok (writeWord s1 t i v)
    | .mem ps =>
      match dstPhys s1 c r.space ps with
      | (_, some f, _) => .fault f
      | (qs, none, s2) => if itemBehind s2 cl r j qs || dstBlocked s2 r.order qs then .blocked else .ok (performPieces s2 qs bs)

/-- An outbound item is read and its destination translated before its write is performed, and so can no longer fail (R248, R249). -/
def itemReady (s : State) (cl : Nat) (r : CeReq) (j : Nat) (x : CeItem) : Option (List Byte × State) :=
  match x.dst, srcsRead s (pieceCtx cl r j) r.space x.src with
  | .mem ps, .ok (bs, s1) =>
    (match dstPhys s1 (pieceCtx cl r j) r.space ps with
     | (_, none, s2) => some (bs, s2)
     | _ => none)
  | _, _ => none

/-- The destination bytes of an item (R237). -/
def itemBytes (x : CeItem) : Nat :=
  match x.dst with
  | .mem ps => ps.foldl (fun n p => n + p.2) 0
  | .page _ _ _ => 0
  | _ => 4

/-- Count bytes of a sibling's loads and copies (R377). -/
def sibBytes (s : State) (v n : Nat) : State :=
  if (look s.groups v).isSome && (s.who ⟨v, 0, 0⟩).k.sib then updSib s (s.group v).gang (fun r => { r with bytes := r.bytes + n }) else s

/-- Engine cycles spent for a sibling, of which the spec gives no number (R377, log 6). -/
def sibEngine (s : State) (v : Nat) : State :=
  if (look s.groups v).isSome && (s.who ⟨v, 0, 0⟩).k.sib then
    let (x, s1) := s.free
    updSib s1 (s.group v).gang (fun r => { r with engine := r.engine + x.toNat })
  else s

/-- Record a fault of a request from word n: the first loss is kept (R44, R237). -/
def CeReq.fail (r : CeReq) (n reason : Nat) : CeReq :=
  if r.fault then r else { r with fault := true, reason := reason, first := n }

/-- The stamp of a request as it ends. -/
def CeReq.stampVal (cl : Nat) (r : CeReq) : DWord := ticketVal r.fault r.reason 0 cl r.seq

/-- Whether a request has still something to do in a page whose translation it holds, before its stream leaves the page. -/
def CeReq.touches (r : CeReq) (p : Piece) : Bool :=
  if r.kind = .wopen then decide (r.counted < r.total.getD 0) && inPage p.page (r.record + r.counted) 64
  else ((r.items.drop p.run).takeWhile (·.touches p.page p.write)).any (fun i => !i.done)

/-- A request gives up the translations of pages that it has done with (R359). -/
def dropPieces (s : State) (cl seq : Nat) : State :=
  match findReq s cl seq with
  | none => s
  | some r => { s with pieces := s.pieces.filter (fun p => p.req ≠ r.order + 1 || (r.st = .running && r.touches p)) }

/-- The end of a request (R228): its stamp is written last (R149). A stream that outran its region has lost its excess by then (R234). -/
def ceEnd (s : State) (cl seq : Nat) : State :=
  match findReq s cl seq with
  | none => s
  | some r0 =>
    let r := match r0.short with
      | some n => r0.fail n 0x46
      | none => r0
    let v := r.stampVal cl
    let s1 := match r.stamp with
      | .none => s
      | .pair t x => operandArrive s t x [loWord v, hiWord v]
      | .mem va => match translate s (ceCtx cl r) va .write (some .g) with
        | .ok (pa, s1) => performBytes s1 pa (bytes64 v)
        | .error _ => s
    sibEngine (dropPieces (updReq s1 cl seq (fun q => { q with st := .ended, fault := r.fault, reason := r.reason, first := r.first })) cl seq) r.tid.vgid

/-- Count `n` destination bytes of a request, landed or lost (R131, R237). -/
def ceCount (s : State) (cl seq n : Nat) : State :=
  match findReq s cl seq with
  | none => s
  | some r =>
    let s1 := updReq s cl seq (fun q => { q with counted := q.counted + n })
    r.barriers.foldl (fun s b => barDown s b.1 b.2.1 b.2.2 n) s1

/-- A stamp, a release of the issuer's, waits for every earlier access of the issuer (R144, R149, R154). -/
def stampHeld (s : State) (r : CeReq) : Bool := r.stamp ≠ .none && outBefore s r.tid r.order

/-- End a request once no item is left (R228), and its stamp can be written (R149). -/
def ceSettle (s : State) (cl seq : Nat) : State :=
  match findReq s cl seq with
  | none => s
  | some r => if r.st = .running && r.items.all (·.done) && !stampHeld s r then ceEnd s cl seq else s

def setItem (r : CeReq) (j : Nat) (f : CeItem → CeItem) : CeReq :=
  { r with items := r.items.zipIdx.map (fun (x : CeItem × Nat) => if x.2 = j then f x.1 else x.1) }

/-- One item is performed (R247). -/
def itemDone (s : State) (cl seq j : Nat) (x : CeItem) : State :=
  let s1 := dropPieces (updReq s cl seq (fun q => setItem q j (fun y => { y with done := true }))) cl seq
  let v := match findReq s cl seq with | some r => r.tid.vgid | none => 0
  ceSettle (sibBytes (ceCount s1 cl seq (itemBytes x)) v (itemBytes x)) cl seq

/-- The loss of one item's claimed word (R237). -/
def itemLose (s : State) (n : Nat) (x : CeItem) : State :=
  match x.dst with
  | .claim t i => lossWord s t i (poisonRecord 2 n)
  | _ => s

/-- The record of a loss (R44): every word lost by one request has the same, of the word lost first. -/
def CeReq.firstLost (r : CeReq) (n : Nat) : Nat := if r.fault then r.first else n

/-- What an item reads and writes in memory, in order. -/
def itemRanges (s : State) (c : Ctx) (sp : Space) (x : CeItem) : List (Nat × Nat × Need) :=
  x.src.flatMap (fun y => match y with
    | .mem va n => [(va, n, .engRead)]
    | .kept unit g pos e => (unit + 32 * e, 8, Need.engRead) :: (match engRead s c (unit + 32 * e) 8 sp with
      | .ok (m, _) => (keptValue (ofBytes m) g pos).toList.map (fun i => (unit + e * (2 * g + i), e, Need.engRead))
      | .error _ => [])
    | _ => [])
  ++ (match x.dst with
    | .mem ps => ps.map (fun p => (p.1, p.2, .engWrite))
    | _ => [])

/-- What made an item fail is counted, where it is an integrity event: a walk, a granule, or a register word (R292). -/
def ceCharge (s : State) (cl : Nat) (r : CeReq) (n reason : Nat) : State :=
  let c := pieceCtx cl r n
  let fails (q : Nat × Nat × Need) : Bool := match engRange s c q.1 q.2.1 q.2.2 r.space with
    | .error _ => true
    | .ok (ps, s1) => !q.2.2.writes && (badPiece s1 ps).isSome
  if reason ∉ [0x01, 0x03, 0x04] then s
  else match (r.items[n]?).bind (fun x => (itemRanges s c r.space x).find? fails) with
    | some q => engCount s c r.owner q.1 q.2.1 q.2.2 r.space
    | none => if reason = 0x04 then count s r.owner 1 1 else s

/-- Lose word n and every later word, or only the words below `upTo` (R224, R237, R348); a fault of the checks in memory is
counted (R292). -/
def ceLose (s : State) (cl seq n upTo reason : Nat) : State :=
  match findReq s cl seq with
  | none => s
  | some r =>
    let lost := (r.items.zipIdx.filter (fun (x : CeItem × Nat) => !x.1.done && decide (n ≤ x.2) && decide (x.2 < upTo))).map (·.1)
    let s1 := lost.foldl (fun s x => itemLose s (r.firstLost n) x) s
    let s2 := updReq s1 cl seq (fun q => { q.fail n reason with
      items := q.items.zipIdx.map (fun (x : CeItem × Nat) => if n ≤ x.2 && x.2 < upTo then { x.1 with done := true } else x.1) })
    let s3 := dropPieces (ceCharge s2 cl r n reason) cl seq
    ceSettle (ceCount s3 cl seq (lost.foldl (fun n x => n + itemBytes x) 0)) cl seq

/-- The items of a request that carry words: all but the page-ins it starts, which stand last. -/
def CeReq.payload (r : CeReq) : Nat :=
  (r.items.filter (fun x => match x.dst with | .page _ _ _ => false | _ => true)).length

/-- The bytes an outbound item performs before its faulting piece (R237), or none where they must wait. -/
def itemPrefix (s : State) (cl : Nat) (r : CeReq) (j : Nat) (x : CeItem) : Option State :=
  match x.dst with
  | .mem ps =>
    let before := (r.items.take j).any (fun i => !i.done)
    match srcsRead s (pieceCtx cl r j) r.space x.src with
    | .ok (bs, s1) =>
      let (qs, _, s2) := dstPhys s1 (pieceCtx cl r j) r.space ps
      if before || dstBlocked s2 r.order qs then none else some (performPieces s2 qs bs)
    | _ => if before then none else some s
  | _ => some s

/-- A layout record (R230). -/
structure Layout where
  base : Nat
  ecode : Nat
  rank : Nat
  sparse : Bool
  edge : Bool
  ilv : Nat
  sizes : List Nat
  strides : List Int

def layoutOf (ws : List Word) : Layout :=
  let x := ws.getD 2 0
  { base := (pairOf (ws.getD 0 0) (ws.getD 1 0)).toNat, ecode := bits x 2 0, rank := bits x 5 3, sparse := bit x 8, edge := bit x 9,
    ilv := bits x 19 18, sizes := (upto 3 5).map (fun i => (ws.getD i 0).toNat),
    strides := (upto 0 4).map (fun i => (pairOf (ws.getD (8 + 2 * i) 0) (ws.getD (9 + 2 * i) 0)).toInt) }

/-- The element size in bytes (R230). -/
def Layout.esize (l : Layout) : Nat :=
  match l.ecode with
  | 0 => 1
  | 1 => 2
  | 2 => 4
  | 3 => 8
  | _ => 64

/-- The first check of R231 that a record fails; a store of sparse data fails with 0x43 (R233). -/
def layoutBad (l : Layout) (x : Word) (store : Bool) (o0 : Int) (n0 : Nat) : Option Nat :=
  let e := l.esize
  let inside := upto 0 (min 5 l.rank)
  let outside := (upto 0 5).filter (fun d => decide (l.rank ≤ d))
  if l.rank = 0 || l.rank > 5 then some 0x40
  else if inside.any (fun d => l.sizes.getD d 0 = 0) || outside.any (fun d => l.sizes.getD d 0 ≠ 0 || (d > 0 && l.strides.getD (d - 1) 0 ≠ 0))
    then some 0x41
  else if l.ecode ≤ 4 && (l.base % e ≠ 0 || l.strides.any (fun t => t % e ≠ 0)) then some 0x42
  else if l.sparse && (store || l.ecode = 3 || l.ecode = 4 || l.sizes.getD 0 0 % 64 ≠ 0) then some 0x43
  else if bits x 31 20 ≠ 0 || bits x 17 10 ≠ 0 || bits x 7 6 ≠ 0 || l.ecode > 4 || l.ilv > 1 then some 0x44
  else if l.sparse && (o0 % 64 ≠ 0 || n0 % 64 ≠ 0 || o0 < 0 || o0 + n0 > l.sizes.getD 0 0) then some 0x45
  else none

/-- A coordinate brought into range by mirroring (R232). -/
def mirror (edge : Bool) (n : Nat) (c : Int) : Nat :=
  if n = 1 then 0
  else
    let p : Nat := if edge then 2 * n else 2 * n - 2
    let m := (c % (p : Int)).toNat
    if m < n then m else if edge then p - 1 - m else p - m

/-- The digits of a position in a box, dimension 0 first. -/
def digits : List Nat → Nat → List Nat
  | [], _ => []
  | n :: r, i => i % max 1 n :: digits r (i / max 1 n)

/-- A box: its origins and extents below RANK (R249). -/
structure Box where
  o : List Int
  n : List Nat

def boxOf (l : Layout) (args : List Word) : Box :=
  ⟨(args.take l.rank).map (fun (x : Word) => x.toInt), ((args.drop 5).take l.rank).map (·.toNat)⟩

def Box.count (b : Box) : Nat := b.n.foldl (· * ·) 1

/-- The tensor coordinates of a position, mirrored (R232). -/
def coords (l : Layout) (b : Box) (i : Nat) : List Nat :=
  ((digits b.n i).zip (b.o.zip l.sizes)).map (fun x => mirror l.edge x.2.2 (x.2.1 + (x.1 : Int)))

/-- The address of a row, which omits the term of dimension 0 (R230, R233). -/
def rowAddr (l : Layout) (cs : List Nat) : Nat :=
  let off := ((cs.drop 1).zip l.strides).foldl (fun (n : Int) x => n + (x.1 : Int) * x.2) 0
  (((l.base : Int) + off) % 2 ^ 64).toNat

def elemAddr (l : Layout) (b : Box) (i : Nat) : Nat :=
  let cs := coords l b i
  (rowAddr l cs + cs.headD 0 * l.esize) % 2 ^ 64

/-- What an element of the box reads: bytes `lo` to `lo + n - 1` of it. -/
def elemSrc (l : Layout) (b : Box) (i lo n : Nat) : CeSrc :=
  if l.sparse then
    let cs := coords l b i
    let c0 := cs.headD 0
    .kept (rowAddr l cs + c0 / 64 * (32 * l.esize + 8)) (c0 % 64 / 4) (c0 % 4) l.esize
  else .mem ((elemAddr l b i + lo) % 2 ^ 64) n

/-- The elements of word j of the dense stream, as (position, first byte, bytes) (R234). -/
def streamWord (l : Layout) (b : Box) (j : Nat) : List (Nat × Nat × Nat) :=
  let e := l.esize
  if e ≤ 4 then ((upto (j * (4 / e)) (4 / e)).filter (fun i => decide (i < b.count))).map (fun i => (i, 0, e))
  else [(j / (e / 4), 4 * (j % (e / 4)), 4)]

def streamWords (l : Layout) (b : Box) : Nat := (b.count * l.esize + 3) / 4

/-- Where word j of the stream lies in a region of a group of width `width` (R234). -/
def ilvWord (l : Layout) (g : Region) (width j : Nat) : Tid × Nat :=
  if l.ilv = 0 then regionWord g j else (⟨g.vgid, g.layer, j % width⟩, g.base + j / width)

/-- The items of a fill (R249). -/
def fillItems (l : Layout) (b : Box) (g : Region) (width n : Nat) : List CeItem :=
  (upto 0 n).map (fun j =>
    let parts := streamWord l b j
    let pad := 4 - parts.foldl (fun n x => n + x.2.2) 0
    let (t, r) := ilvWord l g width j
    { src := parts.map (fun x => elemSrc l b x.1 x.2.1 x.2.2) ++ (if pad = 0 then [] else [.bytes (List.replicate pad 0)]),
      dst := if g.handle = 0 then .claim t r else .win g.handle t r })

/-- The items of a store (R249). -/
def storeItems (l : Layout) (b : Box) (g : Region) (width n : Nat) : List CeItem :=
  (upto 0 n).map (fun j =>
    let (t, r) := ilvWord l g width j
    { src := [if g.handle = 0 then .reg t r else .win g.handle t r],
      dst := .mem ((streamWord l b j).map (fun x => ((elemAddr l b x.1 + x.2.1) % 2 ^ 64, x.2.2))) })

/-- Lose every claimed word of a request before it runs (R231). -/
def loseAll (s : State) (cl seq reason : Nat) : State :=
  match findReq s cl seq with
  | none => s
  | some r =>
    let s1 := r.rest.foldl (fun s x => lossWord s x.1 x.2.1 (poisonRecord 2 0)) s
    ceSettle (updReq s1 cl seq (fun q => { q.fail 0 reason with st := .running, total := some 0, rest := [] })) cl seq

/-- Give words of a bulk fill that the stream does not reach their tag back: they stay untouched (R234, log 24). -/
def giveBack (s : State) (rest : List (Tid × Nat × Tag)) (items : List CeItem) : State :=
  rest.foldl (fun s x =>
    if items.any (fun i => i.dst = .claim x.1 x.2.1) then s
    else if (regGet s x.1 x.2.1).tag = .pend then setTag s x.1 x.2.1 x.2.2 else s) s

/-- A bulk copy reads its record once and starts (R228-R234). -/
def bulkStart (s : State) (cl : Nat) (r : CeReq) : State :=
  match engRead s (ceCtx cl r) r.record 64 .g with
  | .error _ => loseAll (engCount s (ceCtx cl r) r.owner r.record 64 .engRead .g) cl r.seq 0x07
  | .ok (bs, s1) =>
    let ws := wordsOf bs
    let l := layoutOf ws
    let store := r.kind = .bstore
    match layoutBad l (ws.getD 2 0) store (r.args.headD 0).toInt (r.args.getD 5 0).toNat, r.region with
    | some reason, _ => loseAll s1 cl r.seq reason
    | none, none => s1
    | none, some g =>
      let b := boxOf l r.args
      let width := groupWidth s1 g.vgid
      let n := streamWords l b
      let room := width * g.len
      let m := min n room
      let items := if store then storeItems l b g width m else fillItems l b g width m
      let total := items.foldl (fun n x => n + itemBytes x) 0
      let s2 := updReq (giveBack s1 r.rest items) cl r.seq (fun q =>
        { q with st := .running, items := items, total := some total, rest := [], short := if room < n then some room else none })
      ceSettle s2 cl r.seq

/-- Begin an invalidation (R360): the cached translations that `hit` names go; the accesses `ids`, which may have used one, and the pieces of
copies that hold one are noted. -/
def beginInv (s : State) (t : Option Tid) (part asid lo hi : Nat) (hit : TlbEntry → Bool) (ids : List Nat) (held : List Piece) : Nat × State :=
  let (id, s1) := s.newId
  (id, { s1 with tlbs := s1.tlbs.map (fun p => (p.1, p.2.filter (fun e => !hit e))),
                 invs := s1.invs ++ [{ id := id, tid := t, part := part, asid := asid, lo := lo, hi := hi, after := ids, held := held }] })

/-- The invalidation of a range of one address space (R360, R372): an access counts that lies in the range, or in a page whose cached
translation goes. -/
def startInv (s : State) (t : Option Tid) (part asid lo hi : Nat) : Nat × State :=
  let inside (va n : Nat) : Bool := decide (va ≤ hi) && decide (lo < va + max 1 n)
  let gone (e : TlbEntry) : Bool := e.part = part && e.asid = asid && inside e.va e.size
  let pages := (s.tlbs.flatMap (·.2)).filter gone
  let hit (va n : Nat) : Bool := inside va n || pages.any (fun e => decide (va < e.va + e.size) && decide (e.va < va + max 1 n))
  let mine (x : Tid) (a : Nat) : Bool := (s.who x).k.part = part && a = asid
  let ids :=
    (s.loads.filter (fun l => mine l.tid l.asid && hit l.va 16)).map (·.id)
    ++ s.groups.flatMap (fun g => (g.2.queue.filter (fun e => e.red.isNone && mine e.tid e.asid && hit e.va e.size)).map (·.id))
    ++ (s.atomics.filter (fun a => mine a.tid a.asid && hit a.va 128)).map (·.id)
  beginInv s t part asid lo hi gone ids
    (s.pieces.filter (fun p => p.part = part && p.asid = asid && hit (65536 * p.page) 65536))

/-- The invalidation of every cached translation of a wings pair, under whatever address (R239): the accesses that may have used one are
those that reach either frame. -/
def pairInv (s : State) (part asid lo hi : Nat) (l : Leaf) : Nat × State :=
  let n := leafSize l.lvl
  let frames (a m : Nat) : Bool := meets s a m (frameOf l.e) n || meets s a m l.wings n
  let ids :=
    (s.loads.filter (fun x => x.pieces.any (fun p => frames p.1 p.2))).map (·.id)
    ++ s.groups.flatMap (fun g => (g.2.queue.filter (fun e => e.pieces.any (fun p => frames p.1 p.2.length))).map (·.id))
    ++ (s.atomics.filter (fun a => frames a.addr a.size)).map (·.id)
  beginInv s none part asid lo hi (fun e => e.src = l.at_ || e.src = l.at_ + 8) ids
    (s.pieces.filter (fun p => frames p.phys 65536))

/-- Whether every access an invalidation waits for has been performed or lost, copies up to their 64 KiB boundary among them (R360). -/
def invReady (s : State) (i : Inv) : Bool :=
  i.held.all (fun p => !s.pieces.contains p) &&
  i.after.all (fun n => !(s.loads.any (fun l => l.id = n)) && !(s.atomics.any (fun a => a.id = n))
    && !(s.groups.any (fun g => g.2.queue.any (fun e => e.id = n))))

end Sys2Proof.Machine
end

