-- ==== Sys2Proof/Machine/Copy.lean ====
section
/-!
DEFINITION. The copy class (R243-R251): requests are checked, claimed and accepted here; their engine runs them in later steps.
-/
namespace Sys2Proof.Machine

/-- The words of a stamp or promise pair; v0 names none (R244). -/
def pairWords (t : Tid) (p : Nat) : List (Tid × Nat) := if p = 0 then [] else [(t, p), (t, p + 1)]

/-- Cause 0x06 with TRAP_INFO 0x24: promise, stamp and claimed words overlap (R245). -/
def overlapIf (w : Who) (pp sp : Nat) (claimed : List (Tid × Nat)) : Res Unit :=
  let a := pairWords w.t pp
  let b := pairWords w.t sp
  let meet (x y : List (Tid × Nat)) : Bool := x.any (fun p => p.2 ≠ 0 && y.contains p)
  trapIf (meet a b || meet a claimed || meet b claimed) 0x06 0 0x24

/-- The pair that the promise is written to: none with N = 1, which suppresses the write (R58). -/
def promisePair (h : Hdr) (d : BitVec 9) : Nat := if h.nw then 0 else d.toNat

/-- Whether an earlier access of the issuer's, or one that the owner's own accesses wait for, is on its way to a word (R150, R152). -/
def accOnWord (s : State) (t x : Tid) (i : Nat) : Bool := ownAccOn s x i 1 || s.accs.any (fun a => a.tid = t && a.on x i 1)

/-- R246 step 1: the words to claim and the promise pair are not PEND, and the engine holds fewer than 256 live requests. -/
def admission (w : Who) (s : State) (claimed : List (Tid × Nat)) (pp : Nat) : Res Unit := do
  if (claimed ++ pairWords w.t pp).any (fun p => (regGet s p.1 p.2).tag = .pend || accOnWord s w.t p.1 p.2) then .error (.wait .retry)
  if 256 ≤ ((s.cluster (clusterOf w.g.core)).ce.filter (fun (r : CeReq) => r.st.live)).length then .error (.wait .retry)

/-- A request of the issuer, not yet numbered. -/
def newReq (w : Who) (kind : CeKind) (sp : Space) : CeReq :=
  { seq := 0, kind := kind, tid := w.t, space := sp, asid := w.k.asid, part := w.k.part, vf := w.k.vf, pf := w.k.pf,
    world := w.k.world, house := w.k.house }

/-- R246 steps 2 and 3: claim, write the promise and link it; the request is ACCEPTED. The promise is the least one plus the
engine's estimate (R235, log 6). -/
def acceptReq (w : Who) (s : State) (r : CeReq) (claimed : List (Tid × Nat)) (pp : Nat) : Nat × State :=
  let cl := clusterOf w.g.core
  let s1 := claimed.foldl (fun s p => setTag s p.1 p.2 .pend) s
  let seq := (s1.cluster cl).ceSeq
  let (n, s2) := s1.newId
  let s3 := s2.updCluster cl (fun c => { c with ceSeq := seq + 1, ce := c.ce ++ [{ r with seq := seq, order := n }] })
  if pp = 0 then (seq, s3)
  else
    let p := BitVec.ofNat 64 (s3.cyc + 1 + Config.estimate s3.fresh)
    let s4 := operandWrite { s3 with fresh := s3.fresh + 1 } w.t pp [loWord p, hiWord p]
    (seq, s4.updThread w.t (fun th => { th with links := th.links ++ [⟨pp, cl, seq⟩] }))

/-- A handle, an offset and a word count checked under R52 for a request (R245). -/
def handleIf (w : Who) (s : State) (h : Word) (off n : Nat) (right : Right) : Res Unit :=
  match windowCheck s w h off n right with
  | some reason => .error (.trap 0x08 (h.setWidth 64) (windowInfo reason off))
  | none => .ok ()

/-- The stamp's memory address, checked (R245). -/
def stampAt (w : Who) (s : State) (va : Nat) : Res State := do
  trapIf (va % 8 ≠ 0) 0x09 (BitVec.ofNat 64 va) 0
  (deviceAt w s va .write).map (·.2)

/-- The words an outbound request reads through a window at issue, as one operand (R248): a wait on PEND is bounded (R46). -/
def windowWords (w : Who) (s : State) (h : Word) (t : Tid) (i n : Nat) : Res (List Word) :=
  let ws := regGets s t i n
  match pendingOf s ((upto i n).map (fun j => (t, j))) with
  | [] => match firstPoison ws i with
    | some p => .error (.trap (poisonCause p.2) (BitVec.ofNat 64 (regAddr s t p.1)) p.2)
    | none => (readCheck w s ((upto i n).map (fun j => (t, j)))).map (fun _ => ws.map (·.val))
  | ps => windowWait w s h ps

/-- The owner of a handle's window and the register an offset reaches. -/
def windowReg (s : State) (h : Word) (off : Nat) : Tid × Nat :=
  let (core, slot, _) := handleSlot s h
  let d := slotAt s core slot
  (d.owner, d.base + off)

/-- The register side of ACOPY and AWRITE: own registers from a base, or a window's word (R244). -/
def copySide (w : Who) (s : State) (r : CopyReg) (n : Nat) (right : Right) : Res (Option (Word × Nat)) :=
  match r with
  | .own base => do
    rangeIf w base.toNat n
    .ok none
  | .win a => do
    let p ← src w s a 2
    let off := (hiWord p).toNat
    handleIf w s (loWord p) off n right
    .ok (some (loWord p, off))

def copyUse (r : CopyReg) (d : BitVec 9) (srcs : List (Retain × Src × Nat)) (named : List (Nat × Nat)) (len cycles : Nat) : Use :=
  match r with
  | .own base => { srcs := srcs, named := (base.toNat, 1) :: named, dst := some (d.toNat, 2), len := len, cycles := cycles }
  | .win a => { srcs := (.a, a, 2) :: srcs, named := named, dst := some (d.toNat, 2), len := len, cycles := cycles }

/-- ACOPY (R247); its DST is compared with its other words whatever N is (log 84). -/
def execAcopy (h : Hdr) (nm1 : BitVec 6) (sp : Space) (d : BitVec 9) (r : CopyReg) (b : Src) (c : BitVec 9) : State → Host.Outcome State Fault Refusal :=
  let n := nm1.toNat + 1
  runInstr h (copyUse r d [(.b, b, 2)] [(c.toNat, 2)] 8 1) (fun w s => do
    acqGate w s
    let va ← addrOf w s b
    let side ← copySide w s r n .write
    let own : List (Tid × Nat) := match r with | .own base => (upto base.toNat n).map (fun i => (w.t, i)) | .win _ => []
    overlapIf w d.toNat c.toNat own
    trapIf (va % 4 ≠ 0) 0x09 (BitVec.ofNat 64 va) 0
    let claimed := own ++ pairWords w.t c.toNat
    admission w s claimed (promisePair h d)
    let dst (j : Nat) : CeDst := match r, side with
      | .own base, _ => if base.toNat + j = 0 then .drop else .claim w.t (base.toNat + j)
      | .win _, some (x, off) => let (t, i) := windowReg s x (off + j); .win x t i
      | .win _, none => .drop
    let mine := match side with
      | some (x, off) => (windowReg s x off).1.vgid = w.t.vgid
      | none => true
    let q : CeReq := { newReq w .acopy sp with
      va := va, own := mine, total := some (4 * n), stamp := if c = 0 then .none else .pair w.t c.toNat,
      items := (upto 0 n).map (fun j => { src := [.mem ((va + 4 * j) % 2 ^ 64) 4], dst := dst j }) }
    .ok (acceptReq w s q claimed (promisePair h d)).2)

/-- AWRITE (R248): its source words are read at issue. -/
def execAwrite (h : Hdr) (nm1 : BitVec 6) (sp : Space) (d : BitVec 9) (r : CopyReg) (b c : Src) : State → Host.Outcome State Fault Refusal :=
  let n := nm1.toNat + 1
  let stamps := c ≠ .reg 0
  let u := copyUse r d ([(.b, b, 2)] ++ (if stamps then [(.c, c, 2)] else [])) [] 8 1
  runInstr h { u with lists := fun _ _ => (match r with | .own base => [(base.toNat, n)] | .win _ => []) } (fun w s => do
    acqGate w s
    let s ← probeGate w s
    let va ← addrOf w s b
    let side ← copySide w s r n .read
    trapIf (va % 4 ≠ 0) 0x09 (BitVec.ofNat 64 va) 0
    let sv ← if stamps then addrOf w s c else .ok 0
    let s1 ← if stamps then stampAt w s sv else .ok s
    let ws ← match r, side with
      | .own base, _ => listRead w s1 base.toNat n
      | .win _, some (x, off) => let (t, i) := windowReg s1 x off; windowWords w s1 x t i n
      | .win _, none => .ok []
    admission w s1 [] (promisePair h d)
    let q : CeReq := { newReq w .awrite sp with
      va := va, total := some (4 * n), stamp := if stamps then .mem sv else .none,
      items := ws.zipIdx.map (fun x => { src := [.bytes (bytesOf [x.1])], dst := .mem [((va + 4 * x.2) % 2 ^ 64, 4)] }) }
    .ok (acceptReq w (dropProbes s1 w.t) q [] (promisePair h d)).2)

/-- The region pair of a bulk copy, checked in the order of R245: R52, the register ranges, then the region word. -/
def bulkRegion (w : Who) (s : State) (p : DWord) (b : Nat) (right : Right) : Res Region := do
  let x := loWord p
  let g := regionOf w s x (hiWord p)
  match regionFault w s g right with
  | some info => .error (.trap 0x08 (g.handle.setWidth 64) info)
  | none => do
    rangeIf w b 10
    if g.handle = 0 then rangeIf w g.base g.len
    trapIf (bits x 31 19 ≠ 0 || g.len = 0 || decide (512 < g.len)) 0x06 0 0x25
    .ok g

/-- BCOPY (R229, R249). -/
def execBcopy (h : Hdr) (sp : Space) (d : BitVec 9) (a : Src) (b c : BitVec 9) (x : DWord) : State → Host.Outcome State Fault Refusal :=
  runInstr h { srcs := [(.a, a, 2)], named := [(b.toNat, 1), (c.toNat, 2)], dst := some (d.toNat, 2), len := 16, cycles := 2,
               lists := fun _ _ => [(b.toNat, 10)] } (fun w s => do
    acqGate w s
    let p ← src w s a 2
    let g ← bulkRegion w s p b.toNat .write
    let own : List (Tid × Nat) := if g.handle = 0 then (upto 0 (w.k.width * g.len)).map (regionWord g) else []
    overlapIf w d.toNat c.toNat own
    trapIf (x.toNat % 64 ≠ 0) 0x09 x 0
    let args ← listRead w s b.toNat 10
    let claimed := own ++ pairWords w.t c.toNat
    admission w s claimed (promisePair h d)
    let q : CeReq := { newReq w .bcopy sp with
      record := x.toNat, args := args, region := some g, own := decide (g.vgid = w.t.vgid),
      rest := own.map (fun y => (y.1, y.2, (regGet s y.1 y.2).tag)), stamp := if c = 0 then .none else .pair w.t c.toNat }
    .ok (acceptReq w s q claimed (promisePair h d)).2)

/-- BSTORE (R249). -/
def execBstore (h : Hdr) (sp : Space) (d : BitVec 9) (a : Src) (b : BitVec 9) (c : Src) (x : DWord) : State → Host.Outcome State Fault Refusal :=
  let stamps := c ≠ .reg 0
  runInstr h { srcs := [(.a, a, 2)] ++ (if stamps then [(.c, c, 2)] else []), named := [(b.toNat, 1)], dst := some (d.toNat, 2),
               len := 16, cycles := 2, lists := fun _ _ => [(b.toNat, 10)] } (fun w s => do
    acqGate w s
    let p ← src w s a 2
    let g ← bulkRegion w s p b.toNat .read
    trapIf (x.toNat % 64 ≠ 0) 0x09 x 0
    let sv ← if stamps then addrOf w s c else .ok 0
    let s1 ← if stamps then stampAt w s sv else .ok s
    let args ← listRead w s1 b.toNat 10
    admission w s1 [] (promisePair h d)
    let q : CeReq := { newReq w .bstore sp with
      record := x.toNat, args := args, region := some g, stamp := if stamps then .mem sv else .none }
    .ok (acceptReq w s1 q [] (promisePair h d)).2)

/-- A request that its instruction can still reach through a link (R235): one that was cancelled is none. -/
def linkedReq (s : State) (l : Link) : Option CeReq := (findReq s l.cl l.seq).bind (fun r => if r.st = .cancelled then none else some r)

/-- The pair whose promise an ACQ renews (R70, R235). -/
def acqWrites (a : Src) (w : Who) (s : State) : List (Nat × Nat) :=
  match (linkOfSrc s w.t a).bind (fun l => (linkedReq s l).map (fun r => (l, r))) with
  | some (l, r) => if r.st.live then [(l.pair, 2)] else []
  | none => []

/-- ACQ (R250). -/
def execAcq (h : Hdr) (nt : Bool) (d : BitVec 9) (a : Src) : State → Host.Outcome State Fault Refusal :=
  runInstr h { srcs := [(.a, a, 2)], dst := some (d.toNat, 2), wrote := acqWrites a } (fun w s => do
    let _ ← src w s a 2
    match (linkOfSrc s w.t a).bind (fun l => (linkedReq s l).map (fun r => (l, r))) with
    | none => res w h s d 2 (ticketVal true 0x7F 0 0 0)
    | some (l, r) =>
      if r.st.live then do
        let p := BitVec.ofNat 64 (s.cyc + 1 + Config.estimate s.fresh)
        let s1 := operandWrite { s with fresh := s.fresh + 1 } w.t l.pair [loWord p, hiWord p]
        let s2 := s1.updThread w.t (fun th => { th with links := th.links ++ [l] })
        res w h s2 d 2 (ticketVal false 0x7D 0 l.cl r.seq)
      else if r.fault && !nt then .error (.trap 0x0C (BitVec.ofNat 64 (regAddr s w.t l.pair)) (poisonRecord 2 r.first))
      else res w h s d 2 (r.stampVal l.cl))

/-- The wings pair an address lies in, checked (R251). -/
def wingsLeaf (w : Who) (s : State) (va : Nat) : Res Leaf :=
  let prot (i : Word) : Res Leaf := .error (.trap 0x06 (BitVec.ofNat 64 va) i)
  match walk s w.ctx va with
  | .error e => .error (.trap e.cause (BitVec.ofNat 64 va) e.info)
  | .ok l =>
    let pa := frameOf l.e + va % leafSize l.lvl
    if place pa = .nowhere then prot 0x18
    else if (place pa).space ≠ some .g then prot 0x10
    else if !inRanges (s.part w.k.part) pa then prot 0x1B
    else if inSecure (s.part w.k.part) pa && !bit l.e 7 then prot 0x17
    else if !bit l.e 9 then prot 0x11
    else if !bit l.e 3 || bit l.e 7 != w.k.world then prot 0x12
    else .ok l

/-- PUBLISH (R239, R251): it waits, a cancellation point until its exchange, which a later step makes. -/
def execPublish (h : Hdr) (a : Src) : State → Host.Outcome State Fault Refusal :=
  runInstr h { srcs := [(.a, a, 2)] } (fun w s => do
    acqGate w s
    let va ← addrOf w s a
    let _ ← wingsLeaf w s va
    match w.th.wait with
    | .publish m i => .error (.wait (.publish m i))
    | _ => .error (.wait (.publish s.nextId none)))

/-- WOPEN (R251): a request that copies the front frame into the wings frame. -/
def execWopen (h : Hdr) (d : BitVec 9) (a : Src) (c : BitVec 9) : State → Host.Outcome State Fault Refusal :=
  runInstr h { srcs := [(.a, a, 2)], named := [(c.toNat, 2)], dst := some (d.toNat, 2) } (fun w s => do
    acqGate w s
    let va ← addrOf w s a
    let l ← wingsLeaf w s va
    overlapIf w d.toNat c.toNat []
    let claimed := pairWords w.t c.toNat
    admission w s claimed (promisePair h d)
    let size := leafSize l.lvl
    let q : CeReq := { newReq w .wopen .g with
      va := va, record := va - va % size, total := some size, stamp := if c = 0 then .none else .pair w.t c.toNat }
    .ok (acceptReq w s q claimed (promisePair h d)).2)

end Sys2Proof.Machine
end

