-- ==== Sys2Proof/Machine/Float.lean ====
section
/-!
DEFINITION. Floating formats and exact arithmetic rounded once (R163-R173, R205-R212): values as exact dyadic numbers, sums
and products of them, rounding with overflow, flushing and flags, and the approximate functions inside their bounds (R210).
-/
namespace Sys2Proof.Machine

/-- A format: exponent and fraction bits; .e4m3 alone has no infinity and one NaN pattern (R163, R164). -/
structure FFmt where
  eb : Nat
  fb : Nat
  small : Bool := false
  deriving DecidableEq, Repr

def fmt64 : FFmt := ⟨11, 52, false⟩
def fmt32 : FFmt := ⟨8, 23, false⟩
def fmt16 : FFmt := ⟨5, 10, false⟩
def fmtBf : FFmt := ⟨8, 7, false⟩
def fmtE5 : FFmt := ⟨5, 2, false⟩
def fmtE4 : FFmt := ⟨4, 3, true⟩

def fmtOfTy : Ty → FFmt
  | .f64 => fmt64
  | .f16 => fmt16
  | .bf16 => fmtBf
  | .e4m3 => fmtE4
  | .e5m2 => fmtE5
  | _ => fmt32

namespace FFmt
def bias (f : FFmt) : Nat := 2 ^ (f.eb - 1) - 1
def width (f : FFmt) : Nat := 1 + f.eb + f.fb
def signBit (f : FFmt) : Nat := 2 ^ (f.eb + f.fb)
/-- The exponent of the unit of the least subnormal. -/
def qmin (f : FFmt) : Int := 1 - (f.bias : Int) - f.fb
/-- The bits of the largest finite magnitude (R163). -/
def maxBits (f : FFmt) : Nat := if f.small then 0x7E else (2 ^ f.eb - 1) * 2 ^ f.fb - 1
def infBits (f : FFmt) : Nat := (2 ^ f.eb - 1) * 2 ^ f.fb
/-- The canonical NaN (R164). -/
def nan (f : FFmt) : Nat := if f.small then 0x7F else f.infBits + 2 ^ (f.fb - 1)
end FFmt

/-- A value: a NaN with its fraction and fraction width, an infinity, or (-1)^neg * m * 2^e, zero when m is 0. -/
inductive FV where
  | nan (neg : Bool) (frac fb : Nat) (quiet : Bool)
  | inf (neg : Bool)
  | num (neg : Bool) (m : Nat) (e : Int)
  deriving DecidableEq, Repr

def FV.isNan : FV → Bool
  | .nan _ _ _ _ => true
  | _ => false
def FV.isZero : FV → Bool
  | .num _ m _ => m = 0
  | _ => false
def FV.neg : FV → Bool
  | .nan n _ _ _ => n
  | .inf n => n
  | .num n _ _ => n
def FV.flip : FV → FV
  | .nan n f b q => .nan (!n) f b q
  | .inf n => .inf (!n)
  | .num n m e => .num (!n) m e

/-- The value of a bit pattern (R163, R164). -/
def unpack (f : FFmt) (x : Nat) : FV :=
  let n := x / f.signBit % 2 = 1
  let e := x / 2 ^ f.fb % 2 ^ f.eb
  let m := x % 2 ^ f.fb
  if f.small && e = 15 && m = 7 then .nan n m f.fb true
  else if !f.small && e = 2 ^ f.eb - 1 then
    (if m = 0 then .inf n else .nan n m f.fb (decide (2 ^ (f.fb - 1) ≤ m)))
  else if e = 0 then .num n m f.qmin
  else .num n (2 ^ f.fb + m) (f.qmin + (e - 1 : Nat))

/-- Whether a pattern is a subnormal of a format the flushing and DEN rules name (R169, R173). -/
def subnormal (f : FFmt) (x : Nat) : Bool := x / 2 ^ f.fb % 2 ^ f.eb = 0 && x % 2 ^ f.fb ≠ 0

def signed (f : FFmt) (neg : Bool) (x : Nat) : Nat := if neg then f.signBit + x else x

/-- A NaN operand delivered in a format: quieted, its sign and the top fraction bits that fit kept; the canonical NaN in the
8-bit formats (R170). -/
def nanTo (f : FFmt) (neg : Bool) (frac fb : Nat) : Nat :=
  if f.fb ≤ 3 then f.nan
  else
    let g := if fb ≤ f.fb then frac * 2 ^ (f.fb - fb) else frac / 2 ^ (fb - f.fb)
    signed f neg (f.infBits + (g % 2 ^ (f.fb - 1) + 2 ^ (f.fb - 1)))

/-- Round the magnitude m * 2^e to a whole number of units 2^q (R167): the number and whether it is inexact. A unit
far above the value rounds it as one just above it does. -/
def roundAt (mode : Round) (neg : Bool) (m : Nat) (e q : Int) : Nat × Bool :=
  if q ≤ e then (m * 2 ^ (e - q).toNat, false)
  else
    let k := min (q - e).toNat (m.log2 + 3)
    let n := m / 2 ^ k
    let r := m % 2 ^ k
    let up : Bool := match mode with
      | .rne => decide (2 ^ k < 2 * r) || (2 * r = 2 ^ k && n % 2 = 1)
      | .rtz => false
      | .rdn => neg && r ≠ 0
      | .rup => !neg && r ≠ 0
    (if up then n + 1 else n, r ≠ 0)

/-- The result of an overflow (R167). -/
def overflowTo (f : FFmt) (mode : Round) (neg sat : Bool) : Nat × Flags :=
  if sat then (signed f neg f.maxBits, ovf ||| inx)
  else
    let toInf : Bool := match mode with
      | .rne => true
      | .rtz => false
      | .rdn => neg
      | .rup => !neg
    if !toInf then (signed f neg f.maxBits, ovf ||| inx)
    else if f.small then (0x7F, ovf ||| inx ||| ivl)
    else (signed f neg f.infBits, ovf ||| inx)

/-- Round a nonzero exact value once into a format (R167, R169, R173). -/
def roundTo (f : FFmt) (mode : Round) (flush sat neg : Bool) (m : Nat) (e : Int) : Nat × Flags :=
  let top : Int := m.log2 + e
  let qu := top - f.fb
  let q := if qu < f.qmin then f.qmin else qu
  let (n, inexact) := roundAt mode neg m e q
  let x := n + ((q - f.qmin).toNat) * 2 ^ f.fb
  if f.maxBits < x then overflowTo f mode neg sat
  else
    let tiny : Bool := qu < f.qmin && !((roundAt mode neg m e qu).1 = 2 ^ (f.fb + 1) && qu + 1 = f.qmin)
    if flush && x ≠ 0 && decide (x < 2 ^ f.fb) then (signed f neg 0, unf ||| inx)
    else (signed f neg x, (if inexact then inx else 0) ||| (if tiny && inexact then unf else 0))

/-- The product of two values that are not NaN; none where it is 0 times infinity. -/
def fvMul : FV → FV → Option FV
  | .num n1 m1 e1, .num n2 m2 e2 => some (.num (n1 != n2) (m1 * m2) (e1 + e2))
  | .inf n1, .num n2 m _ => if m = 0 then none else some (.inf (n1 != n2))
  | .num n1 m _, .inf n2 => if m = 0 then none else some (.inf (n1 != n2))
  | .inf n1, .inf n2 => some (.inf (n1 != n2))
  | _, _ => none

def minExp : List FV → Int → Int
  | [], e => e
  | .num _ _ e :: r, x => minExp r (if e < x then e else x)
  | _ :: r, x => minExp r x

/-- The exact sum of values that are not NaN (R182): none where infinities of both signs meet. An exact zero takes the sign
of R167. -/
def fvSum (mode : Round) (xs : List FV) : Option FV :=
  let infs := xs.filterMap (fun x => match x with | .inf n => some n | _ => none)
  if infs.contains true && infs.contains false then none
  else match infs with
    | n :: _ => some (.inf n)
    | [] =>
      let e := minExp xs (xs.foldl (fun a x => match x with | .num _ _ e => if a < e then e else a | _ => a) (-2000))
      let t : Int := xs.foldl (fun a x => match x with
        | .num n m k => a + (if n then -((m * 2 ^ (k - e).toNat : Nat) : Int) else ((m * 2 ^ (k - e).toNat : Nat) : Int))
        | _ => a) 0
      if t = 0 then
        (if xs.all (·.neg) then some (.num true 0 0)
         else if xs.all (fun x => !x.neg) then some (.num false 0 0)
         else some (.num (mode = .rdn) 0 0))
      else some (.num (t < 0) t.natAbs e)

/-- Deliver an exact value in a format: rounded once where it is finite and not zero. -/
def deliverF (f : FFmt) (mode : Round) (flush sat : Bool) : FV → Nat × Flags
  | .nan n fr fb _ => (nanTo f n fr fb, 0)
  | .inf n => (signed f n f.infBits, 0)
  | .num n m e => if m = 0 then (signed f n 0, 0) else roundTo f mode flush sat n m e

/-- An operand as a float instruction reads it: its value, flushed where the instruction flushes, and DEN (R169, R173). -/
def operandF (f : FFmt) (flush : Bool) (x : Nat) : FV × Flags :=
  let v := unpack f (x % 2 ^ f.width)
  if subnormal f x && 4 ≤ f.fb then ((if flush then .num v.neg 0 0 else v), den) else (v, 0)

/-- The R170 result of a list of operands: the first NaN in order, quieted, IVL for a signalling one; none without a NaN. -/
def nanOf (f : FFmt) (xs : List FV) : Option (Nat × Flags) :=
  match xs.find? (·.isNan) with
  | some (.nan n fr fb _) =>
    some (nanTo f n fr fb, if xs.any (fun x => match x with | .nan _ _ _ q => !q | _ => false) then ivl else 0)
  | _ => none

/-- The sum of the products of pairs and of single terms, rounded once (R205, R206). -/
def fusedSum (f : FFmt) (mode : Round) (flush : Bool) (prods : List (FV × FV)) (terms : List FV) : Nat × Flags :=
  let ps := prods.map (fun p => fvMul p.1 p.2)
  if ps.any (·.isNone) then (f.nan, ivl)
  else match fvSum mode (ps.filterMap id ++ terms) with
    | none => (f.nan, ivl)
    | some v => deliverF f mode flush false v

/-- A float operation on operands of format `g` with result in `f`: operands read, NaNs settled, then `go`. -/
def floatOp (f g : FFmt) (flush : Bool) (xs : List Nat) (go : List FV → Nat × Flags) : Nat × Flags :=
  let os := xs.map (operandF g flush)
  let d : Flags := os.foldl (fun a o => a ||| o.2) 0
  let vs := os.map (·.1)
  match nanOf f vs with
  | some (r, fl) => (r, fl ||| d)
  | none => let (r, fl) := go vs; (r, fl ||| d)

def fvAt (vs : List FV) (i : Nat) : FV := vs.getD i (.num false 0 0)

def fAdd (f : FFmt) (mode : Round) (flush : Bool) (a b : Nat) : Nat × Flags :=
  floatOp f f flush [a, b] (fun vs => fusedSum f mode flush [] [fvAt vs 0, fvAt vs 1])
def fSub (f : FFmt) (mode : Round) (flush : Bool) (a b : Nat) : Nat × Flags :=
  floatOp f f flush [a, b] (fun vs => fusedSum f mode flush [] [fvAt vs 0, (fvAt vs 1).flip])
def fMul (f : FFmt) (mode : Round) (flush : Bool) (a b : Nat) : Nat × Flags :=
  floatOp f f flush [a, b] (fun vs => fusedSum f mode flush [(fvAt vs 0, fvAt vs 1)] [])

/-- FFMA: a quiet NaN in c with 0 times infinity returns c and also sets IVL (R205). -/
def fFma (f : FFmt) (mode : Round) (flush : Bool) (a b c : Nat) : Nat × Flags :=
  let va := (operandF f flush a).1
  let vb := (operandF f flush b).1
  let bad := !va.isNan && !vb.isNan && (fvMul va vb).isNone
  let (r, fl) := floatOp f f flush [a, b, c] (fun vs => fusedSum f mode flush [(fvAt vs 0, fvAt vs 1)] [fvAt vs 2])
  (r, if bad then fl ||| ivl else fl)

/-- The quotient of two magnitudes with a sticky bit, precise beyond every format. -/
def quot (m1 m2 : Nat) : Nat × Int :=
  let k := m2.log2 + 130
  let q := m1 * 2 ^ k / m2
  (2 * q + (if m1 * 2 ^ k % m2 = 0 then 0 else 1), -(k : Int) - 1)

def fDiv (f : FFmt) (mode : Round) (flush : Bool) (a b : Nat) : Nat × Flags :=
  floatOp f f flush [a, b] (fun vs =>
    match fvAt vs 0, fvAt vs 1 with
    | .inf _, .inf _ => (f.nan, ivl)
    | .inf n, y => (signed f (n != y.neg) f.infBits, 0)
    | x, .inf n => (signed f (x.neg != n) 0, 0)
    | .num n1 m1 e1, .num n2 m2 e2 =>
      if m2 = 0 then (if m1 = 0 then (f.nan, ivl) else (signed f (n1 != n2) f.infBits, dvz))
      else if m1 = 0 then (signed f (n1 != n2) 0, 0)
      else let (m, e) := quot m1 m2; roundTo f mode flush false (n1 != n2) m (e + e1 - e2)
    | _, _ => (f.nan, ivl))

/-- The integer square root, bit by bit from 2^`k` down. -/
def isqrtGo (n : Nat) : Nat → Nat → Nat
  | 0, r => r
  | k + 1, r => isqrtGo n k (if (r + 2 ^ k) * (r + 2 ^ k) ≤ n then r + 2 ^ k else r)
def isqrt (n : Nat) : Nat := isqrtGo n (n.log2 / 2 + 1) 0

/-- The square root of m * 2^e with a sticky bit. -/
def sqrtOf (m : Nat) (e : Int) : Nat × Int :=
  let e1 := if e % 2 = 0 then e - 140 else e - 141
  let n := m * 2 ^ (e - e1).toNat
  let r := isqrt n
  (2 * r + (if r * r = n then 0 else 1), e1 / 2 - 1)

def fSqrt (f : FFmt) (mode : Round) (flush : Bool) (a : Nat) : Nat × Flags :=
  floatOp f f flush [a] (fun vs =>
    match fvAt vs 0 with
    | .inf n => if n then (f.nan, ivl) else (f.infBits, 0)
    | .num n m e =>
      if m = 0 then (signed f n 0, 0)
      else if n then (f.nan, ivl)
      else let (r, q) := sqrtOf m e; roundTo f mode flush false false r q
    | _ => (f.nan, ivl))

/-- The order of two values that are not NaN; the two zeros are equal. -/
def fvCmp (x y : FV) : Ordering :=
  let key (v : FV) : Int × Int × Nat := match v with
    | .inf n => (if n then -1 else 1, 0, 0)
    | _ => (0, 0, 0)
  match fvSum .rne [x, y.flip] with
  | none => compare (key x).1 (key y).1
  | some (.inf n) => if n then .lt else .gt
  | some (.num n m _) => if m = 0 then .eq else if n then .lt else .gt
  | some _ => .eq

/-- FMIN and FMAX (R207): -0 below +0, operand bits kept after flushing. -/
def fMinMax (f : FFmt) (isMax num flush : Bool) (a b : Nat) : Nat × Flags :=
  let fl (x : Nat) : Nat := if flush && subnormal f x then x / f.signBit % 2 * f.signBit else x % 2 ^ f.width
  let (va, da) := operandF f flush a
  let (vb, db) := operandF f flush b
  let sig := [va, vb].any (fun x => match x with | .nan _ _ _ q => !q | _ => false)
  let less : Bool := match fvCmp va vb with
    | .lt => true
    | .gt => false
    | .eq => va.neg && !vb.neg
  let pick := if less != isMax then fl a else fl b
  let eqPick := if va = vb then fl a else pick
  if num && va.isNan != vb.isNan then ((if va.isNan then fl b else fl a), (if sig then ivl else 0) ||| da ||| db)
  else match nanOf f [va, vb] with
    | some (r, x) => (r, x ||| da ||| db)
    | none => (eqPick, da ||| db)

/-- FCMP (R208): the predicate and the flags. -/
def fCompare (f : FFmt) (c : FCond) (flush : Bool) (a b : Nat) : Bool × Flags :=
  let (va, da) := operandF f flush a
  let (vb, db) := operandF f flush b
  let un := va.isNan || vb.isNan
  let sig := [va, vb].any (fun x => match x with | .nan _ _ _ q => !q | _ => false)
  let o := fvCmp va vb
  let (r, strict) : Bool × Bool := match c with
    | .eq => (!un && o = .eq, false)
    | .ne => (un || o ≠ .eq, false)
    | .lt => (!un && o = .lt, true)
    | .le => (!un && o ≠ .gt, true)
    | .gt => (!un && o = .gt, true)
    | .ge => (!un && o ≠ .lt, true)
    | .un => (un, false)
    | .ord => (!un, false)
  (r, (if sig || (un && strict) then ivl else 0) ||| da ||| db)

/-- FCLASS (R209). -/
def fClass (f : FFmt) (flush : Bool) (a : Nat) : Nat × Flags :=
  let (v, d) := operandF f flush a
  let bitNo : Nat := match v with
    | .nan _ _ _ q => if q then 9 else 8
    | .inf n => if n then 0 else 7
    | .num n m e =>
      if m = 0 then (if n then 3 else 4)
      else if e = f.qmin && m < 2 ^ f.fb then (if n then 2 else 5)
      else (if n then 1 else 6)
  (2 ^ bitNo, d)

/-- FRND (R211). -/
def fRound (f : FFmt) (mode : Round) (flush : Bool) (a : Nat) : Nat × Flags :=
  floatOp f f flush [a] (fun vs =>
    match fvAt vs 0 with
    | .num n m e =>
      if m = 0 then (signed f n 0, 0)
      else
        let (i, ix) := roundAt mode n m e 0
        let r := if i = 0 then signed f n 0 else (roundTo f mode false false n i 0).1
        (r, if ix then inx else 0)
    | v => deliverF f mode flush false v)

/-- FSCALE (R211). -/
def fScale (f : FFmt) (mode : Round) (flush : Bool) (a : Nat) (n : Int) : Nat × Flags :=
  floatOp f f flush [a] (fun vs =>
    match fvAt vs 0 with
    | .num s m e => if m = 0 then (signed f s 0, 0) else roundTo f mode flush false s m (e + n)
    | v => deliverF f mode flush false v)

/-- FXTR (R211): .exp as .s32, .man in the format. -/
def fExtract (f : FFmt) (man flush : Bool) (a : Nat) : Nat × Flags :=
  let (v, d) := operandF f flush a
  if man then
    floatOp f f flush [a] (fun vs =>
      match fvAt vs 0 with
      | .num n m _ => if m = 0 then (signed f n 0, 0) else roundTo f .rne false false n m (-(m.log2 : Int))
      | x => deliverF f .rne flush false x)
  else
    match v with
    | .nan _ _ _ _ => (2 ^ 31 - 1, ivl ||| d)
    | .inf _ => (2 ^ 31 - 1, d)
    | .num _ m e => if m = 0 then (2 ^ 31, dvz ||| d) else ((((m.log2 : Int) + e) % 2 ^ 32).toNat, d)

/-- FCVT (R212). -/
def fConvert (f g : FFmt) (mode : Round) (flush sat : Bool) (a : Nat) : Nat × Flags :=
  floatOp f g flush [a] (fun vs => deliverF f mode flush sat (fvAt vs 0))

/-- The range of an integer type. -/
def intMin (ty : Ty) : Int := if tySigned ty then -(2 ^ (tyBits ty - 1)) else 0
def intMax (ty : Ty) : Int := if tySigned ty then 2 ^ (tyBits ty - 1) - 1 else 2 ^ tyBits ty - 1
def intBits (ty : Ty) (x : Int) : Nat := (x % 2 ^ tyBits ty).toNat

/-- F2I (R212). -/
def fToInt (ty : Ty) (g : FFmt) (mode : Round) (flush : Bool) (a : Nat) : Nat × Flags :=
  let (v, d) := operandF g flush a
  match v with
  | .nan _ _ _ _ => (0, ivl ||| d)
  | .inf n => (intBits ty (if n then intMin ty else intMax ty), ivl ||| d)
  | .num n m e =>
    let (i, ix) := if m = 0 then (0, false) else roundAt mode n m e 0
    let y : Int := if n then -(i : Int) else i
    if intMax ty < y then (intBits ty (intMax ty), ivl ||| d)
    else if y < intMin ty then (intBits ty (intMin ty), ivl ||| d)
    else (intBits ty y, (if ix then inx else 0) ||| d)

/-- The integer value of a register operand. -/
def intOf (ty : Ty) (x : Nat) : Int :=
  let m := x % 2 ^ tyBits ty
  if tySigned ty && decide (2 ^ (tyBits ty - 1) ≤ m) then (m : Int) - 2 ^ tyBits ty else m

/-- I2F (R212). -/
def intToF (f : FFmt) (mode : Round) (sty : Ty) (a : Nat) : Nat × Flags :=
  let x := intOf sty a
  if x = 0 then (0, 0) else roundTo f mode false false (x < 0) x.natAbs 0

/-- FDOT2 (R206): sources `g` packed two to a register, an FP32 addend. -/
def fDot2 (g : FFmt) (mode : Round) (flush : Bool) (a b c : Nat) : Nat × Flags :=
  let os := [a % 65536, a / 65536 % 65536, b % 65536, b / 65536 % 65536].map (operandF g flush)
  let oc := operandF fmt32 flush c
  let vs := os.map (·.1) ++ [oc.1]
  let d : Flags := os.foldl (fun x o => x ||| o.2) oc.2
  let bad := [(fvAt vs 0, fvAt vs 2), (fvAt vs 1, fvAt vs 3)].any (fun p => !p.1.isNan && !p.2.isNan && (fvMul p.1 p.2).isNone)
  match nanOf fmt32 vs with
  | some (r, x) => (r, x ||| d ||| (if bad then ivl else 0))
  | none =>
    let (r, x) := fusedSum fmt32 mode flush [(fvAt vs 0, fvAt vs 2), (fvAt vs 1, fvAt vs 3)] [fvAt vs 4]
    (r, x ||| d)

end Sys2Proof.Machine
end

