-- ==== Sys2Proof/Machine/Approx.lean ====
section
/-!
DEFINITION. The approximate functions (R210, log 7): the exact points, and elsewhere a result inside the bound that a free
value of the operand's bits chooses.
-/
namespace Sys2Proof.Machine

/-- The two neighbours of a nonzero exact magnitude, and the one the free value of the operand takes: within 1 ulp. -/
def nearby (k : Nat) (f : FFmt) (flush neg : Bool) (x : Nat) (m : Nat) (e : Int) : Nat × Flags :=
  let up := Config.approxUp k (BitVec.ofNat 64 x)
  let (r, fl) := roundTo f (if up != neg then .rup else if up then .rdn else .rtz) flush false neg m e
  (r, fl ||| inx)

/-- FRCP. -/
def fRcp (f : FFmt) (flush : Bool) (a : Nat) : Nat × Flags :=
  floatOp f f flush [a] (fun vs =>
    match fvAt vs 0 with
    | .num n m e =>
      if m = 0 then (signed f n f.infBits, dvz)
      else if m = 2 ^ m.log2 then roundTo f .rne flush false n 1 (-(e + m.log2))
      else let (q, k) := quot 1 m; nearby 0 f flush n a q (k - e)
    | v => (signed f v.neg 0, 0))

/-- FRSQ. -/
def fRsq (f : FFmt) (flush : Bool) (a : Nat) : Nat × Flags :=
  floatOp f f flush [a] (fun vs =>
    match fvAt vs 0 with
    | .num n m e =>
      if m = 0 then (signed f n f.infBits, dvz)
      else if n then (f.nan, ivl)
      else
        let t : Int := e + m.log2
        if m = 2 ^ m.log2 && t % 2 = 0 then roundTo f .rne flush false false 1 (-(t / 2))
        else
          let (q, k) := quot 1 m
          let (r, j) := sqrtOf q (k - e)
          nearby 1 f flush false a r j
    | .inf n => if n then (f.nan, ivl) else (0, 0)
    | _ => (f.nan, ivl))

/-- An FP32 result within 2 ulp of the exact magnitude: one of the four patterns around it that the free value picks. `m`
and `e` give the magnitude, cut off toward zero; a pattern past the next power of two is left out, where a unit is larger, and UNF is
judged by rounding toward zero (log 7). -/
def within2 (k : Nat) (flush neg : Bool) (a m : Nat) (e : Int) : Nat × Flags :=
  let pick := (Config.approx k (BitVec.ofNat 32 a)).toNat % 4
  let (x, fl) := if m = 0 then (0, unf) else roundTo fmt32 .rtz false false false m e
  let y := min (x + (if pick = 3 && (x + 1) % 2 ^ 23 = 0 then 2 else pick) - 1) fmt32.infBits
  if flush && y ≠ 0 && decide (y < 2 ^ 23) then (signed fmt32 neg 0, unf ||| inx)
  else (signed fmt32 neg y, fl ||| inx ||| (if y = fmt32.infBits then ovf else 0))

/-- exp(y) for y in [0, 1), fixed point of 160 bits: `n` more terms after the term `t` of index `i`. -/
def expGo (y : Nat) : Nat → Nat → Nat → Nat → Nat
  | 0, _, _, acc => acc
  | n + 1, i, t, acc => let t1 := t * y / 2 ^ 160 / i; expGo y n (i + 1) t1 (acc + t1)

/-- ln 2 in 160 fraction bits. -/
def ln2Fix : Nat := 0xB17217F7D1CF79ABC9E3B39803F2F6AF40F34326

/-- 2^x for x = m * 2^e of either sign: whole part and the fixed-point power of its fraction. -/
def exp2Parts (neg : Bool) (m : Nat) (e : Int) : Int × Nat :=
  let fix : Nat := if -160 ≤ e then m * 2 ^ (e + 160).toNat else m / 2 ^ (-160 - e).toNat
  let fl : Int := if neg then -(((fix + 2 ^ 160 - 1) / 2 ^ 160 : Nat) : Int) - (if fix = 0 then 1 else 0) else ((fix / 2 ^ 160 : Nat) : Int)
  let fr : Nat := if neg then (if fix = 0 then 2 ^ 160 - 1 else (2 ^ 160 - fix % 2 ^ 160) % 2 ^ 160) else fix % 2 ^ 160
  (fl, expGo (fr * ln2Fix / 2 ^ 160) 60 1 (2 ^ 160) (2 ^ 160))

/-- FEXP2. -/
def fExp2 (flush : Bool) (a : Nat) : Nat × Flags :=
  floatOp fmt32 fmt32 flush [a] (fun vs =>
    match fvAt vs 0 with
    | .inf n => (if n then 0 else fmt32.infBits, 0)
    | .num n m e =>
      if m = 0 then (0x3F800000, 0)
      else
        let (i, ix) := roundAt .rtz n m e 0
        let y : Int := if n then -(i : Int) else i
        if !ix && decide (-149 ≤ y) && decide (y ≤ 127) then roundTo fmt32 .rne flush false false 1 y
        else if !n && decide (128 ≤ y) then
          (if (Config.approx 2 (BitVec.ofNat 32 a)).toNat % 2 = 0 then (fmt32.infBits, ovf ||| inx) else (fmt32.maxBits, ovf ||| inx))
        else if n && decide (y < -400) then within2 2 flush false a 0 0
        else let (w, p) := exp2Parts n m e; within2 2 flush false a p (w - 160)
    | _ => (fmt32.nan, ivl))

/-- The fraction bits of log2 of a mantissa in [1, 2) with 160 fraction bits, by repeated squaring. -/
def log2Go : Nat → Nat → Nat → Nat
  | 0, _, acc => acc
  | n + 1, y, acc =>
    let y2 := y * y / 2 ^ 160
    if 2 ^ 161 ≤ y2 then log2Go n (y2 / 2) (2 * acc + 1) else log2Go n y2 (2 * acc)

/-- FLOG2: near 1, in [0.5, 2], the error is bounded by 2^-22, the last rounding included, and not in ulp (R210). -/
def fLog2 (flush : Bool) (a : Nat) : Nat × Flags :=
  floatOp fmt32 fmt32 flush [a] (fun vs =>
    match fvAt vs 0 with
    | .inf n => if n then (fmt32.nan, ivl) else (fmt32.infBits, 0)
    | .num n m e =>
      if m = 0 then (signed fmt32 true fmt32.infBits, dvz)
      else if n then (fmt32.nan, ivl)
      else
        let t : Int := e + m.log2
        if m = 2 ^ m.log2 then (if t = 0 then (0, 0) else roundTo fmt32 .rne false false (t < 0) t.natAbs 0)
        else
          let fr := log2Go 100 (m * 2 ^ (160 - m.log2)) 0
          let v : Int := t * 2 ^ 100 + fr
          if t = 0 || t = -1 then
            let dlt : Int := (((Config.approx 3 (BitVec.ofNat 32 a)).toNat % (2 ^ 31 - 2 ^ 29 - 1) : Nat) : Int) * 2 ^ 48 - (2 ^ 78 - 2 ^ 76 - 2 ^ 48)
            let r := v + dlt
            if r = 0 then (0, inx)
            else let (x, fl) := roundTo fmt32 .rtz flush false (r < 0) r.natAbs (-100); (x, fl ||| inx)
          else within2 3 flush (v < 0) a v.natAbs (-100)
    | _ => (fmt32.nan, ivl))

/-- 2 / pi in 400 fraction bits, and pi / 2 in 200. -/
def twoOverPi : Nat := 0xA2F9836E4E441529FC2757D1F534DDC0DB6295993C439041FE5163ABDEBBC561B7246E3A424DD2E006492EEA09D1921CFE1D
def halfPi : Nat := 0x1921FB54442D18469898CC51701B839A252049C1114CF98E804

/-- The quadrant of |x| and the rest of it, in radians with 200 fraction bits. -/
def reduce (m : Nat) (e : Int) : Nat × Nat :=
  let p := m * twoOverPi
  let fix := if 0 ≤ e then p * 2 ^ e.toNat else p / 2 ^ (-e).toNat
  (fix / 2 ^ 400 % 4, (fix % 2 ^ 400) / 2 ^ 200 * halfPi / 2 ^ 200)

/-- The alternating series of sine and cosine, 200 fraction bits: term `t` of index `i`, terms two indices apart. -/
def trigGo (y : Nat) : Nat → Nat → Nat → Bool → Int → Int
  | 0, _, _, _, acc => acc
  | n + 1, i, t, sub, acc =>
    let t1 := t * y / 2 ^ 200 * y / 2 ^ 200 / (i * (i + 1))
    trigGo y n (i + 2) t1 (!sub) (if sub then acc - t1 else acc + t1)

def sinFix (y : Nat) : Nat := (trigGo y 40 2 y true y).toNat
def cosFix (y : Nat) : Nat := (trigGo y 40 1 (2 ^ 200) true (2 ^ 200)).toNat

/-- FSIN and FCOS. Of a nonzero number the magnitude is below 1. -/
def fTrig (cosine flush : Bool) (a : Nat) : Nat × Flags :=
  floatOp fmt32 fmt32 flush [a] (fun vs =>
    match fvAt vs 0 with
    | .num n m e =>
      if m = 0 then (if cosine then (0x3F800000, 0) else (signed fmt32 n 0, 0))
      else if !cosine && decide ((m.log2 : Int) + e < -40) then
        within2 4 flush n a (2 * m * 2 ^ 60 - 1) (e - 61)
      else
        let (q0, y) := reduce m e
        let q := (if cosine then q0 + 1 else q0) % 4
        let v := if q % 2 = 0 then sinFix y else min (cosFix y) (2 ^ 200 - 1)
        within2 (if cosine then 5 else 4) flush ((decide (2 ≤ q)) != (n && !cosine)) a v (-200)
    | _ => (fmt32.nan, ivl))

end Sys2Proof.Machine
end

