-- ==== Sys2Proof/Machine/Block.lean ====
section
/-!
DEFINITION. Described blocks (R176-R179): their check, the values of their elements, and their encoding (R215); and the
narrow conversions (R167, R217).
-/
namespace Sys2Proof.Machine

/-- The element type of a format code (R177). -/
def fmtElem (fmt : Nat) : Option Ty :=
  match fmt with
  | 0x01 => some .e4m3
  | 0x02 => some .e5m2
  | 0x03 => some .i8
  | 0x10 | 0x11 | 0x12 | 0x13 => some .c4
  | 0x20 => some .bf16
  | 0x21 => some .f16
  | _ => none

/-- Elements of a block (R177). -/
def elemCount : Ty → Nat
  | .c4 => 120
  | .bf16 | .f16 => 30
  | _ => 60

/-- CHECK: every byte but byte 3, mod 255 (R176). -/
def blockSum (bs : List Byte) : Nat := (bs.zipIdx.foldl (fun n x => if x.2 = 3 then n else n + x.1.toNat) 0) % 255

/-- Whether the zero point must be zero (R179 step 4). -/
def zpZero : Ty → Bool
  | .e4m3 | .e5m2 | .bf16 | .f16 => true
  | _ => false

/-- The first failing step of R179, for a block of 64 bytes, the expected element type and slot, and the slot's LOADED: its
report, as cause and TRAP_INFO. -/
def blockCheck (bs : List Byte) (fam : Ty) (slot : Nat) (loaded : Bool) : Option (Nat × Nat) :=
  let b (i : Nat) : Nat := (bs.getD i 0).toNat
  if b 3 ≠ blockSum bs then some (0x10, 0x100)
  else match fmtElem (b 0) with
    | none => some (0x15, 1)
    | some e =>
      if e ≠ fam then some (0x15, 3)
      else if zpZero e && b 2 ≠ 0 then some (0x15, 2)
      else if e = .c4 && slot ≠ b 0 - 0x10 then some (0x15, 4)
      else if e = .c4 && !loaded then some (0x15, 5)
      else none

/-- A signed byte. -/
def signedByte (x : Nat) : Int := if x ≥ 128 then (x : Int) - 256 else x

/-- The canonical NaN of whatever format it is delivered in. -/
def fvNan : FV := .nan false 1 1 true

/-- An integer as a value; zero is +0. -/
def fvInt (x : Int) : FV := .num (x < 0) x.natAbs 0

/-- Multiply by a power of two, exactly. -/
def FV.scale (e : Int) : FV → FV
  | .num n m k => .num n m (k + e)
  | v => v

/-- v - z for a float v (R178): with z = 0, v itself. DESIGN CHOICE (log 96): a zero difference is +0 in every rounding mode. -/
def fvMinus (v : FV) (z : Int) : FV :=
  if z = 0 then v else (fvSum .rne [v, fvInt (-z)]).getD fvNan

/-- Element `n` of a checked block of a family (R177, R178), with the flags its decode sets (R173, R214). `book` holds the
entries of the codebook slot. -/
def elemValue (bs : List Byte) (fam : Ty) (book : List (BitVec 16)) (n : Nat) : FV × Flags :=
  let b (i : Nat) : Nat := (bs.getD i 0).toNat
  let e : Int := (b 1 : Int) - 127
  let z := signedByte (b 2)
  let quietNan : FV → Flags
    | .nan _ _ _ q => if q then 0 else ivl
    | _ => 0
  if b 1 = 0xFF then (fvNan, ivl)
  else match fam with
    | .i8 => ((fvInt (signedByte (b (4 + n)) - z)).scale e, 0)
    | .c4 =>
      let code := b (4 + n / 2) / 16 ^ (n % 2) % 16
      let v := unpack fmtBf (book.getD code 0).toNat
      if v.isNan then (fvNan, ivl) else ((fvMinus v z).scale e, 0)
    | .bf16 | .f16 =>
      let x := b (4 + 2 * n) + 256 * b (5 + 2 * n)
      let f := fmtOfTy fam
      let v := unpack f x
      (v.scale e, quietNan v ||| (if subnormal f x then den else 0))
    | _ =>
      let v := unpack (fmtOfTy fam) (b (4 + n))
      (v.scale e, quietNan v)

/-- A decoded element in a register format: rounded once, never flushed (R178). -/
def deliverElem (f : FFmt) (mode : Round) (v : FV) : Nat × Flags := deliverF f mode false false v

/-- BSUM (R182, R214): the first NaN element, else the exact sum rounded once, RNE. -/
def blockTotal (bs : List Byte) (fam : Ty) (book : List (BitVec 16)) : Nat × Flags :=
  let es := (upto 0 (elemCount fam)).map (elemValue bs fam book)
  let fl := es.foldl (fun (f : Flags) e => f ||| e.2) 0
  match (es.map (·.1)).find? (·.isNan) with
  | some v => ((deliverElem fmt32 .rne v).1, fl)
  | none =>
    match fvSum .rne (es.map (·.1)) with
    | none => (fmt32.nan, fl ||| ivl)
    | some v => let (r, x) := deliverElem fmt32 .rne v; (r, fl ||| x)

/-- A value rounded into a narrow or 16-bit float format (R167, R170, R217). -/
def narrowF (f : FFmt) (mode : Round) (sat : Bool) (v : FV) : Nat × Flags :=
  match v with
  | .nan n fr fb q => (nanTo f n fr fb, if q then 0 else ivl)
  | .inf n => if f.small then (if sat then (signed f n f.maxBits, inx) else (f.nan, ivl)) else (signed f n f.infBits, 0)
  | v => deliverF f mode false sat v

/-- A value rounded to an integer, moved by `z` and clamped to a signed byte (R215, R217); INX is of the rounding alone (log 83). -/
def narrowI (mode : Round) (z : Int) (v : FV) : Nat × Flags :=
  let clamp (x : Int) (f : Flags) : Nat × Flags :=
    if x < -128 then (128, f ||| ivl) else if x > 127 then (127, f ||| ivl) else ((x % 256).toNat, f)
  match v with
  | .nan _ _ _ _ => (0, ivl)
  | .inf n => (if n then 128 else 127, ivl)
  | .num n m e =>
    let (i, ix) := if m = 0 then (0, false) else roundAt mode n m e 0
    clamp ((if n then -(i : Int) else i) + z) (if ix then inx else 0)

/-- The distance of two values, scaled to a common exponent; none where it is infinite (R215). -/
def fvDist (x y : FV) : Option Nat :=
  match x, y with
  | .inf a, .inf b => if a = b then some 0 else none
  | .inf _, _ => none
  | _, .inf _ => none
  | _, _ =>
    match fvSum .rne [x, y.flip] with
    | some (.num _ m e) => some (m * 2 ^ (e + 600).toNat)
    | _ => none

/-- Whether a distance beats another. -/
def nearer (a b : Option Nat) : Bool :=
  match a, b with
  | some x, some y => x < y
  | some _, none => true
  | none, _ => false

/-- The code whose entry is nearest, the lower of two as near, NaN entries never; none where every entry is a NaN (R215). -/
def nearestCode (book : List (BitVec 16)) (v : FV) : Option (Nat × Bool) :=
  (upto 0 16).foldl (fun (best : Option (Nat × Bool)) c =>
    let e := unpack fmtBf (book.getD c 0).toNat
    if e.isNan then best
    else
      let d := fvDist e v
      match best with
      | none => some (c, d != some 0)
      | some (k, _) =>
        if nearer d (fvDist (unpack fmtBf (book.getD k 0).toNat) v) then some (c, d != some 0) else best) none

/-- One element's code in a block being built (R215); `anyCode` is the free value for a codebook without a usable entry.
A subnormal source sets DEN (log 83). -/
def encodeElem (ty : Ty) (mode : Round) (sat : Bool) (scale : Nat) (z : Int) (book : List (BitVec 16)) (anyCode : Nat) (x : Nat) :
    Nat × Flags :=
  let (v, d) := operandF fmt32 false x
  let u := v.scale (127 - (scale : Int))
  let (r, fl) : Nat × Flags :=
    match ty with
    | .i8 => narrowI mode z u
    | .c4 =>
      if u.isNan then (0, ivl)
      else match nearestCode book ((fvSum .rne [u, fvInt z]).getD u) with
        | none => (anyCode, 0)
        | some (c, differs) => (c, if differs then inx else 0)
    | t => narrowF (fmtOfTy t) mode sat u
  (r, fl ||| d)

/-- The payload bytes of a block's codes (R177). -/
def packCodes (ty : Ty) (cs : List Nat) : List Byte :=
  match ty with
  | .c4 => (upto 0 60).map (fun i => BitVec.ofNat 8 (cs.getD (2 * i) 0 + 16 * cs.getD (2 * i + 1) 0))
  | .bf16 | .f16 => (upto 0 60).map (fun i => BitVec.ofNat 8 (cs.getD (i / 2) 0 / 256 ^ (i % 2)))
  | _ => cs.map (BitVec.ofNat 8)

/-- A block with its CHECK (R176). -/
def sealBlock (fmt scale zp : Nat) (payload : List Byte) : List Byte :=
  let raw : List Byte := [BitVec.ofNat 8 fmt, BitVec.ofNat 8 scale, BitVec.ofNat 8 zp, 0] ++ (payload ++ List.replicate 60 0).take 60
  raw.set 3 (BitVec.ofNat 8 (blockSum raw))

/-- The entries and LOADED of a group's slot (R166). -/
def codebook (g : Group) (slot : Nat) : Codebook := at_ g.cbs slot {}

end Sys2Proof.Machine
end

