-- ==== Sys2Proof/Machine/FloatOps.lean ====
section
/-!
DEFINITION. Floating-point and format instructions (R205-R217).
-/
namespace Sys2Proof.Machine

/-- Issue cycles of a float instruction whose result is complete at issue (R222). -/
def floatCycles (ty : Ty) : Nat := if ty = .f64 then 2 else 1

/-- A result complete at issue, with the flags it sets (R174). -/
def resF (w : Who) (h : Hdr) (s : State) (d : BitVec 9) (n : Nat) (r : Nat × Flags) : Res State :=
  (res w h s d n (BitVec.ofNat 64 r.1)).map (fun s1 => raise s1 w.t r.2)

/-- A claimed float result, whose flags are set when it arrives (R174). -/
def resFLater (w : Who) (s : State) (d : BitVec 9) (n : Nat) (r : Nat × Flags) : Res State :=
  (claim w s d.toNat n).map (fun s1 =>
    pushResult s1 w.t (if d = 0 then [] else numbered d.toNat (wordsN n (BitVec.ofNat 64 r.1))) r.2 true)

/-- Two float sources of one type. -/
def float2 (h : Hdr) (ty : Ty) (d : BitVec 9) (a b : Src) (f : Thread → Nat → Nat → Nat × Flags) : State → Host.Outcome State Fault Refusal :=
  runInstr h { useDAB ty d a b with cycles := floatCycles ty } (fun w s => do
    let x ← src w s a (tyWords ty)
    let y ← src w s b (tyWords ty)
    resF w h s d (tyWords ty) (f w.th x.toNat y.toNat))

/-- One float source and a result of `n` words. -/
def float1 (h : Hdr) (ty sty : Ty) (d : BitVec 9) (n : Nat) (a : Src) (f : Thread → Nat → Nat × Flags) : State → Host.Outcome State Fault Refusal :=
  runInstr h { srcs := [(.a, a, tyWords sty)], dst := some (d.toNat, n), cycles := floatCycles ty } (fun w s => do
    let x ← src w s a (tyWords sty)
    resF w h s d n (f w.th x.toNat))

/-- One float source, with a claimed result. -/
def float1Later (h : Hdr) (ty : Ty) (d : BitVec 9) (a : Src) (f : Thread → Nat → Nat × Flags) : State → Host.Outcome State Fault Refusal :=
  runInstr h (useDA ty d a) (fun w s => do
    let x ← src w s a (tyWords ty)
    resFLater w s d (tyWords ty) (f w.th x.toNat))

def execFadd (h : Hdr) (ty : Ty) (rm : RMode) (ftz : Bool) (d : BitVec 9) (a b : Src) : State → Host.Outcome State Fault Refusal :=
  float2 h ty d a b (fun th => fAdd (fmtOfTy ty) (roundOf th rm) (ftzOf th ftz))
def execFsub (h : Hdr) (ty : Ty) (rm : RMode) (ftz : Bool) (d : BitVec 9) (a b : Src) : State → Host.Outcome State Fault Refusal :=
  float2 h ty d a b (fun th => fSub (fmtOfTy ty) (roundOf th rm) (ftzOf th ftz))
def execFmul (h : Hdr) (ty : Ty) (rm : RMode) (ftz : Bool) (d : BitVec 9) (a b : Src) : State → Host.Outcome State Fault Refusal :=
  float2 h ty d a b (fun th => fMul (fmtOfTy ty) (roundOf th rm) (ftzOf th ftz))

def execFfma (h : Hdr) (ty : Ty) (rm : RMode) (ftz : Bool) (d : BitVec 9) (a b c : Src) : State → Host.Outcome State Fault Refusal :=
  runInstr h { useDAB ty d a b with srcs := [(.a, a, tyWords ty), (.b, b, tyWords ty), (.c, c, tyWords ty)], cycles := floatCycles ty } (fun w s => do
    let x ← src w s a (tyWords ty)
    let y ← src w s b (tyWords ty)
    let z ← src w s c (tyWords ty)
    resF w h s d (tyWords ty) (fFma (fmtOfTy ty) (roundOf w.th rm) (ftzOf w.th ftz) x.toNat y.toNat z.toNat))

def execFmin (h : Hdr) (ty : Ty) (num ftz : Bool) (d : BitVec 9) (a b : Src) : State → Host.Outcome State Fault Refusal :=
  float2 h ty d a b (fun th => fMinMax (fmtOfTy ty) false num (ftzOf th ftz))
def execFmax (h : Hdr) (ty : Ty) (num ftz : Bool) (d : BitVec 9) (a b : Src) : State → Host.Outcome State Fault Refusal :=
  float2 h ty d a b (fun th => fMinMax (fmtOfTy ty) true num (ftzOf th ftz))

/-- FCMP (R208): a predicate and flags. -/
def execFcmp (h : Hdr) (ty : Ty) (cond : FCond) (ftz : Bool) (d : BitVec 3) (a b : Src) : State → Host.Outcome State Fault Refusal :=
  runInstr h { srcs := [(.a, a, tyWords ty), (.b, b, tyWords ty)], cycles := floatCycles ty } (fun w s => do
    let x ← src w s a (tyWords ty)
    let y ← src w s b (tyWords ty)
    let r := fCompare (fmtOfTy ty) cond (ftzOf w.th ftz) x.toNat y.toNat
    .ok (raise (setPred s w.t d r.1) w.t r.2))

def execFclass (h : Hdr) (ty : Ty) (ftz : Bool) (d : BitVec 9) (a : Src) : State → Host.Outcome State Fault Refusal :=
  float1 h ty ty d 1 a (fun th => fClass (fmtOfTy ty) (ftzOf th ftz))

def execFdiv (h : Hdr) (ty : Ty) (rm : RMode) (ftz : Bool) (d : BitVec 9) (a b : Src) : State → Host.Outcome State Fault Refusal :=
  runInstr h (useDAB ty d a b) (fun w s => do
    let x ← src w s a (tyWords ty)
    let y ← src w s b (tyWords ty)
    resFLater w s d (tyWords ty) (fDiv (fmtOfTy ty) (roundOf w.th rm) (ftzOf w.th ftz) x.toNat y.toNat))

def execFsqrt (h : Hdr) (ty : Ty) (rm : RMode) (ftz : Bool) (d : BitVec 9) (a : Src) : State → Host.Outcome State Fault Refusal :=
  float1Later h ty d a (fun th => fSqrt (fmtOfTy ty) (roundOf th rm) (ftzOf th ftz))
def execFrcp (h : Hdr) (ty : Ty) (ftz : Bool) (d : BitVec 9) (a : Src) : State → Host.Outcome State Fault Refusal :=
  float1Later h ty d a (fun th => fRcp (fmtOfTy ty) (ftzOf th ftz))
def execFrsq (h : Hdr) (ty : Ty) (ftz : Bool) (d : BitVec 9) (a : Src) : State → Host.Outcome State Fault Refusal :=
  float1Later h ty d a (fun th => fRsq (fmtOfTy ty) (ftzOf th ftz))
def execFexp2 (h : Hdr) (ty : Ty) (ftz : Bool) (d : BitVec 9) (a : Src) : State → Host.Outcome State Fault Refusal :=
  float1Later h ty d a (fun th => fExp2 (ftzOf th ftz))
def execFlog2 (h : Hdr) (ty : Ty) (ftz : Bool) (d : BitVec 9) (a : Src) : State → Host.Outcome State Fault Refusal :=
  float1Later h ty d a (fun th => fLog2 (ftzOf th ftz))
def execFsin (h : Hdr) (ty : Ty) (ftz : Bool) (d : BitVec 9) (a : Src) : State → Host.Outcome State Fault Refusal :=
  float1Later h ty d a (fun th => fTrig false (ftzOf th ftz))
def execFcos (h : Hdr) (ty : Ty) (ftz : Bool) (d : BitVec 9) (a : Src) : State → Host.Outcome State Fault Refusal :=
  float1Later h ty d a (fun th => fTrig true (ftzOf th ftz))

def execFrnd (h : Hdr) (ty : Ty) (rm : RMode) (ftz : Bool) (d : BitVec 9) (a : Src) : State → Host.Outcome State Fault Refusal :=
  float1 h ty ty d (tyWords ty) a (fun th => fRound (fmtOfTy ty) (roundOf th rm) (ftzOf th ftz))

def execFscale (h : Hdr) (ty : Ty) (rm : RMode) (ftz : Bool) (d : BitVec 9) (a b : Src) : State → Host.Outcome State Fault Refusal :=
  runInstr h { useDAw ty d a b with cycles := floatCycles ty } (fun w s => do
    let x ← src w s a (tyWords ty)
    let n ← src32 w s b
    resF w h s d (tyWords ty) (fScale (fmtOfTy ty) (roundOf w.th rm) (ftzOf w.th ftz) x.toNat n.toInt))

/-- FXTR (R211): .exp gives a 32-bit result. -/
def execFxtr (h : Hdr) (ty : Ty) (man ftz : Bool) (d : BitVec 9) (a : Src) : State → Host.Outcome State Fault Refusal :=
  float1 h ty ty d (if man then tyWords ty else 1) a (fun th => fExtract (fmtOfTy ty) man (ftzOf th ftz))

def execFcvt (h : Hdr) (ty : Ty) (rm : RMode) (ftz sat : Bool) (d : BitVec 9) (a : Src) (sty : Ty) : State → Host.Outcome State Fault Refusal :=
  float1 h ty sty d (tyWords ty) a (fun th => fConvert (fmtOfTy ty) (fmtOfTy sty) (roundOf th rm) (ftzOf th ftz) sat)
def execF2i (h : Hdr) (ty : Ty) (rm : RMode) (ftz : Bool) (d : BitVec 9) (a : Src) (sty : Ty) : State → Host.Outcome State Fault Refusal :=
  float1 h ty sty d (tyWords ty) a (fun th => fToInt ty (fmtOfTy sty) (roundOf th rm) (ftzOf th ftz))
def execI2f (h : Hdr) (ty : Ty) (rm : RMode) (d : BitVec 9) (a : Src) (sty : Ty) : State → Host.Outcome State Fault Refusal :=
  float1 h ty sty d (tyWords ty) a (fun th => intToF (fmtOfTy ty) (roundOf th rm) sty)

def execFdot2 (h : Hdr) (ty : Ty) (rm : RMode) (ftz : Bool) (d : BitVec 9) (a b c : Src) : State → Host.Outcome State Fault Refusal :=
  runInstr h { srcs := [(.a, a, 1), (.b, b, 1), (.c, c, 1)], dst := some (d.toNat, 1) } (fun w s => do
    let x ← src32 w s a
    let y ← src32 w s b
    let z ← src32 w s c
    resF w h s d 1 (fDot2 (fmtOfTy ty) (roundOf w.th rm) (ftzOf w.th ftz) x.toNat y.toNat z.toNat))

/-- FSTAT (R213): it waits for the thread's float results, then reads the word and changes its flags. -/
def execFstat (h : Hdr) (op : FstatOp) (d : BitVec 9) : State → Host.Outcome State Fault Refusal :=
  let srcs : List (Retain × Src × Nat) := match op with
    | .read => []
    | .clr b => [(.b, b, 1)]
    | .set b => [(.b, b, 1)]
  runInstr h { srcs := srcs, dst := some (d.toNat, 1) } (fun w s => do
    if floatsOut s w.t then .error (.wait .retry)
    let word : DWord := w.th.fcw.setWidth 64
    match op with
    | .read => res w h s d 1 word
    | .clr b => do
      let m ← src32 w s b
      let s1 ← res w h s d 1 word
      .ok (setFlags s1 w.t (flagsOf w.th &&& ~~~(m.setWidth 6)))
    | .set b => do
      let m ← src32 w s b
      let s1 ← res w h s d 1 word
      .ok (setFlags s1 w.t (flagsOf w.th ||| m.setWidth 6)))

/-- FMODE (R213). -/
def execFmode (h : Hdr) (b : Src) : State → Host.Outcome State Fault Refusal :=
  runInstr h { srcs := [(.b, b, 1)] } (fun w s => do
    let x ← src32 w s b
    let y := (flagsOf w.th).toNat + bits x 5 0 * 2 ^ 8 + bits x 9 8 * 2 ^ 16 + bits x 10 10 * 2 ^ 18
    .ok (s.updThread w.t (fun th => { th with fcw := BitVec.ofNat 32 y })))

/-- A described block in the issuer's registers, checked for its decode (R214, R179). -/
def readBlock (w : Who) (s : State) (a : BitVec 9) (fam : Ty) (slot : BitVec 2) : Res (List Byte × List (BitVec 16)) := do
  rangeIf w a.toNat 16
  let ws ← listRead w s a.toNat 16
  let bs := bytesOf ws
  let cb := codebook w.g slot.toNat
  match blockCheck bs fam slot.toNat cb.loaded with
  | some (cause, info) => .error (.trap cause (BitVec.ofNat 64 (regAddr s w.t a.toNat)) (BitVec.ofNat 32 info))
  | none => .ok (bs, cb.entries)

/-- DBDEC (R214). -/
def execDbdec (h : Hdr) (ty : Ty) (rm : RMode) (d : BitVec 9) (a : BitVec 9) (b : Src) (fam : Ty) (slot : BitVec 2) : State → Host.Outcome State Fault Refusal :=
  runInstr h { srcs := [(.b, b, 1)], named := [(a.toNat, 1)], dst := some (d.toNat, 1), lists := fun _ _ => [(a.toNat, 16)] } (fun w s => do
    let n ← src32 w s b
    let (bs, book) ← readBlock w s a fam slot
    let one (i : Nat) : Nat × Flags :=
      let (v, f) := elemValue bs fam book i
      let (r, g) := deliverElem (fmtOfTy ty) (roundOf w.th rm) v
      (r, f ||| g)
    trapIf (decide (elemCount fam ≤ n.toNat) || (ty = .bf16 && n.toNat % 2 = 1)) 0x06 0 0x22
    if ty = .bf16 then
      let (x, f) := one n.toNat
      let (y, g) := one (n.toNat + 1)
      resFLater w s d 1 (x + y * 65536, f ||| g)
    else resFLater w s d 1 (one n.toNat))

/-- The values that DBENC reads, by the code word `b` of the block (R215). -/
def encWords (a : BitVec 9) (b : Src) (w : Who) (s : State) : List (Nat × Nat) :=
  match src32 w s b with
  | .ok x => if bits x 15 8 = 0xFF then [] else ((fmtElem (bits x 7 0)).map (fun ty => (a.toNat, elemCount ty))).toList
  | .error _ => []

/-- DBENC (R215). -/
def execDbenc (h : Hdr) (rm : RMode) (sat : Bool) (d : BitVec 9) (a : BitVec 9) (b : Src) : State → Host.Outcome State Fault Refusal :=
  runInstr h { srcs := [(.b, b, 1)], named := [(a.toNat, 1)], dst := some (d.toNat, 1), wrote := fun _ _ => [(d.toNat, 16)],
               lists := encWords a b } (fun w s => do
    let x ← src32 w s b
    let fmt := bits x 7 0
    let scale := bits x 15 8
    let zp := bits x 23 16
    let at_ : DWord := BitVec.ofNat 64 (regAddr s w.t d.toNat)
    let ty := (fmtElem fmt).getD .i8
    trapIf (d = 0) 0x06 0 0x20
    rangeIf w d.toNat 16
    trapIf (fmtElem fmt).isNone 0x15 at_ 1
    rangeIf w a.toNat (elemCount ty)
    trapIf (zpZero ty && zp ≠ 0) 0x15 at_ 2
    let cb := codebook w.g (fmt - 0x10)
    trapIf (ty = .c4 && !cb.loaded) 0x15 at_ 5
    let ws ← if scale = 0xFF then .ok [] else listRead w s a.toNat (elemCount ty)
    let codes := ws.map (fun v =>
      encodeElem ty (roundOf w.th rm) sat scale (signedByte zp) cb.entries ((Config.freeValue s.fresh).toNat % 16) v.toNat)
    let noEntry := ty = .c4 && cb.entries.all (fun e => (unpack fmtBf e.toNat).isNan)
    let block := sealBlock fmt scale zp (packCodes ty (codes.map (·.1)))
    let fl := codes.foldl (fun (f : Flags) c => f ||| c.2) 0
    let s1 ← claimList w s d.toNat 16
    let s2 := if noEntry then { s1 with fresh := s1.fresh + 1 } else s1
    .ok (pushResult s2 w.t (numbered d.toNat (wordsOf block)) fl true))

/-- CBLD (R216). -/
def execCbld (h : Hdr) (slot : BitVec 2) (a : BitVec 9) : State → Host.Outcome State Fault Refusal :=
  runInstr h { named := [(a.toNat, 1)], lists := fun _ _ => [(a.toNat, 8)] } (fun w s => do
    rangeIf w a.toNat 8
    let ws ← listRead w s a.toNat 8
    let es := ws.flatMap (fun x => [x.extractLsb' 0 16, x.extractLsb' 16 16])
    .ok (s.updGroup w.t.vgid (fun g => { g with cbs := put g.cbs slot.toNat ⟨true, es⟩ })))

/-- CBREAD (R216). -/
def execCbread (h : Hdr) (slot : BitVec 2) (d : BitVec 9) (b : Src) : State → Host.Outcome State Fault Refusal :=
  runInstr h { srcs := [(.b, b, 1)], dst := some (d.toNat, 1) } (fun w s => do
    let i ← src32 w s b
    let cb := codebook w.g slot.toNat
    trapIf (8 < i.toNat) 0x06 0 0x22
    let v : Nat := if i = 8 then cb.loaded.toNat
      else (cb.entries.getD (2 * i.toNat) 0).toNat + (cb.entries.getD (2 * i.toNat + 1) 0).toNat * 65536
    res w h s d 1 (BitVec.ofNat 64 v))

/-- A four-word operand (R217): of a latch, which holds two words, the others are free values (R68, log 11). -/
def quad (w : Who) (s : State) (x : Src) : Res (List Word × State) :=
  match x with
  | .reg i => (if i = 0 then listRead w s 0 4 else regRead w s i.toNat 4).map (fun ws => (ws, s))
  | .latch k =>
    let v := (at_ w.th.latches k.toNat {}).val
    let f := Config.freeValue s.fresh
    .ok ([loWord v, hiWord v, loWord f, hiWord f], { s with fresh := s.fresh + 1 })
  | .imm _ => .ok ([], s)

/-- NCVT (R217); .dn sets DEN for a subnormal source (log 83). -/
def execNcvt (h : Hdr) (ty : Ty) (op : NcvtOp) (d : BitVec 9) : State → Host.Outcome State Fault Refusal :=
  match op with
  | .up a =>
    runInstr h { srcs := [(.a, a, 1)], dst := some (d.toNat, 4) } (fun w s => do
      let x ← src32 w s a
      let one (i : Nat) : Nat × Flags :=
        let b := bits x (8 * i + 7) (8 * i)
        if ty = .i8 then deliverF fmt32 .rne false false (fvInt (signedByte b))
        else fConvert fmt32 (fmtOfTy ty) .rne false false b
      let rs := (upto 0 4).map one
      let s1 ← claimList w s d.toNat 4
      .ok (pushResult s1 w.t (numbered d.toNat (rs.map (fun r => BitVec.ofNat 32 r.1)))
        (rs.foldl (fun (f : Flags) r => f ||| r.2) 0) true))
  | .dn rm sat a =>
    runInstr h { srcs := [(.a, a, 4)], dst := some (d.toNat, 1) } (fun w s => do
      let (ws, s) ← quad w s a
      let one (x : Word) : Nat × Flags :=
        let (v, f) := operandF fmt32 false x.toNat
        let (r, g) := if ty = .i8 then narrowI (roundOf w.th rm) 0 v else narrowF (fmtOfTy ty) (roundOf w.th rm) sat v
        (r, f ||| g)
      let rs := ws.map one
      let v := rs.zipIdx.foldl (fun n r => n + r.1.1 * 256 ^ r.2) 0
      resF w h s d 1 (v, rs.foldl (fun (f : Flags) r => f ||| r.2) 0))

/-- BSUM (R214). -/
def execBsum (h : Hdr) (ty : Ty) (d : BitVec 9) (a : BitVec 9) (fam : Ty) (slot : BitVec 2) : State → Host.Outcome State Fault Refusal :=
  runInstr h { named := [(a.toNat, 1)], dst := some (d.toNat, tyWords ty), lists := fun _ _ => [(a.toNat, 16)] } (fun w s => do
    let (bs, book) ← readBlock w s a fam slot
    resFLater w s d 1 (blockTotal bs fam book))

end Sys2Proof.Machine
end

