-- ==== Sys2Proof/Decode.lean ====
section
/-!
DEFINITION. Decoding and encoding of instruction words (R57 to R75): a total decoder that rejects by the
checks 1 to 7 of R75, in their order, and an encoder from the same encoding tables.
-/
namespace Sys2Proof

/-- The decode checks of R75 that look at the word alone, and a byte string that ends inside an instruction. -/
inductive DecErr where
  | illegalForm    -- check 1
  | reservedMajor  -- check 2
  | pairOpcode     -- check 3
  | pairBank       -- check 4
  | minorOrType    -- check 5
  | unusedField    -- check 6
  | retainOrClaim  -- check 7
  | truncated
  deriving DecidableEq, Repr

/-- TRAP_INFO of a failed check, under cause 0x01 (R75). -/
def DecErr.info : DecErr → Word
  | .illegalForm => 3
  | .reservedMajor => 1
  | .pairOpcode => 2
  | .pairBank => 4
  | .minorOrType => 5
  | .unusedField => 6
  | .retainOrClaim => 7
  | .truncated => 0

/-- The fields of a full-form word (R58). -/
structure Raw where
  major : BitVec 8
  dst : BitVec 9
  n : Bool
  a : BitVec 9
  b : BitVec 9
  c : BitVec 9
  la : Bool
  lb : Bool
  lc : Bool
  retain : BitVec 2
  pinv : Bool
  pidx : BitVec 3
  minor : BitVec 9
  deriving DecidableEq, Repr

def Raw.ofWord (w : DWord) : Raw where
  major := w.extractLsb' 55 8
  dst := w.extractLsb' 46 9
  n := bit w 45
  a := w.extractLsb' 36 9
  b := w.extractLsb' 27 9
  c := w.extractLsb' 18 9
  la := bit w 17
  lb := bit w 16
  lc := bit w 15
  retain := w.extractLsb' 13 2
  pinv := bit w 12
  pidx := w.extractLsb' 9 3
  minor := w.extractLsb' 0 9

def Raw.toWord (r : Raw) : DWord :=
  (0#1 ++ r.major ++ r.dst ++ BitVec.ofBool r.n ++ r.a ++ r.b ++ r.c ++ BitVec.ofBool r.la ++ BitVec.ofBool r.lb
    ++ BitVec.ofBool r.lc ++ r.retain ++ BitVec.ofBool r.pinv ++ r.pidx ++ r.minor).setWidth 64

/-- The type code in MINOR[8:5]. -/
def tyField (r : Raw) : Nat := bits r.minor 8 5
/-- I of R60. -/
def iBit (r : Raw) : Bool := bit r.minor 0
/-- `n` bits of MINOR from bit `lo`. -/
def mf (r : Raw) (lo n : Nat) : Nat := (r.minor.extractLsb' lo n).toNat
/-- The 18-bit immediate of R63, bits [35:18]. -/
def immField (r : Raw) : BitVec 18 := r.b ++ r.c

/-- Whether a row has an FI form, or only one (R60). -/
inductive Fi where
  | none | either | only
  deriving DecidableEq, Repr

/-- How a row uses a register field: not at all, as a written destination or a read source, as a register that
is named and not read (or a block of registers, which no latch can stand for), as a predicate, or as a constant
with the values it lists (R59, R79, R110, R204). -/
inductive Fld where
  | unused
  | reg
  | named
  | pred
  | const (listed : Nat → Bool)

/-- Which results claim their destination under R42, so that N = 1 fails check 7 (R67). -/
inductive Claim where
  | never | always | wide
  deriving DecidableEq, Repr

/-- One row of the encoding tables. -/
structure Fmt where
  tys : List Nat := []
  fi : Fi := .none
  subs : List (Nat × Nat × List Nat) := []
  dst : Fld := .unused
  a : Fld := .unused
  b : Fld := .unused
  c : Fld := .unused
  claim : Claim := .never
  also5 : Raw → Bool := fun _ => true
  also6 : Raw → Bool := fun _ => true

/-- The MINOR bits a row lays out. -/
def Fmt.mask (f : Fmt) : BitVec 9 :=
  f.subs.foldl (fun m s => m ||| ((BitVec.allOnes s.2.1).setWidth 9 <<< s.1))
    ((if f.tys.isEmpty then 0 else 0x1E0#9) ||| (if f.fi = .none then 0 else 1#9))

def Fld.listedOk : Fld → BitVec 9 → Bool
  | .const p, v => p v.toNat
  | _, _ => true

/-- Check 5 of R75: a MINOR value, type, scope or constant field not listed (R60, R61, R62, R204). -/
def Fmt.ok5 (f : Fmt) (r : Raw) : Bool :=
  (r.minor &&& ~~~ f.mask == 0)
  && (f.tys.isEmpty || f.tys.contains (tyField r))
  && (f.fi != .only || iBit r)
  && f.subs.all (fun s => s.2.2.contains (mf r s.1 s.2.1))
  && f.a.listedOk r.a && f.b.listedOk r.b && f.c.listedOk r.c
  && f.also5 r

/-- A source field and its L bit (R58, R59, R79). -/
def Fld.srcOk : Fld → BitVec 9 → Bool → Bool
  | .unused, v, l => v == 0 && !l
  | .reg, v, l => !l || bits v 8 3 == 0
  | .named, _, l => !l
  | .pred, v, l => !l && bits v 8 3 == 0
  | .const _, _, l => !l

def Fld.dstOk : Fld → BitVec 9 → Bool
  | .unused, v => v == 0
  | .pred, v => bits v 8 3 == 0
  | _, _ => true

def Fmt.imm (f : Fmt) (r : Raw) : Bool := f.fi != .none && iBit r

/-- Check 6 of R75: a nonzero unused field, a latch field's high bits, the FI rules of R63. -/
def Fmt.ok6 (f : Fmt) (r : Raw) : Bool :=
  f.dst.dstOk r.dst
  && (match f.dst with | .reg => true | _ => !r.n)
  && (if f.imm r then
        (if f.fi = .either && (match f.b with | .unused => true | _ => false)
          then Fld.srcOk .unused r.a r.la else f.a.srcOk r.a r.la)
        && !r.lb && !r.lc && (r.retain == 0 || r.retain == 1)
      else f.a.srcOk r.a r.la && f.b.srcOk r.b r.lb && f.c.srcOk r.c r.lc)
  && f.also6 r

def Fld.isReg : Fld → Bool
  | .reg => true
  | _ => false

/-- Check 7 of R75: RETAIN on a source that cannot be retained (R70), N = 1 on a claiming instruction (R67). -/
def Fmt.ok7 (f : Fmt) (r : Raw) : Bool :=
  (match r.retain.toNat with
    | 0 => true
    | 1 => f.a.isReg && !r.la && !(f.imm r && !f.b.isReg && f.fi == .either)
    | 2 => f.b.isReg && !r.lb && !f.imm r
    | _ => f.c.isReg && !r.lc && !f.imm r)
  && (!r.n || (match f.claim with
    | .never => true
    | .always => false
    | .wide => !([2, 3, 4].contains (tyField r))))

/-- Checks 5, 6 and 7 in order (R75). -/
def Fmt.check (f : Fmt) (r : Raw) : Option DecErr :=
  if !f.ok5 r then some .minorOrType
  else if !f.ok6 r then some .unusedField
  else if !f.ok7 r then some .retainOrClaim
  else none

def Ty.code : Ty → Nat
  | .s32 => 0
  | .z32 => 1
  | .s64 => 2
  | .z64 => 3
  | .f64 => 4
  | .f32 => 5
  | .f16 => 6
  | .bf16 => 7
  | .e4m3 => 8
  | .e5m2 => 9
  | .i8 => 10
  | .c4 => 11
def Ty.ofCode : Nat → Ty
  | 0 => .s32
  | 1 => .z32
  | 2 => .s64
  | 3 => .z64
  | 4 => .f64
  | 5 => .f32
  | 6 => .f16
  | 7 => .bf16
  | 8 => .e4m3
  | 9 => .e5m2
  | 10 => .i8
  | _ => .c4

def Scope.code : Scope → Nat
  | .core => 0
  | .gang => 1
  | .troupe => 2
  | .company => 3
  | .house => 4
def Scope.ofCode : Nat → Scope
  | 0 => .core
  | 1 => .gang
  | 2 => .troupe
  | 3 => .company
  | _ => .house

def MemOrd.code : MemOrd → Nat
  | .relaxed => 0
  | .atCore => 1
  | .atGang => 2
  | .atTroupe => 3
  | .atCompany => 4
  | .atHouse => 5
def MemOrd.ofCode : Nat → MemOrd
  | 0 => .relaxed
  | 1 => .atCore
  | 2 => .atGang
  | 3 => .atTroupe
  | 4 => .atCompany
  | _ => .atHouse

def Atomicity.code : Atomicity → Nat
  | .word => 0
  | .a8 => 1
  | .a16 => 2
def Atomicity.ofCode : Nat → Atomicity
  | 0 => .word
  | 1 => .a8
  | _ => .a16

def RMode.code : RMode → Nat
  | .dflt => 0
  | .rne => 1
  | .rtz => 2
  | .rdn => 3
  | .rup => 4
def RMode.ofCode : Nat → RMode
  | 0 => .dflt
  | 1 => .rne
  | 2 => .rtz
  | 3 => .rdn
  | _ => .rup

def ICond.code : ICond → Nat
  | .eq => 0
  | .ne => 1
  | .lt => 2
  | .le => 3
  | .gt => 4
  | .ge => 5
def ICond.ofCode : Nat → ICond
  | 0 => .eq
  | 1 => .ne
  | 2 => .lt
  | 3 => .le
  | 4 => .gt
  | _ => .ge

def FCond.code : FCond → Nat
  | .eq => 0
  | .ne => 1
  | .lt => 2
  | .le => 3
  | .gt => 4
  | .ge => 5
  | .un => 6
  | .ord => 7
def FCond.ofCode : Nat → FCond
  | 0 => .eq
  | 1 => .ne
  | 2 => .lt
  | 3 => .le
  | 4 => .gt
  | 5 => .ge
  | 6 => .un
  | _ => .ord

def AtomOp.code : AtomOp → Nat
  | .add => 0
  | .min => 1
  | .max => 2
  | .and => 3
  | .or => 4
  | .xor => 5
  | .exch => 6
  | .cas => 7
def AtomOp.ofCode : Nat → AtomOp
  | 0 => .add
  | 1 => .min
  | 2 => .max
  | 3 => .and
  | 4 => .or
  | 5 => .xor
  | 6 => .exch
  | _ => .cas

def Space.code : Space → Nat
  | .g => 0
  | .f => 1
  | .h => 2
def Space.ofCode : Nat → Space
  | 0 => .g
  | 1 => .f
  | _ => .h

def FenceKind.code : FenceKind → Nat
  | .full => 0
  | .acq => 1
  | .rel => 2
def FenceKind.ofCode : Nat → FenceKind
  | 0 => .full
  | 1 => .acq
  | _ => .rel

def Retain.code : Retain → Nat
  | .none => 0
  | .a => 1
  | .b => 2
  | .c => 3
def Retain.ofCode : Nat → Retain
  | 0 => .none
  | 1 => .a
  | 2 => .b
  | _ => .c

def TagState.code : TagState → Nat
  | .empty => 0x0
  | .full => 0x1
  | .poison => 0x3
def TagState.ofCode : Nat → TagState
  | 0x0 => .empty
  | 0x1 => .full
  | _ => .poison

def SregName.code : SregName → Nat
  | .lane => 0x0
  | .layer => 0x1
  | .gwidth => 0x2
  | .gdepth => 0x3
  | .group => 0x4
  | .gang => 0x5
  | .ngang => 0x6
  | .core => 0x7
  | .cluster => 0x8
  | .die => 0x9
  | .vgid => 0xA
  | .cyc => 0xB
  | .hbt => 0xC
  | .phase => 0xD
  | .sibidx => 0xE
  | .sibn => 0xF
  | .karg => 0x10
def SregName.ofCode : Nat → SregName
  | 0x0 => .lane
  | 0x1 => .layer
  | 0x2 => .gwidth
  | 0x3 => .gdepth
  | 0x4 => .group
  | 0x5 => .gang
  | 0x6 => .ngang
  | 0x7 => .core
  | 0x8 => .cluster
  | 0x9 => .die
  | 0xA => .vgid
  | 0xB => .cyc
  | 0xC => .hbt
  | 0xD => .phase
  | 0xE => .sibidx
  | 0xF => .sibn
  | _ => .karg

def SysReg.code : SysReg → Nat
  | .trapMask => 0x0
  | .trapBase => 0x1
  | .trapPc => 0x2
  | .trapAddr => 0x3
  | .trapInfo => 0x4
  | .trapCause => 0x5
  | .mgnCtl => 0x10
  | .mgnStat => 0x11
  | .mgnInj => 0x12
  | .asid => 0x20
  | .world => 0x21
  | .ckCtl => 0x22
  | .ckStat => 0x23
  | .evBase => 0x24
def SysReg.ofCode : Nat → SysReg
  | 0x0 => .trapMask
  | 0x1 => .trapBase
  | 0x2 => .trapPc
  | 0x3 => .trapAddr
  | 0x4 => .trapInfo
  | 0x5 => .trapCause
  | 0x10 => .mgnCtl
  | 0x11 => .mgnStat
  | 0x12 => .mgnInj
  | 0x20 => .asid
  | 0x21 => .world
  | 0x22 => .ckCtl
  | 0x23 => .ckStat
  | _ => .evBase

def LogReg.code : LogReg → Nat
  | .mgnLog => 0x13
  | .fltLog => 0x25
def LogReg.ofCode : Nat → LogReg
  | 0x13 => .mgnLog
  | _ => .fltLog

/-- POP codes (R74). -/
def PairOp.code : PairOp → Nat
  | .mov => 0x00
  | .iadd => 0x01
  | .isub => 0x02
  | .imul => 0x03
  | .imin => 0x04
  | .imax => 0x05
  | .and => 0x06
  | .or => 0x07
  | .xor => 0x08
  | .shl => 0x09
  | .shr => 0x0A
  | .sar => 0x0B
  | .rot => 0x0C
  | .fadd => 0x10
  | .fsub => 0x11
  | .fmul => 0x12
  | .fmin => 0x13
  | .fmax => 0x14
  | .movi => 0x20
  | .iaddImm => 0x21
  | .andImm => 0x22
  | .shlImm => 0x23
  | .shrImm => 0x24
  | .sarImm => 0x25
  | .rotImm => 0x26
def PairOp.ofCode? : Nat → Option PairOp
  | 0x00 => some .mov
  | 0x01 => some .iadd
  | 0x02 => some .isub
  | 0x03 => some .imul
  | 0x04 => some .imin
  | 0x05 => some .imax
  | 0x06 => some .and
  | 0x07 => some .or
  | 0x08 => some .xor
  | 0x09 => some .shl
  | 0x0A => some .shr
  | 0x0B => some .sar
  | 0x0C => some .rot
  | 0x10 => some .fadd
  | 0x11 => some .fsub
  | 0x12 => some .fmul
  | 0x13 => some .fmin
  | 0x14 => some .fmax
  | 0x20 => some .movi
  | 0x21 => some .iaddImm
  | 0x22 => some .andImm
  | 0x23 => some .shlImm
  | 0x24 => some .shrImm
  | 0x25 => some .sarImm
  | 0x26 => some .rotImm
  | _ => none
/-- The type codes each pair opcode lists (R74). -/
def PairOp.types : PairOp → List Nat
  | .mov => [0, 1, 5, 7]
  | .iadd => [0, 1]
  | .isub => [0, 1]
  | .imul => [0, 1]
  | .imin => [0, 1]
  | .imax => [0, 1]
  | .and => [0, 1]
  | .or => [0, 1]
  | .xor => [0, 1]
  | .shl => [1]
  | .shr => [1]
  | .sar => [0]
  | .rot => [1]
  | .fadd => [5, 7]
  | .fsub => [5, 7]
  | .fmul => [5, 7]
  | .fmin => [5, 7]
  | .fmax => [5, 7]
  | .movi => [0, 1]
  | .iaddImm => [0, 1]
  | .andImm => [0, 1]
  | .shlImm => [1]
  | .shrImm => [1]
  | .sarImm => [0]
  | .rotImm => [1]
/-- The constructor of a pair word is that of its half A. -/
def pairInstr : PairOp → Half → PairHalf → Instr
  | .mov, a, b => .pairMov a b
  | .iadd, a, b => .pairIadd a b
  | .isub, a, b => .pairIsub a b
  | .imul, a, b => .pairImul a b
  | .imin, a, b => .pairImin a b
  | .imax, a, b => .pairImax a b
  | .and, a, b => .pairAnd a b
  | .or, a, b => .pairOr a b
  | .xor, a, b => .pairXor a b
  | .shl, a, b => .pairShl a b
  | .shr, a, b => .pairShr a b
  | .sar, a, b => .pairSar a b
  | .rot, a, b => .pairRot a b
  | .fadd, a, b => .pairFadd a b
  | .fsub, a, b => .pairFsub a b
  | .fmul, a, b => .pairFmul a b
  | .fmin, a, b => .pairFmin a b
  | .fmax, a, b => .pairFmax a b
  | .movi, a, b => .pairMovi a b
  | .iaddImm, a, b => .pairIaddImm a b
  | .andImm, a, b => .pairAndImm a b
  | .shlImm, a, b => .pairShlImm a b
  | .shrImm, a, b => .pairShrImm a b
  | .sarImm, a, b => .pairSarImm a b
  | .rotImm, a, b => .pairRotImm a b

/-- Codes of a float type as SRCC's family may name them, with the slot in [5:4] (R204). -/
def famListed (v : Nat) : Bool := (6 ≤ v && v ≤ 10) || v == 0x0B || v == 0x1B || v == 0x2B || v == 0x3B
/-- OP in SRCC[3:0] and n − 1 in SRCC[8:4] (R336). -/
def vopListed (v : Nat) : Bool := v % 16 < 7
def sregListed (v : Nat) : Bool := v ≤ 0x10
def sysListed (v : Nat) : Bool := v ≤ 5 || (0x10 ≤ v && v ≤ 0x13) || (0x20 ≤ v && v ≤ 0x25)
/-- The ATOM rules of R111: the register `f` holds the loaded or stored value. -/
def atomOk (f : BitVec 9) (latch : Bool) (r : Raw) : Bool :=
  match mf r 0 2 with
  | 0 => true
  | 1 => [2, 3, 4].contains (tyField r)
  | _ => [2, 3, 4].contains (tyField r) && (latch || f.toNat % 4 == 0)
def ldAtomOk (r : Raw) : Bool := atomOk r.dst false r
def stAtomOk (r : Raw) : Bool := atomOk r.b r.lb r
/-- FCVT's two types differ (R204). -/
def fcvtOk (r : Raw) : Bool := r.b.toNat != tyField r
/-- RED with a float type takes .add, .min and .max only (R336). -/
def redOk (r : Raw) : Bool := !(tyField r == 4 || tyField r == 5) || r.c.toNat < 3
/-- TAGQ's count is 1 to 16 (R115). -/
def tagqOk (r : Raw) : Bool := 1 ≤ (immField r).toNat && (immField r).toNat ≤ 16
/-- WEXP sets at least one right (R111). -/
def wexpOk (r : Raw) : Bool := tyField r != 0
/-- A .a16 store takes its value from registers (R111). -/
def stValueOk (r : Raw) : Bool := !(mf r 0 2 == 2 && r.lb)

def srcA (r : Raw) : Src := if r.la then .latch (r.a.setWidth 3) else .reg r.a
def srcB (r : Raw) : Src := if r.lb then .latch (r.b.setWidth 3) else .reg r.b
def srcC (r : Raw) : Src := if r.lc then .latch (r.c.setWidth 3) else .reg r.c
def srcAi (r : Raw) : Src := if iBit r then .imm (immField r) else srcA r
def srcBi (r : Raw) : Src := if iBit r then .imm (immField r) else srcB r
def hdr (r : Raw) : Hdr := ⟨r.pidx, r.pinv, r.n, Retain.ofCode r.retain.toNat⟩
def tyF (r : Raw) : Ty := Ty.ofCode (tyField r)

def sysIsLog (a : BitVec 9) : Bool := a == 0x13 || a == 0x25

/-- The encoding row of a major opcode, by mode bit where a mode changes the fields used; none where R77 reserves the code. -/
def fmtOf (r : Raw) : Option Fmt :=
  match r.major.toNat with
  | 0x00 => some { }
  | 0x02 => some { tys := [3], a := .reg, b := .reg }
  | 0x04 => some { dst := .reg }
  | 0x05 => some { tys := [3], a := .reg }
  | 0x06 => some { }
  | 0x07 => some { }
  | 0x08 => some (if mf r 1 1 = 0 then { fi := .either, subs := [(1, 1, [0, 1])], a := .reg } else { subs := [(1, 1, [0, 1])], a := .reg })
  | 0x09 => some { }
  | 0x0A => some { fi := .either, b := .reg }
  | 0x0B => some { }
  | 0x0C => some { }
  | 0x10 => some { tys := [0, 1, 2, 3], fi := .either, subs := [(1, 1, [0, 1])], dst := .reg, a := .reg, b := .reg }
  | 0x11 => some { tys := [0, 1, 2, 3], fi := .either, subs := [(1, 1, [0, 1])], dst := .reg, a := .reg, b := .reg }
  | 0x12 => some { tys := [0, 1, 2, 3], fi := .either, subs := [(1, 1, [0, 1])], dst := .reg, a := .reg, b := .reg, claim := .wide }
  | 0x13 => some { tys := [0, 1, 2, 3], subs := [(1, 1, [0, 1])], dst := .reg, a := .reg, b := .reg, c := .reg, claim := .wide }
  | 0x14 => some { tys := [0, 1, 2, 3], fi := .either, subs := [(1, 1, [0, 1])], dst := .reg, a := .reg, b := .reg, claim := .always }
  | 0x15 => some { tys := [0, 2], subs := [(1, 1, [0, 1])], dst := .reg, a := .reg }
  | 0x16 => some { tys := [0, 1, 2, 3], fi := .either, dst := .reg, a := .reg, b := .reg }
  | 0x17 => some { tys := [0, 1, 2, 3], fi := .either, dst := .reg, a := .reg, b := .reg }
  | 0x18 => some { tys := [0, 1, 2, 3], fi := .either, subs := [(1, 1, [0, 1])], dst := .reg, a := .reg, b := .reg }
  | 0x19 => some { tys := [0, 1, 2, 3], fi := .either, subs := [(1, 1, [0, 1])], dst := .reg, a := .reg, b := .reg }
  | 0x1A => some { tys := [0, 1, 2, 3], fi := .either, subs := [(1, 1, [0, 1])], dst := .reg, a := .reg, b := .reg }
  | 0x1B => some { tys := [1, 3], fi := .either, dst := .reg, a := .reg, b := .reg }
  | 0x1C => some { tys := [1, 3], fi := .either, dst := .reg, a := .reg, b := .reg }
  | 0x1D => some { tys := [0, 2], fi := .either, dst := .reg, a := .reg, b := .reg }
  | 0x1E => some { tys := [1, 3], fi := .either, dst := .reg, a := .reg, b := .reg }
  | 0x1F => some { tys := [0, 1, 2, 3], fi := .either, dst := .reg, a := .reg, b := .reg }
  | 0x20 => some { tys := [1, 3], dst := .reg, a := .reg, b := .reg, c := .reg }
  | 0x21 => some { tys := [1, 3], dst := .reg, a := .reg }
  | 0x22 => some { tys := [1, 3], dst := .reg, a := .reg }
  | 0x23 => some { tys := [1, 3], dst := .reg, a := .reg }
  | 0x24 => some { tys := [1], dst := .reg, a := .reg, b := .reg, c := .reg }
  | 0x25 => some { tys := [0, 1, 2, 3], fi := .either, subs := [(2, 3, [0, 1, 2, 3, 4, 5, 6, 7]), (1, 1, [0, 1])], dst := .reg, a := .reg, b := .reg }
  | 0x26 => some { tys := [0, 1, 2, 3], fi := .either, subs := [(1, 4, [0, 1, 2, 3, 4, 5])], dst := .pred, a := .reg, b := .reg }
  | 0x27 => some (match mf r 1 4 with
      | 4 => { subs := [(1, 4, [0, 1, 2, 3, 4, 5, 6])], dst := .pred, a := .reg }
      | 5 => { subs := [(1, 4, [0, 1, 2, 3, 4, 5, 6])], dst := .reg }
      | 6 => { subs := [(1, 4, [0, 1, 2, 3, 4, 5, 6])], a := .reg }
      | _ => { subs := [(1, 4, [0, 1, 2, 3, 4, 5, 6])], dst := .pred, a := .pred, b := .pred })
  | 0x28 => some (if mf r 1 4 = 3 then { subs := [(1, 4, [0, 1, 2, 3])], dst := .reg, a := .pred } else { subs := [(1, 4, [0, 1, 2, 3])], dst := .pred, a := .pred })
  | 0x29 => some { tys := [0, 1, 5, 6, 7, 2, 3, 4], fi := .either, dst := .reg, a := .reg }
  | 0x2A => some { tys := [0, 1, 5, 6, 7, 2, 3, 4], dst := .reg }
  | 0x2B => some { tys := [1, 3], dst := .reg, a := .const sregListed }
  | 0x2C => some { tys := [0, 1, 2, 3], fi := .either, subs := [(1, 4, [0, 1, 2, 3, 4, 5, 6, 7, 8, 9, 10, 11, 12, 13, 14, 15])], dst := .reg, a := .reg, b := .reg }
  | 0x30 => some { tys := [5, 4, 6, 7], subs := [(2, 3, [0, 1, 2, 3, 4]), (1, 1, [0, 1])], dst := .reg, a := .reg, b := .reg }
  | 0x31 => some { tys := [5, 4, 6, 7], subs := [(2, 3, [0, 1, 2, 3, 4]), (1, 1, [0, 1])], dst := .reg, a := .reg, b := .reg }
  | 0x32 => some { tys := [5, 4, 6, 7], subs := [(2, 3, [0, 1, 2, 3, 4]), (1, 1, [0, 1])], dst := .reg, a := .reg, b := .reg }
  | 0x33 => some { tys := [5, 4, 6, 7], subs := [(2, 3, [0, 1, 2, 3, 4]), (1, 1, [0, 1])], dst := .reg, a := .reg, b := .reg, c := .reg }
  | 0x34 => some { tys := [5, 4, 6, 7], subs := [(2, 1, [0, 1]), (1, 1, [0, 1])], dst := .reg, a := .reg, b := .reg }
  | 0x35 => some { tys := [5, 4, 6, 7], subs := [(2, 1, [0, 1]), (1, 1, [0, 1])], dst := .reg, a := .reg, b := .reg }
  | 0x36 => some { tys := [5, 4, 6, 7], subs := [(2, 3, [0, 1, 2, 3, 4, 5, 6, 7]), (1, 1, [0, 1])], dst := .pred, a := .reg, b := .reg }
  | 0x37 => some { tys := [5, 4, 6, 7], subs := [(1, 1, [0, 1])], dst := .reg, a := .reg }
  | 0x38 => some { tys := [5, 4], subs := [(2, 3, [0, 1, 2, 3, 4]), (1, 1, [0, 1])], dst := .reg, a := .reg, b := .reg, claim := .always }
  | 0x39 => some { tys := [5, 4], subs := [(2, 3, [0, 1, 2, 3, 4]), (1, 1, [0, 1])], dst := .reg, a := .reg, claim := .always }
  | 0x3A => some { tys := [5, 4], subs := [(1, 1, [0, 1])], dst := .reg, a := .reg, claim := .always }
  | 0x3B => some { tys := [5, 4], subs := [(1, 1, [0, 1])], dst := .reg, a := .reg, claim := .always }
  | 0x3C => some { tys := [5], subs := [(1, 1, [0, 1])], dst := .reg, a := .reg, claim := .always }
  | 0x3D => some { tys := [5], subs := [(1, 1, [0, 1])], dst := .reg, a := .reg, claim := .always }
  | 0x3E => some { tys := [5], subs := [(1, 1, [0, 1])], dst := .reg, a := .reg, claim := .always }
  | 0x3F => some { tys := [5], subs := [(1, 1, [0, 1])], dst := .reg, a := .reg, claim := .always }
  | 0x40 => some { tys := [5, 4, 6, 7], subs := [(2, 3, [0, 1, 2, 3, 4]), (1, 1, [0, 1])], dst := .reg, a := .reg }
  | 0x41 => some { tys := [5, 4, 6, 7], fi := .either, subs := [(2, 3, [0, 1, 2, 3, 4]), (1, 1, [0, 1])], dst := .reg, a := .reg, b := .reg }
  | 0x42 => some { tys := [5, 4, 6, 7], subs := [(2, 1, [0, 1]), (1, 1, [0, 1])], dst := .reg, a := .reg }
  | 0x43 => some { tys := [5, 4, 6, 7], subs := [(2, 3, [0, 1, 2, 3, 4]), (1, 1, [0, 1]), (0, 1, [0, 1])], dst := .reg, a := .reg, b := .const (fun v => [5, 4, 6, 7].contains v), also5 := fcvtOk }
  | 0x44 => some { tys := [0, 1, 2, 3], subs := [(2, 3, [0, 1, 2, 3, 4]), (1, 1, [0, 1])], dst := .reg, a := .reg, b := .const (fun v => [5, 4, 6, 7].contains v) }
  | 0x45 => some { tys := [5, 4, 6, 7], subs := [(2, 3, [0, 1, 2, 3, 4])], dst := .reg, a := .reg, b := .const (fun v => [0, 1, 2, 3].contains v) }
  | 0x46 => some { tys := [7, 6], subs := [(2, 3, [0, 1, 2, 3, 4]), (1, 1, [0, 1])], dst := .reg, a := .reg, b := .reg, c := .reg }
  | 0x47 => some (if mf r 1 2 = 0 then { subs := [(1, 2, [0, 1, 2])], dst := .reg } else { fi := .either, subs := [(1, 2, [0, 1, 2])], dst := .reg, b := .reg })
  | 0x48 => some { fi := .either, b := .reg }
  | 0x50 => some { tys := [5, 7], subs := [(2, 3, [0, 1, 2, 3, 4])], dst := .reg, a := .named, b := .reg, c := .const famListed, claim := .always }
  | 0x51 => some { subs := [(2, 3, [0, 1, 2, 3, 4]), (1, 1, [0, 1])], dst := .reg, a := .named, b := .reg, claim := .always }
  | 0x52 => some { subs := [(1, 2, [0, 1, 2, 3])], a := .named }
  | 0x53 => some { fi := .either, subs := [(1, 2, [0, 1, 2, 3])], dst := .reg, b := .reg }
  | 0x54 => some (if mf r 0 1 = 0 then { tys := [8, 9, 10], subs := [(0, 1, [0, 1])], dst := .reg, a := .reg, claim := .always } else { tys := [8, 9, 10], subs := [(0, 1, [0, 1]), (1, 1, [0, 1]), (2, 3, [0, 1, 2, 3, 4])], dst := .reg, a := .reg })
  | 0x55 => some { tys := [5], dst := .reg, a := .named, c := .const famListed, claim := .always }
  | 0x58 => some { dst := .reg, a := .named }
  | 0x59 => some { dst := .reg, a := .reg }
  | 0x5A => some { subs := [(1, 1, [0, 1])], dst := .reg, a := .reg, claim := .always }
  | 0x5B => some { a := .reg, b := .reg }
  | 0x5C => some { a := .reg, b := .reg }
  | 0x5D => some { a := .reg }
  | 0x5E => some { a := .reg }
  | 0x60 => some { tys := [1, 3], dst := .reg, a := .named, b := .reg }
  | 0x61 => some { tys := [1, 3], dst := .named, a := .reg, b := .reg }
  | 0x62 => some { tys := [1, 3], dst := .reg, a := .named }
  | 0x63 => some { tys := [1, 3], dst := .named, a := .reg }
  | 0x64 => some { fi := .either, subs := [(1, 2, [0, 1, 3])], dst := .named, b := .reg }
  | 0x65 => some { fi := .only, dst := .reg, a := .named, b := .named, also6 := tagqOk }
  | 0x66 => some { fi := .either, subs := [(5, 4, [0, 1, 2, 3, 4, 5, 6, 7, 8, 9, 10, 11, 12, 13, 14, 15]), (1, 1, [0, 1])], dst := .reg, a := .named, b := .reg, claim := .always, also5 := wexpOk }
  | 0x67 => some { a := .reg }
  | 0x68 => some { tys := [1, 3], fi := .either, dst := .reg, a := .reg, b := .reg, claim := .always }
  | 0x69 => some { tys := [1, 3], a := .reg, b := .reg, c := .reg }
  | 0x6A => some { tys := [1, 3], fi := .either, dst := .reg, a := .reg, b := .reg, claim := .always }
  | 0x6B => some { tys := [1, 3], a := .reg, b := .reg, c := .reg }
  | 0x6C => some { tys := [1, 3], dst := .reg, a := .reg, b := .named, claim := .always }
  | 0x6D => some { tys := [1, 3], dst := .named, a := .reg, b := .reg }
  | 0x6E => some { tys := [1], dst := .reg, a := .reg, b := .reg, c := .reg, claim := .always }
  | 0x70 => some { tys := [0, 1, 5, 2, 3, 4, 10, 6, 7], subs := [(2, 3, [0, 1, 2, 3, 4, 5]), (0, 2, [0, 1, 2])], dst := .reg, a := .reg, claim := .always, also5 := ldAtomOk }
  | 0x71 => some { tys := [0, 1, 5, 2, 3, 4, 10, 6, 7], subs := [(2, 3, [0, 1, 2, 3, 4, 5]), (0, 2, [0, 1, 2])], a := .reg, b := .reg, also5 := stAtomOk, also6 := stValueOk }
  | 0x72 => some { tys := [0, 1, 5, 2, 3, 4, 10, 6, 7], subs := [(2, 3, [0, 1, 2, 3, 4, 5]), (0, 2, [0, 1, 2])], dst := .reg, a := .reg, claim := .always, also5 := ldAtomOk }
  | 0x73 => some { tys := [0, 1, 5, 2, 3, 4, 10, 6, 7], subs := [(2, 3, [0, 1, 2, 3, 4, 5]), (0, 2, [0, 1, 2])], a := .reg, b := .reg, also5 := stAtomOk, also6 := stValueOk }
  | 0x74 => some { tys := [0, 1, 5, 2, 3, 4, 10, 6, 7], subs := [(2, 3, [0, 1, 2, 3, 4, 5]), (0, 2, [0, 1, 2])], dst := .reg, a := .reg, claim := .always, also5 := ldAtomOk }
  | 0x75 => some { tys := [0, 1, 5, 2, 3, 4, 10, 6, 7], subs := [(2, 3, [0, 1, 2, 3, 4, 5]), (0, 2, [0, 1, 2])], a := .reg, b := .reg, also5 := stAtomOk, also6 := stValueOk }
  | 0x76 => some { fi := .either, subs := [(1, 1, [0, 1])], b := .reg }
  | 0x80 => some { fi := .either, subs := [(1, 3, [0, 1])], dst := .named, b := .reg }
  | 0x81 => some (if mf r 1 1 = 0 then { subs := [(1, 1, [0, 1])], dst := .reg, a := .reg, b := .reg } else { subs := [(1, 1, [0, 1])] })
  | 0x82 => some { a := .reg, b := .reg, c := .reg }
  | 0x83 => some { subs := [(1, 1, [0, 1])], a := .reg, b := .reg, c := .reg }
  | 0x84 => some { subs := [(7, 2, [0, 1, 2]), (1, 3, [0, 1, 2, 3, 4])] }
  | 0x85 => some { }
  | 0x86 => some (if mf r 1 1 = 0 then { subs := [(1, 1, [0, 1])], a := .reg } else { subs := [(1, 1, [0, 1])], a := .reg, b := .reg })
  | 0x87 => some { fi := .either, dst := .reg, b := .reg }
  | 0x88 => some { subs := [(1, 3, [2, 3, 4])] }
  | 0x89 => some { fi := .either, b := .reg }
  | 0x90 => some { tys := [0, 1, 2, 3], subs := [(2, 3, [0, 1, 2, 3, 4, 5])], dst := .reg, a := .reg, b := .reg, c := .const (fun v => v < 7), claim := .always }
  | 0x91 => some { tys := [0, 1, 2, 3], subs := [(2, 3, [0, 1, 2, 3, 4, 5])], dst := .reg, a := .reg, b := .reg, c := .reg, claim := .always }
  | 0x92 => some { tys := [0, 1, 2, 3, 5, 4], subs := [(2, 3, [0, 1, 2, 3, 4, 5])], a := .reg, b := .reg, c := .const (fun v => v < 7), also5 := redOk }
  | 0x93 => some { tys := [0, 1], subs := [(2, 3, [0, 1, 2, 3, 4, 5])], dst := .reg, a := .reg, b := .named, c := .const vopListed }
  | 0x94 => some { tys := [5, 4], subs := [(2, 3, [0, 1, 2, 3, 4, 5])], dst := .reg, a := .reg, b := .reg, c := .const (fun v => v < 3), claim := .always }
  | 0x95 => some { tys := [0, 1], subs := [(2, 3, [0, 1, 2, 3, 4, 5, 6, 7])], dst := .reg, a := .reg, b := .reg, c := .reg, claim := .always }
  | 0xA0 => some (if mf r 2 1 = 0 then { subs := [(3, 6, [0, 1, 2, 3, 4, 5, 6, 7, 8, 9, 10, 11, 12, 13, 14, 15, 16, 17, 18, 19, 20, 21, 22, 23, 24, 25, 26, 27, 28, 29, 30, 31, 32, 33, 34, 35, 36, 37, 38, 39, 40, 41, 42, 43, 44, 45, 46, 47, 48, 49, 50, 51, 52, 53, 54, 55, 56, 57, 58, 59, 60, 61, 62, 63]), (0, 2, [0, 1, 2]), (2, 1, [0, 1])], dst := .reg, a := .named, b := .reg, c := .named } else { subs := [(3, 6, [0, 1, 2, 3, 4, 5, 6, 7, 8, 9, 10, 11, 12, 13, 14, 15, 16, 17, 18, 19, 20, 21, 22, 23, 24, 25, 26, 27, 28, 29, 30, 31, 32, 33, 34, 35, 36, 37, 38, 39, 40, 41, 42, 43, 44, 45, 46, 47, 48, 49, 50, 51, 52, 53, 54, 55, 56, 57, 58, 59, 60, 61, 62, 63]), (0, 2, [0, 1, 2]), (2, 1, [0, 1])], dst := .reg, a := .reg, b := .reg, c := .named })
  | 0xA1 => some (if mf r 2 1 = 0 then { subs := [(3, 6, [0, 1, 2, 3, 4, 5, 6, 7, 8, 9, 10, 11, 12, 13, 14, 15, 16, 17, 18, 19, 20, 21, 22, 23, 24, 25, 26, 27, 28, 29, 30, 31, 32, 33, 34, 35, 36, 37, 38, 39, 40, 41, 42, 43, 44, 45, 46, 47, 48, 49, 50, 51, 52, 53, 54, 55, 56, 57, 58, 59, 60, 61, 62, 63]), (0, 2, [0, 1, 2]), (2, 1, [0, 1])], dst := .reg, a := .named, b := .reg, c := .reg } else { subs := [(3, 6, [0, 1, 2, 3, 4, 5, 6, 7, 8, 9, 10, 11, 12, 13, 14, 15, 16, 17, 18, 19, 20, 21, 22, 23, 24, 25, 26, 27, 28, 29, 30, 31, 32, 33, 34, 35, 36, 37, 38, 39, 40, 41, 42, 43, 44, 45, 46, 47, 48, 49, 50, 51, 52, 53, 54, 55, 56, 57, 58, 59, 60, 61, 62, 63]), (0, 2, [0, 1, 2]), (2, 1, [0, 1])], dst := .reg, a := .reg, b := .reg, c := .reg })
  | 0xA2 => some { subs := [(0, 2, [0, 1, 2])], dst := .reg, a := .reg, b := .named, c := .named }
  | 0xA3 => some { subs := [(0, 2, [0, 1, 2])], dst := .reg, a := .reg, b := .named, c := .reg }
  | 0xA4 => some { subs := [(1, 1, [0, 1])], dst := .reg, a := .reg }
  | 0xA5 => some { a := .reg }
  | 0xA6 => some { dst := .reg, a := .reg, c := .named }
  | 0xB0 => some { dst := .reg, a := .named, claim := .always }
  | 0xB1 => some { a := .reg, b := .named }
  | 0xB2 => some { subs := [(1, 1, [0, 1])], dst := .reg, a := .named, claim := .always }
  | 0xB3 => some { dst := .reg, claim := .always }
  | 0xB4 => some { dst := .reg, claim := .always }
  | 0xB5 => some { dst := .reg, a := .reg }
  | 0xC0 => some { subs := [(1, 1, [0, 1])], dst := .reg, a := .reg, claim := .always }
  | 0xC1 => some { subs := [(1, 1, [0, 1])], a := .reg }
  | 0xC2 => some { a := .reg, b := .reg }
  | 0xC3 => some (if mf r 1 1 = 0 then { subs := [(1, 1, [0, 1])], dst := .reg, a := .reg, claim := .always } else { subs := [(1, 1, [0, 1])], dst := .reg, claim := .always })
  | 0xC4 => some { dst := .reg, a := .reg, claim := .always }
  | 0xC5 => some { tys := [1, 3], a := .reg, b := .reg }
  | 0xC6 => some { dst := .reg, a := .reg, claim := .always }
  | 0xC7 => some { subs := [(1, 1, [0, 1])], dst := .reg, a := .reg, claim := .always }
  | 0xC8 => some { dst := .reg, a := .reg, claim := .always }
  | 0xC9 => some { dst := .reg, claim := .always }
  | 0xCA => some { dst := .reg, claim := .always }
  | 0xCB => some { dst := .reg, claim := .always }
  | 0xD0 => some { subs := [(1, 4, [0, 1, 2, 3, 4, 5, 6, 7, 8, 9, 10, 11, 12, 13, 14, 15])], dst := .reg, a := .named, b := .reg, c := .named, claim := .always }
  | 0xD1 => some { subs := [(1, 1, [0, 1])], dst := .reg }
  | 0xD2 => some { subs := [(1, 1, [0, 1])], dst := .reg, a := .reg }
  | 0xD3 => some { subs := [(1, 1, [0, 1])], dst := .reg, a := .reg }
  | 0xD4 => some { subs := [(1, 4, [0, 1, 2, 3, 4, 5, 6, 7, 8, 9, 10, 11, 12, 13, 14, 15])], dst := .reg, b := .reg, c := .named, claim := .always }
  | 0xD5 => some { dst := .reg, b := .reg, c := .reg, claim := .always }
  | 0xD6 => some { a := .reg, b := .reg, c := .reg }
  | 0xD7 => some { }
  | 0xE0 => some { tys := [1, 3], dst := .reg, a := .const sysListed, claim := .always }
  | 0xE1 => some { tys := [1, 3], a := .const sysListed, b := .reg }
  | 0xE2 => some { fi := .either, b := .reg }
  | 0xE3 => some { fi := .either, b := .reg }
  | 0xE4 => some { a := .reg }
  | 0xE5 => some { dst := .reg, a := .reg, claim := .always }
  | 0xE6 => some { dst := .reg, a := .reg }
  | 0xE7 => some { dst := .reg, claim := .always }
  | 0xE8 => some { fi := .either, dst := .reg, b := .reg }
  | 0xE9 => some { subs := [(1, 1, [0, 1])], dst := .reg, a := .reg, b := .reg, c := .reg }
  | _ => none

def psetOf (r : Raw) : PsetOp :=
  match mf r 1 4 with
  | 0 => .and (r.dst.setWidth 3) (r.a.setWidth 3) (r.b.setWidth 3)
  | 1 => .or (r.dst.setWidth 3) (r.a.setWidth 3) (r.b.setWidth 3)
  | 2 => .xor (r.dst.setWidth 3) (r.a.setWidth 3) (r.b.setWidth 3)
  | 3 => .andn (r.dst.setWidth 3) (r.a.setWidth 3) (r.b.setWidth 3)
  | 4 => .nz (r.dst.setWidth 3) (srcA r)
  | 5 => .save r.dst
  | _ => .load (srcA r)
def voteOf (r : Raw) : VoteOp × BitVec 3 :=
  (match mf r 1 4 with
    | 0 => .any (r.dst.setWidth 3)
    | 1 => .all (r.dst.setWidth 3)
    | 2 => .uni (r.dst.setWidth 3)
    | _ => .ballot r.dst, r.a.setWidth 3)
def fstatOf (r : Raw) : FstatOp :=
  match mf r 1 2 with
  | 0 => .read
  | 1 => .clr (srcBi r)
  | _ => .set (srcBi r)
def ncvtOf (r : Raw) : NcvtOp :=
  if bit r.minor 0 then .dn (RMode.ofCode (mf r 2 3)) (bit r.minor 1) (srcA r) else .up (srcA r)
def marmOf (r : Raw) : MarmOp := if bit r.minor 1 then .w (srcA r) (srcB r) else .g (srcA r)

/-- The instruction a checked full-form word stands for (R77 and the encoding tables). -/
def build (r : Raw) (ext : DWord) : Instr :=
  match r.major.toNat with
  | 0x00 => .nop (hdr r)
  | 0x02 => .brx (hdr r) (tyF r) (srcA r) (srcB r)
  | 0x04 => .callx (hdr r) r.dst ext
  | 0x05 => .ret (hdr r) (tyF r) (srcA r)
  | 0x06 => .exit (hdr r)
  | 0x07 => .yield (hdr r)
  | 0x08 => if bit r.minor 1 then .sleepP (hdr r) (srcA r) else .sleep (hdr r) (srcAi r)
  | 0x09 => .cancp (hdr r)
  | 0x0A => .trap (hdr r) (srcBi r)
  | 0x0B => .tret (hdr r)
  | 0x0C => .tfence (hdr r)
  | 0x10 => .iadd (hdr r) (tyF r) (bit r.minor 1) r.dst (srcA r) (srcBi r)
  | 0x11 => .isub (hdr r) (tyF r) (bit r.minor 1) r.dst (srcA r) (srcBi r)
  | 0x12 => .imul (hdr r) (tyF r) (bit r.minor 1) r.dst (srcA r) (srcBi r)
  | 0x13 => .imad (hdr r) (tyF r) (bit r.minor 1) r.dst (srcA r) (srcB r) (srcC r)
  | 0x14 => .idiv (hdr r) (tyF r) (bit r.minor 1) r.dst (srcA r) (srcBi r)
  | 0x15 => .iabs (hdr r) (tyF r) (bit r.minor 1) r.dst (srcA r)
  | 0x16 => .imin (hdr r) (tyF r) r.dst (srcA r) (srcBi r)
  | 0x17 => .imax (hdr r) (tyF r) r.dst (srcA r) (srcBi r)
  | 0x18 => .and (hdr r) (tyF r) (bit r.minor 1) r.dst (srcA r) (srcBi r)
  | 0x19 => .or (hdr r) (tyF r) (bit r.minor 1) r.dst (srcA r) (srcBi r)
  | 0x1A => .xor (hdr r) (tyF r) (bit r.minor 1) r.dst (srcA r) (srcBi r)
  | 0x1B => .shl (hdr r) (tyF r) r.dst (srcA r) (srcBi r)
  | 0x1C => .shr (hdr r) (tyF r) r.dst (srcA r) (srcBi r)
  | 0x1D => .sar (hdr r) (tyF r) r.dst (srcA r) (srcBi r)
  | 0x1E => .rot (hdr r) (tyF r) r.dst (srcA r) (srcBi r)
  | 0x1F => .bfe (hdr r) (tyF r) r.dst (srcA r) (srcBi r)
  | 0x20 => .bfi (hdr r) (tyF r) r.dst (srcA r) (srcB r) (srcC r)
  | 0x21 => .popc (hdr r) (tyF r) r.dst (srcA r)
  | 0x22 => .clz (hdr r) (tyF r) r.dst (srcA r)
  | 0x23 => .brev (hdr r) (tyF r) r.dst (srcA r)
  | 0x24 => .prmt (hdr r) (tyF r) r.dst (srcA r) (srcB r) (srcC r)
  | 0x25 => .isel (hdr r) (tyF r) (r.minor.extractLsb' 2 3) (bit r.minor 1) r.dst (srcA r) (srcBi r)
  | 0x26 => .icmp (hdr r) (tyF r) (ICond.ofCode (mf r 1 4)) (r.dst.setWidth 3) (srcA r) (srcBi r)
  | 0x27 => .pset (hdr r) (psetOf r)
  | 0x28 => .vote (hdr r) (voteOf r).1 (voteOf r).2
  | 0x29 => .mov (hdr r) (tyF r) r.dst (srcAi r)
  | 0x2A => .movi (hdr r) (tyF r) r.dst ext
  | 0x2B => .sreg (hdr r) (tyF r) r.dst (SregName.ofCode r.a.toNat)
  | 0x2C => .lea (hdr r) (tyF r) (r.minor.extractLsb' 1 4) r.dst (srcA r) (srcBi r)
  | 0x30 => .fadd (hdr r) (tyF r) (RMode.ofCode (mf r 2 3)) (bit r.minor 1) r.dst (srcA r) (srcB r)
  | 0x31 => .fsub (hdr r) (tyF r) (RMode.ofCode (mf r 2 3)) (bit r.minor 1) r.dst (srcA r) (srcB r)
  | 0x32 => .fmul (hdr r) (tyF r) (RMode.ofCode (mf r 2 3)) (bit r.minor 1) r.dst (srcA r) (srcB r)
  | 0x33 => .ffma (hdr r) (tyF r) (RMode.ofCode (mf r 2 3)) (bit r.minor 1) r.dst (srcA r) (srcB r) (srcC r)
  | 0x34 => .fmin (hdr r) (tyF r) (bit r.minor 2) (bit r.minor 1) r.dst (srcA r) (srcB r)
  | 0x35 => .fmax (hdr r) (tyF r) (bit r.minor 2) (bit r.minor 1) r.dst (srcA r) (srcB r)
  | 0x36 => .fcmp (hdr r) (tyF r) (FCond.ofCode (mf r 2 3)) (bit r.minor 1) (r.dst.setWidth 3) (srcA r) (srcB r)
  | 0x37 => .fclass (hdr r) (tyF r) (bit r.minor 1) r.dst (srcA r)
  | 0x38 => .fdiv (hdr r) (tyF r) (RMode.ofCode (mf r 2 3)) (bit r.minor 1) r.dst (srcA r) (srcB r)
  | 0x39 => .fsqrt (hdr r) (tyF r) (RMode.ofCode (mf r 2 3)) (bit r.minor 1) r.dst (srcA r)
  | 0x3A => .frcp (hdr r) (tyF r) (bit r.minor 1) r.dst (srcA r)
  | 0x3B => .frsq (hdr r) (tyF r) (bit r.minor 1) r.dst (srcA r)
  | 0x3C => .fexp2 (hdr r) (tyF r) (bit r.minor 1) r.dst (srcA r)
  | 0x3D => .flog2 (hdr r) (tyF r) (bit r.minor 1) r.dst (srcA r)
  | 0x3E => .fsin (hdr r) (tyF r) (bit r.minor 1) r.dst (srcA r)
  | 0x3F => .fcos (hdr r) (tyF r) (bit r.minor 1) r.dst (srcA r)
  | 0x40 => .frnd (hdr r) (tyF r) (RMode.ofCode (mf r 2 3)) (bit r.minor 1) r.dst (srcA r)
  | 0x41 => .fscale (hdr r) (tyF r) (RMode.ofCode (mf r 2 3)) (bit r.minor 1) r.dst (srcA r) (srcBi r)
  | 0x42 => .fxtr (hdr r) (tyF r) (bit r.minor 2) (bit r.minor 1) r.dst (srcA r)
  | 0x43 => .fcvt (hdr r) (tyF r) (RMode.ofCode (mf r 2 3)) (bit r.minor 1) (bit r.minor 0) r.dst (srcA r) (Ty.ofCode r.b.toNat)
  | 0x44 => .f2i (hdr r) (tyF r) (RMode.ofCode (mf r 2 3)) (bit r.minor 1) r.dst (srcA r) (Ty.ofCode r.b.toNat)
  | 0x45 => .i2f (hdr r) (tyF r) (RMode.ofCode (mf r 2 3)) r.dst (srcA r) (Ty.ofCode r.b.toNat)
  | 0x46 => .fdot2 (hdr r) (tyF r) (RMode.ofCode (mf r 2 3)) (bit r.minor 1) r.dst (srcA r) (srcB r) (srcC r)
  | 0x47 => .fstat (hdr r) (fstatOf r) r.dst
  | 0x48 => .fmode (hdr r) (srcBi r)
  | 0x50 => .dbdec (hdr r) (tyF r) (RMode.ofCode (mf r 2 3)) r.dst r.a (srcB r) (Ty.ofCode (bits r.c 3 0)) (r.c.extractLsb' 4 2)
  | 0x51 => .dbenc (hdr r) (RMode.ofCode (mf r 2 3)) (bit r.minor 1) r.dst r.a (srcB r)
  | 0x52 => .cbld (hdr r) (r.minor.extractLsb' 1 2) r.a
  | 0x53 => .cbread (hdr r) (r.minor.extractLsb' 1 2) r.dst (srcBi r)
  | 0x54 => .ncvt (hdr r) (tyF r) (ncvtOf r) r.dst
  | 0x55 => .bsum (hdr r) (tyF r) r.dst r.a (Ty.ofCode (bits r.c 3 0)) (r.c.extractLsb' 4 2)
  | 0x58 => .mtask (hdr r) r.dst r.a
  | 0x59 => .mtwait (hdr r) r.dst (srcA r)
  | 0x5A => .mtqry (hdr r) (bit r.minor 1) r.dst (srcA r)
  | 0x5B => .mdrain (hdr r) (srcA r) (srcB r)
  | 0x5C => .mfill (hdr r) (srcA r) (srcB r)
  | 0x5D => .mfreeze (hdr r) (srcA r)
  | 0x5E => .mthaw (hdr r) (srcA r)
  | 0x60 => .rdx (hdr r) (tyF r) r.dst r.a (srcB r)
  | 0x61 => .wrx (hdr r) (tyF r) r.dst (srcA r) (srcB r)
  | 0x62 => .take (hdr r) (tyF r) r.dst r.a
  | 0x63 => .give (hdr r) (tyF r) r.dst (srcA r)
  | 0x64 => .tagset (hdr r) (TagState.ofCode (mf r 1 2)) r.dst (srcBi r)
  | 0x65 => .tagq (hdr r) r.dst r.a (immField r)
  | 0x66 => .wexp (hdr r) ⟨bit r.minor 5, bit r.minor 6, bit r.minor 7, bit r.minor 8⟩ (bit r.minor 1) r.dst r.a (srcBi r)
  | 0x67 => .wrev (hdr r) (srcA r)
  | 0x68 => .wld (hdr r) (tyF r) r.dst (srcA r) (srcBi r)
  | 0x69 => .wst (hdr r) (tyF r) (srcA r) (srcB r) (srcC r)
  | 0x6A => .wtake (hdr r) (tyF r) r.dst (srcA r) (srcBi r)
  | 0x6B => .wgive (hdr r) (tyF r) (srcA r) (srcB r) (srcC r)
  | 0x6C => .lnrd (hdr r) (tyF r) r.dst (srcA r) r.b
  | 0x6D => .lnwr (hdr r) (tyF r) r.dst (srcA r) (srcB r)
  | 0x6E => .mcast (hdr r) (tyF r) r.dst (srcA r) (srcB r) (srcC r)
  | 0x70 => .ldg (hdr r) (tyF r) (MemOrd.ofCode (mf r 2 3)) (Atomicity.ofCode (mf r 0 2)) r.dst (srcA r)
  | 0x71 => .stg (hdr r) (tyF r) (MemOrd.ofCode (mf r 2 3)) (Atomicity.ofCode (mf r 0 2)) (srcA r) (srcB r)
  | 0x72 => .ldf (hdr r) (tyF r) (MemOrd.ofCode (mf r 2 3)) (Atomicity.ofCode (mf r 0 2)) r.dst (srcA r)
  | 0x73 => .stf (hdr r) (tyF r) (MemOrd.ofCode (mf r 2 3)) (Atomicity.ofCode (mf r 0 2)) (srcA r) (srcB r)
  | 0x74 => .ldh (hdr r) (tyF r) (MemOrd.ofCode (mf r 2 3)) (Atomicity.ofCode (mf r 0 2)) r.dst (srcA r)
  | 0x75 => .sth (hdr r) (tyF r) (MemOrd.ofCode (mf r 2 3)) (Atomicity.ofCode (mf r 0 2)) (srcA r) (srcB r)
  | 0x76 => .waitq (hdr r) (bit r.minor 1) (srcBi r)
  | 0x80 => .binit (hdr r) (Scope.ofCode (mf r 1 3)) r.dst (srcBi r)
  | 0x81 => if bit r.minor 1 then .barrGrp (hdr r) else .barr (hdr r) r.dst (srcA r) (srcB r)
  | 0x82 => .bwait (hdr r) (srcA r) (srcB r) (srcC r)
  | 0x83 => .bxfer (hdr r) (bit r.minor 1) (srcA r) (srcB r) (srcC r)
  | 0x84 => .fence (hdr r) (FenceKind.ofCode (mf r 7 2)) (Scope.ofCode (mf r 1 3))
  | 0x85 => .fencesc (hdr r)
  | 0x86 => .marm (hdr r) (marmOf r)
  | 0x87 => .mwait (hdr r) r.dst (srcBi r)
  | 0x88 => .wbar (hdr r) (Scope.ofCode (mf r 1 3))
  | 0x89 => .hbwait (hdr r) (srcBi r)
  | 0x90 => .atom (hdr r) (tyF r) (MemOrd.ofCode (mf r 2 3)) r.dst (srcA r) (srcB r) (AtomOp.ofCode r.c.toNat)
  | 0x91 => .acas (hdr r) (tyF r) (MemOrd.ofCode (mf r 2 3)) r.dst (srcA r) (srcB r) (srcC r)
  | 0x92 => .red (hdr r) (tyF r) (MemOrd.ofCode (mf r 2 3)) (srcA r) (srcB r) (AtomOp.ofCode r.c.toNat)
  | 0x93 => .vatom (hdr r) (tyF r) (MemOrd.ofCode (mf r 2 3)) r.dst (srcA r) r.b (AtomOp.ofCode (bits r.c 3 0)) (r.c.extractLsb' 4 5)
  | 0x94 => .fatom (hdr r) (tyF r) (MemOrd.ofCode (mf r 2 3)) r.dst (srcA r) (srcB r) (AtomOp.ofCode r.c.toNat)
  | 0x95 => .atomw (hdr r) (tyF r) (AtomOp.ofCode (mf r 2 3)) r.dst (srcA r) (srcB r) (srcC r)
  | 0xA0 => .acopy (hdr r) (r.minor.extractLsb' 3 6) (Space.ofCode (mf r 0 2)) r.dst (if bit r.minor 2 then .win (srcA r) else .own r.a) (srcB r) r.c
  | 0xA1 => .awrite (hdr r) (r.minor.extractLsb' 3 6) (Space.ofCode (mf r 0 2)) r.dst (if bit r.minor 2 then .win (srcA r) else .own r.a) (srcB r) (srcC r)
  | 0xA2 => .bcopy (hdr r) (Space.ofCode (mf r 0 2)) r.dst (srcA r) r.b r.c ext
  | 0xA3 => .bstore (hdr r) (Space.ofCode (mf r 0 2)) r.dst (srcA r) r.b (srcC r) ext
  | 0xA4 => .acq (hdr r) (bit r.minor 1) r.dst (srcA r)
  | 0xA5 => .publish (hdr r) (srcA r)
  | 0xA6 => .wopen (hdr r) r.dst (srcA r) r.c
  | 0xB0 => .launch (hdr r) r.dst r.a ext
  | 0xB1 => .qpush (hdr r) (srcA r) r.b
  | 0xB2 => if bit r.minor 1 then .qpopH (hdr r) r.dst r.a else .qpop (hdr r) r.dst r.a
  | 0xB3 => .qdepth (hdr r) r.dst
  | 0xB4 => .qsteal (hdr r) r.dst
  | 0xB5 => .lwait (hdr r) r.dst (srcA r)
  | 0xC0 => .hold (hdr r) (bit r.minor 1) r.dst (srcA r)
  | 0xC1 => if bit r.minor 1 then .hfreeTask (hdr r) (srcA r) else .hfree (hdr r) (srcA r)
  | 0xC2 => .heir (hdr r) (srcA r) (srcB r)
  | 0xC3 => if bit r.minor 1 then .hconveyAll (hdr r) r.dst else .hconvey (hdr r) r.dst (srcA r)
  | 0xC4 => .prom (hdr r) r.dst (srcA r)
  | 0xC5 => .keep (hdr r) (tyF r) (srcA r) (srcB r)
  | 0xC6 => .pwait (hdr r) r.dst (srcA r)
  | 0xC7 => if bit r.minor 1 then .estqRec (hdr r) r.dst (srcA r) else .estq (hdr r) r.dst (srcA r)
  | 0xC8 => .sibpost (hdr r) r.dst (srcA r)
  | 0xC9 => .sibq (hdr r) r.dst
  | 0xCA => .sibwait (hdr r) r.dst
  | 0xCB => .sibacct (hdr r) r.dst
  | 0xD0 => .kvcopy (hdr r) (r.minor.extractLsb' 1 4) r.dst r.a (srcB r) r.c
  | 0xD1 => .pgalloc (hdr r) (bit r.minor 1) r.dst
  | 0xD2 => .pgfree (hdr r) (bit r.minor 1) r.dst (srcA r)
  | 0xD3 => .pgref (hdr r) (bit r.minor 1) r.dst (srcA r)
  | 0xD4 => .tierin (hdr r) (r.minor.extractLsb' 1 4) r.dst (srcB r) r.c
  | 0xD5 => .tierq (hdr r) r.dst (srcB r) (srcC r)
  | 0xD6 => .invr (hdr r) (srcA r) (srcB r) (srcC r)
  | 0xD7 => .invwait (hdr r)
  | 0xE0 => if sysIsLog r.a then .srdLogPop (hdr r) (tyF r) r.dst (LogReg.ofCode r.a.toNat) else .srd (hdr r) (tyF r) r.dst (SysReg.ofCode r.a.toNat)
  | 0xE1 => if sysIsLog r.a then .swrLogClear (hdr r) (tyF r) (LogReg.ofCode r.a.toNat) (srcB r) else if r.a == 0x12 then .swrMgnInj (hdr r) (tyF r) (srcB r) else .swr (hdr r) (tyF r) (SysReg.ofCode r.a.toNat) (srcB r)
  | 0xE2 => .syscall (hdr r) (srcBi r)
  | 0xE3 => .halt (hdr r) (srcBi r)
  | 0xE4 => .quar (hdr r) (srcA r)
  | 0xE5 => .ckcut (hdr r) r.dst (srcA r)
  | 0xE6 => .ckwait (hdr r) r.dst (srcA r)
  | 0xE7 => .evpop (hdr r) r.dst
  | 0xE8 => .evwait (hdr r) r.dst (srcBi r)
  | 0xE9 => .csave (hdr r) (bit r.minor 1) r.dst (srcA r) (srcB r) (srcC r)
  | _ => .nop (hdr r)

/-- The opcodes that take an extension word (R65). -/
def isXMajor (m : Nat) : Bool := [0x04, 0x2A, 0xA2, 0xA3, 0xB0].contains m

/-- Whether the word at the PC is the first of a 16-byte instruction (R65). -/
def isX (w : DWord) : Bool := !(bit w 63) && isXMajor (bits w 62 55)

/-- FB words (R64): OFFSET in [54:27], [26:13] reserved, MINOR zero. -/
def decodeFb (r : Raw) : Except DecErr Instr :=
  let off : BitVec 28 := (r.dst ++ BitVec.ofBool r.n ++ r.a ++ r.b).setWidth 28
  if r.minor != 0 then .error .minorOrType
  else if !(r.c == 0 && !r.la && !r.lb && !r.lc && r.retain == 0) then .error .unusedField
  else if r.major == 0x01 then .ok (.bra ⟨r.pidx, r.pinv, false, .none⟩ off)
  else .ok (.call ⟨r.pidx, r.pinv, false, .none⟩ off)

/-- A half of a pair word (R71). -/
def halfOf (h : BitVec 31) : Half where
  dst := h.extractLsb' 16 9
  src := h.extractLsb' 7 9
  pidx := h.extractLsb' 4 3
  ty := Ty.ofCode (bits h 3 0)

/-- A listed pair opcode with a type listed for it (R74). -/
def pairOpOk (h : BitVec 31) : Bool :=
  match PairOp.ofCode? (bits h 30 25) with
  | some op => op.types.contains (bits h 3 0)
  | none => false

def PairOp.isImm : PairOp → Bool
  | .movi | .iaddImm | .andImm | .shlImm | .shrImm | .sarImm | .rotImm => true
  | _ => false

def PairOp.isShiftImm : PairOp → Bool
  | .shlImm | .shrImm | .sarImm | .rotImm => true
  | _ => false

/-- The immediate rule of R74: shift and rotate counts from 0 to 31. -/
def PairHalf.immOk (p : PairHalf) : Bool := !p.op.isShiftImm || p.half.src.toNat ≤ 31

/-- The bank rule of R72. -/
def banksOk (a b : PairHalf) : Bool :=
  (bits a.half.dst 1 0 != bits b.half.dst 1 0)
  && (a.op.isImm || b.op.isImm || bits a.half.src 1 0 != bits b.half.src 1 0)

def decodePair (w : DWord) : Except DecErr Instr :=
  let ha : BitVec 31 := w.extractLsb' 31 31
  let hb : BitVec 31 := w.extractLsb' 0 31
  if !(pairOpOk ha && pairOpOk hb) then .error .pairOpcode
  else match PairOp.ofCode? (bits ha 30 25), PairOp.ofCode? (bits hb 30 25) with
    | some oa, some ob =>
      let a : PairHalf := ⟨oa, halfOf ha⟩
      let b : PairHalf := ⟨ob, halfOf hb⟩
      if !banksOk a b then .error .pairBank
      else if !(a.immOk && b.immOk) then .error .unusedField
      else .ok (pairInstr oa a.half b)
    | _, _ => .error .pairOpcode

/-- One instruction word and the word that follows it (R57, R75). -/
def decodeWord (w ext : DWord) : Except DecErr Instr :=
  if bits w 63 62 = 3 then .error .illegalForm
  else if bits w 63 62 = 2 then decodePair w
  else
    let r := Raw.ofWord w
    if r.major == 0x01 || r.major == 0x03 then decodeFb r
    else match fmtOf r with
      | none => .error .reservedMajor
      | some f =>
        match f.check r with
        | some e => .error e
        | none => .ok (build r ext)

/-- Eight bytes, the first least significant (R6). -/
def word64 : List Byte → DWord
  | [] => 0
  | b :: bs => (word64 bs) <<< 8 ||| b.setWidth 64

/-- The decoder on bytes as they lie in memory: the instruction and the bytes after it. -/
def decode (bs : List Byte) : Except DecErr (Instr × List Byte) :=
  if (bs.take 8).length < 8 then .error .truncated
  else
    let w := word64 (bs.take 8)
    let rest := bs.drop 8
    if isX w then
      if (rest.take 8).length < 8 then .error .truncated
      else (decodeWord w (word64 (rest.take 8))).map (fun i => (i, rest.drop 8))
    else (decodeWord w 0).map (fun i => (i, rest))

/-- `n` bytes of a number, least significant first (R6). -/
def leBytes : Nat → Nat → List Byte
  | 0, _ => []
  | n + 1, x => BitVec.ofNat 8 x :: leBytes n (x / 256)

/-- The bytes of an instruction's words in memory order (R57). -/
def bytesOfWords (ws : List DWord) : List Byte := ws.flatMap (fun w => leBytes 8 w.toNat)

def halfWord (p : PairHalf) : BitVec 31 :=
  (BitVec.ofNat 6 p.op.code ++ p.half.dst ++ p.half.src ++ p.half.pidx ++ BitVec.ofNat 4 p.half.ty.code).setWidth 31

def pairWord (op : PairOp) (a : Half) (b : PairHalf) : List DWord :=
  [(2#2 ++ halfWord ⟨op, a⟩ ++ halfWord b).setWidth 64]

/-- A source's field, its L bit and (for an immediate) nothing. -/
def Src.fld : Src → BitVec 9
  | .reg i => i
  | .latch k => k.setWidth 9
  | .imm _ => 0
def Src.l : Src → Bool
  | .latch _ => true
  | _ => false
def Src.isImm : Src → Bool
  | .imm _ => true
  | _ => false
def Src.immHi : Src → BitVec 9
  | .imm v => v.extractLsb' 9 9
  | s => s.fld
def Src.immLo : Src → BitVec 9
  | .imm v => v.extractLsb' 0 9
  | _ => 0

/-- A full-form word from its header, opcode, MINOR value and fields. -/
def rawWord (h : Hdr) (major minor : Nat) (dst a b c : BitVec 9) (la lb lc : Bool) : DWord :=
  Raw.toWord ⟨BitVec.ofNat 8 major, dst, h.nw, a, b, c, la, lb, lc, BitVec.ofNat 2 h.retain.code, h.pinv, h.pidx, BitVec.ofNat 9 minor⟩

def fbWord (h : Hdr) (major : Nat) (off : BitVec 28) : DWord :=
  (0#1 ++ BitVec.ofNat 8 major ++ off ++ 0#14 ++ BitVec.ofBool h.pinv ++ h.pidx ++ 0#9).setWidth 64

def PsetOp.word (h : Hdr) : PsetOp → DWord
  | .and d a b => rawWord h 0x27 0 (d.setWidth 9) (a.setWidth 9) (b.setWidth 9) 0 false false false
  | .or d a b => rawWord h 0x27 2 (d.setWidth 9) (a.setWidth 9) (b.setWidth 9) 0 false false false
  | .xor d a b => rawWord h 0x27 4 (d.setWidth 9) (a.setWidth 9) (b.setWidth 9) 0 false false false
  | .andn d a b => rawWord h 0x27 6 (d.setWidth 9) (a.setWidth 9) (b.setWidth 9) 0 false false false
  | .nz d a => rawWord h 0x27 8 (d.setWidth 9) a.fld 0 0 a.l false false
  | .save d => rawWord h 0x27 10 d 0 0 0 false false false
  | .load a => rawWord h 0x27 12 0 a.fld 0 0 a.l false false

/-- The words of an instruction, from the encoding tables; an event has none. -/
def words : Instr → List DWord
  | .nop h => [rawWord h 0x00 0 0 0 0 0 false false false]
  | .bra h off => [fbWord h 0x01 off]
  | .brx h ty a b => [rawWord h 0x02 (ty.code * 32) 0 a.fld b.fld 0 a.l b.l false]
  | .call h off => [fbWord h 0x03 off]
  | .callx h d x => [rawWord h 0x04 0 d 0 0 0 false false false, x]
  | .ret h ty a => [rawWord h 0x05 (ty.code * 32) 0 a.fld 0 0 a.l false false]
  | .exit h => [rawWord h 0x06 0 0 0 0 0 false false false]
  | .yield h => [rawWord h 0x07 0 0 0 0 0 false false false]
  | .sleep h a => [rawWord h 0x08 (a.isImm.toNat) 0 a.fld (if a.isImm then a.immHi else 0) a.immLo a.l false false]
  | .sleepP h a => [rawWord h 0x08 (2) 0 a.fld 0 0 a.l false false]
  | .cancp h => [rawWord h 0x09 0 0 0 0 0 false false false]
  | .trap h b => [rawWord h 0x0A (b.isImm.toNat) 0 0 b.immHi b.immLo false b.l false]
  | .tret h => [rawWord h 0x0B 0 0 0 0 0 false false false]
  | .tfence h => [rawWord h 0x0C 0 0 0 0 0 false false false]
  | .iadd h ty sat d a b => [rawWord h 0x10 (ty.code * 32 + sat.toNat * 2 + b.isImm.toNat) d a.fld b.immHi b.immLo a.l b.l false]
  | .isub h ty sat d a b => [rawWord h 0x11 (ty.code * 32 + sat.toNat * 2 + b.isImm.toNat) d a.fld b.immHi b.immLo a.l b.l false]
  | .imul h ty hi d a b => [rawWord h 0x12 (ty.code * 32 + hi.toNat * 2 + b.isImm.toNat) d a.fld b.immHi b.immLo a.l b.l false]
  | .imad h ty sat d a b c => [rawWord h 0x13 (ty.code * 32 + sat.toNat * 2) d a.fld b.fld c.fld a.l b.l c.l]
  | .idiv h ty rem d a b => [rawWord h 0x14 (ty.code * 32 + rem.toNat * 2 + b.isImm.toNat) d a.fld b.immHi b.immLo a.l b.l false]
  | .iabs h ty sat d a => [rawWord h 0x15 (ty.code * 32 + sat.toNat * 2) d a.fld 0 0 a.l false false]
  | .imin h ty d a b => [rawWord h 0x16 (ty.code * 32 + b.isImm.toNat) d a.fld b.immHi b.immLo a.l b.l false]
  | .imax h ty d a b => [rawWord h 0x17 (ty.code * 32 + b.isImm.toNat) d a.fld b.immHi b.immLo a.l b.l false]
  | .and h ty nb d a b => [rawWord h 0x18 (ty.code * 32 + nb.toNat * 2 + b.isImm.toNat) d a.fld b.immHi b.immLo a.l b.l false]
  | .or h ty nb d a b => [rawWord h 0x19 (ty.code * 32 + nb.toNat * 2 + b.isImm.toNat) d a.fld b.immHi b.immLo a.l b.l false]
  | .xor h ty nb d a b => [rawWord h 0x1A (ty.code * 32 + nb.toNat * 2 + b.isImm.toNat) d a.fld b.immHi b.immLo a.l b.l false]
  | .shl h ty d a b => [rawWord h 0x1B (ty.code * 32 + b.isImm.toNat) d a.fld b.immHi b.immLo a.l b.l false]
  | .shr h ty d a b => [rawWord h 0x1C (ty.code * 32 + b.isImm.toNat) d a.fld b.immHi b.immLo a.l b.l false]
  | .sar h ty d a b => [rawWord h 0x1D (ty.code * 32 + b.isImm.toNat) d a.fld b.immHi b.immLo a.l b.l false]
  | .rot h ty d a b => [rawWord h 0x1E (ty.code * 32 + b.isImm.toNat) d a.fld b.immHi b.immLo a.l b.l false]
  | .bfe h ty d a b => [rawWord h 0x1F (ty.code * 32 + b.isImm.toNat) d a.fld b.immHi b.immLo a.l b.l false]
  | .bfi h ty d a b c => [rawWord h 0x20 (ty.code * 32) d a.fld b.fld c.fld a.l b.l c.l]
  | .popc h ty d a => [rawWord h 0x21 (ty.code * 32) d a.fld 0 0 a.l false false]
  | .clz h ty d a => [rawWord h 0x22 (ty.code * 32) d a.fld 0 0 a.l false false]
  | .brev h ty d a => [rawWord h 0x23 (ty.code * 32) d a.fld 0 0 a.l false false]
  | .prmt h ty d a b c => [rawWord h 0x24 (ty.code * 32) d a.fld b.fld c.fld a.l b.l c.l]
  | .isel h ty psel pneg d a b => [rawWord h 0x25 (ty.code * 32 + psel.toNat * 4 + pneg.toNat * 2 + b.isImm.toNat) d a.fld b.immHi b.immLo a.l b.l false]
  | .icmp h ty cond d a b => [rawWord h 0x26 (ty.code * 32 + cond.code * 2 + b.isImm.toNat) (d.setWidth 9) a.fld b.immHi b.immLo a.l b.l false]
  | .pset h op => [op.word h]
  | .vote h (.any d) a => [rawWord h 0x28 0 (d.setWidth 9) (a.setWidth 9) 0 0 false false false]
  | .vote h (.all d) a => [rawWord h 0x28 2 (d.setWidth 9) (a.setWidth 9) 0 0 false false false]
  | .vote h (.uni d) a => [rawWord h 0x28 4 (d.setWidth 9) (a.setWidth 9) 0 0 false false false]
  | .vote h (.ballot d) a => [rawWord h 0x28 6 d (a.setWidth 9) 0 0 false false false]
  | .mov h ty d a => [rawWord h 0x29 (ty.code * 32 + a.isImm.toNat) d a.fld (if a.isImm then a.immHi else 0) a.immLo a.l false false]
  | .movi h ty d x => [rawWord h 0x2A (ty.code * 32) d 0 0 0 false false false, x]
  | .sreg h ty d sel => [rawWord h 0x2B (ty.code * 32) d (BitVec.ofNat 9 sel.code) 0 0 false false false]
  | .lea h ty shift d a b => [rawWord h 0x2C (ty.code * 32 + shift.toNat * 2 + b.isImm.toNat) d a.fld b.immHi b.immLo a.l b.l false]
  | .fadd h ty rm ftz d a b => [rawWord h 0x30 (ty.code * 32 + rm.code * 4 + ftz.toNat * 2) d a.fld b.fld 0 a.l b.l false]
  | .fsub h ty rm ftz d a b => [rawWord h 0x31 (ty.code * 32 + rm.code * 4 + ftz.toNat * 2) d a.fld b.fld 0 a.l b.l false]
  | .fmul h ty rm ftz d a b => [rawWord h 0x32 (ty.code * 32 + rm.code * 4 + ftz.toNat * 2) d a.fld b.fld 0 a.l b.l false]
  | .ffma h ty rm ftz d a b c => [rawWord h 0x33 (ty.code * 32 + rm.code * 4 + ftz.toNat * 2) d a.fld b.fld c.fld a.l b.l c.l]
  | .fmin h ty num ftz d a b => [rawWord h 0x34 (ty.code * 32 + num.toNat * 4 + ftz.toNat * 2) d a.fld b.fld 0 a.l b.l false]
  | .fmax h ty num ftz d a b => [rawWord h 0x35 (ty.code * 32 + num.toNat * 4 + ftz.toNat * 2) d a.fld b.fld 0 a.l b.l false]
  | .fcmp h ty cond ftz d a b => [rawWord h 0x36 (ty.code * 32 + cond.code * 4 + ftz.toNat * 2) (d.setWidth 9) a.fld b.fld 0 a.l b.l false]
  | .fclass h ty ftz d a => [rawWord h 0x37 (ty.code * 32 + ftz.toNat * 2) d a.fld 0 0 a.l false false]
  | .fdiv h ty rm ftz d a b => [rawWord h 0x38 (ty.code * 32 + rm.code * 4 + ftz.toNat * 2) d a.fld b.fld 0 a.l b.l false]
  | .fsqrt h ty rm ftz d a => [rawWord h 0x39 (ty.code * 32 + rm.code * 4 + ftz.toNat * 2) d a.fld 0 0 a.l false false]
  | .frcp h ty ftz d a => [rawWord h 0x3A (ty.code * 32 + ftz.toNat * 2) d a.fld 0 0 a.l false false]
  | .frsq h ty ftz d a => [rawWord h 0x3B (ty.code * 32 + ftz.toNat * 2) d a.fld 0 0 a.l false false]
  | .fexp2 h ty ftz d a => [rawWord h 0x3C (ty.code * 32 + ftz.toNat * 2) d a.fld 0 0 a.l false false]
  | .flog2 h ty ftz d a => [rawWord h 0x3D (ty.code * 32 + ftz.toNat * 2) d a.fld 0 0 a.l false false]
  | .fsin h ty ftz d a => [rawWord h 0x3E (ty.code * 32 + ftz.toNat * 2) d a.fld 0 0 a.l false false]
  | .fcos h ty ftz d a => [rawWord h 0x3F (ty.code * 32 + ftz.toNat * 2) d a.fld 0 0 a.l false false]
  | .frnd h ty rm ftz d a => [rawWord h 0x40 (ty.code * 32 + rm.code * 4 + ftz.toNat * 2) d a.fld 0 0 a.l false false]
  | .fscale h ty rm ftz d a b => [rawWord h 0x41 (ty.code * 32 + rm.code * 4 + ftz.toNat * 2 + b.isImm.toNat) d a.fld b.immHi b.immLo a.l b.l false]
  | .fxtr h ty man ftz d a => [rawWord h 0x42 (ty.code * 32 + man.toNat * 4 + ftz.toNat * 2) d a.fld 0 0 a.l false false]
  | .fcvt h ty rm ftz sat d a sty => [rawWord h 0x43 (ty.code * 32 + rm.code * 4 + ftz.toNat * 2 + sat.toNat * 1) d a.fld (BitVec.ofNat 9 sty.code) 0 a.l false false]
  | .f2i h ty rm ftz d a sty => [rawWord h 0x44 (ty.code * 32 + rm.code * 4 + ftz.toNat * 2) d a.fld (BitVec.ofNat 9 sty.code) 0 a.l false false]
  | .i2f h ty rm d a sty => [rawWord h 0x45 (ty.code * 32 + rm.code * 4) d a.fld (BitVec.ofNat 9 sty.code) 0 a.l false false]
  | .fdot2 h ty rm ftz d a b c => [rawWord h 0x46 (ty.code * 32 + rm.code * 4 + ftz.toNat * 2) d a.fld b.fld c.fld a.l b.l c.l]
  | .fstat h .read d => [rawWord h 0x47 0 d 0 0 0 false false false]
  | .fstat h (.clr b) d => [rawWord h 0x47 (2 + b.isImm.toNat) d 0 b.immHi b.immLo false b.l false]
  | .fstat h (.set b) d => [rawWord h 0x47 (4 + b.isImm.toNat) d 0 b.immHi b.immLo false b.l false]
  | .fmode h b => [rawWord h 0x48 (b.isImm.toNat) 0 0 b.immHi b.immLo false b.l false]
  | .dbdec h ty rm d a b fam slot => [rawWord h 0x50 (ty.code * 32 + rm.code * 4) d a b.fld (BitVec.ofNat 9 (slot.toNat * 16 + fam.code)) false b.l false]
  | .dbenc h rm sat d a b => [rawWord h 0x51 (rm.code * 4 + sat.toNat * 2) d a b.fld 0 false b.l false]
  | .cbld h slot a => [rawWord h 0x52 (slot.toNat * 2) 0 a 0 0 false false false]
  | .cbread h slot d b => [rawWord h 0x53 (slot.toNat * 2 + b.isImm.toNat) d 0 b.immHi b.immLo false b.l false]
  | .ncvt h ty (.up a) d => [rawWord h 0x54 (ty.code * 32) d a.fld 0 0 a.l false false]
  | .ncvt h ty (.dn rm sat a) d => [rawWord h 0x54 (ty.code * 32 + rm.code * 4 + sat.toNat * 2 + 1) d a.fld 0 0 a.l false false]
  | .bsum h ty d a fam slot => [rawWord h 0x55 (ty.code * 32) d a 0 (BitVec.ofNat 9 (slot.toNat * 16 + fam.code)) false false false]
  | .mtask h d a => [rawWord h 0x58 0 d a 0 0 false false false]
  | .mtwait h d a => [rawWord h 0x59 0 d a.fld 0 0 a.l false false]
  | .mtqry h eng d a => [rawWord h 0x5A (eng.toNat * 2) d a.fld 0 0 a.l false false]
  | .mdrain h a b => [rawWord h 0x5B 0 0 a.fld b.fld 0 a.l b.l false]
  | .mfill h a b => [rawWord h 0x5C 0 0 a.fld b.fld 0 a.l b.l false]
  | .mfreeze h a => [rawWord h 0x5D 0 0 a.fld 0 0 a.l false false]
  | .mthaw h a => [rawWord h 0x5E 0 0 a.fld 0 0 a.l false false]
  | .rdx h ty d a b => [rawWord h 0x60 (ty.code * 32) d a b.fld 0 false b.l false]
  | .wrx h ty d a b => [rawWord h 0x61 (ty.code * 32) d a.fld b.fld 0 a.l b.l false]
  | .take h ty d a => [rawWord h 0x62 (ty.code * 32) d a 0 0 false false false]
  | .give h ty d a => [rawWord h 0x63 (ty.code * 32) d a.fld 0 0 a.l false false]
  | .tagset h st d b => [rawWord h 0x64 (st.code * 2 + b.isImm.toNat) d 0 b.immHi b.immLo false b.l false]
  | .tagq h d a n => [rawWord h 0x65 (1) d a (n.extractLsb' 9 9) (n.extractLsb' 0 9) false false false]
  | .wexp h rights clus d a b => [rawWord h 0x66 (rights.r.toNat * 32 + rights.w.toNat * 64 + rights.t.toNat * 128 + rights.g.toNat * 256 + clus.toNat * 2 + b.isImm.toNat) d a b.immHi b.immLo false b.l false]
  | .wrev h a => [rawWord h 0x67 0 0 a.fld 0 0 a.l false false]
  | .wld h ty d a b => [rawWord h 0x68 (ty.code * 32 + b.isImm.toNat) d a.fld b.immHi b.immLo a.l b.l false]
  | .wst h ty a b c => [rawWord h 0x69 (ty.code * 32) 0 a.fld b.fld c.fld a.l b.l c.l]
  | .wtake h ty d a b => [rawWord h 0x6A (ty.code * 32 + b.isImm.toNat) d a.fld b.immHi b.immLo a.l b.l false]
  | .wgive h ty a b c => [rawWord h 0x6B (ty.code * 32) 0 a.fld b.fld c.fld a.l b.l c.l]
  | .lnrd h ty d a b => [rawWord h 0x6C (ty.code * 32) d a.fld b 0 a.l false false]
  | .lnwr h ty d a b => [rawWord h 0x6D (ty.code * 32) d a.fld b.fld 0 a.l b.l false]
  | .mcast h ty d a b c => [rawWord h 0x6E (ty.code * 32) d a.fld b.fld c.fld a.l b.l c.l]
  | .ldg h ty ord am d a => [rawWord h 0x70 (ty.code * 32 + ord.code * 4 + am.code * 1) d a.fld 0 0 a.l false false]
  | .ldf h ty ord am d a => [rawWord h 0x72 (ty.code * 32 + ord.code * 4 + am.code * 1) d a.fld 0 0 a.l false false]
  | .ldh h ty ord am d a => [rawWord h 0x74 (ty.code * 32 + ord.code * 4 + am.code * 1) d a.fld 0 0 a.l false false]
  | .stg h ty ord am a b => [rawWord h 0x71 (ty.code * 32 + ord.code * 4 + am.code * 1) 0 a.fld b.fld 0 a.l b.l false]
  | .stf h ty ord am a b => [rawWord h 0x73 (ty.code * 32 + ord.code * 4 + am.code * 1) 0 a.fld b.fld 0 a.l b.l false]
  | .sth h ty ord am a b => [rawWord h 0x75 (ty.code * 32 + ord.code * 4 + am.code * 1) 0 a.fld b.fld 0 a.l b.l false]
  | .waitq h st b => [rawWord h 0x76 (st.toNat * 2 + b.isImm.toNat) 0 0 b.immHi b.immLo false b.l false]
  | .binit h sc d b => [rawWord h 0x80 (sc.code * 2 + b.isImm.toNat) d 0 b.immHi b.immLo false b.l false]
  | .barr h d a b => [rawWord h 0x81 0 d a.fld b.fld 0 a.l b.l false]
  | .barrGrp h => [rawWord h 0x81 (2) 0 0 0 0 false false false]
  | .bwait h a b c => [rawWord h 0x82 0 0 a.fld b.fld c.fld a.l b.l c.l]
  | .bxfer h out a b c => [rawWord h 0x83 (out.toNat * 2) 0 a.fld b.fld c.fld a.l b.l c.l]
  | .fence h kind sc => [rawWord h 0x84 (kind.code * 128 + sc.code * 2) 0 0 0 0 false false false]
  | .fencesc h => [rawWord h 0x85 0 0 0 0 0 false false false]
  | .marm h (.g a) => [rawWord h 0x86 0 0 a.fld 0 0 a.l false false]
  | .marm h (.w a b) => [rawWord h 0x86 2 0 a.fld b.fld 0 a.l b.l false]
  | .mwait h d b => [rawWord h 0x87 (b.isImm.toNat) d 0 b.immHi b.immLo false b.l false]
  | .wbar h sc => [rawWord h 0x88 (sc.code * 2) 0 0 0 0 false false false]
  | .hbwait h b => [rawWord h 0x89 (b.isImm.toNat) 0 0 b.immHi b.immLo false b.l false]
  | .atom h ty ord d a b op => [rawWord h 0x90 (ty.code * 32 + ord.code * 4) d a.fld b.fld (BitVec.ofNat 9 op.code) a.l b.l false]
  | .acas h ty ord d a b c => [rawWord h 0x91 (ty.code * 32 + ord.code * 4) d a.fld b.fld c.fld a.l b.l c.l]
  | .red h ty ord a b op => [rawWord h 0x92 (ty.code * 32 + ord.code * 4) 0 a.fld b.fld (BitVec.ofNat 9 op.code) a.l b.l false]
  | .vatom h ty ord d a b op nm1 => [rawWord h 0x93 (ty.code * 32 + ord.code * 4) d a.fld b (BitVec.ofNat 9 (nm1.toNat * 16 + op.code)) a.l false false]
  | .fatom h ty ord d a b op => [rawWord h 0x94 (ty.code * 32 + ord.code * 4) d a.fld b.fld (BitVec.ofNat 9 op.code) a.l b.l false]
  | .atomw h ty op d a b c => [rawWord h 0x95 (ty.code * 32 + op.code * 4) d a.fld b.fld c.fld a.l b.l c.l]
  | .acopy h nm1 sp d (.own base) b c => [rawWord h 0xA0 (nm1.toNat * 8 + sp.code) d base b.fld c false b.l false]
  | .acopy h nm1 sp d (.win a) b c => [rawWord h 0xA0 (nm1.toNat * 8 + 4 + sp.code) d a.fld b.fld c a.l b.l false]
  | .awrite h nm1 sp d (.own base) b c => [rawWord h 0xA1 (nm1.toNat * 8 + sp.code) d base b.fld c.fld false b.l c.l]
  | .awrite h nm1 sp d (.win a) b c => [rawWord h 0xA1 (nm1.toNat * 8 + 4 + sp.code) d a.fld b.fld c.fld a.l b.l c.l]
  | .bcopy h sp d a b c x => [rawWord h 0xA2 (sp.code * 1) d a.fld b c a.l false false, x]
  | .bstore h sp d a b c x => [rawWord h 0xA3 (sp.code * 1) d a.fld b c.fld a.l false c.l, x]
  | .acq h nt d a => [rawWord h 0xA4 (nt.toNat * 2) d a.fld 0 0 a.l false false]
  | .publish h a => [rawWord h 0xA5 0 0 a.fld 0 0 a.l false false]
  | .wopen h d a c => [rawWord h 0xA6 0 d a.fld 0 c a.l false false]
  | .launch h d a x => [rawWord h 0xB0 0 d a 0 0 false false false, x]
  | .qpush h a b => [rawWord h 0xB1 0 0 a.fld b 0 a.l false false]
  | .qpop h d a => [rawWord h 0xB2 0 d a 0 0 false false false]
  | .qpopH h d a => [rawWord h 0xB2 (2) d a 0 0 false false false]
  | .qdepth h d => [rawWord h 0xB3 0 d 0 0 0 false false false]
  | .qsteal h d => [rawWord h 0xB4 0 d 0 0 0 false false false]
  | .lwait h d a => [rawWord h 0xB5 0 d a.fld 0 0 a.l false false]
  | .hold h try_ d a => [rawWord h 0xC0 (try_.toNat * 2) d a.fld 0 0 a.l false false]
  | .hfree h a => [rawWord h 0xC1 0 0 a.fld 0 0 a.l false false]
  | .hfreeTask h a => [rawWord h 0xC1 (2) 0 a.fld 0 0 a.l false false]
  | .heir h a b => [rawWord h 0xC2 0 0 a.fld b.fld 0 a.l b.l false]
  | .hconvey h d a => [rawWord h 0xC3 0 d a.fld 0 0 a.l false false]
  | .hconveyAll h d => [rawWord h 0xC3 (2) d 0 0 0 false false false]
  | .prom h d a => [rawWord h 0xC4 0 d a.fld 0 0 a.l false false]
  | .keep h ty a b => [rawWord h 0xC5 (ty.code * 32) 0 a.fld b.fld 0 a.l b.l false]
  | .pwait h d a => [rawWord h 0xC6 0 d a.fld 0 0 a.l false false]
  | .estq h d a => [rawWord h 0xC7 0 d a.fld 0 0 a.l false false]
  | .estqRec h d a => [rawWord h 0xC7 (2) d a.fld 0 0 a.l false false]
  | .sibpost h d a => [rawWord h 0xC8 0 d a.fld 0 0 a.l false false]
  | .sibq h d => [rawWord h 0xC9 0 d 0 0 0 false false false]
  | .sibwait h d => [rawWord h 0xCA 0 d 0 0 0 false false false]
  | .sibacct h d => [rawWord h 0xCB 0 d 0 0 0 false false false]
  | .kvcopy h nm1 d a b c => [rawWord h 0xD0 (nm1.toNat * 2) d a b.fld c false b.l false]
  | .pgalloc h t d => [rawWord h 0xD1 (t.toNat * 2) d 0 0 0 false false false]
  | .pgfree h t d a => [rawWord h 0xD2 (t.toNat * 2) d a.fld 0 0 a.l false false]
  | .pgref h t d a => [rawWord h 0xD3 (t.toNat * 2) d a.fld 0 0 a.l false false]
  | .tierin h nm1 d b c => [rawWord h 0xD4 (nm1.toNat * 2) d 0 b.fld c false b.l false]
  | .tierq h d b c => [rawWord h 0xD5 0 d 0 b.fld c.fld false b.l c.l]
  | .invr h a b c => [rawWord h 0xD6 0 0 a.fld b.fld c.fld a.l b.l c.l]
  | .invwait h => [rawWord h 0xD7 0 0 0 0 0 false false false]
  | .srd h ty d reg => [rawWord h 0xE0 (ty.code * 32) d (BitVec.ofNat 9 reg.code) 0 0 false false false]
  | .srdLogPop h ty d reg => [rawWord h 0xE0 (ty.code * 32) d (BitVec.ofNat 9 reg.code) 0 0 false false false]
  | .swr h ty reg b => [rawWord h 0xE1 (ty.code * 32) 0 (BitVec.ofNat 9 reg.code) b.fld 0 false b.l false]
  | .swrLogClear h ty reg b => [rawWord h 0xE1 (ty.code * 32) 0 (BitVec.ofNat 9 reg.code) b.fld 0 false b.l false]
  | .swrMgnInj h ty b => [rawWord h 0xE1 (ty.code * 32) 0 0x12 b.fld 0 false b.l false]
  | .syscall h b => [rawWord h 0xE2 (b.isImm.toNat) 0 0 b.immHi b.immLo false b.l false]
  | .halt h b => [rawWord h 0xE3 (b.isImm.toNat) 0 0 b.immHi b.immLo false b.l false]
  | .quar h a => [rawWord h 0xE4 0 0 a.fld 0 0 a.l false false]
  | .ckcut h d a => [rawWord h 0xE5 0 d a.fld 0 0 a.l false false]
  | .ckwait h d a => [rawWord h 0xE6 0 d a.fld 0 0 a.l false false]
  | .evpop h d => [rawWord h 0xE7 0 d 0 0 0 false false false]
  | .evwait h d b => [rawWord h 0xE8 (b.isImm.toNat) d 0 b.immHi b.immLo false b.l false]
  | .csave h whole d a b c => [rawWord h 0xE9 (whole.toNat * 2) d a.fld b.fld c.fld a.l b.l c.l]
  | .pairMov a b => pairWord .mov a b
  | .pairIadd a b => pairWord .iadd a b
  | .pairIsub a b => pairWord .isub a b
  | .pairImul a b => pairWord .imul a b
  | .pairImin a b => pairWord .imin a b
  | .pairImax a b => pairWord .imax a b
  | .pairAnd a b => pairWord .and a b
  | .pairOr a b => pairWord .or a b
  | .pairXor a b => pairWord .xor a b
  | .pairShl a b => pairWord .shl a b
  | .pairShr a b => pairWord .shr a b
  | .pairSar a b => pairWord .sar a b
  | .pairRot a b => pairWord .rot a b
  | .pairFadd a b => pairWord .fadd a b
  | .pairFsub a b => pairWord .fsub a b
  | .pairFmul a b => pairWord .fmul a b
  | .pairFmin a b => pairWord .fmin a b
  | .pairFmax a b => pairWord .fmax a b
  | .pairMovi a b => pairWord .movi a b
  | .pairIaddImm a b => pairWord .iaddImm a b
  | .pairAndImm a b => pairWord .andImm a b
  | .pairShlImm a b => pairWord .shlImm a b
  | .pairShrImm a b => pairWord .shrImm a b
  | .pairSarImm a b => pairWord .sarImm a b
  | .pairRotImm a b => pairWord .rotImm a b
  | .loadArrival _ => []
  | .storePerformed _ => []
  | .sleepWake _ => []
  | .mwaitTimeout _ => []
  | .evwaitTimeout _ => []
  | .windowWaitTimeout _ => []
  | .windowAccessComplete _ => []
  | .wrevDrainEnd _ => []
  | .gangRelaunch _ => []
  | .groupRetire _ => []
  | .kernelComplete _ => []
  | .phaseStart _ _ => []
  | .preemptHandlerTimeout _ => []
  | .contextSave _ => []
  | .contextRestore _ _ => []
  | .marginStepRise _ => []
  | .marginSettleEnd _ => []
  | .replayWindowEnd _ => []
  | .escalationWindowEnd _ => []
  | .ceRequestStart _ _ => []
  | .ceWordArrival _ _ _ => []
  | .ceLoss _ _ _ => []
  | .wopenGranuleCopy _ _ _ => []
  | .publishExchange _ => []
  | .seAtomicApply _ => []
  | .redAccept _ => []
  | .redApply _ => []
  | .mtTaskReady _ _ => []
  | .mtReadyAging _ _ => []
  | .mtDispatch _ _ => []
  | .mtComputeEnd _ _ => []
  | .mtChecksum _ _ _ => []
  | .mtWritebackEnd _ _ => []
  | .launchRecordTake _ _ _ => []
  | .waitListCheck _ _ => []
  | .gangPlace _ => []
  | .priorityAging _ => []
  | .schedPreempt _ => []
  | .gangSteal _ _ => []
  | .queueDepthExchange _ => []
  | .cellarRefill _ => []
  | .wbarRoomSave _ => []
  | .invrAck _ => []
  | .pageIn _ => []
  | .cancelSignal _ => []
  | .collComplete _ _ => []
  | .cutTick _ => []
  | .cutGranuleCopy _ _ => []
  | .resultArrival _ => []
  | .heartbeatTick => []
  | .pcHashDisplace _ => []
  | .preemptRequest _ _ => []
  | .instructionReplay _ _ _ => []
  | .lqTailWrite _ _ _ => []
  | .meshRouteRecompute _ => []
  | .hostMemWrite _ _ => []
  | .hostMemRead _ _ => []
  | .hostSnoop _ => []
  | .vfCfgWrite _ _ => []
  | .partitionTableWrite _ _ _ => []
  | .clholdClear _ _ => []
  | .registerWrite _ _ _ => []
  | .getVersion => []
  | .getCapabilities => []
  | .negotiateAlgorithms _ => []
  | .getDigests => []
  | .getCertificate _ _ => []
  | .challenge _ => []
  | .getMeasurements _ => []
  | .keyExchange _ => []
  | .finish _ _ => []
  | .endSession _ => []
  | .lockInterfaceRequest _ => []
  | .startInterfaceRequest _ _ => []
  | .stopInterfaceRequest _ => []
  | .ideFailure _ => []
  | .collAllReduce _ => []
  | .collReduceScatter _ => []
  | .collAllGather _ => []
  | .collBroadcast _ => []
  | .collBarrier _ => []
  | .collAbort _ => []
  | .abortToken _ _ _ => []
  | .powerOn => []
  | .telemetry => []
  | .powerSet => []
  | .coreReset => []
  | .history => []
  | .imageWrite => []
  | .packageReset => []
  | .stateExport => []
  | .stateImport => []
  | .powerSample _ _ => []
  | .lifetimeWrite => []
  | .remoteHouseAccess _ _ _ _ => []
  | .functionReset _ => []
  | .powerLoss => []
  | .memoryScrub _ _ => []
  | .translationCacheEviction _ _ => []

/-- The words of an instruction (none for an event). -/
def encode (i : Instr) : List DWord := words i

/-- The instruction this decoder reads from `nbits` bits `w`, bit 0 the least significant bit of the first word,
every bit above them zero. -/
def decodeTableWord (nbits w : Nat) : Option Instr :=
  match decode (leBytes 16 (w % 2 ^ nbits)) with
  | .ok (i, _) => some i
  | .error _ => none

end Sys2Proof
end

