-- ==== Sys2Proof/Machine/Fetch.lean ====
section
/-!
DEFINITION. Fetching and decoding for a thread (R57, R64-R66).
-/
namespace Sys2Proof.Machine

/-- The word at a physical address that a fetch gives (R76): memory's, or, where it differs, perhaps the one that stood there when the
kernel was accepted; which is a free value (log 6). -/
def fetchWord (s : State) (k : Kernel) (pa : Nat) : List Byte × State :=
  let new := physRead s pa 8
  let old := physRead { s with mem := k.code } pa 8
  if new = old then (new, s)
  else
    let (x, s1) := s.free
    (if bit x 0 then old else new, s1)

/-- The trap of a fetch that does not translate at `addr` (R66, R352, R357): cause 0x03 or 0x04 where the page is absent or not executable, else
the walk's or the check's own cause (log 93). -/
def fetchTrap (s : State) (w : Who) (cause : Nat) (addr : DWord) (e : TErr) : State :=
  if e.absent then takeTrap s w.t cause w.th.pc addr 0 else takeTrap s w.t e.cause w.th.pc addr e.info

/-- Fetch and decode the instruction at a thread's PC; where that fails, the state after the trap (R66, R75). -/
def fetch (s : State) (t : Tid) : Except State (Instr × State) :=
  let w := s.who t
  let pc := w.th.pc
  match translate s w.ctx pc.toNat .fetch none with
  | .error e => .error (fetchTrap s w 0x03 pc e)
  | .ok (pa, s1) =>
    let (lo, s2) := fetchWord s1 w.k pa
    if isX (BitVec.ofNat 64 (ofBytes lo)) then
      match translate s2 w.ctx (pc.toNat + 8) .fetch none with
      | .error e => .error (fetchTrap s2 w 0x04 (pc + 8) e)
      | .ok (pb, s3) =>
        let (hi, s4) := fetchWord s3 w.k pb
        match decode (lo ++ hi) with
        | .error e => .error (takeTrap s4 t 0x01 pc 0 e.info)
        | .ok (i, _) => .ok (i, s4)
    else
      match decode lo with
      | .error e => .error (takeTrap s2 t 0x01 pc 0 e.info)
      | .ok (i, _) => .ok (i, s2)

end Sys2Proof.Machine
end

