-- ==== Sys2Proof/Machine/Margin.lean ====
section
/-!
DEFINITION. Margin operation and integrity (R280-R293): margin registers, replay, step-back, quarantine, guarded dispatch
faults and check mismatches.
-/
namespace Sys2Proof.Machine

/-- Fields of MGN_CTL (R282). -/
def mgnTarget (x : DWord) : Nat := bits x 3 0
def mgnLimit (x : DWord) : Nat := bits x 15 12
def mgnWinc (x : DWord) : Nat := bits x 23 16
def mgnWinw (x : DWord) : Nat := bits x 29 24
def mgnEscn (x : DWord) : Nat := bits x 33 30
def mgnEscw (x : DWord) : Nat := bits x 39 34

/-- A value that a write of MGN_CTL rejects (R282). -/
def mgnCtlBad (x : DWord) : Bool :=
  bits x 63 48 ≠ 0 || bits x 46 40 ≠ 0 || bits x 11 4 ≠ 0 || mgnLimit x = 0 || mgnWinc x = 0 || mgnEscn x = 0
    || decide (mgnWinw x < 10) || decide (40 < mgnWinw x) || decide (mgnEscw x < 16) || decide (40 < mgnEscw x)

/-- A value that a write of MGN_INJ rejects (R283). -/
def mgnInjBad (x : DWord) : Bool := bits x 59 56 = 0 || decide (2 < bits x 62 60) || bits x 55 48 ≠ 0

/-- The numbers of the current replay and escalation windows (R283). -/
def replayWindow (s : State) (c : Core) : Nat := s.cyc / 2 ^ mgnWinw c.mgnCtl
def escWindow (s : State) (c : Core) : Nat := s.hbt / 2 ^ mgnEscw c.mgnCtl

/-- WINCNT and BACKCNT, whose counts reset at each boundary (R283). -/
def winCount (s : State) (c : Core) : Nat := if c.winNo = replayWindow s c then c.wincnt else 0
def backCount (s : State) (c : Core) : Nat := if c.escNo = escWindow s c then c.backcnt else 0

/-- MGN_STAT (R283). -/
def mgnStat (s : State) (c : Core) : DWord :=
  let f (b : Bool) (n : Nat) : Nat := if b then 2 ^ n else 0
  BitVec.ofNat 64 (c.rtotal * 2 ^ 32 + winCount s c * 2 ^ 24 + backCount s c * 2 ^ 20 + f c.quar 16
    + f (decide (s.cyc < c.settle) || decide (s.cyc < c.rise)) 15 + c.step)

/-- A write of MGN_CTL: a TARGET below STEP lowers STEP at once (R280). -/
def mgnCtlWrite (s : State) (core : Nat) (x : DWord) : State :=
  s.updCore core (fun c => { c with mgnCtl := x, step := min c.step (mgnTarget x) })

/-- A write of MGN_INJ: COUNT and REPEAT count from here (R283). -/
def mgnInjWrite (s : State) (core : Nat) (x : DWord) : State :=
  s.updCore core (fun c => { c with mgnInj := x, injSeen := 0, injLeft := bits x 59 56 })

/-- A quarantine record in the ring of 4,096, which keeps its entries, with the cycle of the quarantine: the one after its replay (R293, R440). -/
def quarRecord (s : State) (core reason : Nat) : State :=
  { s with mgmt := if s.mgmt.quarRing.length < 4096 then { s.mgmt with quarRing := s.mgmt.quarRing ++ [(core, s.cyc + 1, reason)] }
                   else { s.mgmt with quarLost := s.mgmt.quarLost + 1 } }

/-- The groups resident on a core, in VGID order. -/
def residents (s : State) (core : Nat) : List Nat :=
  sortBy (· ≤ ·) ((s.groups.filter (fun g => g.2.core = core && g.2.saved.isNone)).map (·.1))

/-- A request to vacate reaches a core: its groups stop (R265). -/
def stopGroup (s : State) (v : Nat) : State :=
  s.updGroup v (fun g => { g with stop := match g.stop with | some c => some c | none => some s.cyc })

/-- A late transition in a guarded dispatch path kills the gang of every thread of the issue group (R287): one kill for each
gang, in the name of its lowest VGID there (R303). -/
def dispatchFault (s : State) (core : Nat) : State :=
  let ts := sortBy (fun (a b : Tid) => a.vgid ≤ b.vgid) (s.core core).last
  let s1 := (mgnLog (s.updCore core (fun c => { c with slot := [], doom := false })) core 4 s.cyc).updCore core (fun c => { c with
    nrep := 0, mismatch := false })
  (ts.foldl (fun (x : List Nat × State) t =>
    match look x.2.groups t.vgid with
    | none => x
    | some g =>
      if x.1.contains g.gang then x
      else (g.gang :: x.1, killIntegrity x.2 t.vgid (x.2.thread t).pc 0 4)) ([], s1)).2

/-- Quarantine (R286), in the cycle after the replay that forces it: a thread in its handler stops too; its groups are saved by later steps. A
fault in the dispatch of the group that was issuing strikes first (R287). -/
def quarantine (s0 : State) (core reason : Nat) : State :=
  if (s0.core core).quar then s0
  else
    let s := if (s0.core core).doom then dispatchFault s0 core else s0
    let co := s.core core
    let s1 := mgnLog (s.updCore core (fun c => { c with quar := true, slot := [] })) core 3 (s.cyc + 1)
    let vs := residents s core
    let s2 := vs.foldl stopGroup s1
    let s3 := vs.foldl (fun s v => s.mapGroup v (fun _ th => { th with stopped := true })) s2
    quarRecord (postHost s3 0 0x10 false 0 [BitVec.ofNat 32 (clusterOf core * 32 + core % 24), BitVec.ofNat 32 co.step, BitVec.ofNat 32 reason])
      core reason

/-- A step-back (R280, R284) in the cycle after its replay, or quarantine in its place at step 0 and after it at ESCN. -/
def stepBack (s : State) (core : Nat) : State :=
  let co := s.core core
  if co.step = 0 then quarantine s core 1
  else
    let n := co.step - 1
    let back := backCount s co + 1
    let s1 := mgnLog (s.updCore core (fun c => { c with
      step := n, mgnCtl := c.mgnCtl - BitVec.ofNat 64 (mgnTarget c.mgnCtl) + BitVec.ofNat 64 n,
      backcnt := back, escNo := escWindow s co, settle := s.cyc + 513, free := max c.free (s.cyc + 513) })) core 2 (s.cyc + 1)
    if back ≥ mgnEscn co.mgnCtl then quarantine s1 core 2 else s1

/-- With TRP set a replay reaches every thread of the issue group as a trap (R285); `n` is the replay count that its instruction keeps, for when
it issues again (R284). -/
def replayNotice (s : State) (core step n : Nat) : State :=
  (s.core core).slot.foldl (fun s t =>
    let pc := (s.thread t).pc
    if (s.thread t).st = .ready then
      (takeTrap s t 0x10 pc 0 (BitVec.ofNat 32 (0x200 + step))).updThread t (fun th => { th with replays := some (pc, n) })
    else s)
    (s.updCore core (fun c => { c with slot := [], nrep := 0 }))

/-- The replay count that the instruction of a new issue group has kept (R284). -/
def keptReplays (s : State) (ts : List Tid) : Nat :=
  ts.foldl (fun n t => match (s.thread t).replays with
    | some (pc, k) => if pc = (s.thread t).pc then max n k else n
    | none => n) 0

/-- The threads of an issue group whose instruction issues keep no replay count (R284). -/
def dropReplays (s : State) (ts : List Tid) : State :=
  ts.foldl (fun s t => if (s.thread t).replays.any (fun x => x.1 = (s.thread t).pc) then
    s.updThread t (fun th => { th with replays := none }) else s) s

/-- One replay of the issue group formed and not yet issued (R284); an injected one is logged as KIND 5. -/
def replay (s : State) (core kind : Nat) : State :=
  let co := s.core core
  let rep := co.nrep + 1
  let win := winCount s co + 1
  let byLimit := decide (mgnLimit co.mgnCtl ≤ rep)
  let byWinc := decide (mgnWinc co.mgnCtl ≤ win)
  let s1 := mgnLog (s.updCore core (fun c => { c with
    rtotal := min (c.rtotal + 1) (2 ^ 32 - 1), nrep := rep, wincnt := win, winNo := replayWindow s co, calm := s.cyc,
    free := s.cyc + 7 })) core kind s.cyc
  let s2 := histAdd s1 (16 * core + co.step)
  let s3 := if bit co.mgnCtl 47 then replayNotice s2 core co.step (if byLimit then 0 else rep) else s2
  if byLimit || byWinc then
    stepBack (s3.updCore core (fun c => { c with nrep := if byLimit then 0 else c.nrep, wincnt := if byWinc then 0 else win })) core
  else s3

/-- A core's issue group is formed and none of its threads has issued. -/
def unstarted (c : Core) : Bool := !c.slot.isEmpty && c.slot.length = c.last.length

/-- A formed group that may still be replayed: its dispatch has not been committed (R287). -/
def replayable (c : Core) : Bool := unstarted c && !c.doom

/-- The classes that issue guarded (R112, R203, R244, R287, R296, R367). -/
def guarded : Instr → Bool
  | .take .. | .give .. | .tagset .. | .wexp .. | .wrev .. | .wst .. | .wtake .. | .wgive .. | .lnwr .. | .mcast ..
  | .stg .. | .stf .. | .sth .. | .binit .. | .barr .. | .barrGrp .. | .bxfer .. | .marm .. | .wbar ..
  | .mtask .. | .mdrain .. | .mfill .. | .mfreeze .. | .mthaw ..
  | .acopy .. | .awrite .. | .bcopy .. | .bstore .. | .publish .. | .wopen ..
  | .atom .. | .acas .. | .fatom .. | .red .. | .vatom .. | .atomw ..
  | .launch .. | .qpush .. | .qpop .. | .qpopH .. | .qsteal ..
  | .hold .. | .hfree .. | .hfreeTask .. | .heir .. | .hconvey .. | .hconveyAll .. | .prom .. | .keep .. | .pwait .. | .estq ..
  | .estqRec .. | .sibpost .. | .sibq .. | .sibwait .. | .sibacct ..
  | .kvcopy .. | .pgalloc .. | .pgfree .. | .pgref .. | .tierin .. | .invr ..
  | .srd .. | .srdLogPop .. | .swr .. | .swrLogClear .. | .swrMgnInj .. | .halt .. | .quar .. | .ckcut .. | .csave .. | .evpop .. => true
  | _ => false

/-- The halves of a pair word (R74). -/
def pairHalves : Instr → List PairHalf
  | .pairMov a b => [⟨.mov, a⟩, b]
  | .pairIadd a b => [⟨.iadd, a⟩, b]
  | .pairIsub a b => [⟨.isub, a⟩, b]
  | .pairImul a b => [⟨.imul, a⟩, b]
  | .pairImin a b => [⟨.imin, a⟩, b]
  | .pairImax a b => [⟨.imax, a⟩, b]
  | .pairAnd a b => [⟨.and, a⟩, b]
  | .pairOr a b => [⟨.or, a⟩, b]
  | .pairXor a b => [⟨.xor, a⟩, b]
  | .pairShl a b => [⟨.shl, a⟩, b]
  | .pairShr a b => [⟨.shr, a⟩, b]
  | .pairSar a b => [⟨.sar, a⟩, b]
  | .pairRot a b => [⟨.rot, a⟩, b]
  | .pairFadd a b => [⟨.fadd, a⟩, b]
  | .pairFsub a b => [⟨.fsub, a⟩, b]
  | .pairFmul a b => [⟨.fmul, a⟩, b]
  | .pairFmin a b => [⟨.fmin, a⟩, b]
  | .pairFmax a b => [⟨.fmax, a⟩, b]
  | .pairMovi a b => [⟨.movi, a⟩, b]
  | .pairIaddImm a b => [⟨.iaddImm, a⟩, b]
  | .pairAndImm a b => [⟨.andImm, a⟩, b]
  | .pairShlImm a b => [⟨.shlImm, a⟩, b]
  | .pairShrImm a b => [⟨.shrImm, a⟩, b]
  | .pairSarImm a b => [⟨.sarImm, a⟩, b]
  | .pairRotImm a b => [⟨.rotImm, a⟩, b]
  | _ => []

/-- Whether a half is a float one (R74). -/
def pairFloat : PairOp → Bool
  | .fadd | .fsub | .fmul | .fmin | .fmax => true
  | _ => false

/-- Whether an instruction's result is checked by residue or by a duplicated computation (R82). -/
def integerChecked : Instr → Bool
  | .iadd .. | .isub .. | .imul .. | .imad .. | .idiv .. | .iabs .. | .imin .. | .imax .. | .lea .. | .bra .. | .brx .. | .call .. | .callx .. | .ret ..
  | .and .. | .or .. | .xor .. | .shl .. | .shr .. | .sar .. | .rot .. | .bfe .. | .bfi .. | .popc .. | .clz .. | .brev .. | .prmt .. | .isel ..
  | .icmp .. | .pset .. | .vote .. | .mov .. | .movi .. | .sreg ..
  => true
  | i => (pairHalves i).any (fun p => !pairFloat p.op)

/-- Whether the instruction is a float or format one, whose result the shadow floating-point unit checks (R203, R289). -/
def fpChecked : Instr → Bool
  | .fadd .. | .fsub .. | .fmul .. | .ffma .. | .fmin .. | .fmax .. | .fdiv .. | .fsqrt .. | .frcp .. | .frsq .. | .fexp2 .. | .flog2 .. | .fsin ..
  | .fcos .. | .frnd .. | .fscale .. | .fxtr .. | .fcvt .. | .i2f .. | .fdot2 ..
  | .fcmp .. | .fclass .. | .f2i .. | .fstat .. | .dbdec .. | .dbenc .. | .cbld .. | .cbread .. | .ncvt .. | .bsum .. => true
  | i => (pairHalves i).any (fun p => pairFloat p.op)

/-- The instruction that an issue group is about to issue. -/
def groupInstr (s : State) (core : Nat) : Option Instr :=
  match (s.core core).slot with
  | [] => none
  | t :: _ => match fetch s t with
    | .ok (i, _) => some i
    | .error _ => none

def groupGuarded (s : State) (core : Nat) : Bool := (groupInstr s core).any guarded

/-- Whether the group's instruction has the check: 0 the integer checks, else the FP shadow's. -/
def checkedBy (s : State) (core code : Nat) : Bool := (groupInstr s core).any (if code = 0 then integerChecked else fpChecked)

/-- A check mismatch at one thread of the issue group (R82, R288, R289): code 0 of an integer check, 1 of the FP shadow. A first mismatch replays
the group, a second kills the gang; a duplicated computation counts and kills as the residue does (log 77). -/
def mismatch (s : State) (core : Nat) (t : Tid) (code : Nat) : State :=
  let f := (s.who t).k.owner
  if (s.core core).mismatch then killIntegrity (count s f (if code = 0 then 3 else 5) 1) t.vgid (s.thread t).pc 0 (if code = 0 then 1 else 2)
  else (count s f (if code = 0 then 2 else 4) 1).updCore core (fun c => { c with mismatch := true, free := s.cyc + 7 })

/-- One more issue that COUNT counts (R283). -/
def seen (s : State) (core : Nat) : State := s.updCore core (fun c => { c with injSeen := c.injSeen + 1 })

/-- A late transition in the dispatch path of a group's guarded instruction (R287): whether its effect took place is a free value. -/
def dispatchLate (s : State) (core : Nat) : State :=
  let (x, s1) := s.free
  if bit x 0 then s1.updCore core (fun c => { c with doom := true }) else dispatchFault s1 core

/-- The PC of the issue group formed on a core. -/
def groupPc (s : State) (core : Nat) : DWord :=
  match (s.core core).last with
  | t :: _ => (s.thread t).pc
  | [] => 0

/-- Whether an injection has reached its count (R283). -/
def injDue (c : Core) : Bool := bit c.mgnInj 63 && decide (bits c.mgnInj 47 0 ≤ c.injSeen)

/-- The core once an injection has fired at the group's issue. -/
def fired (s : State) (core : Nat) : State :=
  (seen s core).updCore core (fun c => { c with mgnInj := c.mgnInj &&& 0x7FFFFFFFFFFFFFFF, injLeft := c.injLeft - 1, injPc := groupPc s core })

/-- The replay that an injection of STAGE 0 or 1 gives the issue at hand, or a later execution of its target (R283). -/
def injected (s : State) (core : Nat) : Option State :=
  let co := s.core core
  let again := !bit co.mgnInj 63 && decide (0 < co.injLeft) && decide (co.injLeft < bits co.mgnInj 59 56) && co.injPc = groupPc s core
  if bits co.mgnInj 62 60 ≤ 1 && (injDue co || again) then some (replay (fired s core) core 5) else none

/-- The issue group formed on a core is about to issue (R283): an injection that is due strikes it. The flag says whether the
group issues. -/
def attempt (s : State) (core : Nat) : State × Bool :=
  let co := s.core core
  match injected s core with
  | some s1 => (s1, false)
  | none =>
    if bits co.mgnInj 62 60 = 2 && injDue co && groupGuarded s core then
      let s1 := dispatchLate ((fired s core).updCore core (fun c => { c with injLeft := 0 })) core
      (s1, !(s1.core core).slot.isEmpty)
    else ((dropReplays (seen s core) co.slot).updCore core (fun c => { c with nrep := 0, mismatch := false }), true)

end Sys2Proof.Machine
end

