-- ==== Sys2Proof/Machine/Sync.lean ====
section
/-!
DEFINITION. Synchronisation instructions (R127-R140).
-/
namespace Sys2Proof.Machine

/-- Cause 0x0E (R129). -/
def spill (addr info : Nat) : Stop := .trap 0x0E (BitVec.ofNat 64 addr) (BitVec.ofNat 32 info)

/-- The resident threads that wait on an object, in BWAIT or in a deferred arrival; a SAVED one finds the entry gone when it issues again
(R130, R268). -/
def barWaiters (s : State) (o : Tid) (b : Nat) : List Tid :=
  (s.threads.filter (fun p => waiting s p.1 = some (.barrier o b) || waiting s p.1 = some (.arrive o b))).map (·.1)

/-- BINIT (R130): freed, an object gives each of its waiters a trap, one whose group is SAVED when it returns (log 85). Freeing does not test the
object (log 96). -/
def execBinit (h : Hdr) (sc : Scope) (d : BitVec 9) (b : Src) : State → Host.Outcome State Fault Refusal :=
  runInstr h { srcs := [(.b, b, 1)], named := [(d.toNat, 1)], wrote := fun _ _ => [(d.toNat, 4)] } (fun w s => do
    let e ← src32 w s b
    let o := d.toNat
    trapIf (o % 4 ≠ 0 || o < 4) 0x09 (BitVec.ofNat 64 o) 0
    trapIf (decide (w.k.regs ≤ o + 3)) 0x06 (BitVec.ofNat 64 o) 0x20
    trapIf (decide (65535 < e.toNat)) 0x01 0 5
    let addr := regAddr s w.t o
    if e = 0 then
      if (barEntry s w.t o).isNone then .error (spill addr 1)
      else
        let s1 : State := { s with barriers := s.barriers.filter (fun x => !(x.owner = w.t && x.reg = o)) }
        .ok ((barWaiters s w.t o).foldl
          (fun s t => if (waiting s t).isSome then takeTrap s t 0x0E (s.thread t).pc (BitVec.ofNat 64 addr) 1 else s) s1)
    else do
      if (barEntry s w.t o).isSome then .error (spill addr 3)
      let die := coreDie w.g.core
      let gangOf (x : Barrier) : Nat := (s.group x.owner.vgid).gang
      let used := (s.barriers.filter (fun x => gangOf x = w.gk)).length
      let from_ := takeEntry s w used w.k.barriers die (looseBarriers s die) 8192 Kernel.barriers 32
      if from_.isNone then .error (spill addr 0)
      if busy s w.t o 4 then .error (.wait .retry)
      let s1 := { s with barriers := s.barriers ++ [{ die := die, owner := w.t, reg := o, scope := sc, spill := from_ = some true }] }
      .ok (writeWords s1 w.t o (barWords ⟨0, e.toNat, e.toNat, 0, 0⟩)))

/-- The object that a window operand names (R132), checked: its owner, register and fields. -/
def barAt (w : Who) (s : State) (a b : Src) (r : Right) : Res (Tid × Nat × BarObj) := do
  acqGate w s
  let h ← src32 w s a
  let off ← src32 w s b
  let (_, _, x) ← windowAccess w s h off.toNat 1 r
  let o := x.owner
  let i := x.base + off.toNat
  let addr := regAddr s o i
  if (barEntry s o i).isNone then .error (spill addr 1)
  readCheck w s ((upto i 4).map (fun j => (o, j)))
  let ws := regGets s o i 4
  match firstPoison ws i with
  | some p => .error (.trap (poisonCause p.2) (BitVec.ofNat 64 (regAddr s o p.1)) p.2)
  | none => do
    if anyPend ws then .error (.wait .retry)
    let y := barGet s o i
    if barBad y then .error (spill addr 2)
    .ok (o, i, y)

/-- BARR on an object (R132, R131): a release. With PENDING 0 the arrival is deferred, and the next generation counts it. -/
def execBarr (h : Hdr) (d : BitVec 9) (a b : Src) : State → Host.Outcome State Fault Refusal :=
  runInstr h { srcs := [(.a, a, 1), (.b, b, 1)], dst := some (d.toNat, 1) } (fun w s =>
    match w.th.wait with
    | .counted g =>
      if d ≠ 0 && !h.nw && busy s w.t d.toNat 1 then .error (.wait (.counted g)) else res w h s d 1 (BitVec.ofNat 64 g)
    | _ => do
      let (o, i, x) ← barAt w s a b .readWrite
      releaseGate w s
      if x.pending = 0 then .error (.wait (.arrive o i))
      let s1 ← res w h s d 1 (BitVec.ofNat 64 x.gen)
      .ok (barPut s1 o i { x with pending := x.pending - 1 }))

/-- BARR.grp (R132): a collective, a release and an acquire at core scope. -/
def execBarrGrp (h : Hdr) : State → Host.Outcome State Fault Refusal :=
  runInstr h { collective := true } (fun w s => do
    if guardTrue h w.th then releaseGate w s
    collArrive w s .barr none)

/-- BWAIT (R133): one that has been made READY by the end of its generation is over (R131). -/
def execBwait (h : Hdr) (a b c : Src) : State → Host.Outcome State Fault Refusal :=
  runInstr h { srcs := [(.a, a, 1), (.b, b, 1), (.c, c, 1)], cancel := .always } (fun w s => do
    let seen ← src32 w s c
    if w.th.wait = .posted then .ok s
    else do
      let (o, i, x) ← barAt w s a b .read
      if x.gen = bits seen 3 0 then .error (.wait (.barrier o i)) else .ok s)

/-- BXFER (R134, R243): attach the copy that the promise pair is linked to. A latch is no linked pair. A bulk copy's bytes are known
once it has read its record: until then the attachment waits (log 22). -/
def execBxfer (h : Hdr) (out : Bool) (a b c : Src) : State → Host.Outcome State Fault Refusal :=
  runInstr h { srcs := [(.a, a, 1), (.b, b, 1), (.c, c, 2)] } (fun w s => do
    let _ ← src w s c 2
    let (o, i, x) ← barAt w s a b .readWrite
    match (linkOfSrc s w.t c).bind (fun l => (liveReq s l).map (fun r => (l, r))) with
    | none => .ok s
    | some (l, r) => do
      let total ← match r.total with
        | some n => .ok n
        | none => .error (.wait .retry)
      let v := (if out then x.outbound else x.inbound) + (total - r.counted)
      if 2 ^ 30 - 1 < v then .error (spill (regAddr s o i) 4)
      let s1 := barPut s o i (if out then { x with outbound := v } else { x with inbound := v })
      .ok (updReq s1 l.cl l.seq (fun q => { q with barriers := q.barriers ++ [(o, i, out)] })))

/-- FENCE (R135). Performing is the same at every scope (log 4). -/
def execFence (h : Hdr) (kind : FenceKind) (sc : Scope) : State → Host.Outcome State Fault Refusal :=
  runInstr h {} (fun w s =>
    let ok := match kind with
      | .acq => !loadsOut s w.t
      | .full | .rel => releaseReady s w.t
    if ok then .ok s else .error (.wait (.fence kind sc)))

/-- Whether the stores of a core's groups queued before `mark` are performed, and the thread's loads have arrived (R136). -/
def coreDrained (s : State) (t : Tid) (mark core : Nat) : Bool :=
  !loadsOut s t &&
  !(s.groups.any (fun g => g.2.core = core && g.2.queue.any (fun e => e.id < mark))) &&
  !(s.reds.any (fun r => r.id < mark && (s.group r.tid.vgid).core = core))

/-- FENCESC (R136): it drains the core on which it issued, then waits for the next tick. -/
def execFencesc (h : Hdr) : State → Host.Outcome State Fault Refusal :=
  runInstr h {} (fun w s =>
    match w.th.wait with
    | .fencesc m c (some t) => if t ≤ s.hbt then .ok s else .error (.wait (.fencesc m c (some t)))
    | .fencesc m c none => .error (.wait (.fencesc m c (if coreDrained s w.t m c then some (s.hbt + 1) else none)))
    | _ => .error (.wait (.fencesc s.nextId w.g.core (if coreDrained s w.t s.nextId w.g.core then some (s.hbt + 1) else none))))

/-- A monitor entry for the thread (R138): its own again, or a new one; `addr` is the armed address of the trap. -/
def arm (w : Who) (s : State) (addr : Nat) (m : Monitor) : Res State := do
  let mons := s.threads.filter (fun p => p.2.monitor.isSome)
  let die := coreDie w.g.core
  let used := (mons.filter (fun p => (s.group p.1.vgid).gang = w.gk)).length
  let from_ := match w.th.monitor with
    | some x => some x.spill
    | none => takeEntry s w used w.k.monitors die (looseMonitors s die) 8192 Kernel.monitors 16
  if from_.isNone then .error (spill addr 0x10)
  .ok (s.updThread w.t (fun th => { th with monitor := some { m with spill := from_ = some true } }))

/-- MARM (R138): of MARM.g the armed address is its operand (log 81). -/
def execMarm (h : Hdr) (op : MarmOp) : State → Host.Outcome State Fault Refusal :=
  match op with
  | .g a => runInstr h { srcs := [(.a, a, 2)] } (fun w s => do
      let va ← addrOf w s a
      let (pa, s1) ← deviceAt w s va .read
      arm w s1 va { fired := false, window := false, addr := canon s pa / 64 * 64, owner := w.t, reg := 0 })
  | .w a b => runInstr h { srcs := [(.a, a, 1), (.b, b, 1)] } (fun w s => do
      acqGate w s
      let x ← src32 w s a
      let o ← src32 w s b
      let (_, _, sl) ← windowAccess w s x o.toNat 1 .read
      let i := sl.base + o.toNat
      arm w s (regAddr s sl.owner i) { fired := false, window := true, addr := 0, owner := sl.owner, reg := i })

/-- MWAIT (R139): the limit is kept as an absolute cycle, at which another step ends the wait. -/
def execMwait (h : Hdr) (d : BitVec 9) (b : Src) : State → Host.Outcome State Fault Refusal :=
  runInstr h { srcs := [(.b, b, 1)], dst := some (d.toNat, 1), cancel := .always } (fun w s => do
    let n ← src32 w s b
    match w.th.monitor with
    | none => res w h s d 1 0
    | some m =>
      if m.fired then res w h (s.updThread w.t (fun th => { th with monitor := none })) d 1 1
      else
        let limit := match w.th.wait with | .mwait c _ => c | _ => s.cyc + n.toNat
        if limit ≤ s.cyc then res w h s d 1 0
        else if d ≠ 0 && !h.nw && (regGet s w.t d.toNat).tag = .pend then .error (.wait .retry)
        else .error (.wait (.mwait limit d.toNat)))

/-- WBAR's checks (R32). -/
def wbarCheck (w : Who) (s : State) (sc : Scope) : Res Unit := do
  trapIf (w.gang.phase = w.k.phm1) 0x01 0 0xFFFFFFFE
  trapIf (sc = .house && w.k.house = 0) 0x01 0 0xFFFFFFFC
  trapIf (sc = .house && s.house.hcounts.any (fun x => x.1 = w.k.house && x.2.1 = w.k.part && x.2.2 ≠ w.k.hcount)) 0x01 0 0xFFFFFFFA
  trapIf ((look w.k.scopes w.gang.phase).any (fun x => x ≠ sc)) 0x01 0 0xFFFFFFFB

/-- WBAR (R140, R30-R32): the first to pass fixes the phase's scope; then a collective arrival. -/
def execWbar (h : Hdr) (sc : Scope) : State → Host.Outcome State Fault Refusal :=
  runInstr h { collective := true } (fun w s => do
    wbarCheck w s sc
    let s1 := s.updKernel w.kn (fun k => { k with scopes := put k.scopes w.gang.phase sc })
    collArrive w s1 (.wbar sc) none)

/-- HBWAIT (R137): an absolute tick pair, or ticks from now; DESIGN CHOICE (log 96): the untyped immediate is sign-extended to 32 bits. -/
def execHbwait (h : Hdr) (b : Src) : State → Host.Outcome State Fault Refusal :=
  let n := match b with | .imm _ => 1 | _ => 2
  runInstr h { srcs := [(.b, b, n)], cancel := .always } (fun w s => do
    let x ← src w s b n
    let tick := if n = 1 then s.hbt + x.toNat else x.toNat
    if tick ≤ s.hbt then .ok s else .error (.hold (.hbt tick) s))

end Sys2Proof.Machine
end

