-- ==== Sys2Proof/Machine/Tier.lean ====
section
/-!
DEFINITION. The tier, block-copy and translation instructions (R348, R349, R362-R373), and what their requests and page-ins do.
-/
namespace Sys2Proof.Machine

/-- A header field out of range (R368). -/
def kvBad (ws : List Word) : Bool :=
  let k := kvHeadOf ws
  k.count = 0 || decide (2 ^ 20 < k.count) || k.roww = 0 || decide (16 < k.roww) || k.base % 64 ≠ 0 || k.fbase % 64 ≠ 0
    || bits (ws.getD 1 0) 31 5 ≠ 0 || ws.getD 6 0 ≠ 0 || ws.getD 7 0 ≠ 0

/-- The record's header, checked and read at issue, behind the thread's own accesses to it (R368, R152). -/
def kvHeader (w : Who) (s : State) (va : Nat) : Res (KvHead × State) := do
  trapIf (va % 64 ≠ 0) 0x09 (BitVec.ofNat 64 va) 0
  let (ps, s1) ← accessTo w s va 64 .read (some .g)
  if ps.any (fun p => ownPending w s1 p.1 p.2) then .error (.wait .retry)
  match badPiece s1 ps with
  | some (pa, g) => .error (.after 0x06 (BitVec.ofNat 64 va) 0x27 (unissued w (countGran s1 w.k.owner w.k.part pa g)))
  | none => do
    let ws := wordsOf (ps.flatMap (fun p => physRead s1 p.1 p.2))
    trapIf (kvBad ws) 0x06 (BitVec.ofNat 64 va) 0x26
    .ok (kvHeadOf ws, s1)

/-- The operands a KVCOPY or TIERIN request keeps: the header, then the indexes. -/
def kvArgs (k : KvHead) (idx : List Word) : List Word :=
  let two (n : Nat) : List Word := [BitVec.ofNat 32 n, BitVec.ofNat 32 (n / 2 ^ 32)]
  [BitVec.ofNat 32 k.count, BitVec.ofNat 32 k.roww] ++ two k.base ++ two k.fbase ++ idx

/-- The group word of row-word `w` of row `r` of position `j` (R348). -/
def kvWord (t : Tid) (width d roww j r w : Nat) : Tid × Nat :=
  ({ t with lane := (16 * j + r) % width }, d + roww * ((16 * j + r) / width) + w)

/-- Every word of a position, by row and then by word. -/
def kvWords (t : Tid) (width d roww j : Nat) : List (Tid × Nat) :=
  (upto 0 16).flatMap (fun r => (upto 0 roww).map (fun w => kvWord t width d roww j r w))

/-- The header of a record, which the thread reads once: an instruction that waits after it keeps it (R368). -/
def headerOf (w : Who) (s : State) (va : Nat) : Res (KvHead × State) :=
  match w.th.wait with
  | .header ws => .ok (kvHeadOf ws, s)
  | _ => kvHeader w s va

/-- A wait that keeps the header. -/
def keepHeader {α : Type} (k : KvHead) (x : Res α) : Res α :=
  match x with
  | .error (.wait _) => .error (.wait (.header (kvArgs k [])))
  | y => y

/-- KVCOPY (R348, R368): its promise is discarded. -/
def execKvcopy (h : Hdr) (nm1 : BitVec 4) (d a : BitVec 9) (b : Src) (c : BitVec 9) : State → Host.Outcome State Fault Refusal :=
  let n := nm1.toNat + 1
  runInstr h { srcs := [(.b, b, 2)], named := [(a.toNat, 1), (c.toNat, 1)], dst := some (d.toNat, 2), lists := fun _ _ => [(c.toNat, n)] } (fun w s => do
    acqGate w s
    let va ← addrOf w s b
    rangeIf w c.toNat n
    rangeIf w d.toNat 3
    let (k, s1) ← headerOf w s va
    rangeIf w a.toNat (k.roww * ((16 * n - 1) / w.k.width + 1))
    let idx ← keepHeader k (listRead w s1 c.toNat n)
    let rows := (upto 0 n).flatMap (kvWords w.t w.k.width a.toNat k.roww)
    let claimed := rows ++ pairWords w.t d.toNat ++ [(w.t, d.toNat + 2)]
    keepHeader k (admission w s1 claimed 0)
    let q : CeReq := { newReq w .kvcopy .g with
      record := va, args := kvArgs k idx, own := true, total := some (64 * k.roww * n),
      region := some ⟨w.t.vgid, w.t.layer, a.toNat, k.roww * ((16 * n - 1) / w.k.width + 1), 0⟩,
      va := d.toNat, stamp := if d = 0 then .none else .pair w.t d.toNat }
    .ok (setLatch w (acceptReq w s1 q claimed 0).2 d.toNat 0 false))

/-- TIERIN (R369). -/
def execTierin (h : Hdr) (nm1 : BitVec 4) (d : BitVec 9) (b : Src) (c : BitVec 9) : State → Host.Outcome State Fault Refusal :=
  let n := nm1.toNat + 1
  runInstr h { srcs := [(.b, b, 2)], named := [(c.toNat, 1)], dst := some (d.toNat, 2), lists := fun _ _ => [(c.toNat, n)] } (fun w s => do
    acqGate w s
    let va ← addrOf w s b
    rangeIf w c.toNat n
    rangeIf w d.toNat 2
    let (k, s1) ← headerOf w s va
    let idx ← keepHeader k (listRead w s1 c.toNat n)
    let claimed := pairWords w.t d.toNat
    keepHeader k (admission w s1 claimed 0)
    let q : CeReq := { newReq w .tierin .g with
      record := va, args := kvArgs k idx, own := true, total := some 0, va := d.toNat }
    .ok (setLatch w (acceptReq w s1 q claimed 0).2 d.toNat 0 false))

/-- Entry `i` of a record, read for function `f`: whether it is far, and its block; none for a bad index (R348, R368). -/
def kvEntry (s : State) (c : Ctx) (f record count i : Nat) : Option (Bool × Nat) × State :=
  if count ≤ i then (none, s)
  else match engRead s c (record + 32 + 4 * i) 4 .g with
    | .error _ => (none, engCount s c f (record + 32 + 4 * i) 4 .engRead .g)
    | .ok (bs, s1) => let x := ofBytes bs; (some (decide (2 ^ 31 ≤ x), x % 2 ^ 31), s1)

/-- Whether the issuer's own accesses to an entry of a record are still to be performed (R152). -/
def entryOwn (w : Who) (s : State) (record count i : Nat) : Bool :=
  decide (i < count) && match engRange s w.ctx (record + 32 + 4 * i) 4 .engRead .g with
    | .ok (ps, s1) => ps.any (fun p => ownPending w s1 p.1 p.2)
    | .error _ => false

/-- TIERQ (R370). -/
def execTierq (h : Hdr) (d : BitVec 9) (b c : Src) : State → Host.Outcome State Fault Refusal :=
  runInstr h { srcs := [(.b, b, 2), (.c, c, 1)], dst := some (d.toNat, 1) } (fun w s => do
    acqGate w s
    let va ← addrOf w s b
    rangeIf w d.toNat 1
    let (k, s1) ← headerOf w s va
    let i ← keepHeader k (src32 w s c)
    if entryOwn w s1 va k.count i.toNat then .error (.wait (.header (kvArgs k [])))
    let (e, s2) := kvEntry s1 w.ctx w.k.owner va k.count i.toNat
    let code : Nat := match e with
      | none => 4
      | some (false, _) => 0
      | some (true, _) => match (trackAt (s2.part w.k.part) w.k.asid va i.toNat).map Tracker.st with
        | some .inflight => 2
        | some (.faulted r) => 3 + r * 256
        | _ => 1
    keepHeader k (resLater w s2 d 1 (BitVec.ofNat 64 code)))

/-- Read every entry of a request. -/
def kvEntries (s : State) (c : Ctx) (f record count : Nat) : List Nat → List (Option (Bool × Nat)) × State
  | [] => ([], s)
  | i :: r =>
    let (e, s1) := kvEntry s c f record count i
    let (es, s2) := kvEntries s1 c f record count r
    (e :: es, s2)

/-- The items of position `j` of a KVCOPY: near rows come from memory; the others are settled at once. -/
def kvItems (k : KvHead) (ws : List (Tid × Nat)) (e : Option (Bool × Nat)) : List CeItem :=
  ws.zipIdx.map (fun x =>
    { src := match e with
        | some (false, block) => [.mem (k.base + 64 * k.roww * block + 4 * x.2) 4]
        | _ => [.bytes [0, 0, 0, 0]],
      dst := if x.1.2 = 0 then .drop else .claim x.1.1 x.1.2,
      done := match e with | some (false, _) => false | _ => true })

/-- KVCOPY's entries are read and its misses settled; the page-in of each is started or joined by an item of its own, later (R348, R362, log 44). -/
def kvStart (s : State) (cl : Nat) (r : CeReq) : State :=
  let k := r.head
  let width := groupWidth s r.tid.vgid
  let d := match r.region with | some g => g.base | none => 0
  let (es, s1) := kvEntries s (ceCtx cl r) r.owner r.record k.count r.idx
  let pos := (r.idx.zip es).zipIdx
  let mask := pos.foldl (fun n x => n + (match x.1.2 with | some (true, _) => 2 ^ x.2 | _ => 0)) 0
  let words (j : Nat) := kvWords r.tid width d k.roww j
  let s2 := arriveWord s1 r.tid (r.va + 2) (BitVec.ofNat 32 mask)
  let v := ticketVal false 0 0 cl r.seq
  let s3 := if mask = 0 then s2 else postInbox s2 r.tid.vgid 0x03 false r.tid.vgid [loWord v, hiWord v, BitVec.ofNat 32 mask]
  let bad := (pos.filter (fun x => x.1.2.isNone)).map (·.2)
  let s4 := pos.foldl (fun s x => match x.1.2 with
    | none => (words x.2).foldl (fun (s : State) (q : Tid × Nat) => lossWord s q.1 q.2 (poisonRecord 2 (16 * k.roww * bad.headD 0))) s
    | some (true, _) => (words x.2).foldl (fun (s : State) (q : Tid × Nat) => arriveWord s q.1 q.2 0) s
    | some (false, _) => s) s3
  let s5 := updReq s4 cl r.seq (fun q =>
    let pages := pos.filterMap (fun x => match x.1.2 with
      | some (true, block) => some ({ src := [], dst := .page x.1.1 block x.2 } : CeItem)
      | _ => none)
    let q1 := { q with st := .running, items := pos.flatMap (fun x => kvItems k (words x.2) x.1.2) ++ pages }
    match bad with
    | j :: _ => q1.fail (16 * k.roww * j) 0x07
    | [] => q1)
  ceSettle s5 cl r.seq

/-- TIERIN's entries are read and its page-ins start (R369). -/
def tierStart (s : State) (cl : Nat) (r : CeReq) : State :=
  let k := r.head
  let (es, s1) := kvEntries s (ceCtx cl r) r.owner r.record k.count r.idx
  let pos := (r.idx.zip es).zipIdx
  let mask (f : Option (Bool × Nat) → Bool) : Nat := pos.foldl (fun n x => n + (if f x.1.2 then 2 ^ x.2 else 0)) 0
  let s2 := pos.foldl (fun s x => match x.1.2 with
    | some (true, block) => pageStart s cl r k x.1.1 block x.2
    | _ => s) s1
  let started := mask (fun e => match e with | some (f, _) => f | none => false)
  let near := mask (fun e => match e with | some (f, _) => !f | none => false)
  let s3 := operandArrive s2 r.tid r.va [BitVec.ofNat 32 (started + mask (·.isNone) * 2 ^ 16), BitVec.ofNat 32 near]
  ceEnd (updReq s3 cl r.seq (fun q => { q with st := .running })) cl r.seq

/-- The function that owns the launch a page-in is for. -/
def Tracker.owner (t : Tracker) : Nat := if t.pf then 0 else t.vf + 1

/-- The end of a page-in in the tracker. -/
def trackEnd (s : State) (part id : Nat) (st : TierSt) : State :=
  s.updPart part (fun p => { p with tracker := p.tracker.map (fun x => if x.id = id then { x with st := st, posts := [] } else x) })

/-- A page-in (R349, R363), whole (log 17): the block, then FAR, then the posts; nothing where a write is held. -/
def pageRun (s : State) (part : Nat) (t : Tracker) : State :=
  let c : Ctx := { unit := 1152 + t.cl, part := part, asid := t.asid, world := t.world, house := 0 }
  let fail (s : State) (reason : Nat) : State := trackEnd s part t.id (.faulted reason)
  match engRead s c t.src t.bytes .f with
  | .error r => fail (engCount s c t.owner t.src t.bytes .engRead .f) r
  | .ok (bs, s1) =>
    match dstPhys s1 c .g [(t.dst, t.bytes)] with
    | (_, some r, s2) => fail (engCount s2 c t.owner t.dst t.bytes .engWrite .g) r
    | (ps, none, s2) =>
      if dstBlocked s2 t.ord ps then s
      else
        let s3 := performPieces s2 ps bs
        match engRead s3 c t.flag 4 .g, translate s3 c t.flag .write (some .g) with
        | .error r, _ => fail (engCount s3 c t.owner t.flag 4 .engRead .g) r
        | _, .error e => fail (walkCharge s3 t.owner e) e.reason
        | .ok (fb, _), .ok (pa, s4) =>
          let s5 := performBytes s4 pa (bytesOf [BitVec.ofNat 32 (ofBytes fb % 2 ^ 31)])
          trackEnd (t.posts.foldl (fun s p => postInbox s p.1 0x04 false p.1
            [loWord p.2.1, hiWord p.2.1, BitVec.ofNat 32 p.2.2, BitVec.ofNat 32 t.k]) s5) part t.id .done

/-- The lowest free page of a pool (R365). -/
def pageFree (s : State) (p : Part) : Nat → Nat → Option Nat
  | _, 0 => none
  | i, n + 1 => if bit (read32 s (pageAddr p i)) 31 then pageFree s p (i + 1) n else some i

/-- Record a page with a sibling, up to 256 (R371). -/
def sibPage (w : Who) (s : State) (i : Nat) : State :=
  if w.k.sib && decide ((s.gang w.gk).sib.pages.length < 256) then
    sibStore (updSib s w.gk (fun r => { r with pages := r.pages ++ [i] })) w.gk
  else s

/-- Remove one record of a page. -/
def sibUnpage (w : Who) (s : State) (i : Nat) : State :=
  if w.k.sib then sibStore (updSib s w.gk (fun r => { r with pages := r.pages.erase i })) w.gk else s

/-- Allocate (R365): the status, the page and the state. -/
def pageAlloc (w : Who) (s : State) : Nat × Nat × State :=
  let p := s.part w.k.part
  let f := s.fn w.k.owner
  if !bit p.kvpCtl 31 then (2, 0, s)
  else if !w.k.pf && decide (f.kvqQuota ≤ f.kvqUsed) then (1, 0, s)
  else match pageFree s p 0 (bits p.kvpCtl 19 0 + 1) with
    | none => (2, 0, s)
    | some i =>
      let s1 := pageWrite s w.k.part i (2 ^ 31 + (if w.k.pf then 2 ^ 24 else w.k.vf * 2 ^ 25) + 1)
      let s2 := if w.k.pf then s1 else s1.updFn w.k.owner (fun f => { f with kvqUsed := f.kvqUsed + 1 })
      (0, i, sibPage w s2 i)

/-- Add a reference (R365). -/
def pageAdd (w : Who) (s : State) (i : Nat) : Nat × State :=
  if !pageOk s w.k.part i then (3, s)
  else
    let x := read32 s (pageAddr (s.part w.k.part) i)
    if bits x 15 0 = 65535 then (4, s) else (0, sibPage w (pageWrite s w.k.part i (x.toNat + 1)) i)

/-- A status, or with T its trap (R371). -/
def statusIf (t : Bool) (st : Nat) : Res Unit := trapIf (t && st ≠ 0) 0x13 0 (BitVec.ofNat 32 st)

/-- PGALLOC (R371). -/
def execPgalloc (h : Hdr) (t : Bool) (d : BitVec 9) : State → Host.Outcome State Fault Refusal :=
  runInstr h { dst := some (d.toNat, 2) } (fun w s => do
    acqGate w s
    let (st, i, s1) := pageAlloc w s
    statusIf t st
    res w h s1 d 2 (pairOf (BitVec.ofNat 32 st) (BitVec.ofNat 32 i)))

/-- PGFREE (R371): a release. -/
def execPgfree (h : Hdr) (t : Bool) (d : BitVec 9) (a : Src) : State → Host.Outcome State Fault Refusal :=
  runInstr h { srcs := [(.a, a, 1)], dst := some (d.toNat, 1) } (fun w s => do
    acqGate w s
    let i ← src32 w s a
    releaseGate w s
    let (st, s1) := pageDrop s w.k.part i.toNat
    statusIf t st
    res w h (if st = 0 then sibUnpage w s1 i.toNat else s1) d 1 (BitVec.ofNat 64 st))

/-- PGREF (R371). -/
def execPgref (h : Hdr) (t : Bool) (d : BitVec 9) (a : Src) : State → Host.Outcome State Fault Refusal :=
  runInstr h { srcs := [(.a, a, 1)], dst := some (d.toNat, 1) } (fun w s => do
    acqGate w s
    let i ← src32 w s a
    let (st, s1) := pageAdd w s i.toNat
    statusIf t st
    res w h s1 d 1 (BitVec.ofNat 64 st))

/-- INVR (R372): a ninth waits for the oldest. -/
def execInvr (h : Hdr) (a b c : Src) : State → Host.Outcome State Fault Refusal :=
  runInstr h { srcs := [(.a, a, 2), (.b, b, 2), (.c, c, 1)], sys := true } (fun w s => do
    let va ← addrOf w s a
    let len ← addrOf w s b
    let x ← src32 w s c
    trapIf (bits x 31 16 ≠ 0 || decide (2 ^ 54 ≤ va) || decide (2 ^ 54 < va + len)) 0x06 0 0x19
    trapIf (!w.k.pf && x.toNat ≠ w.k.asid) 0x06 0 0x1A
    if len = 0 then .ok s
    else do
      match w.th.wait, w.th.invrs with
      | .invr x, l => if l.contains x then .error (.wait (.invr x)) else .ok ()
      | _, x :: l => if 8 ≤ l.length + 1 then .error (.wait (.invr x)) else .ok ()
      | _, [] => .ok ()
      let (id, s1) := startInv s (some w.t) w.k.part x.toNat va (va + len - 1)
      .ok (s1.updThread w.t (fun th => { th with invrs := th.invrs ++ [id] })))

/-- INVWAIT (R373). -/
def execInvwait (h : Hdr) : State → Host.Outcome State Fault Refusal :=
  runInstr h { sys := true, cancel := .always } (fun w s => if w.th.invrs.isEmpty then .ok s else .error (.wait .retry))

end Sys2Proof.Machine
end

