-- ==== Sys2Proof/Machine/EventsCore.lean ====
section
/-!
DEFINITION. Events of the cores and the memory system: the heartbeat (R4), the PC hash table (R24), the decoupling queues
(R122-R125), results (R42), timed waits (R106, R139, R312), window accesses (R46, R54, R118, R120), atomics and reductions
(R337-R341), and the margin events (R280-R288). An event that is not enabled leaves the state unchanged (log 1).
-/
namespace Sys2Proof.Machine

/-- HEARTBEAT_TICK (R4, R137), of compute dies that have left reset (R436). -/
def execHeartbeatTick : State → Host.Outcome State Fault Refusal := fun s =>
  .next (if s.mgmt.up then tickWakes (s.setCyc ((s.hbt + 1) * 128)) else s)

/-- The members of a core's hash keys. -/
def tableMembers (s : State) (c : Nat) : List (PcKey × Nat) :=
  (s.threads.filter (fun (p : Tid × Thread) => p.2.st = .ready && (s.group p.1.vgid).core = c && (s.group p.1.vgid).saved.isNone)).map
    (fun p => let k := (s.who p.1).k; (⟨p.2.pc, k.asid, k.world, p.2.sys⟩, p.2.ready))

/-- The earliest ready cycle of a key's members. -/
def keyAge (ms : List (PcKey × Nat)) (k : PcKey) : Nat := ((ms.filter (fun m => m.1 = k)).map (·.2)).foldl min (2 ^ 64)

/-- The entry with the youngest age, the highest index among equals (R24). -/
def youngest (ms : List (PcKey × Nat)) (t : Tab PcKey) : Option (Nat × PcKey) :=
  (sortBy (fun (a b : Nat × PcKey) =>
    keyAge ms b.2 < keyAge ms a.2 || (keyAge ms a.2 = keyAge ms b.2 && b.1 ≤ a.1)) t).head?

/-- PC_HASH_DISPLACE (R24): 1,024 cycles after the key at the head of the overflow list entered it. -/
def execPcHashDisplace (core : Nat) : State → Host.Outcome State Fault Refusal := fun s =>
  let co := s.core core
  match co.waitKeys with
  | [] => .next s
  | (k, since) :: r =>
    match youngest (tableMembers s core) co.table with
    | none => .next s
    | some (i, old) =>
      let s1 := s.setCyc (max s.cyc (since + 1024))
      .next (s1.updCore core (fun c => { c with table := put c.table i k, waitKeys := r ++ [(old, s1.cyc)] }))

/-- The byte that a load of thread `t` numbered `id` takes from the youngest of its own earlier stores to it (R123). -/
def ownByte (s : State) (t : Tid) (id a : Nat) : Option Byte :=
  ((s.group t.vgid).queue.filter (fun e => e.tid = t && e.id < id)).reverse.findSome? (fun (e : StoreEntry) =>
    e.pieces.findSome? (fun p =>
      if meets s a 1 p.1 p.2.length then p.2[canon s a - canon s p.1]? else none))

/-- The register words that a load's bytes give (R123): .i8 is sign-extended, .f16 and .bf16 zero-extended. -/
def loadWords (ty : Ty) (bs : List Byte) : List Word :=
  match bs with
  | [b] => if ty = .i8 then [b.signExtend 32] else [b.setWidth 32]
  | _ => wordsOf bs

/-- The end of a load (R123, R290): its words arrive, those from the first lost one on are lost. -/
def loadEnd (s : State) (l : Load) (bs : List Byte) (lost : Option Nat) : State :=
  let ws := loadWords l.ty bs
  let s1 : State := sibBytes { s with loads := s.loads.filter (fun x => x.id ≠ l.id) } l.tid.vgid bs.length
  if l.dst = 0 then s1
  else match lost with
    | none => arriveWords s1 l.tid l.dst ws
    | some n => lossWords (arriveWords s1 l.tid l.dst (ws.take n)) l.tid (l.dst + n) (poisonRecord 1 n) (ws.length - n)

/-- Sample the next piece of a load (R123). -/
def loadSample (s : State) (l : Load) (a n : Nat) (r : List (Nat × Nat)) : State :=
  let own := (upto a n).map (ownByte s l.tid l.id)
  let bs := (own.zip (physRead s a n)).map (fun x => x.1.getD x.2)
  let bad := (own.zipIdx.filter (fun x => x.1.isNone)).findSome? (fun x => (granBad s (a + x.2)).map (fun g => (x.2, g)))
  let lost := match l.lost, bad with
    | some n, _ => some n
    | none, some (j, _) => some ((l.got.length + j) / 4)
    | none, none => none
  let s1 := match bad with
    | some (j, g) => countGran s (s.who l.tid).k.owner (s.who l.tid).k.part (a + j) g
    | none => s
  let s2 := overtake s1 l.tid l.id
  if r.isEmpty then loadEnd s2 l (l.got ++ bs) lost
  else { s2 with loads := s2.loads.map (fun x => if x.id = l.id then { x with pieces := r, got := l.got ++ bs, lost := lost } else x) }

/-- Whether the next piece of a load must still wait (R150, R152, log 5, log 86). -/
def loadHeld (s : State) (l : Load) (a n : Nat) : Bool :=
  behindLoad s l.tid l.id a n || behindAtomic s l.tid l.id a n || !mayPass s l.tid l.id || othersStores s l.tid || coreWrites s l.tid l.after a n

/-- LOAD_ARRIVAL (R122, R123, R290): the next piece of the load is read. -/
def execLoadArrival (id : Nat) : State → Host.Outcome State Fault Refusal := fun s =>
  match s.loads.find? (fun l => l.id = id) with
  | none => .next s
  | some l =>
    match l.pieces with
    | [] => .next (loadEnd s l l.got l.lost)
    | (a, n) :: r =>
      if loadHeld s l a n then .next s
      else .next (loadSample s l a n r)

/-- What a release waits for at the store queue's head (R125, R135, R339). -/
def releaseHeld (s : State) (e : StoreEntry) : Bool :=
  e.rel ≠ .relaxed && (s.loads.any (fun l => l.tid = e.tid && l.id < e.id) || s.atomics.any (fun a => a.tid = e.tid && a.id < e.id)
    || s.accs.any (fun a => a.tid = e.tid && a.id < e.id) || s.reds.any (fun r => r.tid = e.tid))

/-- Whether the next piece of a store must still wait (R125, R150, R152, log 5, log 86). -/
def storeHeld (s : State) (e : StoreEntry) (a n : Nat) : Bool :=
  releaseHeld s e || coreBefore s e.tid e.after || othersOvertaken s e.tid || !mayPass s e.tid e.id || s.reds.any (fun r => r.tid = e.tid)
    || behindLoad s e.tid e.id a n || s.atomics.any (fun x => x.tid = e.tid && x.id < e.id && meets s a n x.addr x.size)

/-- The head of a group's store queue after its next piece: the entry leaves with its last piece. -/
def queuePop (s : State) (v : Nat) (e : StoreEntry) (r : List (Nat × List Byte)) : State :=
  s.updGroup v (fun g => { g with queue := if r.isEmpty then g.queue.drop 1 else { e with pieces := r } :: g.queue.drop 1 })

/-- STORE_PERFORMED (R122, R124, R125, R291): the next piece of the oldest store of a group; one whose own data has an uncorrectable error writes no
byte and kills its gang. -/
def execStorePerformed (vgid : Nat) : State → Host.Outcome State Fault Refusal := fun s =>
  match (look s.groups vgid).bind (fun g => g.queue.head?) with
  | none => .next s
  | some e =>
    match e.red, e.pieces with
    | none, (a, bs) :: r =>
      if storeHeld s e a bs.length then .next s
      else if e.bad then .next (killIntegrity (queuePop s vgid e []) vgid (s.thread e.tid).pc (BitVec.ofNat 64 e.va) 5)
      else .next (performBytes (queuePop (overtake s e.tid e.id) vgid e r) a bs)
    | none, [] => .next (queuePop s vgid e [])
    | some _, _ => .next s

/-- SLEEP_WAKE (R106, R107): at the promised cycle of a SLEEP.P, whether its request has ended is settled, for a SAVED thread too. -/
def execSleepWake (t : Tid) : State → Host.Outcome State Fault Refusal := fun s =>
  match waiting s t, (s.thread t).st, (s.thread t).wait with
  | some (.sleep c), _, _ => .next (finishHeld (s.setCyc (max s.cyc c)) t)
  | x, .waiting, .promised c p =>
    let s1 := s.setCyc (max s.cyc c)
    let miss := ((linkOf s1 t p).bind (liveReq s1)).isSome
    let s2 := s1.updThread t (fun th => { th with wait := .slept c miss })
    .next (if x.isSome then wakeRetry s2 t else s2)
  | _, _, _ => .next s

/-- MWAIT_TIMEOUT (R139): the instruction issues again at its limit and writes 0. -/
def execMwaitTimeout (t : Tid) : State → Host.Outcome State Fault Refusal := fun s =>
  match waiting s t with
  | some (.mwait c _) => .next (wakeRetry (s.setCyc (max s.cyc c)) t)
  | _ => .next s

/-- EVWAIT_TIMEOUT (R312): as MWAIT's. -/
def execEvwaitTimeout (t : Tid) : State → Host.Outcome State Fault Refusal := fun s =>
  match waiting s t with
  | some (.evwait c _) => .next (wakeRetry (s.setCyc (max s.cyc c)) t)
  | _ => .next s

/-- Whether a thread is held by an access or a multicast. -/
def heldBy (s : State) (t : Tid) (id : Nat) : Bool := (s.thread t).st = .waiting && (s.thread t).wait = .access id

/-- Whether an access holds its thread: as its effect, or as a word its instruction waits for. -/
def holds (s : State) (a : WinAcc) : Bool :=
  if a.kind = .probe then (s.thread a.tid).st = .waiting && (s.thread a.tid).wait = .window else heldBy s a.tid a.id

/-- An access that has ended with a fault is taken by its accessor (R46, R54); the other words its instruction waited for go. -/
def accFault (s : State) (a : WinAcc) : State :=
  match a.ended with
  | none => s
  | some (c, x, i) =>
    let s1 := dropAcc s a.id
    if holds s a then
      let s2 : State := { s1 with accs := s1.accs.filter (fun b => !(b.kind = .probe && b.tid = a.tid)) }
      takeTrap s2 a.tid c (s.thread a.tid).pc (BitVec.ofNat 64 x) i
    else s1

/-- Whether an access must still wait for others under way (R150, R152, log 5, log 86); a wait for words of an operand is no access. -/
def accHeld (s : State) (a : WinAcc) : Bool :=
  accBehind s a || (a.kind ≠ .probe &&
    (othersStores s a.tid || !mayPass s a.tid a.id || accAfter s a
      || (a.writes && (othersOvertaken s a.tid || coreBefore s a.tid a.after))))

/-- A word that two threads reach has been read or written by one of them: what other threads of their cores have under way stands before what the
two do from now on (R152, log 86). -/
def meetAt (s : State) (t u : Tid) : State :=
  if t = u then s
  else { s with threads := s.threads.map (fun p => if p.1 = t || p.1 = u then (p.1, { p.2 with seen := s.nextId }) else p) }

/-- Attempt an access at its word (R118); a read checks the word first (R288). -/
def accStep (s : State) (a : WinAcc) : State :=
  let es := if a.reads && a.ended.isNone then eccAt s a.owner a.reg a.n else []
  if accHeld s a then s
  else if !es.isEmpty then eccRead s (s.who a.tid).k.owner a.tid a.owner es
  else match accTry s a with
  | .done s1 => if a.kind = .probe then accFinish s1 a else accFinish (meetAt (overtake s1 a.tid a.id) a.tid a.owner) a
  | .waits p => if a.closed s then accEnd s a 0x0A else putAcc s { a with waiting := true, overtaken := false, since := a.since.or (if p && a.bounded then some s.cyc else none) }
  | .traps c x i => accFault (putAcc s { a with ended := some (c, x, i) }) { a with ended := some (c, x, i) }

/-- A multicast whose deliveries are over (R120): the count is written, and a delivery that timed out, or whose window was revoked, traps
after it (R52, log 73). -/
def mcastEnd (s : State) (m : Mcast) : State :=
  let s1 : State := { s with mcasts := s.mcasts.filter (fun x => x.id ≠ m.id) }
  let s2 := operandArrive s1 m.tid m.dst [BitVec.ofNat 32 m.n]
  if !heldBy s m.tid m.id then s2
  else match m.timedOut with
    | none => finishHeld s2 m.tid
    | some r => takeTrap s2 m.tid 0x08 m.next (m.handle.setWidth 64) (windowInfo r m.off)

/-- WINDOW_ACCESS_COMPLETE (R118-R120, R342): an access or a whole multicast. -/
def execWindowAccessComplete (id : Nat) : State → Host.Outcome State Fault Refusal := fun s =>
  match s.accs.find? (fun a => a.id = id), s.mcasts.find? (fun m => m.id = id) with
  | some a, _ => .next (if a.ended.isSome then accFault s a else accStep s a)
  | none, some m => .next (if m.left = 0 then mcastEnd s m else s)
  | none, none => .next s

/-- WINDOW_WAIT_TIMEOUT (R46): the bound of an access that still finds its word PEND. -/
def execWindowWaitTimeout (id : Nat) : State → Host.Outcome State Fault Refusal := fun s =>
  match s.accs.find? (fun a => a.id = id) with
  | none => .next s
  | some a =>
    match a.since, a.ended, accTry s a with
    | some c, none, .waits true =>
      let s1 := accEnd (s.setCyc (max s.cyc (c + 65536))) a 9
      .next (match s1.accs.find? (fun x => x.id = id) with | some b => accFault s1 b | none => s1)
    | _, _, _ => .next s

/-- WREV_DRAIN_END (R54, R117). -/
def execWrevDrainEnd (t : Tid) : State → Host.Outcome State Fault Refusal := fun s =>
  match waiting s t with
  | some (.wrev c k) => .next (if inflight s c k = 0 then finishHeld s t else s)
  | _ => .next s

/-- RESULT_ARRIVAL (R42, R174). -/
def execResultArrival (id : Nat) : State → Host.Outcome State Fault Refusal := fun s =>
  match s.results.find? (fun r => r.id = id) with
  | none => .next s
  | some r =>
    let s1 : State := { s with results := s.results.filter (fun x => x.id ≠ id) }
    .next (recordAway (raise (r.writes.foldl (fun s w => arriveWord s r.tid w.1 w.2) s1) r.tid r.flags) r.tid)

/-- The new value of an atomic on a word, and the flags it raises (R338). -/
def atomValue (ty : Ty) (op : AtomOp) (old b c : Nat) : Nat × Flags :=
  match ty with
  | .f32 | .f64 | .f16 | .bf16 =>
    let f := fmtOfTy ty
    (match op with
     | .add => fAdd f .rne false old b
     | .min => fMinMax f false false false old b
     | .max => fMinMax f true false false old b
     | o => (atomApply o false (tyBits ty) old b c, 0))
  | _ => (atomApply op (tySigned ty) (tyBits ty) old b c, 0)

/-- Apply an operation to a word of device memory in one step (R316, R338): its old value, the flags and the state. -/
def seApply (s : State) (ty : Ty) (op : AtomOp) (pa : Nat) (b c : Nat) : Nat × Flags × State :=
  let n := 4 * tyWords ty
  let old := ofBytes (physRead s pa n)
  let (v, f) := atomValue ty op old b c
  let w := BitVec.ofNat 64 v
  (old, f, performBytes s pa ((bytes64 w).take n))

/-- What an atomic still stays behind (R150, log 5). -/
def atomicHeld (s : State) (a : Atomic) : Bool :=
  othersOvertaken s a.tid || a.behind s || !mayPass s a.tid a.id

def dropAtomic (s : State) (id : Nat) : State := { s with atomics := s.atomics.filter (fun a => a.id ≠ id) }

/-- Go on to the next element of a VATOM, or end it (R341). -/
def vatomStep (s : State) (a : Atomic) (i n : Nat) (op : AtomOp) : State :=
  let done := (s.thread a.tid).vdone ||| BitVec.ofNat 32 (2 ^ i)
  let s1 := s.updThread a.tid (fun th => { th with vdone := done })
  match vatomNext done n 0 33 with
  | none => finishHeld s1 a.tid
  | some j =>
    match vatomSend (s1.who a.tid) s1 a j n op done a.va with
    | .ok (id, s2) => s2.updThread a.tid (fun th => { th with wait := .vatom id })
    | .error (.trap c x m) => takeTrap s1 a.tid c (s1.thread a.tid).pc x m
    | .error _ => s1

/-- Return an atomic's old value to its issuer, or its loss (R42, R338, R341). -/
def atomicReturn (s : State) (a : Atomic) (old : Nat) (f : Flags) (bad : Option Gran) : State :=
  if !a.live then s
  else
    let s1 := match bad with
      | some g => countGran s (s.who a.tid).k.owner (s.who a.tid).k.part a.addr g
      | none => s
    match a.kind with
    | .vatom i n op =>
      let s2 := if a.nw then s1 else match bad with
        | some _ => loseWord s1 a.tid (a.dst + i) (poisonRecord 1 i)
        | none => writeWord s1 a.tid (a.dst + i) (BitVec.ofNat 32 old)
      vatomStep s2 a i n op
    | _ =>
      match bad with
      | some _ => operandLoss s1 a.tid a.dst (poisonRecord 1 0) (tyWords a.ty)
      | none => recordAway (raise (operandArrive s1 a.tid a.dst (wordsN (tyWords a.ty) (BitVec.ofNat 64 old))) a.tid f) a.tid

def Atomic.op (a : Atomic) : AtomOp :=
  match a.kind with
  | .op o => o
  | .cas => .cas
  | .vatom _ _ o => o

/-- Whether the register word a VATOM element writes is PEND: the write of the old value waits, the element has been applied (R40, R341). -/
def vatomPend (s : State) (a : Atomic) : Bool :=
  match a.kind with
  | .vatom i _ _ => a.live && !a.nw && (regGet s a.tid (a.dst + i)).tag = .pend
  | _ => false

/-- SE_ATOMIC_APPLY (R316, R337, R338, R341). -/
def execSeAtomicApply (id : Nat) : State → Host.Outcome State Fault Refusal := fun s =>
  match s.atomics.find? (fun a => a.id = id) with
  | none => .next s
  | some a =>
    match a.got with
    | some (old, bad) => .next (if vatomPend s a then s else atomicReturn (dropAtomic s id) a old 0 bad)
    | none =>
      if atomicHeld s a then .next s
      else
        let bad := (badAt s a.addr a.size).map (·.2)
        let (old, f, s1) := seApply (overtakeStores (overtake s a.tid a.id) a.tid a.id) a.ty a.op a.addr a.b.toNat a.c.toNat
        .next (if vatomPend s1 a then
            { s1 with atomics := s1.atomics.map (fun x => if x.id = id then { x with got := some (old, bad) } else x) }
          else atomicReturn (dropAtomic s1 id) a old f bad)

/-- RED_ACCEPT (R339): the reduction at the head of a group's store queue leaves it. -/
def execRedAccept (vgid : Nat) : State → Host.Outcome State Fault Refusal := fun s =>
  match (look s.groups vgid).bind (fun g => g.queue.head?) with
  | none => .next s
  | some e =>
    match e.red with
    | none => .next s
    | some r =>
      if releaseHeld s e || coreBefore s e.tid e.after then .next s
      else
        let w := s.who e.tid
        let s1 := queuePop s vgid e []
        .next { s1 with reds := s1.reds ++ [{ id := e.id, tid := e.tid, kernel := w.kn, va := e.va, asid := e.asid,
                                              part := w.k.part, world := w.k.world, r := r, ord := e.rel, after := e.after }] }

/-- The first reduction to fault is kept with the launch record (R340). -/
def redFault (s : State) (r : Red) (cause : Nat) (info : Word) : State :=
  let x : DWord × Word := (BitVec.ofNat 64 r.va, BitVec.ofNat 32 (cause + 256 * (info.toNat % 256)))
  s.updKernel r.kernel (fun k => { k with rfault := k.rfault.or (some x) })

/-- RED_APPLY (R339, R340): it translates at the SE that owns its address, in the order of acceptance for one word. -/
def execRedApply (id : Nat) : State → Host.Outcome State Fault Refusal := fun s =>
  match s.reds.find? (fun r => r.id = id) with
  | none => .next s
  | some r =>
    let phys := redPhys s r.part r.asid r.va r.world
    let earlier := (s.reds.takeWhile (fun x => x.id ≠ id)).any (fun x => x.tid = r.tid ||
      (x.asid = r.asid && x.part = r.part && x.va / 8 = r.va / 8) ||
      (match phys with | some a => redMeets s x.part x.asid x.va x.world x.size a r.size | none => false))
    let held := othersOvertaken s r.tid || !mayPass s r.tid r.id || (match phys with
      | some a => behindLoad s r.tid r.id a r.size
          || s.atomics.any (fun x => x.tid = r.tid && x.id < r.id && meets s a r.size x.addr x.size)
      | none => false)
    if earlier || held then .next s
    else
      let s0 := overtake s r.tid r.id
      let s1 : State := { s0 with reds := s0.reds.filter (fun x => x.id ≠ id) }
      let unit := 1200 + (match phys with | some a => dieOf (canon s a) | none => 0)
      match translate s1 { unit := unit, part := r.part, asid := r.asid, world := r.world, house := 0 } r.va .atomic (some .g) with
      | .error e => .next (redFault (walkCharge s1 (s.kernel r.kernel).owner e) r e.cause e.info)
      | .ok (pa, s2) =>
        match badAt s2 pa r.size with
        | some (_, .uncorrectable) => .next (redFault (countGran s2 (s.kernel r.kernel).owner r.part pa .uncorrectable) r 0x10 5)
        | _ => .next (seApply s2 r.r.ty r.r.op pa r.r.val.toNat 0).2.2

/-- The youngest whole store of a thread in its queue has an uncorrectable error in its data (R291). -/
def spoilStore (s : State) (t : Tid) : State :=
  match ((s.group t.vgid).queue.filter (fun e => e.tid = t && e.red.isNone && (e.pieces.foldl (fun n p => n + p.2.length) 0) = e.size)).reverse with
  | [] => s
  | e :: _ => s.updGroup t.vgid (fun g => { g with queue := g.queue.map (fun x => if x.id = e.id then { x with bad := true } else x) })

/-- INSTRUCTION_REPLAY (R281, R284-R289, log 14): a late transition in the issue group about to issue, in its stages or in its guarded dispatch;
or, at one of its threads, a check mismatch (0 of an integer check, 1 of the FP shadow), an error in a register word (2 in one bit, 3
uncorrectable), or one in a store's data (4). `again` holds the code, the thread's place in the group and the register. -/
def execInstructionReplay (core : Nat) (late : Bool) (again : Nat) : State → Host.Outcome State Fault Refusal := fun s0 =>
  let co := s0.core core
  let s := s0.setCyc (max s0.cyc (max co.free co.settle))
  if late && again = 0 then .next (if replayable co then (injected s core).getD (replay (seen s core) core 1) else s0)
  else if late then .next (if replayable co && groupGuarded s core then dispatchLate (seen s core) core else s0)
  else match co.last[again / 8 % 64]? with
    | none => .next s0
    | some t =>
      if (look s0.threads t).isNone then .next s0
      else if again % 8 < 2 then
        .next (if replayable co && checkedBy s core (again % 8) then (injected s core).getD (mismatch (seen s core) core t (again % 8)) else s0)
      else if again % 8 < 4 then
        .next (if again / 512 = 0 || decide ((s0.who t).k.nw ≤ again / 512) then s0
          else s0.updThread t (fun th => { th with ecc := put th.ecc (again / 512) (again % 8 = 3) }))
      else if again % 8 = 4 then .next (spoilStore s0 t)
      else .next s0

/-- MARGIN_STEP_RISE (R280): after 2^16 cycles without a replay. -/
def execMarginStepRise (core : Nat) : State → Host.Outcome State Fault Refusal := fun s =>
  let co := s.core core
  if !s.mgmt.up || co.quar || decide (mgnTarget co.mgnCtl ≤ co.step) then .next s
  else
    let s1 := s.setCyc (max s.cyc (co.calm + 2 ^ 16))
    .next (s1.updCore core (fun c => { c with step := c.step + 1, calm := s1.cyc, rise := s1.cyc + 4096 }))

/-- MARGIN_SETTLE_END (R280): a step change settles. -/
def execMarginSettleEnd (core : Nat) : State → Host.Outcome State Fault Refusal := fun s =>
  let co := s.core core
  if !s.mgmt.up then .next s else
  let s1 := s.setCyc (max s.cyc (max co.settle co.rise))
  .next (s1.updCore core (fun c => { c with settle := 0, rise := 0 }))

/-- REPLAY_WINDOW_END (R283): the next boundary on CYC. -/
def execReplayWindowEnd (core : Nat) : State → Host.Outcome State Fault Refusal := fun s =>
  let co := s.core core
  let n := replayWindow s co + 1
  if !s.mgmt.up then .next s else
  let s1 := s.setCyc (n * 2 ^ mgnWinw co.mgnCtl)
  .next (s1.updCore core (fun c => { c with wincnt := 0, winNo := n }))

/-- ESCALATION_WINDOW_END (R283): the next boundary on HBT. -/
def execEscalationWindowEnd (core : Nat) : State → Host.Outcome State Fault Refusal := fun s =>
  let co := s.core core
  let n := escWindow s co + 1
  if !s.mgmt.up then .next s else
  let s1 := s.setCyc (n * 2 ^ mgnEscw co.mgnCtl * 128)
  .next (s1.updCore core (fun c => { c with backcnt := 0, escNo := n }))

end Sys2Proof.Machine
end

