-- ==== Sys2Proof/Machine/Launch.lean ====
section
/-!
DEFINITION. Task-queue and launch instructions (R315, R329, R343-R345).
-/
namespace Sys2Proof.Machine

/-- QPUSH (R315, R343): a release at gang scope; a push beyond the quota is refused. The key and the entry are one operand (R45). -/
def execQpush (h : Hdr) (a : Src) (b : BitVec 9) : State → Host.Outcome State Fault Refusal :=
  runInstr h { srcs := [(.a, a, 1)], named := [(b.toNat, 1)], lists := fun _ _ => [(b.toNat, 8)] } (fun w s => do
    spanIf w b.toNat 8
    if busy s w.t b.toNat 8 then .error (.wait .retry)
    let key ← src32 w s a
    let ws ← listRead w s b.toNat 8
    releaseGate w s
    let c := s.core w.g.core
    let quota := bits (s.part w.k.part).qctl 23 0
    let c1 := qPush c { key := bits key 15 0, kernel := w.kn, words := ws }
    trapIf (decide (quota < c1.cellar.length) && decide (c.cellar.length < c1.cellar.length)) 0x0F 0 1
    .ok (s.updCore w.g.core (fun _ => c1)))

/-- The entry a pop takes, or zeros; a pop that must wait for a refill starts it (R315, R329). -/
def popWith (h : Hdr) (d a : BitVec 9) (take : Who → State → QEntry → Res State) : State → Host.Outcome State Fault Refusal :=
  runInstr h { named := [(a.toNat, 1)], dst := some (d.toNat, 1) } (fun w s => do
    acqGate w s
    spanIf w a.toNat 8
    if busy s w.t a.toNat 8 then .error (.wait .retry)
    match qPop (s.core w.g.core) w.kn with
    | .waits c => .error (.part .retry (s.updCore w.g.core (fun _ => c)))
    | .empty => do
      let s1 ← claim w s d.toNat 1
      .ok (pushResult (claimWords s1 w.t a.toNat 8) w.t ((d.toNat, 0) :: numbered a.toNat (List.replicate 8 0)) 0 false)
    | .got e c => do
      let s1 ← take w s e
      let s2 ← claim w (s1.updCore w.g.core (fun _ => c)) d.toNat 1
      .ok (pushResult (claimWords s2 w.t a.toNat 8) w.t ((d.toNat, if e.bereaved then 2 else 1) :: numbered a.toNat e.words) 0 false))

/-- QPOP (R315, R343). -/
def execQpop (h : Hdr) (d a : BitVec 9) : State → Host.Outcome State Fault Refusal := popWith h d a (fun _ s _ => .ok s)

/-- QDEPTH (R343). -/
def execQdepth (h : Hdr) (d : BitVec 9) : State → Host.Outcome State Fault Refusal :=
  runInstr h { dst := some (d.toNat, 1) } (fun w s =>
    resLater w s d 1 (BitVec.ofNat 64 (qDepth (s.core w.g.core) w.kn)))

/-- QSTEAL (R315): the first of the following cores of the cluster that holds entries of the kernel gives half of them. -/
def execQsteal (h : Hdr) (d : BitVec 9) : State → Host.Outcome State Fault Refusal :=
  runInstr h { dst := some (d.toNat, 1) } (fun w s => do
    let c := w.g.core
    let others := (upto 1 23).map (fun i => 24 * (c / 24) + (c + i) % 24)
    match others.find? (fun x => qDepth (s.core x) w.kn > 0) with
    | none => resLater w s d 1 0
    | some v => do
      let n := qDepth (s.core v) w.kn
      let (s1, m) := qMove s v c (fun e => e.kernel = w.kn) ((n + 1) / 2)
      resLater w s1 d 1 (BitVec.ofNat 64 m))

/-- Word 13 of a record, from the issuing kernel (R319). -/
def launchWords (w : Who) (ws : List Word) (x : DWord) : List Word :=
  ((ws.set 0 (loWord x)).set 1 (hiWord x)).set 13 (w.k.w 13)

/-- LAUNCH (R344): its checks are precise; it waits while the device launch queue holds 256 records. -/
def execLaunch (h : Hdr) (d a : BitVec 9) (x : DWord) : State → Host.Outcome State Fault Refusal :=
  runInstr h { named := [(a.toNat, 1)], dst := some (d.toNat, 1), len := 16, cycles := 2,
               lists := fun _ _ => [(a.toNat, 32)] } (fun w s => do
    acqGate w s
    rangeIf w a.toNat 32
    let ws ← listRead w s a.toNat 32
    trapIf (bits x 2 0 ≠ 0) 0x09 x 0
    let done := pairOf (ws.getD 6 0) (ws.getD 7 0)
    trapIf (bits done 5 0 ≠ 0) 0x09 done 0
    let (_, s1) ← deviceAt w s done.toNat .write
    releaseGate w s1
    if 256 ≤ (s1.part w.k.part).devq.length then .error (.wait .retry)
    let s2 ← claim w s1 d.toNat 1
    let (n, s3) := s2.newId
    .ok (s3.updPart w.k.part (fun p => { p with devq := p.devq ++
      [{ words := launchWords w ws x, fn := w.k.owner, parent := .group w.t.vgid, irq := false, order := n, ret := some (w.t, d.toNat) }] })))

/-- A read of memory whose granule fails its check: the destination's words are lost, and the failure is counted (R290, R292). -/
def lostRead (w : Who) (h : Hdr) (s : State) (pa d n : Nat) (g : Gran) : Res State :=
  let s1 := countGran s w.k.owner w.k.part pa g
  if h.nw then .ok (setLatch w s1 d 0 false) else (claim w s1 d n).map (fun s2 => operandLoss s2 w.t d (poisonRecord 1 0) n)

/-- LWAIT (R345): an acquire at company scope, in program order behind the thread's acquires. A granule that fails its check loses the word
(R290). -/
def execLwait (h : Hdr) (d : BitVec 9) (a : Src) : State → Host.Outcome State Fault Refusal :=
  runInstr h { srcs := [(.a, a, 2)], dst := some (d.toNat, 1), cancel := .always } (fun w s => do
    acqGate w s
    let va ← addrOf w s a
    trapIf (va % 64 ≠ 0) 0x09 (BitVec.ofNat 64 va) 0
    let (pa, s1) ← deviceAt w s va .read
    if ownPending w s1 pa 4 then .error (.wait .retry)
    match badAt s1 pa 4 with
    | some (_, g) => lostRead w h s1 pa d.toNat 1 g
    | none =>
      let x := read32 s1 pa
      if bits x 3 0 ∉ [3, 4, 5] then .error (.wait .retry) else res w h s1 d 1 (x.setWidth 64))

end Sys2Proof.Machine
end

