-- ==== Sys2Proof/Machine/Heirs.lean ====
section
/-!
DEFINITION. The estate instructions (R400-R409), and QPOP.h, which makes the task it takes a holding (R343, R392).
-/
namespace Sys2Proof.Machine

/-- Whether a holding is the issuing group's, in its partition, VF and world (R402). -/
def Est.mine (w : Who) (e : Est) : Bool :=
  e.holder = some w.t.vgid && e.part = w.k.part && e.vf = w.k.vf && e.world == w.k.world

/-- The holding that a handle names, checked (R401, R402). -/
def byHandle (w : Who) (s : State) (h : Word) : Res Est :=
  match findEst s (bits h 17 16) (bits h 13 0) with
  | none => .error (.trap 0x06 0 0x45)
  | some e => do
    trapIf (bits h 31 18 ≠ 0 || bits h 15 14 ≠ 0) 0x06 0 0x45
    trapIf (!e.mine w) 0x06 0 0x40
    .ok e

/-- A stray store found at a word (R387): the entry ends, the word stays; and whether that happened. -/
def strayFound (s : State) (pa : Nat) : State × Bool :=
  match estAt s pa with
  | some e => if stray s e then (strayEnd s e, true) else (s, false)
  | none => (s, false)

/-- A precise trap, of which no address is stated (R260, R402); what a stray store brought about stays. -/
def strayTrap (w : Who) (x : State × Bool) (cause : Nat) (info : Word) : Stop :=
  if x.2 then .after cause 0 info (unissued w x.1) else .trap cause 0 info

/-- The checks of a word that an estate entry names, by whoever uses it (R402): its partition, VF and world, and its kind. -/
def entryOk (w : Who) (x : State × Bool) (pa : Nat) (kind : EstKind) : Res Unit :=
  match estAt x.1 pa with
  | some e =>
    if e.part ≠ w.k.part || e.vf ≠ w.k.vf || e.world != w.k.world then .error (strayTrap w x 0x06 0x40)
    else if e.kind ≠ kind then .error (strayTrap w x 0x06 0x46)
    else .ok ()
  | none => .ok ()

/-- The word at an address, aligned and translated, with a stray store found first (R402, R387). -/
def estWord (w : Who) (s : State) (va : Nat) (need : Need) : Res (Nat × State × Bool) := do
  trapIf (va % 8 ≠ 0) 0x09 (BitVec.ofNat 64 va) 0
  let (pa, s1) ← deviceAt w s va need
  if ownPendingW w s1 pa 8 then .error (.wait .retry)
  .ok (pa, strayFound s1 pa)

/-- The issuer's holding at a word, of one kind (R402). -/
def holdingAt (w : Who) (x : State × Bool) (pa : Nat) (kind : EstKind) : Res Est :=
  match estAt x.1 pa with
  | none => .error (strayTrap w x 0x06 0x40)
  | some e =>
    if !e.mine w then .error (strayTrap w x 0x06 0x40)
    else if e.kind ≠ kind then .error (strayTrap w x 0x06 0x46)
    else .ok e

/-- The two checks of a creation (R382, R402). -/
def mayCreate (w : Who) (x : State × Bool) (die : Nat) : Res Unit :=
  if !seqOk x.1 w.t.vgid then .error (strayTrap w x 0x0E 0x21)
  else if !estateFree x.1 w die then .error (strayTrap w x 0x0E 0x20)
  else .ok ()

/-- HOLD (R403, R385). A waiting HOLD has its entry reserved, and takes its creation number as it issues (R382). A word whose granule fails its
check gives a lost result and takes nothing (R290, log 16). -/
def execHold (h : Hdr) (try_ : Bool) (d : BitVec 9) (a : Src) : State → Host.Outcome State Fault Refusal :=
  runInstr h { srcs := [(.a, a, 2)], dst := some (d.toNat, 2) } (fun w s => do
    acqGate w s
    let va ← addrOf w s a
    let (pa, x) ← estWord w s va .write
    let die := dieOf (canon s pa)
    let word := read64 x.1 pa
    let give (s : State) (st : Nat) (hd : Word) : Res State := resLater w s d 2 (pairOf (BitVec.ofNat 32 st) hd)
    entryOk w x pa .lock
    if let some (_, g) := badAt x.1 pa 8 then return ← lostRead w h x.1 pa d.toNat 2 g
    if lockState word = 0 then do
      mayCreate w x die
      let (n, s1) := nextSeq x.1 w.t.vgid
      let e := newEst s1 w.t.vgid die .lock n pa va
      let s2 := writeLockWord (addEst s1 e) pa (lockWord 1 w.t.vgid e.idx ((lockCount word + 1) % 2 ^ 24))
      give s2 0 e.handle
    else if lockState word = 3 then give x.1 2 0
    else if lockHolder word = w.t.vgid then give x.1 3 (BitVec.ofNat 32 (die * 2 ^ 16 + lockIndex word))
    else if try_ then give x.1 1 0
    else do
      mayCreate w x die
      cancelPoint w s
      let s1 ← claim w x.1 d.toNat 2
      let (n, s2) := nextSeq s1 w.t.vgid
      let (id, s3) := s2.newId
      let q : HoldWait := ⟨id, w.t, pa, va, d.toNat, n, estIdx s3 die, estateTake s3 w die = some true⟩
      .error (.hold (.hold id) { s3 with holdq := s3.holdq ++ [q], fresh := s3.fresh + 1 }))

/-- HFREE (R404, R385): a release. -/
def execHfree (h : Hdr) (a : Src) : State → Host.Outcome State Fault Refusal :=
  runInstr h { srcs := [(.a, a, 2)] } (fun w s => do
    acqGate w s
    let va ← addrOf w s a
    let (pa, x) ← estWord w s va .write
    let e ← holdingAt w x pa .lock
    releaseGate w s
    .ok (lockFree x.1 e))

/-- HFREE.task (R404, R392). -/
def execHfreeTask (h : Hdr) (a : Src) : State → Host.Outcome State Fault Refusal :=
  runInstr h { srcs := [(.a, a, 1)] } (fun w s => do
    acqGate w s
    let x ← src32 w s a
    let e ← byHandle w s x
    trapIf (e.kind ≠ .task) 0x06 0 0x46
    releaseGate w s
    .ok (taskFree s e))

/-- HEIR (R405, R383). -/
def execHeir (h : Hdr) (a b : Src) : State → Host.Outcome State Fault Refusal :=
  runInstr h { srcs := [(.a, a, 1), (.b, b, 1)] } (fun w s => do
    let x ← src32 w s a
    let k ← src32 w s b
    let e ← byHandle w s x
    let v := bits k 21 0
    let kv := s.kernel ((kernelOfGroup s v).getD 0)
    let live := liveGroup s v && kv.part = w.k.part && kv.vf = w.k.vf && kv.world == w.k.world
    trapIf (bits k 29 22 ≠ 0 || (bits k 31 30 = 1 && !live)) 0x06 0 0x42
    let heir : HeirKind × Nat := match bits k 31 30 with
      | 0 => (.none, 0)
      | 1 => (.vgid, v)
      | 2 => (.parent, match w.k.parent with | .group p => p | .host => hostVgid)
      | _ => (.host, hostVgid)
    .ok (putEst s { e with hkind := heir.1, heir := heir.2 }))

/-- HCONVEY (R406): a release. -/
def execHconvey (h : Hdr) (d : BitVec 9) (a : Src) : State → Host.Outcome State Fault Refusal :=
  runInstr h { srcs := [(.a, a, 1)], dst := some (d.toNat, 1) } (fun w s => do
    acqGate w s
    let x ← src32 w s a
    let e ← byHandle w s x
    releaseGate w s
    if !stray s e && (e.goesTo s none).1 = .group w.t.vgid then resLater w s d 1 2
    else
      let (s1, ended) := convey s e false none
      resLater w s1 d 1 (if ended then 1 else 0))

/-- Convey every holding of a group whose heir is not the group itself: the state, and how many were conveyed (R406, log 90). -/
def conveyOthers (v : Nat) : List Est → State → Nat → State × Nat
  | [], s, n => (s, n)
  | e :: r, s, n =>
    if !stray s e && (e.goesTo s none).1 = .group v then conveyOthers v r s n
    else
      let (s1, ended) := convey s e false none
      conveyOthers v r s1 (if ended then n else n + 1)

/-- HCONVEY.all (R406). -/
def execHconveyAll (h : Hdr) (d : BitVec 9) : State → Host.Outcome State Fault Refusal :=
  runInstr h { dst := some (d.toNat, 1) } (fun w s => do
    acqGate w s
    releaseGate w s
    let (s1, n) := conveyOthers w.t.vgid (holdings s w.t.vgid) s 0
    resLater w s1 d 1 (BitVec.ofNat 64 n))

/-- PROM (R376, R386, R407). -/
def execProm (h : Hdr) (d : BitVec 9) (a : Src) : State → Host.Outcome State Fault Refusal :=
  runInstr h { srcs := [(.a, a, 2)], dst := some (d.toNat, 1), cancel := .never } (fun w s => do
    acqGate w s
    let va ← addrOf w s a
    let (pa, x) ← estWord w s va .write
    let die := dieOf (canon s pa)
    if (estAt x.1 pa).isSome then .error (strayTrap w x 0x06 0x41)
    mayCreate w x die
    let (n, s1) := nextSeq x.1 w.t.vgid
    let e := newEst s1 w.t.vgid die .promise n pa va
    resLater w (writeLockWord (addEst s1 e) pa (promWord 0 w.t.vgid 0)) d 1 (e.handle.setWidth 64))

/-- KEEP (R376, R386, R407): a release. -/
def execKeep (h : Hdr) (ty : Ty) (a b : Src) : State → Host.Outcome State Fault Refusal :=
  runInstr h { srcs := [(.a, a, 2), (.b, b, tyWords ty)], cancel := .never } (fun w s => do
    acqGate w s
    let va ← addrOf w s a
    let v ← src w s b (tyWords ty)
    let (pa, x) ← estWord w s va .write
    let e ← holdingAt w x pa .promise
    releaseGate w s
    .ok (promKeep x.1 e (if tyWords ty = 1 then v.toNat % 2 ^ 32 else v.toNat)))

/-- PWAIT (R408): an acquire. One whose promise has ended gives the word that ended it. A granule that fails its check loses the word (R290). -/
def execPwait (h : Hdr) (d : BitVec 9) (a : Src) : State → Host.Outcome State Fault Refusal :=
  runInstr h { srcs := [(.a, a, 2)], dst := some (d.toNat, 2), cancel := .always } (fun w s => do
    if let .kept x := w.th.wait then
      return ← (if d ≠ 0 && busy s w.t d.toNat 2 then .error (.wait (.kept x)) else resLater w s d 2 x)
    acqGate w s
    let va ← addrOf w s a
    let (pa, x) ← estWord w s va .read
    entryOk w x pa .promise
    if let some (_, g) := badAt x.1 pa 8 then return ← lostRead w h x.1 pa d.toNat 2 g
    let word := read64 x.1 pa
    if lockState word = 0 then .error (if x.2 then .part (.promise (canon s pa)) x.1 else .wait (.promise (canon s pa)))
    else resLater w x.1 d 2 word)

/-- ESTQ (R409). -/
def execEstq (h : Hdr) (d : BitVec 9) (a : Src) : State → Host.Outcome State Fault Refusal :=
  runInstr h { srcs := [(.a, a, 1)], dst := some (d.toNat, 1), wrote := fun _ _ => [(d.toNat, 4)] } (fun w s => do
    let n ← src32 w s a
    rangeIf w d.toNat 4
    let l := holdings s w.t.vgid
    let count := BitVec.ofNat 32 l.length
    match l[n.toNat]? with
    | none => resWords w s d [0, 0, 0, count]
    | some e =>
      let x := 2 ^ 31 + (if e.bereaved then 2 ^ 30 else 0) + e.kind.code * 2 ^ 24 + e.hkind.code * 2 ^ 22 + e.heir % 2 ^ 22
      resWords w s d [e.handle, BitVec.ofNat 32 x, e.seq, count])

/-- ESTQ.rec (R409). -/
def execEstqRec (h : Hdr) (d : BitVec 9) (a : Src) : State → Host.Outcome State Fault Refusal :=
  runInstr h { srcs := [(.a, a, 1)], dst := some (d.toNat, 1), wrote := fun _ _ => [(d.toNat, 9)] } (fun w s => do
    let x ← src32 w s a
    rangeIf w d.toNat 9
    let e ← byHandle w s x
    match e.kind, claimOf s e with
    | .task, some q => resWords w s d ((q.words ++ List.replicate 8 0).take 8 ++ [BitVec.ofNat 32 q.key])
    | _, _ => .error (.trap 0x06 0 0x46))

/-- The claim record of a task in the cellar of the queue's core, where its partition has room for one (R392, log 95): its place and the state. -/
def claimRecord (s : State) (part : Nat) (q : QEntry) : Nat × State :=
  match pinTake s part 64 with
  | some (a, s1) => (a, performBytes s1 a (bytesOf (claimRecordWords q)))
  | none => (0, s)

/-- QPOP.h (R343, R392, R402): the task becomes a holding of the die whose cluster held the queue (R380). -/
def execQpopH (h : Hdr) (d a : BitVec 9) : State → Host.Outcome State Fault Refusal :=
  popWith h d a (fun w s q => do
    let die := coreDie w.g.core
    mayCreate w (s, false) die
    let (n, s1) := nextSeq s w.t.vgid
    let (pa, s2) := claimRecord s1 w.k.part q
    .ok (addEst s2 { newEst s2 w.t.vgid die .task n pa 0 with qcore := w.g.core, claim := some q }))

end Sys2Proof.Machine
end

