-- ==== Sys2Proof/Machine/Sibling.lean ====
section
/-!
DEFINITION. The sibling instructions (R376, R394-R397, R410, R411).
-/
namespace Sys2Proof.Machine

/-- R402: only a sibling issues these. -/
def sibIf (w : Who) : Res Unit := trapIf (!w.k.sib) 0x06 0 0x44

/-- Add a post to the slots, or to OVERFLOW (R394): the slots, OVERFLOW, and the COUNT of the post's own slot. -/
def slotPost (b : Ballot) (hash : DWord) (idx tick : Nat) : List BallotSlot × Nat × Nat :=
  match b.slots.find? (fun x => x.hash = hash) with
  | some y => (b.slots.map (fun x => if x.hash = hash then { x with count := x.count + 1 } else x), b.overflow, y.count + 1)
  | none =>
    if b.slots.length < 8 then (b.slots ++ [⟨hash, 1, idx, tick⟩], b.overflow, 1)
    else (b.slots, min 255 (b.overflow + 1), 0)

/-- The verdict's signals (R394, R377): to every placed gang of an unposted sibling; one that has not been placed never is. -/
def signalGangs (s : State) (k : Nat) (cancel : BitVec 64) (i : Nat) : State :=
  (s.gangs.filter (fun g => g.2.kernel = k && g.2.st ≠ .ended && bit cancel g.2.idx)).foldl (fun s g =>
    if g.2.st = .pending && g.2.groups.isEmpty then neverPlace s g.1 else s.updGang g.1 (fun x => { x with signal := some i })) s

/-- The cancellation of a late poster is pending at its gang from its post on (R396, R397, R399). -/
def latePost (s : State) (k i : Nat) : State :=
  (s.gangs.filter (fun g => g.2.kernel = k && g.2.idx = i && g.2.killed.isNone)).foldl (fun s g =>
    s.updGang g.1 (fun x => { x with cancel := x.cancel.or x.signal })) s

/-- A post of sibling `i` (R394-R396, log 89): its status, and the state. -/
def ballotPost (s : State) (k i : Nat) (hash : DWord) : Nat × State :=
  match ballotOf s k with
  | none => (2, s)
  | some b =>
    let me : BitVec 64 := BitVec.ofNat 64 (2 ^ i)
    if bit b.posted i then (2, s)
    else if b.verdict then (1, latePost (putBallot s { b with late := b.late + 1, posted := b.posted ||| me }) k i)
    else
      let (slots, full, n) := slotPost b hash i (min (s.hbt - b.baseTick) (2 ^ 32 - 1))
      let b1 := { b with slots := slots, overflow := full, posted := b.posted ||| me, counted := b.counted ||| me }
      if n = b.quorum then
        let cancel := ~~~b1.posted &&& BitVec.ofNat 64 (2 ^ b.sibn - 1)
        let s1 := putBallot s { b1 with verdict := true, vhash := hash, cancel := cancel }
        (0, ballotEnd (signalGangs s1 k cancel i) k i)
      else (0, ballotEnd (putBallot s b1) k i)

/-- SIBPOST (R410): a release, and a cancellation point. -/
def execSibpost (h : Hdr) (d : BitVec 9) (a : Src) : State → Host.Outcome State Fault Refusal :=
  runInstr h { srcs := [(.a, a, 2)], dst := some (d.toNat, 1), cancel := .always } (fun w s => do
    sibIf w
    let hash ← src w s a 2
    releaseGate w s
    let (st, s1) := ballotPost s w.kn w.gang.idx hash
    resLater w s1 d 1 (BitVec.ofNat 64 st))

/-- The issuer's ballot. -/
def myBallot (w : Who) (s : State) : Ballot :=
  (ballotOf s w.kn).getD { die := 0, idx := 0, kernel := w.kn, part := 0, sibn := 0, quorum := 0 }

/-- SIBQ (R411). -/
def execSibq (h : Hdr) (d : BitVec 9) : State → Host.Outcome State Fault Refusal :=
  runInstr h { dst := some (d.toNat, 1) } (fun w s => do
    rangeIf w d.toNat 4
    sibIf w
    let b := myBallot w s
    let f (c : Bool) (n : Nat) : Nat := if c then 2 ^ n else 0
    let x := f b.verdict 31 + f b.closed 30 + f b.noVerdict 29 + f (bit b.cancel w.gang.idx) 28 + f (bit b.posted w.gang.idx) 27
      + b.slots.length * 2 ^ 10
    let lead := match leading b.slots with | some y => y.count | none => 0
    resWords w s d [BitVec.ofNat 32 x, BitVec.ofNat 32 lead, loWord b.vhash, hiWord b.vhash])

/-- SIBWAIT (R411): an acquire. -/
def execSibwait (h : Hdr) (d : BitVec 9) : State → Host.Outcome State Fault Refusal :=
  runInstr h { dst := some (d.toNat, 2), cancel := .always } (fun w s => do
    acqGate w s
    sibIf w
    let b := myBallot w s
    if !b.closed then .error (.wait .retry)
    else resLater w s d 2 b.vhash)

/-- SIBACCT (R376, R411). -/
def execSibacct (h : Hdr) (d : BitVec 9) : State → Host.Outcome State Fault Refusal :=
  runInstr h { dst := some (d.toNat, 1) } (fun w s => do
    rangeIf w d.toNat 8
    sibIf w
    let b := myBallot w s
    let two (n : Nat) : List Word := [BitVec.ofNat 32 n, BitVec.ofNat 32 (n / 2 ^ 32)]
    resWords w s d ([BitVec.ofNat 32 b.cancelled, BitVec.ofNat 32 b.late] ++ two b.issue ++ two b.engine ++ two b.bytes))

end Sys2Proof.Machine
end

