-- ==== Sys2Proof/Machine/System.lean ====
section
/-!
DEFINITION. System instructions (R296-R312): system registers, SYSCALL, HALT, QUAR, CSAVE, cuts and the event inbox.
-/
namespace Sys2Proof.Machine

/-- CK_STAT (R303). -/
def ckStat (p : Part) : DWord :=
  let f (b : Bool) (n : Nat) : Nat := if b then 2 ^ n else 0
  BitVec.ofNat 64 (f p.ckActive 63 + f p.ckFault 62 + p.ckNo % 2 ^ 24 * 2 ^ 32
    + min (2 ^ 32 - 1) (match p.cut with | some c => cutRemain c | none => 0))

/-- A system register's value (R301). -/
def sysRead (w : Who) (s : State) : SysReg → DWord
  | .trapMask => (bankGet s w.t 23).setWidth 64
  | .trapBase => bankPair s w.t 24
  | .trapPc => bankPair s w.t 26
  | .trapAddr => bankPair s w.t 28
  | .trapInfo => (bankGet s w.t 30).setWidth 64
  | .trapCause => (bankGet s w.t 31).setWidth 64
  | .mgnCtl => (s.core w.g.core).mgnCtl
  | .mgnStat => mgnStat s (s.core w.g.core)
  | .mgnInj => (s.core w.g.core).mgnInj
  | .asid => BitVec.ofNat 64 w.k.asid
  | .world => if w.k.world then 1 else 0
  | .ckCtl => (s.part w.k.part).ckCtl
  | .ckStat => ckStat (s.part w.k.part)
  | .evBase => BitVec.ofNat 64 w.g.evBase

/-- Registers marked PF only (R301). -/
def sysPf : SysReg → Bool
  | .mgnCtl | .mgnStat | .mgnInj | .ckCtl | .ckStat => true
  | _ => false

/-- Registers marked read only (R301). -/
def sysRo : SysReg → Bool
  | .asid | .world | .ckStat | .evBase => true
  | _ => false

/-- A value that a write of a register rejects with TRAP_INFO 0x30 (R258, R282, R283, R302, R303). -/
def sysBad : SysReg → DWord → Bool
  | .trapMask, y => bits y 30 8 ≠ 0
  | .trapCause, y => bits y 31 9 ≠ 0
  | .mgnCtl, y => mgnCtlBad y
  | .mgnStat, y => bits y 19 17 ≠ 0 || bits y 14 4 ≠ 0
  | .mgnInj, y => mgnInjBad y
  | .ckCtl, y => bits y 47 46 = 3 || bits y 9 1 ≠ 0
  | _, _ => false

/-- Write a system register. -/
def sysWrite (w : Who) (s : State) (y : DWord) : SysReg → State
  | .trapMask => bankPut s w.t 23 (loWord y)
  | .trapBase => bankPutPair s w.t 24 y
  | .trapPc => bankPutPair s w.t 26 y
  | .trapAddr => bankPutPair s w.t 28 y
  | .trapInfo => bankPut s w.t 30 (loWord y)
  | .trapCause => bankPut s w.t 31 (loWord y)
  | .mgnCtl => mgnCtlWrite s w.g.core y
  | .mgnStat => s.updCore w.g.core (fun c => { c with rtotal := (hiWord y).toNat })
  | .mgnInj => mgnInjWrite s w.g.core y
  | .ckCtl => s.updPart w.k.part (fun p => { p with ckCtl := y })
  | .asid | .world | .ckStat | .evBase => s

/-- SRD (R302). -/
def execSrd (h : Hdr) (ty : Ty) (d : BitVec 9) (reg : SysReg) : State → Host.Outcome State Fault Refusal :=
  runInstr h { dst := some (d.toNat, tyWords ty), sys := true, pf := sysPf reg } (fun w s =>
    resLater w s d (tyWords ty) (sysRead w s reg))

/-- The oldest entry of a queue, or VALID 0. -/
def logHead (l : List DWord) : DWord := l.headD 0

/-- SRD of MGN_LOG or FLT_LOG (R302, R303). -/
def execSrdLogPop (h : Hdr) (ty : Ty) (d : BitVec 9) (reg : LogReg) : State → Host.Outcome State Fault Refusal :=
  runInstr h { dst := some (d.toNat, tyWords ty), sys := true, pf := reg = .mgnLog } (fun w s =>
    match reg with
    | .mgnLog => resLater w (s.updCore w.g.core (fun c => { c with mgnLog := c.mgnLog.drop 1 })) d (tyWords ty)
        (logHead (s.core w.g.core).mgnLog)
    | .fltLog => resLater w (s.updFn w.k.owner (fun f => { f with fltLog := f.fltLog.drop 1 })) d (tyWords ty)
        (logHead (s.fn w.k.owner).fltLog))

/-- The value a write leaves: .z32 keeps the high word (R302). -/
def swrValue (w : Who) (s : State) (ty : Ty) (reg : SysReg) (y : DWord) : DWord :=
  if tyWords ty = 1 then pairOf (loWord y) (hiWord (sysRead w s reg)) else y

/-- SWR to one register (R302). -/
def swrTo (h : Hdr) (ty : Ty) (reg : SysReg) (b : Src) : State → Host.Outcome State Fault Refusal :=
  runInstr h { srcs := [(.b, b, tyWords ty)], sys := true, pf := sysPf reg } (fun w s => do
    let x ← src w s b (tyWords ty)
    let y := swrValue w s ty reg x
    trapIf (sysRo reg) 0x06 0 0x31
    trapIf (sysBad reg y) 0x06 0 0x30
    trapIf (reg = .trapBase && bits y 2 0 ≠ 0) 0x09 y 0
    .ok (sysWrite w s y reg))

/-- SWR (R302). -/
def execSwr (h : Hdr) (ty : Ty) (reg : SysReg) (b : Src) : State → Host.Outcome State Fault Refusal := swrTo h ty reg b

/-- SWR of MGN_INJ (R283, R302). -/
def execSwrMgnInj (h : Hdr) (ty : Ty) (b : Src) : State → Host.Outcome State Fault Refusal := swrTo h ty .mgnInj b

/-- SWR of MGN_LOG or FLT_LOG empties the queue (R302). -/
def execSwrLogClear (h : Hdr) (ty : Ty) (reg : LogReg) (b : Src) : State → Host.Outcome State Fault Refusal :=
  runInstr h { srcs := [(.b, b, tyWords ty)], sys := true, pf := reg = .mgnLog } (fun w s => do
    let _ ← src w s b (tyWords ty)
    match reg with
    | .mgnLog => .ok (s.updCore w.g.core (fun c => { c with mgnLog := [] }))
    | .fltLog => .ok (s.updFn w.k.owner (fun f => { f with fltLog := [] })))

/-- SYSCALL (R298). -/
def execSyscall (h : Hdr) (b : Src) : State → Host.Outcome State Fault Refusal :=
  runInstr h { srcs := [(.b, b, 1)], cancel := .never } (fun w s => do
    let v ← src32 w s b
    .error (.after 0x16 0 v s))

/-- The end of a kernel by HALT (R304): every gang is killed finally, and what a first final kill reported is kept. -/
def haltKernel (s : State) (kn : Nat) (status : Word) (pc : DWord) : State :=
  let s1 := s.updKernel kn (fun k => { k with halted := true, hstatus := status, kill := k.kill.or (some ⟨0, pc, 0, 0⟩) })
  (s.gangs.filter (fun g => g.2.kernel = kn && g.2.st ≠ .ended)).foldl (fun s g => killGang s g.1 true none) s1

/-- HALT (R304). -/
def execHalt (h : Hdr) (b : Src) : State → Host.Outcome State Fault Refusal :=
  runInstr h { srcs := [(.b, b, 1)], sys := true } (fun w s => do
    let v ← src32 w s b
    .ok (haltKernel s w.kn v w.th.pc))

/-- QUAR (R305). -/
def execQuar (h : Hdr) (a : Src) : State → Host.Outcome State Fault Refusal :=
  runInstr h { srcs := [(.a, a, 1)], sys := true, pf := true } (fun w s => do
    let x ← src32 w s a
    let cl := bits x 10 5
    let k := bits x 4 0
    trapIf (bits x 31 11 ≠ 0 || decide (23 < k) || decide (47 < cl) || !bit (s.part w.k.part).clu cl) 0x06 0 0x35
    .ok (quarantine s (24 * cl + k) 3))

def round64 (n : Nat) : Nat := (n + 63) / 64 * 64

/-- The sections of a group's save area (R270): the offsets of windows, barriers, register images and tags, and its size. -/
structure AreaShape where
  winOff : Nat
  barOff : Nat
  regOff : Nat
  tagOff : Nat
  size : Nat
  deriving DecidableEq, Repr

def areaShape (s : State) (v : Nat) : AreaShape :=
  let k := (s.who ⟨v, 0, 0⟩).k
  let wins := (openSlots s v).length
  let bars := (s.barriers.filter (fun b => b.owner.vgid = v)).length
  let winOff := 256 + 256 * (k.width * k.depth)
  let barOff := round64 (winOff + 32 * wins)
  let regOff := round64 (barOff + 32 * bars)
  let tagOff := round64 (regOff + k.depth * (4 * k.width * k.nw))
  ⟨winOff, barOff, regOff, tagOff, tagOff + k.depth * (k.width * k.nw / 4)⟩

/-- Areas packed from a base, in order (R306). -/
def packAreas (s : State) (whole : Bool) : List Nat → Nat → State
  | [], _ => s
  | v :: r, base =>
    let a := areaShape s v
    packAreas (stopGroup (s.updGroup v (fun g => { g with
      area := some { base := base, pool := false, regOff := a.regOff, tagOff := a.tagOff, whole := whole } })) v) whole r (base + round64 a.size)

/-- A CSAVE whose saves have begun (R306): it ends when each group it named has been saved or is gone, with the number saved. -/
def csaveEnd (w : Who) (h : Hdr) (s : State) (d : BitVec 9) (n : Nat) (vs : List Nat) : Res State :=
  if vs.any (fun v => (look s.groups v).isSome) || (d ≠ 0 && !h.nw && busy s w.t d.toNat 1) then .error (.hold (.csave n vs) s)
  else res w h s d 1 (BitVec.ofNat 64 n)

/-- CSAVE (R306): it waits until every group it named has been saved, and is a cancellation point before the first save only. Quarantined
cores add nothing. -/
def execCsave (h : Hdr) (whole : Bool) (d : BitVec 9) (a b c : Src) : State → Host.Outcome State Fault Refusal :=
  runInstr h { srcs := [(.a, a, 2), (.b, b, 1), (.c, c, 1)], dst := some (d.toNat, 1), sys := true, pf := true } (fun w s =>
    match w.th.wait with
    | .csave n vs => csaveEnd w h s d n vs
    | _ => do
      let base ← addrOf w s a
      let x ← src32 w s b
      let room ← src32 w s c
      let cl := bits x 29 24
      let cores := ((upto 0 24).filter (bit x)).map (fun k => 24 * cl + k)
      trapIf (decide (47 < cl) || !bit (s.part w.k.part).clu cl) 0x06 0 0x23
      trapIf (cores.contains w.g.core) 0x06 0 0x32
      trapIf (base % 64 ≠ 0) 0x09 (BitVec.ofNat 64 base) 0
      let vs := (cores.filter (fun k => !(s.core k).quar)).flatMap (residents s)
      let need := vs.foldl (fun n v => n + round64 (areaShape s v).size) 0
      if room.toNat < need then res w h s d 1 0xFFFFFFFF
      else do
        trapIf (vs ≠ [] && !(inRanges (s.part w.k.part) base && inRanges (s.part w.k.part) (base + need - 1))) 0x06 (BitVec.ofNat 64 base) 0x1B
        cancelPoint w s
        if d ≠ 0 && !h.nw && busy s w.t d.toNat 1 then .error (.wait .retry)
        let s1 := s.updCluster cl (fun y => { y with hold := y.hold ||| BitVec.ofNat 24 (bits x 23 0) })
        if vs = [] then res w h s1 d 1 0
        else .error (.hold (.csave 0 vs) (packAreas s1 whole vs base)))

/-- A cut among the accepted ones of a partition, in the order of their ticks (R307, log 46). -/
def cutPut (p : Part) (c : Cut) : Part :=
  let l := sortBy (fun (a b : Cut) => a.tick ≤ b.tick) (p.cut.toList ++ p.later ++ [c])
  { p with cut := l.head?, later := l.drop 1, latest := some (c.tick, c.no), lastCut := none }

/-- CKCUT (R307): no cut while one is being copied. -/
def execCkcut (h : Hdr) (d : BitVec 9) (a : Src) : State → Host.Outcome State Fault Refusal :=
  runInstr h { srcs := [(.a, a, 2)], dst := some (d.toNat, 2), sys := true, pf := true } (fun w s => do
    let t ← src w s a 2
    let p := s.part w.k.part
    if p.ckActive then resLater w s d 2 0x8000000000000000
    else do
      let tick := max t.toNat (s.hbt + 1)
      let cut : Cut := { tick := tick, dest := bits p.ckCtl 45 10 * 65536, asidsel := bits p.ckCtl 63 48,
                         sel := bits p.ckCtl 47 46, no := s.nextId, regs := bit p.ckCtl 0 }
      resLater w (s.newId.2.updPart w.k.part (cutPut · cut)) d 2 (BitVec.ofNat 64 tick))

/-- The tick of a partition's latest cut, and its outcome once it has one (R308). -/
def latestCut (p : Part) : Option (Nat × Option Bool) :=
  p.latest.map (fun t => (t.1, p.lastCut))

/-- CKWAIT (R308). -/
def execCkwait (h : Hdr) (d : BitVec 9) (a : Src) : State → Host.Outcome State Fault Refusal :=
  runInstr h { srcs := [(.a, a, 2)], dst := some (d.toNat, 1), cancel := .always } (fun w s => do
    let t ← src w s a 2
    match latestCut (s.part w.k.part) with
    | some (tick, out) =>
      if tick ≠ t.toNat then res w h s d 1 2
      else match out with
        | none => .error (.wait .retry)
        | some f => res w h s d 1 (if f then 1 else 0)
    | none => res w h s d 1 2)

/-- Take the entry at HEAD (R312); when the ring empties with entries dropped, an overflow entry is posted (R311). -/
def inboxPop (s : State) (v base : Nat) : List Word × State :=
  let (hd, n, dropped) := inbox s base
  if n = 0 then (List.replicate 8 0, s)
  else
    let ws := wordsOf (physRead s (base + 32 * hd) 32)
    let s1 := performBytes s (base + 32 * hd) (List.replicate 32 0)
    let s2 := performBytes s1 base (bytesOf [BitVec.ofNat 32 (hd % 63 + 1), BitVec.ofNat 32 (n - 1)])
    if n = 1 && dropped > 0 then
      let s3 := performBytes s2 (base + 8) (bytesOf [0])
      (ws, postInbox s3 v 0x0F false v [BitVec.ofNat 32 dropped])
    else (ws, s2)

/-- EVPOP (R312): an acquire. An entry whose granule fails its check is lost (R290). -/
def execEvpop (h : Hdr) (d : BitVec 9) : State → Host.Outcome State Fault Refusal :=
  runInstr h { dst := some (d.toNat, 1) } (fun w s => do
    acqGate w s
    spanIf w d.toNat 8
    if ownPendingW w s w.g.evPhys 2048 then .error (.wait .retry)
    trapIf (inboxBad s w.g.evPhys) 0x06 0 0x34
    let (head, count, _) := inbox s w.g.evPhys
    let at_ := w.g.evPhys + 32 * head
    let (ws, s1) := inboxPop s w.t.vgid w.g.evPhys
    match (if count = 0 then none else badAt s at_ 32) with
    | some (_, g) => (claimList w (countGran s1 w.k.owner w.k.part at_ g) d.toNat 8).map (fun s2 => lossWords s2 w.t d.toNat (poisonRecord 1 0) 8)
    | none => resWords w s1 d ws)

/-- EVWAIT (R312): the limit is kept as an absolute cycle, at which another step ends the wait; a post in that time ends it with 1,
whoever pops the entry. -/
def execEvwait (h : Hdr) (d : BitVec 9) (b : Src) : State → Host.Outcome State Fault Refusal :=
  runInstr h { srcs := [(.b, b, 1)], dst := some (d.toNat, 1), cancel := .always } (fun w s => do
    let n ← src32 w s b
    let limit := match w.th.wait with | .evwait c _ => c | _ => s.cyc + n.toNat
    let full := d ≠ 0 && !h.nw && busy s w.t d.toNat 1
    if w.th.wait = .posted then (if full then .error (.wait .posted) else res w h s d 1 1)
    else if (inbox s w.g.evPhys).2.1 > 0 then res w h s d 1 1
    else if limit ≤ s.cyc then res w h s d 1 0
    else if full then .error (.wait .retry)
    else .error (.wait (.evwait limit d.toNat)))

end Sys2Proof.Machine
end

