-- ==== Sys2Proof/Machine/Place.lean ====
section
/-!
DEFINITION. Placement and the save pool: where a group fits (R18, R19, R36, R325), what a gang's reservations need (R324), the
save pool (R327, R393), kernel completion records (R323), and the accounts of pending gangs (R325-R327).
-/
namespace Sys2Proof.Machine

/-- Lane-bank words of a core, of 64 lanes of 8,192 (R19). -/
def coreWords : Nat := 64 * 8192

/-- Lane-bank words that a group takes. -/
def groupWords (k : Kernel) : Nat := k.width * k.depth * k.nw

/-- The spans in use on a core: first lane, lanes, base word and words. -/
def spans (s : State) (core : Nat) : List (Nat × Nat × Nat × Nat) :=
  (s.groups.filter (fun g => g.2.core = core && g.2.saved.isNone)).flatMap (fun g =>
    let k := s.kernel (s.gang g.2.gang).kernel
    g.2.bases.map (fun b => (g.2.lane0, k.width, b, k.nw)))

def spanFree (used : List (Nat × Nat × Nat × Nat)) (l w b n : Nat) : Bool :=
  used.all (fun u => decide (u.1 + u.2.1 ≤ l) || decide (l + w ≤ u.1) || decide (u.2.2.1 + u.2.2.2 ≤ b) || decide (b + n ≤ u.2.2.1))

/-- The base words at which a layer may go, on one lane base: at an edge of a run of words that are free in every lane, so that none of
the runs is broken up (R19, R36). -/
def basesFree (used : List (Nat × Nat × Nat × Nat)) (l w n : Nat) : List Nat :=
  let fits (b : Nat) : Bool := decide (b + n ≤ 8192) && spanFree used l w b n
  let edge (b : Nat) : Bool := b = 0 || b + n = 8192 || !spanFree used l w (b - 32) 32 || !spanFree used l w (b + n) 32
  ((upto 0 256).map (fun i => 32 * i)).filter (fun b => fits b && edge b)

/-- A base word for each layer on one lane base; which free ones, the device chooses: a free value (R36, log 10). -/
def basesAt (used : List (Nat × Nat × Nat × Nat)) (l w n x : Nat) : Nat → Option (List Nat)
  | 0 => some []
  | d + 1 =>
    let cs := basesFree used l w n
    match cs[x % cs.length]? with
    | none => none
    | some b => (basesAt (used ++ [(l, w, b, n)]) l w n (x / 256) d).map (fun r => b :: r)

/-- The lowest lane base at which a group fits on a core (R18), with its base words. -/
def fitOn (s : State) (core : Nat) (k : Kernel) : Option (Nat × List Nat) :=
  (upto 0 (64 / k.width)).findSome? (fun i =>
    (basesAt (spans s core) (k.width * i) k.width k.nw (Config.freeValue s.fresh).toNat k.depth).map (fun b => (k.width * i, b)))

/-- Free words of a core. -/
def freeWordsOf (s : State) (core : Nat) : Nat :=
  coreWords - (spans s core).foldl (fun n u => n + u.2.1 * u.2.2.2) 0

/-- A cluster out of service: harvested by the image in use, or with no image, where every die stays in reset (R435, R436). -/
def clusterOut (s : State) (c : Nat) : Bool :=
  match s.mgmt.active with
  | some i => bit i.harvest c
  | none => true

/-- Whether a core takes placement (R286, R330, R306, R435). -/
def coreOpen (s : State) (core : Nat) : Bool :=
  !clusterOut s (clusterOf core) && !(s.core core).quar && !bit (s.cluster (clusterOf core)).hold (core % 24)

/-- Whether a core has the window slots that a group of a kernel reserves (R324), beside those that are spoken for; in forerunner mode none
are reserved. -/
def slotsFit (s : State) (core : Nat) (k : Kernel) : Bool :=
  k.fr || decide (slotDemand s core + k.windows ≤ 256)

/-- The core for one group of a cluster: the one with the most free words among those it fits on, the lowest on a tie
(R269, R325). -/
def bestCore (s : State) (cl : Nat) (k : Kernel) (ok : Nat → Bool) : Option (Nat × Nat × List Nat) :=
  let cs := (upto (24 * cl) 24).filter (fun c => coreOpen s c && ok c)
  (sortBy (fun (a b : Nat) => freeWordsOf s b < freeWordsOf s a || (freeWordsOf s a = freeWordsOf s b && a ≤ b)) cs).findSome?
    (fun c => (fitOn s c k).map (fun f => (c, f.1, f.2)))

/-- Put a group's registers on a core. -/
def seatGroup (s : State) (v core lane0 : Nat) (bases : List Nat) : State :=
  { s.updGroup v (fun g => { g with core := core, lane0 := lane0, bases := bases, saved := none, stop := none }) with fresh := s.fresh + 1 }

/-- Remap entries in use on a core (R240, R241). -/
def remapUsed (s : State) (core : Nat) : Nat := (s.core core).remap.length

/-- Take `n` bytes of a partition's save pool, the lowest that are free and lie inside the partition's ranges (R422, log 9). -/
def poolTake (p : Part) (n : Nat) : Option Nat :=
  let base := bits p.savePool 51 6 * 64
  let fits (a : Nat) : Bool := decide (base ≤ a) && decide (a + n ≤ base + p.saveSize.toNat) &&
    runInRanges p a n && p.pool.all (fun u => decide (u.1 + u.2 ≤ a) || decide (a + n ≤ u.1))
  ((sortBy (· ≤ ·) (base :: p.pool.map (fun u => round64 (u.1 + u.2)))).find? fits)

def poolAdd (s : State) (part a n : Nat) : State := s.updPart part (fun p => { p with pool := p.pool ++ [(a, n)] })

/-- The registers' layers of a group, one remap entry each. -/
def layersOf (s : State) (v : Nat) : Nat := (s.who ⟨v, 0, 0⟩).k.depth

/-- Remap entries of a core that no saved group has and no stopping group will take (R241). -/
def remapRoom (s : State) (core : Nat) : Nat :=
  64 - remapUsed s core - ((residents s core).filter (fun v => (s.group v).stop.isSome)).foldl (fun n v => n + layersOf s v) 0

/-- Whether the remap table of a core has an entry for every layer of its groups (R241). -/
def remapFits (s : State) (core : Nat) : Bool :=
  decide (((residents s core).filter (fun v => (s.group v).stop.isNone)).foldl (fun n v => n + layersOf s v) 0 ≤ remapRoom s core)

/-- Stop a group that is to be saved, where its core has the remap entries for it; else it stays as it is (R241, R265). -/
def stopFits (s : State) (v : Nat) : State :=
  if (s.group v).stop.isSome || decide (layersOf s v ≤ remapRoom s (s.group v).core) then stopGroup s v else s

/-- Give a group a save area from the partition's pool, and stop it (R265, R327); none where the pool cannot hold it, or the remap table
cannot (R241). -/
def planSave (s : State) (v : Nat) : Option State :=
  let part := (s.who ⟨v, 0, 0⟩).k.part
  let a := areaShape s v
  if remapRoom s (s.group v).core < layersOf s v then none
  else (poolTake (s.part part) a.size).map (fun b =>
    stopGroup ((poolAdd s part b a.size).updGroup v (fun g => { g with
      area := some { base := b, pool := true, regOff := a.regOff, tagOff := a.tagOff } })) v)

/-- Plan the saves of several groups, all or none (R327). -/
def planSaves (s : State) : List Nat → Option State
  | [] => some s
  | v :: r => match planSave s v with
    | some s1 => planSaves s1 r
    | none => none

/-- Whether a die's attic has the entries that a gang reserves (R324). -/
def atticFits (s : State) (die : Nat) (k : Kernel) : Bool :=
  k.fr || (decide (reserved s die Kernel.barriers + looseBarriers s die + k.barriers ≤ 8192)
    && decide (reserved s die Kernel.monitors + looseMonitors s die + k.monitors ≤ 8192)
    && decide (reserved s die Kernel.estate + looseEstate s die + k.estate ≤ 16384))

/-- Whether a kernel's gangs may go to a cluster: one of its partition, and of its world, since a thread takes the world of its
cluster (R294, R325, R421, log 26). -/
def clusterOk (s : State) (k : Kernel) (c : Nat) : Bool :=
  bit (s.part k.part).clu 63 && bit (s.part k.part).clu c && bit (s.part k.part).sec c == k.world

/-- Reserve the window slots of a group on its core until its gang retires (R324, R35). -/
def reserveSlots (s : State) (v core : Nat) (k : Kernel) : State :=
  if k.fr then s else s.updGang (s.group v).gang (fun g => { g with slotCores := g.slotCores ++ [core] })

/-- A virtual address for an inbox, apart from those of the address space's other inboxes; which one is a free value (R309, log 67). -/
def inboxVa (s : State) (k : Kernel) : Nat :=
  let used := ((inboxes s).filter (fun b => b.1.part = k.part && b.1.asid = k.asid)).map (fun b => b.2.1 / 2048)
  (pickFree (2 ^ 43) used (Config.freeValue s.fresh).toNat (used.length + 1)).getD 0 * 2048

/-- The inbox of a group that is to be placed (R309): the one it kept, or one taken now; none where its partition has no room for one (R422). -/
def giveInbox (s : State) (k : Kernel) (v : Nat) : Option State :=
  match (look (s.gang (s.group v).gang).inbox v).filter (fun b => b.2 ≠ 0) with
  | some b => some (s.updGroup v (fun g => { g with evBase := b.1, evPhys := b.2 }))
  | none => (pinTake s k.part 2048).map (fun x =>
      { x.2.updGroup v (fun g => { g with evBase := inboxVa x.2 k, evPhys := x.1 }) with fresh := x.2.fresh + 1 })

/-- Seat the groups of a gang one after another, each with its inbox (R325, R309). -/
def seatAll (s : State) (cl : Nat) (k : Kernel) : List Nat → Option State
  | [] => some s
  | v :: r =>
    match giveInbox s k v with
    | none => none
    | some s1 =>
      match bestCore s1 cl k (fun c => slotsFit s1 c k) with
      | some (c, l, b) => seatAll (reserveSlots (seatGroup s1 v c l b) v c k) cl k r
      | none => none

/-- A VGID for a new group: some number that no live group has, none awaits its relaunch under, and none has left within 2^16
ticks (R21, log 68); which one is a free value (log 6). -/
def newVgid (s : State) : Option Nat :=
  let used := s.groups.map (·.1) ++ (s.gangs.filter (fun g => g.2.st ≠ .ended)).flatMap (fun g => g.2.groups)
    ++ (s.retired.filter (fun r => decide (s.hbt < r.2.2 + 65536))).map (·.1)
  pickFree hostVgid used (Config.freeValue s.fresh).toNat (used.length + 1)

/-- New groups of a gang, not yet seated, or none where no VGID is free. -/
def newGroups (s : State) (gk : Nat) (i : Nat) : Nat → Option (State × List Nat)
  | 0 => some (s, [])
  | n + 1 =>
    match newVgid s with
    | none => none
    | some v =>
      (newGroups { s with fresh := s.fresh + 1, groups := put s.groups v { gang := gk, gidx := i, core := 0xFFFF } } gk (i + 1) n).map
        (fun x => (x.1, v :: x.2))

/-- The groups of a gang to place: those it had, with their creation counters, after a relaunch, or new ones (R21, R277, R382). -/
def gangGroups (s : State) (gk : Nat) : Option (State × List Nat) :=
  let g := s.gang gk
  if g.groups.isEmpty then newGroups s gk 0 (s.kernel g.kernel).gpg
  else some (g.groups.zipIdx.foldl (fun (s : State) x => { s with groups := put s.groups x.1 { gang := gk, gidx := x.2, core := 0xFFFF, created := at_ g.created x.1 0 } }) s, g.groups)

/-- The gang with its groups seated, or none where it cannot be placed now (R22, R324, R325). -/
def trySeat (s : State) (gk : Nat) : Option (State × List Nat) :=
  let g := s.gang gk
  let k := s.kernel g.kernel
  if !clusterOk s k g.cl || !atticFits s (clusterDie g.cl) k then none
  else
    match gangGroups s gk with
    | none => none
    | some (s1, vs) => (seatAll s1 g.cl k vs).map (fun s2 => (s2, vs))

/-- The bank words of a thread at placement (R11, R257, R258). -/
def freshRegs (k : Kernel) : Tab RegWord :=
  if k.hasHandler then
    [(k.regs + 23, ⟨0x80, .full⟩), (k.regs + 24, ⟨loWord k.handler, .full⟩), (k.regs + 25, ⟨hiWord k.handler, .full⟩)]
      ++ (upto 26 6).map (fun i => (k.regs + i, ⟨0, .full⟩))
  else []

/-- A group's threads at placement, and its inbox as it starts (R11, R23, R309, log 95). -/
def startGroup (s : State) (k : Kernel) (v : Nat) : State :=
  let s1 : State := { s with
    threads := s.threads ++ (tidsOf k v).map (fun t => (t, { pc := k.entry, regs := freshRegs k, ready := s.cyc + 1 })) }
  performBytes s1 (s.group v).evPhys (bytesOf (1 :: List.replicate 511 0))

/-- Word 0 of a completion record (R323). -/
def recordWord (st reason cause : Nat) : Word := BitVec.ofNat 32 (reason * 2 ^ 24 + cause * 2 ^ 16 + st)

/-- Who translates for a kernel's records: the front of house. -/
def homeCtx (k : Kernel) : Ctx := { unit := 1204, part := k.part, asid := k.asid, world := k.world, house := k.house }

/-- Write words of a kernel's completion record from word `i` on; a page that no longer translates is not written (log 9). -/
def recordWrite (s : State) (k : Kernel) (i : Nat) (ws : List Word) : State :=
  match translate s (homeCtx k) (k.done.toNat + 4 * i) .write (some .g) with
  | .ok (pa, s1) => performBytes s1 pa (bytesOf ws)
  | .error e => walkCharge s k.owner e

/-- The end of a completion record: words 1 to 15, and then word 0 (R323). -/
def recordEnd (s : State) (k : Kernel) (st reason : Nat) : State :=
  let x := k.kill.getD ⟨0, 0, 0, 0⟩
  let (ra, ri) := k.rfault.getD (0, 0)
  let two (n : Nat) : List Word := [BitVec.ofNat 32 n, BitVec.ofNat 32 (n / 2 ^ 32)]
  let w1 : Word := BitVec.ofNat 32 ((if k.rfault.isSome then 16 else 0) + min 15 k.relaunches)
  let ws : List Word := [w1, loWord x.pc, hiWord x.pc, loWord x.addr, hiWord x.addr, x.info, k.hstatus, loWord ra, hiWord ra, ri, 0]
    ++ two k.cycStart ++ two s.cyc
  recordWrite (recordWrite s k 1 ws) k 0 [recordWord st reason x.cause]

/-- With LQ_CTL.IRQ a completion record's end is signalled (R320, R420). -/
def recordIrq (s : State) (k : Kernel) : State := if k.irq then msix s k.fn 0 else s

/-- The words of a die's clusters that are free, less what its pending gangs will need (R325). -/
def dieFree (s : State) (k : Kernel) (die : Nat) : Int :=
  let cls := (upto (12 * die) 12).filter (clusterOk s k)
  let free := cls.foldl (fun n c => n + (upto (24 * c) 24).foldl (fun n x => n + (if coreOpen s x then freeWordsOf s x else 0)) 0) 0
  let due := (s.gangs.filter (fun g => g.2.st = .pending && g.2.die = die)).foldl (fun n g =>
    let k := s.kernel g.2.kernel
    n + k.gpg * groupWords k) 0
  (free : Int) - due

def clusterFree (s : State) (cl : Nat) : Nat :=
  (upto (24 * cl) 24).foldl (fun n x => n + (if coreOpen s x then freeWordsOf s x else 0)) 0

/-- The first of a list with the greatest measure. -/
def mostOf (f : Nat → Int) : List Nat → Option Nat
  | [] => none
  | x :: r => match mostOf f r with
    | none => some x
    | some y => if f y ≤ f x then some x else some y

/-- The die that receives the next gang of a kernel (R325). -/
def dealDie (s : State) (k : Kernel) : Nat :=
  let dies := (upto 0 4).filter (fun d => (upto (12 * d) 12).any (clusterOk s k))
  (mostOf (dieFree s k) dies).getD 0

/-- Deal a kernel's gangs from index `i` on (R325). -/
def dealGangs (s : State) (kn i : Nat) : Nat → State
  | 0 => s
  | n + 1 =>
    let k := s.kernel kn
    let die := dealDie s k
    let cls := (upto (12 * die) 12).filter (clusterOk s k)
    let cl := (mostOf (fun c => (clusterFree s c : Int)) cls).getD (12 * die)
    let (id, s1) := s.newId
    dealGangs { s1 with gangs := put s1.gangs id { kernel := kn, idx := i, die := die, cl := cl, since := s1.cyc } } kn (i + 1) n

/-- The priority of a pending gang, raised by its wait (R325). -/
def gangPrio (s : State) (g : Gang) : Nat := min 3 ((s.kernel g.kernel).prio + max g.boost ((s.cyc - g.since) / 2 ^ 24))

/-- Whether gang `a` goes before gang `b` in one VF's turn (R325). -/
def gangBefore (s : State) (a b : Nat × Gang) : Bool :=
  let pa := gangPrio s a.2
  let pb := gangPrio s b.2
  let oa := (s.kernel a.2.kernel).order
  let ob := (s.kernel b.2.kernel).order
  decide (pb < pa) || (pa = pb && (decide (oa < ob) || (oa = ob && decide (a.2.idx ≤ b.2.idx))))

/-- The function whose turns a gang takes (R325). -/
def gangFn (s : State) (g : Gang) : Nat := (s.kernel g.kernel).owner

/-- The order in which pending gangs of a die would be placed: the functions' turns, weighted, and within a turn as `gangBefore` says
(R325, R332); among functions with turns left the lowest goes first (log 69). `served` counts the turns taken. -/
def placeOrder (s : State) (served : Tab Nat) (l : List (Nat × Gang)) : Nat → List (Nat × Gang)
  | 0 => []
  | n + 1 =>
    let turn (sv : Tab Nat) (g : Nat × Gang) : Bool := decide (at_ sv (gangFn s g.2) 0 < max 1 (s.fn (gangFn s g.2)).weight)
    let sv := if l.any (turn served) then served else []
    let first (a b : Nat × Gang) : Bool := decide (gangFn s a.2 < gangFn s b.2) || (gangFn s a.2 = gangFn s b.2 && gangBefore s a b)
    match sortBy first (l.filter (turn sv)) with
    | [] => []
    | g :: _ => g :: placeOrder s (upd sv (gangFn s g.2) 0 (· + 1)) (l.filter (fun x => x.1 ≠ g.1)) n

def pendingOn (s : State) (p : Gang → Bool) : List (Nat × Gang) := s.gangs.filter (fun g => g.2.st = .pending && p g.2)

end Sys2Proof.Machine
end

