-- ==== Sys2Proof/Machine/Save.lean ====
section
/-!
DEFINITION. Saving and restoring a group (R240, R241, R265-R274): the save area's sections word by word, the remap entries, and
the move of windows and barriers by a WHOLE save (R269).
-/
namespace Sys2Proof.Machine

/-- A window slot's descriptor (R49). -/
def slotWords (s : State) (core slot : Nat) : List Word :=
  let d := slotAt s core slot
  natWords 4 (d.owner.vgid * 2 ^ 106 + d.owner.lane * 2 ^ 100 + d.owner.layer * 2 ^ 96 + d.vf * 2 ^ 90 + d.part * 2 ^ 85
    + flagAt d.opened 63 + flagAt d.world 62 + flagAt d.clus 61 + flagAt d.rights.g 60 + flagAt d.rights.t 59 + flagAt d.rights.w 58
    + flagAt d.rights.r 57 + d.gen * 2 ^ 49 + d.base * 2 ^ 40 + d.lenm1 * 2 ^ 31 + inflight s core slot % 2 ^ 15 * 2 ^ 16)

/-- The handle a slot was exported with (R51). -/
def slotHandle (s : State) (core slot : Nat) : Word :=
  match s.fwd.find? (fun f => f.2.1 = core && f.2.2.1 = slot) with
  | some f => handleOf f.1.1 f.1.2.1 f.1.2.2
  | none => handleOf core slot (slotAt s core slot).gen

def windowRecord (s : State) (p : Nat × Nat) : List Word := slotWords s p.1 p.2 ++ [slotHandle s p.1 p.2, 0, 0, 0]

/-- A barrier-table entry (R128). -/
def barrierRecord (s : State) (b : Barrier) : List Word :=
  let waiters := (s.threads.filter (fun p => p.2.wait = .barrier b.owner b.reg || p.2.wait = .arrive b.owner b.reg)).length
  natWords 8 (2 ^ 255 + flagAt (s.group b.owner.vgid).saved.isSome 254 + b.scope.code * 2 ^ 249 + b.owner.vgid * 2 ^ 227
    + regAddr s b.owner b.reg * 2 ^ 195 + waiters % 2 ^ 16 * 2 ^ 179)

/-- A codebook slot packed as CBLD reads it (R216). -/
def bookWords (g : Group) (i : Nat) : List Word :=
  let e := (at_ g.cbs i {}).entries
  (upto 0 8).map (fun j => (e.getD (2 * j + 1) 0 ++ e.getD (2 * j) 0 : Word))

/-- The header of a save area (R271). LAUNCH is the place of the retained record (R323). -/
def headerWords (s : State) (v : Nat) (a : AreaShape) (whole : Bool) : List Word :=
  let w := s.who ⟨v, 0, 0⟩
  let k := w.k
  let hmode := (tidsOf k v).any (fun t => (s.thread t).st ≠ .exited && entryBit s t)
  let launch : DWord := BitVec.ofNat 64 k.record
  let loaded := (upto 0 4).foldl (fun n i => n + flagAt (at_ w.g.cbs i {}).loaded i) 0
  let nbar := (s.barriers.filter (fun b => b.owner.vgid = v)).length
  let n (x : Nat) : Word := BitVec.ofNat 32 x
  [1, n (flagAt hmode 3 + flagAt whole 1 + 1), n v, n (flagAt k.hasHandler 24 + k.rdiv * 2 ^ 16 + k.depth * 256 + k.width),
   n (flagAt k.world 27 + k.part * 2 ^ 22 + k.vf * 2 ^ 16 + k.asid), n (w.g.lane0 * 2 ^ 16 + w.g.core % 24 * 256 + clusterOf w.g.core)]
  ++ natWords 2 s.cyc ++ [n w.g.gidx, n w.gang.idx, n w.gang.phase, n (nbar * 2 ^ 16 + (openSlots s v).length), loWord launch, hiWord launch,
   256, n a.winOff, n a.barOff, n a.regOff, n a.tagOff, 0, n a.size, 0, 0, 0]
  ++ (upto 0 4).flatMap (bookWords w.g) ++ [n loaded] ++ List.replicate 7 0

/-- Sixteen tags a word (R274). -/
def tagWords (ws : List RegWord) : List Word :=
  (upto 0 (ws.length / 16)).map (fun i => BitVec.ofNat 32
    (((ws.drop (16 * i)).take 16).zipIdx.foldl (fun n x => n + x.1.tag.code * 4 ^ x.2) 0))

/-- A layer's words in image order (R240). -/
def layerImage (s : State) (k : Kernel) (v y : Nat) : List RegWord :=
  (layerTids k v y).flatMap (fun t => (upto 0 k.nw).map (regGet s t))

/-- The whole area, section by section, as (offset, words) (R270). -/
def areaWords (s : State) (v : Nat) (a : AreaShape) (whole : Bool) : List (Nat × List Word) :=
  let k := (s.who ⟨v, 0, 0⟩).k
  let imgs := (upto 0 k.depth).map (fun y => (y, layerImage s k v y))
  [(0, headerWords s v a whole), (256, (tidsOf k v).flatMap (threadWords s)),
   (a.winOff, (openSlots s v).flatMap (windowRecord s)),
   (a.barOff, (s.barriers.filter (fun b => b.owner.vgid = v)).flatMap (barrierRecord s))]
  ++ imgs.map (fun x => (a.regOff + x.1 * (4 * k.width * k.nw), x.2.map (·.val)))
  ++ imgs.map (fun x => (a.tagOff + x.1 * (k.width * k.nw / 4), tagWords x.2))

/-- Write a save area at a physical base. -/
def areaWrite (s : State) (base : Nat) (secs : List (Nat × List Word)) : State :=
  secs.foldl (fun s x => performBytes s (base + x.1) (bytesOf x.2)) s

/-- Whether every thread of a stopping group has stopped (R265, R266). -/
def allStopped (s : State) (v : Nat) : Bool :=
  (tidsOf (s.who ⟨v, 0, 0⟩).k v).all (fun t => let th := s.thread t; th.st = .exited || th.stopped || !entryBit s t)

/-- A wait that reissues, as a saved thread keeps it (R268). -/
def savedWait (w : Wait) : Wait :=
  match w with
  | .tags _ => .retry
  | x => x

/-- Move a window slot: its descriptor, the accesses and waits that name it, and where its handle leads (R269). It counts as an export of
the slot it moves to, whose generation advances (R53). -/
def moveSlot (s : State) (c k c2 k2 : Nat) : State :=
  let d := slotAt s c k
  let gen := (slotAt s c2 k2).nextGen
  let moved (x : Option (Nat × Nat)) : Option (Nat × Nat) := if x = some (c, k) then some (c2, k2) else x
  let fwd := s.fwd.map (fun f => if f.2.1 = c && f.2.2.1 = k && f.2.2.2 = d.gen then (f.1, (c2, k2, gen)) else f)
  let s1 := setSlot (setSlot s c k { d with opened := false }) c2 k2 { d with gen := gen }
  { s1 with
    fwd := if s.fwd.any (fun f => f.2.1 = c && f.2.2.1 = k && f.2.2.2 = d.gen) then fwd else fwd ++ [((c, k, d.gen), (c2, k2, gen))],
    accs := s1.accs.map (fun a => { a with slot := moved a.slot }),
    threads := s1.threads.map (fun p => match p.2.wait with
      | .wrev x y => if x = c && y = k then (p.1, { p.2 with wait := .wrev c2 k2 }) else p
      | _ => p) }

/-- The slots of a core where the area of a WHOLE save holds the descriptors of group `v`. -/
def areaCore (v : Nat) : Nat := 0x10000 + v

/-- A WHOLE save takes the descriptors and barrier entries with it, and frees the originals (R269). -/
def moveOut (s : State) (v : Nat) : State :=
  let s1 := (openSlots s v).zipIdx.foldl (fun s x => moveSlot s x.1.1 x.1.2 (areaCore v) x.2) s
  { s1 with barriers := s1.barriers.map (fun b => if b.owner.vgid = v then { b with die := 4 } else b) }

/-- A restore reinstates them on the new core (R269). -/
def moveIn (s : State) (v core : Nat) : State :=
  let s1 := (openSlots s v).foldl (fun s p =>
    if p.1 ≠ areaCore v then s
    else match (upto 0 256).find? (fun k => !(slotAt s core k).opened && inflight s core k = 0) with
      | some k => moveSlot s p.1 p.2 core k
      | none => s) s
  { s1 with barriers := s1.barriers.map (fun b => if b.owner.vgid = v then { b with die := coreDie core } else b) }

/-- The area for a group about to be saved: the one planned, or one of the partition's pool, or one elsewhere in its memory; none where
its memory has no room (R270, log 33). -/
def areaFor (s : State) (v : Nat) (a : AreaShape) : Option (SavedAt × State) :=
  let at_ (b : Nat) (pool : Bool) : SavedAt := { base := b, pool := pool, regOff := a.regOff, tagOff := a.tagOff, cyc := s.cyc }
  match (s.group v).area with
  | some x => some ({ x with regOff := a.regOff, tagOff := a.tagOff, cyc := s.cyc }, s)
  | none =>
    let part := (s.who ⟨v, 0, 0⟩).k.part
    match poolTake (s.part part) a.size with
    | some b => some (at_ b true, poolAdd s part b a.size)
    | none => (pinTake s part a.size).map (fun x => (at_ x.1 false, x.2))

/-- The remap entry of layer `y` of a group saved at `sv` (R240). -/
def remapEntry (s : State) (v : Nat) (sv : SavedAt) (y : Nat) : Remap :=
  let w := s.who ⟨v, 0, 0⟩
  { vgid := v, lane0 := w.g.lane0, nlm1 := w.k.width - 1, word0 := w.g.bases.getD y 0, nwm1 := w.k.nw - 1,
    sabase := (sv.base + sv.regOff + y * (4 * w.k.width * w.k.nw)) / 64 }

/-- Take a free remap entry, the lowest, for each layer of a group (R240, R267). -/
def takeRemap (s : State) (v : Nat) (sv : SavedAt) : State :=
  (upto 0 (s.who ⟨v, 0, 0⟩).k.depth).foldl (fun s y =>
    s.updCore (s.group v).core (fun c =>
      match (upto 0 64).find? (fun i => (look c.remap i).isNone) with
      | some i => { c with remap := put c.remap i (remapEntry s v sv y) }
      | none => c)) s

/-- A CSAVE counts a group that has been saved (R306). -/
def csaveCount (s : State) (v : Nat) : State :=
  { s with threads := s.threads.map (fun p => match p.2.wait with
      | .csave n vs => if vs.contains v then (p.1, { p.2 with wait := .csave (n + 1) (vs.filter (· ≠ v)) }) else p
      | _ => p) }

/-- Save a stopped group whose store queue is empty (R267): the area, then the lane banks are freed. -/
def saveGroup (s : State) (v : Nat) : State :=
  let a := areaShape s v
  match areaFor s v a with
  | none => s
  | some (sv, s0) =>
  let s1 := areaWrite (takeRemap s0 v sv) sv.base (areaWords s0 v a sv.whole)
  let s2 := s1.mapGroup v (fun _ th => { th with
    regs := [], ecc := [], latches := dropLatches th.latches, retained := none, stopped := false, wait := savedWait th.wait })
  let s3 := s2.updGroup v (fun g => { g with saved := some sv, area := none, stop := none })
  let s4 := csaveCount (if (s.who ⟨v, 0, 0⟩).k.sib then sibStore s3 (s.group v).gang else s3) v
  if sv.whole then moveOut s4 v else s4

/-- The groups of one gang saved from one core, which are restored together (R51, R269). -/
def saveUnit (s : State) (v : Nat) : List Nat :=
  let g := s.group v
  sortBy (· ≤ ·) ((s.groups.filter (fun x => x.2.gang = g.gang && x.2.core = g.core && x.2.saved.isSome)).map (·.1))

/-- Whether a gang-mate of a saved group is still on the core it was saved from, about to be saved too (R51, R269). -/
def mateStops (s : State) (v : Nat) : Bool :=
  let g := s.group v
  s.groups.any (fun x => x.2.gang = g.gang && x.2.core = g.core && x.2.saved.isNone && x.2.stop.isSome)

/-- Whether a WHOLE save took every group of a gang that has not retired: the gang may return on another cluster (R269). -/
def wholeGang (s : State) (g : Gang) : Bool :=
  g.groups.all (fun v => match look s.groups v with
    | some x => x.saved.any (·.whole)
    | none => true)

/-- Whether a core has a free slot for every descriptor that a WHOLE save took (R269). -/
def slotsBack (s : State) (v core : Nat) : Bool :=
  decide (((openSlots s v).filter (fun p => p.1 = areaCore v)).length
    ≤ ((upto 0 256).filter (fun k => !(slotAt s core k).opened && inflight s core k = 0)).length)

/-- Restore groups onto one core, each on the lowest lane base that fits, or nothing where they have no room (R241, R269). -/
def restoreUnit (s : State) (core : Nat) : List Nat → Option State
  | [] => some s
  | v :: r =>
    let k := (s.who ⟨v, 0, 0⟩).k
    match fitOn s core k with
    | none => none
    | some (l, b) =>
      let whole := match (s.group v).saved with
        | some x => x.whole
        | none => false
      if whole && !slotsBack s v core then none else
      let s1 := seatGroup (loadImage (freeArea s v) v) v core l b
      let s2 := s1.mapGroup v (fun _ th => { th with ready := s.cyc, moved := s.nextId })
      restoreUnit (if whole then moveIn s2 v core else s2) core r

/-- A collective all of whose threads arrived while their group was away mismatches only now (R29). -/
def recheck (s : State) (v : Nat) : State :=
  (upto 0 (s.who ⟨v, 0, 0⟩).k.depth).foldl (fun s y => if (look s.groups v).isSome then collCheck s v y else s) s

/-- The core the scheduler restores a unit on (R269): of its gang's cluster, the one with the most free words that has room. -/
def restoreCore (s : State) (vs : List Nat) (cl : Nat) : Option Nat :=
  let cs := (upto (24 * cl) 24).filter (fun c => coreOpen s c && (restoreUnit s c vs).isSome)
  cs.foldl (fun (x : Option Nat) c => match x with
    | none => some c
    | some b => if freeWordsOf s b < freeWordsOf s c then some c else some b) none

end Sys2Proof.Machine
end

