-- ==== Sys2Proof/Machine/EventsGroup.lean ====
section
/-!
DEFINITION. Events of groups and gangs: retirement and completion (R34, R35, R323), phases (R30, R328), pre-emption, saving and
restoring (R265-R269), relaunch (R277), placement and its order (R325, R327, R332), the queue engine (R329, R331), and
cancellation (R397). An event that is not enabled leaves the state unchanged (log 1).
-/
namespace Sys2Proof.Machine

/-- Whether every thread of a group has exited. -/
def allExited (s : State) (v : Nat) : Bool := (tidsOf (s.who ⟨v, 0, 0⟩).k v).all (fun t => (s.thread t).st = .exited)

/-- Whether an atomic of a group has still to be applied, or, where it has holdings, a reduction, before an heir may observe the group's end (R34,
R148, R380, log 70). -/
def atomicsPending (s : State) (v : Nat) : Bool :=
  s.atomics.any (fun a => a.tid.vgid = v) || s.accs.any (fun a => a.late && a.tid.vgid = v)
  || (!(holdings s v).isEmpty && redsPending s v)

/-- Steps 2 and 3 of R34: the group's windows end, its requests that write its registers are cancelled, and those that read them run
on, with what was claimed for the cancelled ones. -/
def settleGroup (s : State) (v : Nat) : State :=
  (settle (revokeAll s v) v (s.gang (s.group v).gang).killed.isSome).updGroup v (fun g => { g with conveying := true })

/-- GROUP_RETIRE (R34, R35): its queues drained, a group is settled; it is freed once nothing reads its registers and its atomics are applied; an
accepted RED holds it only where it has holdings to convey (log 70). -/
def execGroupRetire (vgid : Nat) : State → Host.Outcome State Fault Refusal := fun s =>
  match look s.groups vgid with
  | none => .next s
  | some g =>
    if allExited s vgid && g.queue.isEmpty && (s.gang g.gang).killed ≠ some false then
      let s1 := settleGroup s vgid
      .next (if readsPending s1 vgid || atomicsPending s1 vgid then s1 else retireGroup s1 vgid)
    else .next s

/-- A group killed for a relaunch gives up its place and keeps its VGID, its inbox and its creation counter (R21, R277, R309, R382). -/
def clearGroup (s : State) (v : Nat) : State :=
  let g := s.group v
  let s1 := (keepCreated s v).updGang g.gang (fun x => { x with inbox := put x.inbox v (g.evBase, g.evPhys) })
  { s1 with
    threads := s.threads.filter (fun p => p.1.vgid ≠ v), groups := s.groups.filter (fun g => g.1 ≠ v),
    barriers := s.barriers.filter (fun b => b.owner.vgid ≠ v) }

/-- The launch record as its retained copy in device memory gives it (R323). -/
def retainedRecord (s : State) (k : Kernel) : List Word := if k.record = 0 then k.words else wordsOf (physRead s k.record 128)

/-- GANG_RELAUNCH (R277, R323): the gang is pending again, to start afresh with its VGIDs and its phase, by the retained record. What has reached its
groups since their conveyance is conveyed first (R390); a cancellation of the sibling stays under way (R397). -/
def execGangRelaunch (gang : Nat) : State → Host.Outcome State Fault Refusal := fun s =>
  let g := s.gang gang
  if g.st = .placed && g.killed = some false && g.groups.all (fun v => !readsPending s v && ((holdings s v).isEmpty || !redsPending s v)) then
    let vs := g.groups.filter (fun v => (look s.groups v).isSome)
    let s1 := vs.foldl clearGroup (vs.foldl (fun s v => conveyAll s v true) s)
    .next ((s1.updGang gang (fun g => { g with
        st := .pending, killed := none, since := s.cyc, boost := 0, relaunches := g.relaunches + 1, signal := g.signal.or g.cancel, cancel := none,
        slotCores := [], room := false })).updKernel
      g.kernel (fun k => { k with relaunches := k.relaunches + 1, words := retainedRecord s k }))
  else .next s

/-- Whether a kernel has completed (R35). -/
def kernelDone (s : State) (k : Nat) : Bool :=
  (s.gangs.filter (fun g => g.2.kernel = k)).all (fun g => g.2.st = .ended) && s.reds.all (fun r => r.kernel ≠ k)

/-- The save-pool bytes of a ballot's sibling records (R393). -/
def sibRecordBytes (sibn : Nat) : Nat := 1088 * sibn

/-- KERNEL_COMPLETE (R35, R323): the completion record's end. -/
def execKernelComplete (k : Nat) : State → Host.Outcome State Fault Refusal := fun s =>
  match look s.kernels k with
  | none => .next s
  | some kn =>
    if kn.st = .ended || !kernelDone s k then .next s
    else
      let s1 := recordIrq (recordEnd s kn (if kn.kill.isSome || kn.halted then 4 else 3) 0) kn
      let s2 := pinDrop (s1.updKernel k (fun x => { x with st := .ended })) kn.part kn.record
      match ballotOf s2 k with
      | none => .next s2
      | some b =>
        let s3 : State := { s2 with ballots := s2.ballots.filter (fun x => !(x.die = b.die && x.idx = b.idx)) }
        .next (s3.updPart kn.part (fun p => { p with pool := p.pool.filter (fun a => a.1 ≠ b.recBase) }))

/-- Whether a group has arrived at its WBAR, and the arrival is a release: what its threads did before it is done (R30, R145). -/
def groupArrived (s : State) (v : Nat) : Bool :=
  let ts := tidsOf (s.who ⟨v, 0, 0⟩).k v
  ts.any (fun t => (s.thread t).st ≠ .exited) && (s.group v).queue.isEmpty &&
    ts.all (fun t => (s.thread t).st = .exited || ((match (s.thread t).wait with | .phase _ => true | _ => false) && releaseReady s t))

/-- Whether every group of a gang has arrived or retired (R30). -/
def gangAtWbar (s : State) (g : Gang) : Bool :=
  g.st = .placed && g.killed.isNone && g.groups.all (fun v => (look s.groups v).isNone || groupArrived s v)

/-- Whether a gang has arrived at the WBAR that ends a phase: it waits there, has passed it (log 71), or has retired (R30, R32). -/
def gangArrived (s : State) (phase : Nat) (g : Gang) : Bool :=
  g.st = .ended || decide (phase < g.phase) || (g.phase = phase && gangAtWbar s g)

/-- The gangs of the instance in which a gang waits (R32). -/
def instanceOf (s : State) (g : Gang) (sc : Scope) : List (Nat × Gang) :=
  s.gangs.filter (fun x => x.2.kernel = g.kernel && (sc ≠ .troupe || x.2.die = g.die))

/-- The next phase starts in a gang that stands in `phase` (R30): every latch is invalid, and its threads go on after their WBAR. -/
def gangPhase (s : State) (phase gk : Nat) : State :=
  let g := s.gang gk
  if g.st ≠ .placed || g.phase ≠ phase then s
  else
    let s1 := s.updGang gk (fun g => { g with phase := g.phase + 1, room := false })
    g.groups.foldl (fun s v =>
      let s2 := s.mapGroup v (fun _ th => { th with latches := dropLatches th.latches, retained := none })
      (tidsOf (s.kernel g.kernel) v).foldl (fun s t => match (s.thread t).wait with
        | .phase _ => recordAway (finishHeld s t) t
        | _ => s) s2) s1

/-- Whether a cut past its tick has still to write save areas of a gang (R431). -/
def cutHolds (s : State) (g : Gang) : Bool :=
  s.parts.any (fun p => match p.2.cut with
    | some c => g.groups.any (fun v => c.saves.contains v)
    | none => false)

/-- PHASE_START (R30, R32, R328, R431): the last participant has arrived; `others` counts the reports of other packages. -/
def execPhaseStart (gang : Nat) (others : Nat) : State → Host.Outcome State Fault Refusal := fun s =>
  let g := s.gang gang
  match look (s.kernel g.kernel).scopes g.phase with
  | none => .next s
  | some sc =>
    let ps := instanceOf s g sc
    if g.st = .placed && gangArrived s g.phase g && ps.all (fun x => gangArrived s g.phase x.2 && !cutHolds s x.2)
        && (sc ≠ .house || decide ((s.kernel g.kernel).hcount ≤ others + 1)) then
      .next (ps.foldl (fun s x => gangPhase s g.phase x.1) s)
    else .next s

/-- PREEMPT_REQUEST (R241, R265): the groups resident on the named cores of a cluster stop, those that have remap entries. -/
def execPreemptRequest (cl : Nat) (mask : Nat) : State → Host.Outcome State Fault Refusal := fun s =>
  let cores := ((upto 0 24).filter (fun k => mask / 2 ^ k % 2 = 1)).map (fun k => 24 * cl + k)
  .next ((cores.flatMap (residents s)).foldl stopFits s)

/-- PREEMPT_HANDLER_TIMEOUT (R266): 2^20 cycles after the request. -/
def execPreemptHandlerTimeout (t : Tid) : State → Host.Outcome State Fault Refusal := fun s =>
  match (look s.groups t.vgid).bind (fun g => g.stop) with
  | some c =>
    if (s.thread t).st ≠ .exited && entryBit s t && !(s.thread t).stopped then
      .next ((s.setCyc (max s.cyc (c + 2 ^ 20))).updThread t (fun th => { th with stopped := true }))
    else .next s
  | none => .next s

/-- A thread that the cancellation of a gang with a SAVED group would wait for (R397). -/
def noHolder (s : State) (gk : Nat) : Bool :=
  !(s.threads.any (fun (p : Tid × Thread) => (s.group p.1.vgid).gang = gk && p.2.st ≠ .exited && entryBit s p.1))

/-- A gang with a SAVED group and no thread in its handler is cancelled at once (R397). -/
def cancelSaved (s : State) (gk : Nat) : State :=
  if (s.gang gk).cancel.isSome && noHolder s gk && (s.gang gk).groups.any (fun v => (s.group v).saved.isSome) then cancelGang s gk else s

/-- CONTEXT_SAVE (R241, R266, R267): a group that has stopped and drained is saved, where remap entries and an area are free. -/
def execContextSave (vgid : Nat) : State → Host.Outcome State Fault Refusal := fun s =>
  match look s.groups vgid with
  | none => .next s
  | some g =>
    let k := (s.who ⟨vgid, 0, 0⟩).k
    if g.saved.isNone && g.stop.isSome && allStopped s vgid && g.queue.isEmpty && decide (remapUsed s g.core + k.depth ≤ 64)
        && (s.gang g.gang).killed.isNone then
      .next (cancelSaved (saveGroup s vgid) g.gang)
    else .next s

/-- CONTEXT_RESTORE (R269): the groups of a gang saved from one core return together; those of a WHOLE save may return on
another cluster of their partition. -/
def execContextRestore (vgid : Nat) (core : Nat) : State → Host.Outcome State Fault Refusal := fun s =>
  match (look s.groups vgid).bind (fun g => g.saved) with
  | none => .next s
  | some sv =>
    let w := s.who ⟨vgid, 0, 0⟩
    let vs := saveUnit s vgid
    let away := sv.whole && bit (s.part w.k.part).clu (clusterOf core) && wholeGang s w.gang
    let cl := if away then clusterOf core else w.gang.cl
    if w.gang.room || mateStops s vgid || restoreCore s vs cl ≠ some core then .next s
    else match restoreUnit s core vs with
      | none => .next s
      | some s1 =>
        let moved := vs.map (fun v => ((s.group v).core, (s.group v).saved.any (·.whole)))
        let seats := moved.foldl (fun l m => if m.2 then l.replace m.1 core else l) w.gang.slotCores
        .next (tickWakes (vs.foldl recheck (s1.updGang w.gk (fun g => { g with cl := cl, die := clusterDie cl, slotCores := seats }))))

/-- CANCEL_SIGNAL (R397): the signal reaches the gang's core; a wait that is a cancellation point ends at it, except in a handler, where it
is none (R261). -/
def execCancelSignal (vgid : Nat) : State → Host.Outcome State Fault Refusal := fun s =>
  match look s.groups vgid with
  | none => .next s
  | some g0 =>
    let gk := g0.gang
    let g := s.gang gk
    if g.signal.isNone || g.killed.isSome then .next s
    else
      let s1 := s.updGang gk (fun g => { g with cancel := g.signal, signal := none })
      let wakes (w : Wait) : Bool := match w with
        | .access n => s1.accs.any (fun a => a.id = n && a.waiting && a.ended.isNone)
        | .wrev _ _ | .fence _ _ | .fencesc _ _ _ | .vatom _ | .csave _ _ | .counted _ | .ballot _ => false
        | .publish _ i => i.isNone
        | _ => true
      let mine := s1.threads.filter (fun (p : Tid × Thread) => (s1.group p.1.vgid).gang = gk && p.2.st = .waiting && wakes p.2.wait
        && (takeCancel s1 (s1.who p.1) false).isSome)
      let s2 := mine.foldl (fun s p =>
        let s3 := match p.2.wait with
          | .hold id =>
            let ws := s.holdq.filter (fun (h : HoldWait) => h.id = id)
            let s4 : State := { s with holdq := s.holdq.filter (fun (h : HoldWait) => h.id ≠ id) }
            ws.foldl (fun (s : State) (h : HoldWait) => operandTags s h.tid h.dst 2 .empty) s4
          | .access n => dropAcc s n
          | _ => s
        s3.updThread p.1 (fun th => { th with wait := .retry })) s1
      .next (cancelSaved s2 gk)

/-- Whether a gang may be placed now: first of its VF's turn among those of its die that fit, and its VF's turn among the VFs
with such a gang (R325). -/
def mayPlace (s : State) (gk : Nat) : Bool :=
  let g := s.gang gk
  let k := s.kernel g.kernel
  let rivals := (pendingOn s (fun x => x.die = g.die && (s.kernel x.kernel).part = k.part)).filter
    (fun x => x.1 ≠ gk && (trySeat s x.1).isSome)
  let turn (f : Nat) : Bool := decide (at_ (s.fn f).served g.die 0 < max 1 (s.fn f).weight)
  let fs := rivals.map (fun x => (s.kernel x.2.kernel).owner)
  (rivals.filter (fun x => (s.kernel x.2.kernel).owner = k.owner)).all (fun x => gangBefore s (gk, g) x)
    && (turn k.owner || fs.all (fun f => !turn f))

/-- Count a placement turn of a VF; when no VF of its partition has turns left, a new round starts (R325). -/
def takeTurnOf (s : State) (f die : Nat) : State :=
  let s1 : State := if at_ (s.fn f).served die 0 < max 1 (s.fn f).weight then s
    else { s with fns := s.fns.map (fun x => if x.2.part = (s.fn f).part then (x.1, { x.2 with served := put x.2.served die 0 }) else x) }
  s1.updFn f (fun x => { x with served := upd x.served die 0 (· + 1) })

/-- GANG_PLACE (R11, R21-R24, R324, R325): the whole gang, and with a kernel's first gang its RUNNING record. -/
def execGangPlace (gang : Nat) : State → Host.Outcome State Fault Refusal := fun s =>
  let g := s.gang gang
  if g.st ≠ .pending || (look s.gangs gang).isNone || !mayPlace s gang then .next s
  else
    match trySeat s gang with
    | none => .next s
    | some (s1, vs) =>
      let k := s.kernel g.kernel
      let s2 := (takeTurnOf s1 k.owner g.die).updGang gang (fun g => { g with st := .placed, groups := vs, since := s.cyc, inbox := [] })
      let s3 := vs.foldl (fun s v => startGroup s k v) s2
      if k.st = .pending then
        .next (recordWrite (s3.updKernel g.kernel (fun k => { k with st := .running, cycStart := s.cyc })) k 0 [recordWord 2 0 0])
      else .next s3

/-- PRIORITY_AGING (R325): one level for each full 2^24 cycles, up to 3. -/
def execPriorityAging (gang : Nat) : State → Host.Outcome State Fault Refusal := fun s =>
  match look s.gangs gang with
  | none => .next s
  | some g =>
    if g.st = .pending && decide (g.boost < 3) then
      .next ((s.setCyc (max s.cyc (g.since + 2 ^ 24 * (g.boost + 1)))).updGang gang (fun g => { g with boost := g.boost + 1 }))
    else .next s

/-- The cores of a cluster that may be vacated for a gang of priority `p` (R327), those of the youngest gangs first; a core whose remap
table lacks entries for its groups is passed over (R241). -/
def victims (s : State) (cl part p : Nat) : List Nat :=
  let lower (v : Nat) : Bool := let k := (s.who ⟨v, 0, 0⟩).k; k.part = part && decide (k.prio < p)
  let ok (c : Nat) : Bool := !(residents s c).isEmpty && (residents s c).all lower && remapFits s c
  let gs := sortBy (fun (a b : Nat × Gang) => decide (b.2.since < a.2.since) || (a.2.since = b.2.since && decide (b.1 ≤ a.1)))
    (s.gangs.filter (fun g => g.2.st = .placed && g.2.cl = cl))
  (gs.flatMap (fun g => sortBy (· ≤ ·) ((g.2.groups.filter (fun v => (s.group v).saved.isNone)).map (fun v => (s.group v).core)))).eraseDups.filter ok

/-- The state as it would be with some cores vacated: their groups saved, their window slots kept (R269). -/
def asVacated (s : State) (cs : List Nat) : State :=
  { s with groups := s.groups.map (fun g =>
      if cs.contains g.2.core && g.2.saved.isNone then (g.1, { g.2 with saved := some { base := 0, pool := false } }) else g) }

/-- The gang as one of a cluster's pending gangs. -/
def toCluster (s : State) (gk cl : Nat) : State := s.updGang gk (fun g => { g with cl := cl, die := clusterDie cl })

/-- The choices of `n` members of a list, those with its first members first. -/
def choices {α : Type} : Nat → List α → List (List α)
  | 0, _ => [[]]
  | _ + 1, [] => []
  | n + 1, a :: r => (choices n r).map (fun l => a :: l) ++ choices (n + 1) r

/-- The fewest of the victims of a cluster that make room there for a gang, the youngest gangs' first (R327, log 69). -/
def enough (s : State) (gk cl : Nat) : Option (List Nat) :=
  let k := s.kernel (s.gang gk).kernel
  let cs := victims s cl k.part k.prio
  let room (l : List Nat) : Bool := (trySeat (asVacated (toCluster s gk cl) l) gk).isSome
  if !room cs then none else (upto 1 cs.length).findSome? (fun n => (choices n cs).find? room)

/-- Where its stage manager makes room for a gang: the cluster of its die that needs the fewest cores vacated, its own before the others
(R327, log 69). -/
def vacate (s : State) (gk : Nat) : Option (Nat × List Nat) :=
  let g := s.gang gk
  let cls := g.cl :: ((upto (12 * g.die) 12).filter (· ≠ g.cl))
  ((cls.filterMap (fun c => (enough s gk c).map (fun l => (c, l)))).foldl (fun (x : Option (Nat × List Nat)) y => match x with
    | none => some y
    | some b => if y.2.length < b.2.length then some y else some b) none)

/-- SCHED_PREEMPT (R327): a gang pending 2^16 cycles that no cluster of its partition can place. -/
def execSchedPreempt (gang : Nat) : State → Host.Outcome State Fault Refusal := fun s =>
  match look s.gangs gang with
  | none => .next s
  | some g =>
    let k := s.kernel g.kernel
    let cls := (upto 0 48).filter (fun c => bit (s.part k.part).clu c)
    let fits := cls.any (fun c => (trySeat (s.updGang gang (fun g => { g with cl := c })) gang).isSome)
    if g.st ≠ .pending || fits then .next s
    else match vacate s gang with
      | none => .next s
      | some (cl, cs) =>
        let s1 := s.setCyc (max s.cyc (g.since + 65536))
        match planSaves s1 ((cs.flatMap (residents s1)).filter (fun v => (s1.group v).stop.isNone)) with
        | none => .next s
        | some s2 => .next (toCluster s2 gang cl)

/-- The partition of a cluster. -/
def clusterPart (s : State) (cl : Nat) : Option Nat := (s.parts.find? (fun p => bit p.2.clu cl)).map (·.1)

/-- The pending gangs of a cluster in the order in which it would place them (R325, R332). -/
def pendingOrder (s : State) (cl : Nat) : List (Nat × Gang) :=
  let l := pendingOn s (fun g => g.cl = cl)
  placeOrder s (s.fns.map (fun x => (x.1, at_ x.2.served (clusterDie cl) 0))) l l.length

/-- GANG_STEAL (R332): half of the pending gangs of the first other cluster that has any, those it would place last. A gang keeps its
PHASE when it joins another die's troupe (log 71). -/
def execGangSteal (cl : Nat) (victim : Nat) : State → Host.Outcome State Fault Refusal := fun s =>
  let others := (upto 1 47).map (fun i => (cl + i) % 48)
  let same (c : Nat) : Bool := clusterPart s cl = clusterPart s c && (clusterPart s cl).isSome
  let first := others.find? (fun c => same c && !(pendingOn s (fun g => g.cl = c)).isEmpty)
  if !(pendingOn s (fun g => g.cl = cl)).isEmpty || first ≠ some victim then .next s
  else
    let l := pendingOrder s victim
    let take := l.drop (l.length / 2)
    let room := take.any (fun g => (trySeat (toCluster s g.1 cl) g.1).isSome)
    if room then .next (take.foldl (fun s g => toCluster s g.1 cl) s) else .next s

/-- The moves of one core's queue engine (R331), by the depths exchanged. -/
def depthMoves (s : State) (cl thresh : Nat) (depths : List Nat) (k : Nat) : State :=
  let d (i : Nat) : Nat := depths.getD i 0
  [(k + 23) % 24, (k + 1) % 24].foldl (fun s n =>
    if d k > d n + thresh then
      (qMove s (24 * cl + k) (24 * cl + n) (fun e =>
        s.groups.any (fun g => g.2.core = 24 * cl + n && g.2.saved.isNone && (s.gang g.2.gang).kernel = e.kernel)) ((d k - d n) / 2)).1
    else s) s

/-- The number of the boundary of 1,024 cycles at which a cluster's cores exchange their queue depths next (R331). -/
def nextExchange (s : State) (cl : Nat) : Nat := max ((s.cluster cl).xchg + 1) ((s.cyc + 1023) / 1024)

/-- The queues of a cluster after an exchange of the depths they have now (R331). -/
def exchangeDepths (s : State) (cl : Nat) : State :=
  let q := match clusterPart s cl with
    | some p => bits (s.part p).qctl 31 24
    | none => 8
  let depths := (upto 0 24).map (fun k => let c := s.core (24 * cl + k); c.onchip.length + c.cellar.length)
  (upto 0 24).foldl (fun s k => depthMoves s cl q depths k) s

/-- QUEUE_DEPTH_EXCHANGE (R331): once at each boundary of 1,024 cycles. -/
def execQueueDepthExchange (cl : Nat) : State → Host.Outcome State Fault Refusal := fun s =>
  let n := nextExchange s cl
  .next (exchangeDepths ((s.setCyc (n * 1024)).updCluster cl (fun c => { c with xchg := n })) cl)

/-- CELLAR_REFILL (R329): a refill of a core's queue runs. -/
def execCellarRefill (core : Nat) : State → Host.Outcome State Fault Refusal := fun s =>
  match (s.core core).refill with
  | [] => .next s
  | want :: r => .next (s.updCore core (fun c => { qRefill c want (c.cellar.length + 1) with refill := r }))

/-- Whether a phase waits for a pending gang that has no room: a gang of the waiting gang's own kernel, in its phase or before it, or one of
another kernel, gangs of which wait at WBAR. It can be placed neither where it is pending nor on the waiting gang's cluster, which could take
it (R328, R332). -/
def pendingStuck (s : State) (g : Gang) : Bool :=
  s.gangs.any (fun x => x.2.st = .pending && (s.kernel x.2.kernel).part = (s.kernel g.kernel).part && clusterOk s (s.kernel x.2.kernel) g.cl &&
    (if x.2.kernel = g.kernel then decide (x.2.phase ≤ g.phase) else s.gangs.any (fun y => y.2.kernel = x.2.kernel && gangAtWbar s y.2)) &&
    (trySeat s x.1).isNone && (trySeat (toCluster s x.1 g.cl) x.1).isNone)

/-- WBAR_ROOM_SAVE (R328): a gang that waits at WBAR stops, to be saved until its next phase, where a phase waits for gangs that have
no room. Its areas come from the save pool, or where that is short from the partition's memory (log 33). -/
def execWbarRoomSave (gang : Nat) : State → Host.Outcome State Fault Refusal := fun s =>
  let g := s.gang gang
  if gangAtWbar s g && pendingStuck s g then
    let vs := g.groups.filter (fun v => (look s.groups v).isSome && (s.group v).saved.isNone && (s.group v).stop.isNone)
    .next (((planSaves s vs).getD (vs.foldl stopFits s)).updGang gang (fun g => { g with room := true }))
  else .next s

/-- MESH_ROUTE_RECOMPUTE (R334): the clusters of a die all of whose cores are quarantined, or harvested, leave its routing. -/
def execMeshRouteRecompute (die : Nat) : State → Host.Outcome State Fault Refusal := fun s =>
  let harvest : Nat := match s.mgmt.active with
    | some i => i.harvest.toNat
    | none => 0
  let gone := (upto (12 * die) 12).filter (fun c =>
    harvest / 2 ^ c % 2 = 1 || (upto (24 * c) 24).all (fun x => (s.core x).quar))
  .next { s with routes := gone.foldl (fun r c => r ||| BitVec.ofNat 48 (2 ^ c)) s.routes }

end Sys2Proof.Machine
end

