-- ==== Sys2Proof/Machine/EventsCopy.lean ====
section
/-!
DEFINITION. Events of the copy engines (R228-R251), PUBLISH's exchange and invalidations (R239, R360), page-ins (R349), the
translation caches (R359), memory scrubbing (R292), and the understudy's cut (R429-R432). An event that is not enabled leaves
the state unchanged (log 1).
-/
namespace Sys2Proof.Machine

/-- CE_REQUEST_START (R228, R231): an accepted request starts. A TIERIN waits for room in the tracker (R363). -/
def execCeRequestStart (cl : Nat) (seq : Nat) : State → Host.Outcome State Fault Refusal := fun s =>
  match findReq s cl seq with
  | none => .next s
  | some r =>
    if r.st ≠ .accepted then .next s
    else match r.kind with
      | .acopy | .awrite | .wopen => .next (updReq s cl seq (fun q => { q with st := .running }))
      | .bcopy | .bstore => .next (bulkStart s cl r)
      | .kvcopy => .next (kvStart s cl r)
      | .tierin => if trackRoom s r.part r.idx.length then .next (tierStart s cl r) else .next s

/-- Whether an item before item `j`, not done, cannot be performed: word `j` is then among the lost (R237). -/
def lowerFault (s : State) (cl : Nat) (r : CeReq) (j : Nat) : Bool :=
  (r.items.take j).zipIdx.any (fun x => !x.1.done && match itemTry s cl r x.2 x.1 with
    | .fault _ => true
    | _ => false)

/-- The item `j` of a running request, not done. -/
def openItem (s : State) (cl seq j : Nat) : Option (CeReq × CeItem) :=
  match findReq s cl seq with
  | none => none
  | some r =>
    if r.st ≠ .running || r.kind = .wopen then none
    else match r.items[j]? with
      | none => none
      | some x => if x.done then none else some (r, x)

/-- The first outbound item below `j` that can still fail is read and translated, so that an item after it may be performed first (log 75). -/
def itemsReady (s : State) (cl : Nat) (r : CeReq) (j : Nat) : State :=
  match (r.items.take j).zipIdx.find? (fun x => !x.1.done && (itemSure s cl r x.2 x.1).isNone) with
  | none => s
  | some (x, k) => match itemReady s cl r k x with
    | some (bs, s1) => updReq s1 cl r.seq (fun q => setItem q k (fun y => { y with src := [.bytes bs] }))
    | none => s

/-- CE_WORD_ARRIVAL (R228, R247-R249, R348): an item whose word is PEND in a window notes when it first found it
so (R46); a request without items left ends once its stamp can be written (R149). -/
def execCeWordArrival (cl : Nat) (seq : Nat) (j : Nat) : State → Host.Outcome State Fault Refusal := fun s =>
  match openItem s cl seq j with
  | none => .next (ceSettle s cl seq)
  | some (r, x) =>
    if lowerFault s cl r j then .next s
    else match itemTry s cl r j x with
      | .ok s1 => .next (itemDone s1 cl seq j x)
      | .pend (some _) => .next (updReq s cl seq (fun q => setItem q j (fun y => { y with since := y.since.or (some s.cyc) })))
      | .pend none => .next s
      | .blocked => .next (itemsReady s cl r j)
      | .fault _ => .next s

/-- CE_LOSS (R224, R237): the first word that cannot be read or written, or whose window wait has reached its bound. -/
def execCeLoss (cl : Nat) (seq : Nat) (j : Nat) : State → Host.Outcome State Fault Refusal := fun s =>
  match openItem s cl seq j with
  | none => .next s
  | some (r, x) =>
    if lowerFault s cl r j then .next s
    else match itemTry s cl r j x, x.since with
      | .fault reason, _ => (match itemPrefix s cl r j x with
        | some s1 => .next (ceLose s1 cl seq j r.payload reason)
        | none => .next s)
      | .pend (some _), some c => .next (ceLose (s.setCyc (max s.cyc (c + 65536))) cl seq j r.payload 0x09)
      | _, _ => .next s

/-- The end of a WOPEN that cannot copy a granule (R237): what failed is counted (R292), and the bytes it did not copy count down. -/
def wopenLose (s : State) (cl : Nat) (r : CeReq) (reason : Nat) (need : Need) : State :=
  let s1 := updReq s cl r.seq (fun q => q.fail (r.counted / 4) reason)
  let s2 := engCount s1 (pieceCtx cl r 0) r.owner (r.record + r.counted) 64 need .g
  ceEnd (ceCount s2 cl r.seq (r.total.getD 0 - r.counted)) cl r.seq

/-- WOPEN_GRANULE_COPY (R251): granules in ascending order, from the front frame to the wings frame. -/
def execWopenGranuleCopy (cl : Nat) (seq : Nat) (j : Nat) : State → Host.Outcome State Fault Refusal := fun s =>
  match findReq s cl seq with
  | none => .next s
  | some r =>
    if r.st ≠ .running || r.kind ≠ .wopen || r.counted ≠ 64 * j then .next s
    else
      let c := pieceCtx cl r 0
      match engRead s c (r.record + r.counted) 64 .g with
      | .error e => .next (wopenLose s cl r e .engRead)
      | .ok (bs, s1) =>
        match dstPhys s1 c .g [(r.record + r.counted, 64)] with
        | (_, some e, s2) => .next (wopenLose s2 cl r e .engWrite)
        | (ps, none, s2) =>
          if dstBlocked s2 r.order ps then .next s
          else
            let s3 := sibBytes (dropPieces (ceCount (performPieces s2 ps bs) cl seq 64) cl seq) r.tid.vgid 64
            .next (if r.counted + 64 = r.total.getD 0 then ceSettle s3 cl seq else s3)

/-- Where an engine's write of a byte reaches, where its page is present. -/
def engDst (s : State) (c : Ctx) (va : Nat) : Option Nat :=
  match walk s c va with
  | .ok l => some (frameFor l.e l.wings .engWrite + va % leafSize l.lvl)
  | .error _ => none

/-- Whether a request accepted before a PUBLISH has still to write into a wings frame (R239). What a BSTORE, KVCOPY or TIERIN that has not
started will write is not known: it is waited for. -/
def writesFrame (s : State) (cl : Nat) (r : CeReq) (part frame size : Nat) : Bool :=
  let c := ceCtx cl r
  let inside (va : Nat) : Bool := match engDst s c va with
    | some a => meets s a 1 frame size
    | none => false
  match r.kind with
  | .wopen => inside r.record
  | .bstore | .kvcopy | .tierin => (r.st = .accepted && r.part = part) || open_ inside r
  | _ => open_ inside r
where
  open_ (inside : Nat → Bool) (r : CeReq) : Bool :=
    r.items.any (fun x => !x.done && match x.dst with
      | .mem ps => ps.any (fun p => inside p.1 || inside (p.1 + p.2 - 1))
      | .page _ b _ =>
        let n := 64 * r.head.roww
        inside (r.head.base + n * b) || inside (r.head.base + n * b + n - 1)
      | _ => false)

/-- Where an engine's write of `n` bytes begins in each 64 KiB page it reaches. -/
def pageStarts (va n : Nat) : List Nat := va :: (upto (va / 65536 + 1) ((va + n - 1) / 65536 - va / 65536)).map (· * 65536)

/-- What a PUBLISH that issued at mark `m` still waits for (R239, R430). -/
def publishHeld (s : State) (w : Who) (l : Leaf) (m : Nat) : Bool :=
  let size := leafSize l.lvl
  s.clusters.any (fun x => x.2.ce.any (fun (r : CeReq) => r.st.live && decide (r.order < m) && writesFrame s x.1 r w.k.part l.wings size))
  || s.parts.any (fun p => p.2.tracker.any (fun t => t.st = .inflight && decide (t.ord < m) &&
      (pageStarts t.dst t.bytes).any (fun va =>
        match engDst s { unit := 1152 + t.cl, part := p.1, asid := t.asid, world := t.world, house := 0 } va with
        | some a => meets s a 1 l.wings size
        | none => false)))
  || s.parts.any (fun p => match p.2.cut with
      | some c => c.items.any (fun i => !i.done && (i.leafAt = l.at_ || i.leafAt = l.at_ + 8))
      | none => false)

/-- Exchange the frame fields of an entry pair, in one step (R239 step 2). -/
def exchange (s : State) (l : Leaf) : State :=
  let m : DWord := 0x0000FFFFFFFFF000
  let a := read64 s l.at_
  let b := read64 s (l.at_ + 8)
  performBytes s l.at_ (bytes64 ((a &&& ~~~m) ||| (b &&& m)) ++ bytes64 ((b &&& ~~~m) ||| (a &&& m)))

/-- The PUBLISH that a thread waits at, with the address it names. -/
def publishOf (s : State) (t : Tid) : Option (Who × Nat × Nat) :=
  match waiting s t, fetch s t with
  | some (.publish m none), .ok (.publish _ a, _) =>
    let w := s.who t
    (match addrOf w s a with
     | .ok va => some (w, va, m)
     | .error _ => none)
  | _, _ => none

/-- PUBLISH_EXCHANGE (R239, R251): where the page is no longer a wings pair, the thread issues again and traps. -/
def execPublishExchange (t : Tid) : State → Host.Outcome State Fault Refusal := fun s =>
  match publishOf s t with
  | none => .next s
  | some (w, va, m) =>
    match wingsLeaf w s va with
    | .error _ => .next (wakeRetry s t)
    | .ok l =>
      if publishHeld s w l m then .next s
      else
        let size := leafSize l.lvl
        let lo := va - va % size
        let (id, s1) := pairInv (exchange s l) w.k.part w.k.asid lo (lo + 2 * size - 1) l
        .next (s1.updThread t (fun th => { th with wait := .publish m (some id) }))

/-- INVR_ACK (R360, R373): a PUBLISH whose invalidation this is completes. -/
def execInvrAck (id : Nat) : State → Host.Outcome State Fault Refusal := fun s =>
  match s.invs.find? (fun (i : Inv) => i.id = id) with
  | none => .next s
  | some i =>
    if !invReady s i then .next s
    else
      let s1 : State := { s with
        invs := s.invs.filter (fun (x : Inv) => x.id ≠ id),
        threads := s.threads.map (fun p => (p.1, { p.2 with invrs := p.2.invrs.filter (· ≠ id) })) }
      .next (s1.threads.foldl (fun s p => match p.2.wait with
        | .publish _ x => if x = some id then finishHeld s p.1 else s
        | _ => s) s1)

/-- PAGE_IN (R349, R363). -/
def execPageIn (id : Nat) : State → Host.Outcome State Fault Refusal := fun s =>
  match s.parts.findSome? (fun p => (p.2.tracker.find? (fun t => t.id = id && t.st = .inflight)).map (fun t => (p.1, t))) with
  | none => .next s
  | some (p, t) => .next (pageRun s p t)

/-- TRANSLATION_CACHE_EVICTION (R359). -/
def execTranslationCacheEviction (unit : Nat) (n : Nat) : State → Host.Outcome State Fault Refusal := fun s =>
  let l := at_ s.tlbs unit []
  .next { s with tlbs := put s.tlbs unit (l.take n ++ l.drop (n + 1)) }

/-- MEMORY_SCRUB (R292, R293): `bad` is what the scrubber finds in a granule: 0 a corrected error, 1 a granule that fails its
CRC, else an uncorrectable error (log 16). The physical function alone counts it, and a corrected error enters the die's bin. In the far tier
and in host memory it stands for data that will fail the CRC, or come as CXL data poison, where it enters the device (R361). -/
def execMemoryScrub (addr : Nat) (bad : Nat) : State → Host.Outcome State Fault Refusal := fun s =>
  match s.where_ addr with
  | .dev a =>
    if bad = 0 then .next (histAdd s (0x21000 + dieOf a))
    else
      let g : Gran := if bad = 1 then .badCrc else .uncorrectable
      .next (count { s with gran := put s.gran (a / 64) g } 0 (if g = .uncorrectable then 10 else 8) 1)
  | .far _ | .host _ =>
    if bad = 0 then .next s else .next { s with gran := put s.gran (canon s addr / 64) (if bad = 1 then .badCrc else .poisoned) }
  | _ => .next s

/-- The writable leaves of a table with D set, with their virtual addresses, in ascending order; the entry after one with G is its
wings (R429). -/
def dirtyLeaves (s : State) (p : Part) (t lvl va : Nat) : Nat → List (Nat × Nat × Nat × DWord)
  | 0 => []
  | fuel + 1 =>
    let span := 2 ^ (match lvl with | 0 => 39 | 1 => 30 | 2 => 21 | _ => 16)
    (upto 0 (tblEntries lvl)).flatMap (fun i =>
      let a := t + 8 * i
      let e := read64 s a
      let nx := read64 s (a + 8)
      let wings := i ≠ 0 && (let b := read64 s (a - 8); bit b 0 && bit b 1 && bit b 9)
      if !inRanges p a || !bit e 0 || malformed e nx lvl i || wings then []
      else if bit e 1 then (if bit e 3 && bit e 5 then [(a, va + span * i, lvl, e)] else [])
      else dirtyLeaves s p (frameOf e + bits e 9 2 * 256) (lvl + 1) (va + span * i) fuel)

/-- The ASIDs a cut selects that have a directory entry, ascending (R303, R429). -/
def cutAsids (s : State) (p : Part) (sel : Nat) : List (Nat × DWord) :=
  let dir := bits p.asidDir 51 20 * 2 ^ 20
  let one (a : Nat) : List (Nat × DWord) :=
    if inRanges p (dir + 16 * a) then (let e := read64 s (dir + 16 * a); if bit e 0 then [(a, e)] else []) else []
  if sel = 0xFFFF then (upto 0 65536).flatMap one else one sel

/-- The granules of a leaf's front frame. -/
def leafItems (asid : Nat) (x : Nat × Nat × Nat × DWord) : List CutItem :=
  (upto 0 (leafSize x.2.2.1 / 65536)).map (fun i =>
    { leafAt := x.1, asid := asid, va := x.2.1 + 65536 * i, phys := frameOf x.2.2.2 + 65536 * i })

/-- The groups of the partition's gangs that wait at WBAR (R431). -/
def cutGroups (s : State) (part : Nat) : List Nat :=
  sortBy (· ≤ ·) ((s.gangs.filter (fun g => g.2.st = .placed && (s.kernel g.2.kernel).part = part && gangAtWbar s g.2)).flatMap
    (fun g => g.2.groups.filter (fun v => (look s.groups v).isSome)))

/-- The cut header (R432). -/
def cutHeader (c : Cut) (no : Nat) : List Byte :=
  bytesOf ([2, BitVec.ofNat 32 no, BitVec.ofNat 32 c.tick, BitVec.ofNat 32 (c.tick / 2 ^ 32), BitVec.ofNat 32 c.asidsel] ++ List.replicate 11 0)

/-- An accepted cut whose tick comes while another is being copied is not made: it has faulted (R307, log 46). -/
def dropLater (s : State) (part : Nat) : State :=
  match (s.part part).later with
  | [] => s
  | c :: r => (s.setCyc (max s.cyc (c.tick * 128))).updPart part (fun p => { p with later := r, lastCut := cutOutcome p c true })

/-- CUT_TICK (R307, R429, R431, R432). -/
def execCutTick (part : Nat) : State → Host.Outcome State Fault Refusal := fun s0 =>
  match (s0.part part).cut with
  | none => .next s0
  | some c0 =>
    if c0.ticked then .next (dropLater s0 part)
    else
      let s := tickWakes (s0.setCyc (max s0.cyc (c0.tick * 128)))
      let p := s.part part
      let leaves := (cutAsids s p c0.asidsel).flatMap (fun x =>
        (dirtyLeaves s p (bits x.2 51 18 * 2 ^ 18) 0 0 4).map (fun l => (x.1, l)))
      let no := (p.ckNo + 1) % 2 ^ 24
      let items := leaves.flatMap (fun x => leafItems x.1 x.2)
      let saves := if c0.regs then cutGroups s part else []
      let c : Cut := { c0 with ticked := true, at_ := 64, seqno := 0, items := items, saves := saves }
      let s1 := leaves.foldl (fun s x => performWrite s x.2.1 (bytes64 (x.2.2.2.2 ||| 0x400)) 2) s
      let s2 := s1.updPart part (fun q => { q with cut := some c, ckActive := true, ckNo := no })
      if !cutDestOk p c.sel c.dest 64 then .next (cutEnd s2 part c true)
      else
        let s3 := performWrite s2 c.dest (cutHeader c no) 3
        .next (if c.items.isEmpty && c.saves.isEmpty then cutEnd s3 part c false else s3)

/-- Whether an engine has still to write registers of a group (R431). -/
def groupWritten (s : State) (v : Nat) : Bool :=
  s.clusters.any (fun x =>
    x.2.ce.any (fun (r : CeReq) => r.st.live && ((r.own && r.tid.vgid = v)
      || (r.kind = .bcopy && r.st = .accepted && r.region.any (fun g => decide (g.vgid = v)))
      || r.items.any (fun i => !i.done && match i.dst with
          | .claim t _ => t.vgid = v
          | .win _ t _ => t.vgid = v
          | _ => false)))
    || x.2.mt.any (fun (m : MtTask) => m.st.live && m.regions.any (fun g => decide (g.vgid = v))))

/-- The bytes of a save area, its sections in ascending order with zeros between them (R270). -/
def areaBytes (size : Nat) : Nat → List (Nat × List Word) → List Byte
  | n, [] => List.replicate (size - n) 0
  | n, (off, ws) :: r => List.replicate (off - n) 0 ++ bytesOf ws ++ areaBytes size (max n (off + 4 * ws.length)) r

/-- Write the save area of a group to the checkpoint (R431); of a saved group it is read from memory, and what fails its check goes out as data
poison (R291). -/
def cutSave (s : State) (part : Nat) (c : Cut) (v : Nat) : State :=
  let a := areaShape s v
  let w := s.who ⟨v, 0, 0⟩
  match cutAppend s part c 2 w.k.asid (BitVec.ofNat 64 v) (areaBytes a.size 0 (areaWords s v a false)) with
  | .error s1 => s1
  | .ok (c1, s0) =>
    let s1 := match (s.group v).saved with
      | some sv => poisonGrans s0 (c1.dest + c1.at_ - a.size) (badGrans s sv.base a.size)
      | none => s0
    let c2 := { c1 with saves := c1.saves.filter (· ≠ v) }
    let s2 : State := { s1 with fresh := s1.fresh + 1 }
    if c2.items.all (·.done) && c2.saves.isEmpty then cutEnd s2 part c2 false
    else s2.updPart part (fun q => { q with cut := some c2 })

/-- CUT_GRANULE_COPY (R429, R431): a save area that is ready; else the granule at a physical address, where it is the next in order. A granule
that a write reaches before its turn is copied with the write (R430). -/
def execCutGranuleCopy (part : Nat) (addr : Nat) : State → Host.Outcome State Fault Refusal := fun s =>
  match (s.part part).cut with
  | none => .next s
  | some c0 =>
    let c := { c0 with saves := c0.saves.filter (fun v => (look s.groups v).isSome) }
    if !c.ticked then .next s
    else match c.saves.find? (fun v => !groupWritten s v) with
      | some v => .next (cutSave s part c v)
      | none =>
        match c.items.find? (fun i => !i.done) with
        | some i =>
          if canon s i.phys = canon s (addr - addr % 65536) then .next (cutCopy (s.updPart part (fun q => { q with cut := some c })) part i)
          else .next s
        | none => if c.saves.isEmpty then .next (cutEnd s part c false) else .next s

end Sys2Proof.Machine
end

