-- ==== Sys2Proof/Machine/EventsLaunch.lean ====
section
/-!
DEFINITION. Events of the front of house (R319-R326, R344, R393): the doorbell, taking and checking launch records, the wait
list, and acceptance. An event that is not enabled leaves the state unchanged (log 1).
-/
namespace Sys2Proof.Machine

def Fn.queue (f : Fn) (q : Nat) : Lq := at_ f.lq q {}
def setLq (s : State) (f q : Nat) (x : Lq) : State := s.updFn f (fun y => { y with lq := put y.lq q x })

/-- A write of a launch queue's TAIL (R320). -/
def tailWrite (s : State) (fn q : Nat) (v : DWord) : State :=
  if 3 < q then s
  else
    let l := (s.fn fn).queue q
    let t := loWord v
    let tooFar := decide (2 ^ l.log2n < (t - l.head).toNat)
    setLq s fn q (if tooFar then { l with tail := t, err := true, errcode := 1, stuck := true } else { l with tail := t })

/-- LQ_TAIL_WRITE (R320), of a function that is exposed (R436). -/
def execLqTailWrite (fn : Nat) (q : Nat) (v : DWord) : State → Host.Outcome State Fault Refusal := fun s =>
  .next (if s.mgmt.powered && (!s.mgmt.noImage || fn = 0) then tailWrite s fn q v else s)

/-- Word 13 of a record from a host queue: its function's values (R319, R419). -/
def fnWord (f : Nat) (x : Fn) : Word :=
  BitVec.ofNat 32 ((if f = 0 then 2 ^ 28 else 0) + (if x.world then 2 ^ 27 else 0) + x.part * 2 ^ 22 + (f - 1) * 2 ^ 16 + x.asid)

/-- The kernel that a record gives. -/
def LaunchReq.kernel (q : LaunchReq) : Kernel := { words := q.words, parent := q.parent, fn := q.fn, irq := q.irq }

/-- Whether a reserved field of a record is nonzero (R319, R321). -/
def recReserved (k : Kernel) : Bool :=
  bits (k.w 8) 15 14 ≠ 0 || bits (k.w 8) 7 5 ≠ 0 || bits (k.w 9) 31 20 ≠ 0 || bit (k.w 11) 31 || bits (k.w 11) 15 9 ≠ 0
    || bits (k.w 12) 31 8 ≠ 0 || bits (k.w 14) 29 22 ≠ 0 || k.w 15 ≠ 0 || bits (k.w 24) 31 15 ≠ 0 || bit (k.w 24) 7
    || bits (k.w 26) 31 11 ≠ 0 || (upto 27 5).any (fun i => k.w i ≠ 0)

def badCode (x : DWord) : Bool := bits x 2 0 ≠ 0 || bits x 63 54 ≠ 0

/-- Whether one gang fits an empty cluster (R322). -/
def gangFits (k : Kernel) : Bool :=
  decide (k.depth * k.nw ≤ 8192) && decide (k.gpg ≤ 24 * (64 / k.width) * (8192 / (k.depth * k.nw)))

/-- Translate a predecessor's record for the record's ASID (R321, R326). -/
def predAt (s : State) (k : Kernel) (a : DWord) : Except TErr (Nat × State) := translate s (homeCtx k) a.toNat .read (some .g)

def preds (k : Kernel) : List DWord := ((upto 0 4).map k.pred).filter (· ≠ 0)

def predBad (s : State) (k : Kernel) (a : DWord) : Bool :=
  bits a 5 0 ≠ 0 || (match predAt s k a with | .ok _ => false | .error _ => true)

/-- The lowest-numbered reason that rejects a record, among the checks made when it is taken (R321). -/
def recReason (s : State) (k : Kernel) : Option Nat :=
  let house := k.house ≠ 0 && (k.hcount = 0 || decide (1024 < k.hcount)
    || s.kernels.any (fun x => x.2.st ≠ .ended && x.2.part = k.part && x.2.house = k.house))
  if k.rdiv = 0 || decide (16 < k.rdiv) || recReserved k || (k.rdiv = 16 && k.hasHandler) then some 1
  else if badCode k.entry || badCode k.handler then some 2
  else if decide (8192 < k.monitors) || decide (8192 < k.barriers) || decide (16384 < k.estate) || decide (256 < k.windows) then some 3
  else if !gangFits k then some 4
  else if k.sib && (decide (k.sibn < 2) || decide (64 < k.sibn) || k.ngang ≠ k.sibn || decide (k.sibn < k.quorumField)) then some 5
  else if house then some 6
  else if k.fr && (s.part k.part).frtSize = 0 then some 7
  else if (preds k).any (predBad s k) then some 9
  else none

/-- Reject a record (R321, R323). -/
def reject (s : State) (k : Kernel) (reason : Nat) : State := recordIrq (recordEnd s k 5 reason) k

/-- What a sibling launch takes: a ballot of the die that will receive gang 0, and its records' place (R393); one of the free
ballots, a free value (log 18). -/
def sibRoom (s : State) (k : Kernel) : Option (Nat × Nat × Nat) :=
  let die := dealDie s k
  let used := (s.ballots.filter (fun b => b.die = die)).map (·.idx)
  if 512 ≤ used.length then none
  else match pickFree 512 used (Config.freeValue s.fresh).toNat (used.length + 1), poolTake (s.part k.part) (1088 * k.sibn) with
    | some i, some base => some (die, i, base)
    | _, _ => none

/-- The copy of an accepted record in device memory of its partition, until the kernel ends (R323). -/
def retainRecord (s : State) (kn : Nat) : State :=
  let k := s.kernel kn
  match pinTake s k.part 128 with
  | none => s
  | some (a, s1) => performBytes (s1.updKernel kn (fun k => { k with record := a })) a (bytesOf ((upto 0 32).map k.w))

/-- Accept a record (R323, R325, R393): PENDING, the ballot of a sibling launch, and the gangs dealt out. -/
def acceptLaunch (s : State) (q : LaunchReq) (sib : Option (Nat × Nat × Nat)) : State :=
  let (n, s1) := s.newId
  let k := q.kernel
  let quorum := if k.quorumField = 0 then k.sibn / 2 + 1 else k.quorumField
  let ballots : List Ballot := sib.toList.map (fun x =>
    { die := x.1, idx := x.2.1, kernel := n, part := k.part, sibn := k.sibn, quorum := quorum, baseTick := s.hbt, recBase := x.2.2 })
  let s2 : State := { s1 with
    kernels := put s1.kernels n { k with order := n, code := s1.mem, ballot := sib.map (fun x => (x.1, x.2.1)) },
    ballots := s1.ballots ++ ballots,
    fresh := s1.fresh + ballots.length }
  let s3 := match sib with
    | none => s2
    | some (_, _, base) => performBytes (poolAdd s2 k.part base (1088 * k.sibn)) base (List.replicate (1088 * k.sibn) 0)
  dealGangs (recordWrite (retainRecord s3 n) k 0 [recordWord 1 0 0]) n 0 k.ngang

/-- A checked record whose predecessors are satisfied proceeds, where a sibling launch has what it takes (R326, R393). -/
def proceed (s : State) (q : LaunchReq) : Option State :=
  let k := q.kernel
  if k.sib then (sibRoom s k).map (fun x => acceptLaunch s q (some x)) else some (acceptLaunch s q none)

/-- Check a record that has been taken (R321, R326): it is rejected, waits, or is accepted. -/
def takeRecord (s : State) (q : LaunchReq) : State :=
  let k := q.kernel
  match recReason s k with
  | some reason => reject s k reason
  | none =>
    let s1 := (preds k).foldl (fun s a => match predAt s k a with | .ok (_, s1) => s1 | .error _ => s) s
    let wait := s1.updPart k.part (fun p => { p with waits := p.waits ++ [q] })
    if (preds k).isEmpty then (proceed s1 q).getD wait else wait

/-- The next record of a host queue, its word 13 overwritten (R319, R320). -/
def hostRecord (s : State) (f : Nat) (l : Lq) : List Word :=
  (wordsOf (physRead s (l.base + 128 * (l.head.toNat % 2 ^ l.log2n)) 128)).set 13 (fnWord f (s.fn f))

/-- The DONE field of a host record (R320): misaligned, or not translatable in device memory. A slot outside the partition's
ranges gives no record that could be read (R422, log 27). -/
def doneBad (s : State) (k : Kernel) (slot : Nat) : Bool :=
  bits k.done 5 0 ≠ 0 || !inRanges (s.part k.part) slot
    || (match translate s (homeCtx k) k.done.toNat .write (some .g) with | .ok _ => false | .error _ => true)

/-- Whether a function's records are taken (R419, R423): none while the VF is locked or in error. -/
def fnTakes (x : Fn) : Bool := x.tdisp = 0 || x.tdisp = 2

/-- Whether a host queue has a record that the front of house may take (R320, R326, R423): none while the compute dies stay in reset. -/
def queueReady (s : State) (f q : Nat) : Bool :=
  let x := s.fn f
  let l := x.queue q
  s.mgmt.up && x.en && fnTakes x && l.en && !l.stuck && l.head ≠ l.tail && decide ((s.part x.part).waits.length < 256)

/-- The launch queue that is visited next (R320): the first that is ready, from the one whose turn it is, in rotation over the four queues of
each of the 65 functions. -/
def nextQueue (s : State) : Option (Nat × Nat) :=
  ((upto 0 260).map (fun i => ((s.rot + i) % 260 / 4, (s.rot + i) % 260 % 4))).find? (fun x => queueReady s x.1 x.2)

/-- Take the next record of a host queue, where its turn has come (R320, R423). -/
def takeHost (s0 : State) (f q : Nat) : State :=
  let x := s0.fn f
  let l := x.queue q
  if nextQueue s0 ≠ some (f, q) then s0
  else
    let s : State := { s0 with rot := (4 * f + q + 1) % 260 }
    let (n, s1) := s.newId
    let r : LaunchReq := { words := hostRecord s f l, fn := f, parent := .host, irq := l.irq, order := n }
    let s2 := setLq s1 f q { l with head := l.head + 1 }
    if doneBad s r.kernel (l.base + 128 * (l.head.toNat % 2 ^ l.log2n)) then
      setLq s2 f q { l with head := l.head + 1, err := true, errcode := 2 }
    else takeRecord s2 r

/-- Take the next record of a partition's device launch queue (R344). -/
def takeDevice (s : State) (part : Nat) : State :=
  match (s.part part).devq with
  | [] => s
  | q :: r =>
    if 256 ≤ (s.part part).waits.length || !fnTakes (s.fn q.fn) then s
    else
      let s1 := s.updPart part (fun p => { p with devq := r })
      let s2 := match q.ret with
        | some (t, d) => operandArrive s1 t d [0]
        | none => s1
      takeRecord s2 { q with ret := none }

/-- LAUNCH_RECORD_TAKE (R320, R321, R344): from queue `q` of function `src`, or from the device launch queue of partition `src`. -/
def execLaunchRecordTake (dev : Bool) (src : Nat) (q : Nat) : State → Host.Outcome State Fault Refusal := fun s =>
  .next (if dev then takeDevice s src else takeHost s src q)

/-- What a waiting record's predecessors say (R326): the STATE fields read, or none where a page can no longer be read. -/
def predStates (s : State) (k : Kernel) : List (Option Nat) :=
  (preds k).map (fun a => match predAt s k a with
    | .ok (pa, s1) => some (bits (read32 s1 pa) 3 0)
    | .error _ => none)

/-- WAIT_LIST_CHECK (R326, R393): the `n`-th waiting record of a partition. -/
def execWaitListCheck (part : Nat) (n : Nat) : State → Host.Outcome State Fault Refusal := fun s =>
  match (s.part part).waits[n]? with
  | none => .next s
  | some q =>
    let k := q.kernel
    let sts := predStates s k
    let out := s.updPart part (fun p => { p with waits := p.waits.take n ++ p.waits.drop (n + 1) })
    if !fnTakes (s.fn q.fn) then .next s
    else if sts.any (fun x => x = some 4 || x = some 5) then .next (reject out k 8)
    else if sts.any (·.isNone) then .next (reject out k 9)
    else if sts.all (fun x => x = some 3 || x = some 0) then .next ((proceed out q).getD s)
    else .next s

end Sys2Proof.Machine
end

