-- ==== Sys2Proof/Machine/EventsHost.lean ====
section
/-!
DEFINITION. Events of the host port and of the house (R414-R421, R425, R330, R364): host accesses to device memory, the function
register blocks, the partition table, and accesses from other packages. An event that is not enabled leaves the state
unchanged (log 1).
-/
namespace Sys2Proof.Machine

/-- Whether a host access of `n` bytes meets a secure range, with whether it meets one whose partition has no VF in RUN (R415, log 28). -/
def secureRange (s : State) (a n : Nat) : Bool := s.parts.any (fun p => secureMeets p.2 a n)
def secureClosed (s : State) (a n : Nat) : Bool :=
  s.parts.any (fun p => secureMeets p.2 a n && !(s.fns.any (fun f => f.1 ≠ 0 && f.2.tdisp = 2 && f.2.part = p.1)))

/-- Whether a host access may reach its bytes (R415): one that meets a secure range must be carried by a TDI in RUN; whether it is, where a VF of
the partition is in RUN, is a free value, since the event does not name what carries it (log 28). -/
def hostCarried (s : State) (a n : Nat) : Bool × State :=
  if !secureRange s a n then (true, s)
  else if secureClosed s a n then (false, s)
  else let (x, s1) := s.free; (bit x 0, s1)

/-- A host write reaching device memory: holdings conveyed to HOST are settled (R416). -/
def hostWrite (s : State) (addr : Nat) (data : List Byte) : State :=
  let n := data.length
  let es := s.estate.filter (fun e => e.holder.isNone && e.kind ≠ .task && meets s addr n e.addr 8)
  let perform (s : State) : State := performBytes s addr data
  match es with
  | [] => perform s
  | e :: r =>
    let whole := n = 8 && canon s addr = canon s e.addr
    r.foldl (fun s e => hostSettle s e 0 false id) (hostSettle s e (BitVec.ofNat 64 (ofBytes data)) whole perform)

/-- HOST_MEM_WRITE (R415, R416): one to a closed secure range is dropped. -/
def execHostMemWrite (addr : Nat) (data : List Byte) : State → Host.Outcome State Fault Refusal := fun s =>
  let n := data.length
  if !s.mgmt.up || n = 0 || decide (devBytes < addr + n) then .next s
  else
    let (ok, s1) := hostCarried s addr n
    .next (if ok then hostWrite s1 addr data else s1)

/-- The egress of `n` bytes of device memory (R290, R291): none where they leave as data poison. -/
def egress (s : State) (addr n : Nat) : Option (List Byte) × State :=
  match badAt s addr n with
  | some (_, .uncorrectable) => (none, count s 0 10 1)
  | some _ => (none, count s 0 9 1)
  | none => (some (physRead s addr n), s)

/-- HOST_MEM_READ (R415), as HOST_MEM_WRITE of a package that has come out of reset (R436): the host may then hold the lines it has read (R414). -/
def execHostMemRead (addr : Nat) (n : Nat) : State → Host.Outcome State Fault Refusal := fun s =>
  if !s.mgmt.up || n = 0 || decide (devBytes < addr + n) then .next s
  else
    let (ok, s0) := hostCarried s addr n
    let (b, s1) := if ok then egress s0 addr n else (none, s0)
    let ls := (upto (addr / 64) ((addr + n - 1) / 64 - addr / 64 + 1)).filter (fun g => !s1.host.lines.contains g)
    .next { s1 with host := { s1.host with reply := b, lines := s1.host.lines ++ ls } }

/-- HOST_SNOOP (R414): the device holds no line and answers RspIHitI. -/
def execHostSnoop (_addr : Nat) : State → Host.Outcome State Fault Refusal := fun s =>
  .next { s with host := { s.host with snooped := true } }

/-- The final kill of a function's gangs by an interface error (R423); its TRAP_PC and TRAP_ADDR are free values (log 6). -/
def killFn (s : State) (f : Nat) : State :=
  let gs := s.gangs.filter (fun g => g.2.st ≠ .ended && (s.kernel g.2.kernel).owner = f && g.2.killed ≠ some true)
  gs.foldl (fun s g =>
    let info : KillInfo := ⟨0x06, Config.freeValue s.fresh, Config.freeValue (s.fresh + 1), 0x50⟩
    let s1 : State := { s with fresh := s.fresh + 2 }
    logKill (killGang s1 g.1 true (some info)) f 0x06 (g.2.groups.foldl min (g.2.groups.headD 0)) 0x50) s

/-- A VF in CONFIG_LOCKED or RUN goes to ERROR (R423). -/
def vfError (s : State) (f : Nat) : State :=
  let x := s.fn f
  if f ≠ 0 && (x.tdisp = 1 || x.tdisp = 2) then killFn (s.updFn f (fun y => { y with tdisp := 3 })) f else s

/-- Set a function's configuration (R419): only while EN is 0. -/
def cfgSet (s : State) (f : Nat) (x : DWord) : State :=
  if (s.fn f).en || (s.fn f).tdisp ≠ 0 then s
  else s.updFn f (fun y => { y with en := bit x 31, world := bit x 27, part := bits x 26 22, asid := bits x 15 0 })

/-- A write of VF_CFG[v] (R419, R423): a frozen one sends the VF to ERROR. -/
def vfCfg (s : State) (v : Nat) (x : DWord) : State := if 63 < v then s else cfgSet (vfError s (v + 1)) (v + 1) x

/-- VF_CFG_WRITE (R419), of a package whose VFs are exposed (R436). -/
def execVfCfgWrite (v : Nat) (x : DWord) : State → Host.Outcome State Fault Refusal := fun s =>
  .next (if s.mgmt.up then vfCfg s v x else s)

/-- Whether a partition entry may not change (R421): a kernel accepted, or a VF out of CONFIG_UNLOCKED. -/
def partBusy (s : State) (p : Nat) : Bool :=
  s.kernels.any (fun k => k.2.st ≠ .ended && k.2.part = p) || s.fns.any (fun f => f.1 ≠ 0 && f.2.part = p && f.2.tdisp ≠ 0)

/-- Whether the ranges of two partitions overlap. -/
def memsMeet (p q : Part) : Bool :=
  p.mems.any (fun x => bit x.2 63 && q.mems.any (fun y => bit y.2 63 &&
    decide (bits x.2 29 0 ≤ bits y.2 61 32) && decide (bits y.2 29 0 ≤ bits x.2 61 32)))

/-- A consistent table after a write of entry `p` (R421). -/
def partOk (s : State) (p : Nat) (x : Part) : Bool :=
  let cs := (upto 0 48).filter (fun c => bit x.clu c)
  let others := s.parts.filter (fun q => q.1 ≠ p)
  !(bit x.clu 63 && cs.length < 2) && others.all (fun q => !cs.any (fun c => bit q.2.clu c) && !memsMeet x q.2)

/-- A register of the partition table in entry `p`, by its offset (R418, R421): its new entry, none elsewhere. SECURE keeps no bit outside CLUSTERS
(log 29). -/
def tableReg (q : Part) (off : Nat) (x : DWord) : Option Part :=
  if off = 0x00 then some { q with clu := x &&& 0x8000FFFFFFFFFFFF, sec := q.sec &&& x }
  else if off = 0x08 then some { q with sec := x &&& q.clu &&& 0x0000FFFFFFFFFFFF }
  else if off = 0x10 then some { q with asidDir := x &&& 0x000FFFFFFFF00000 }
  else if off = 0x18 then some { q with houseKey := loWord x }
  else if 0x80 ≤ off && off < 0xC0 && off % 8 = 0 then
    some { q with mems := put q.mems ((off - 0x80) / 8) (x &&& 0xFFFFFFFF3FFFFFFF) }
  else none

/-- A range field's value where it is allowed, else the old one (log 29). -/
def fieldIn (lo hi new old : Nat) : Nat := if lo ≤ new && new ≤ hi then new else old

/-- A write of KVP_CTL (R364): its fields change only while EN is 0. -/
def kvpCtlSet (q : Part) (x : Word) : Word :=
  if bit q.kvpCtl 31 then (q.kvpCtl &&& 0x7FFFFFFF) ||| (x &&& 0x80000000)
  else BitVec.ofNat 32 ((if bit x 31 then 2 ^ 31 else 0) + fieldIn 10 16 (bits x 24 20) (bits q.kvpCtl 24 20) * 2 ^ 20 + bits x 19 0)

/-- A partition-wide register of the scheduler and the page pool (R330, R364), by its offset in the entry (R418). -/
def wideReg (q : Part) (off : Nat) (x : DWord) : Part :=
  if off = 0x20 then { q with qctl := loWord x }
  else if off = 0x28 then { q with frtBase := x &&& 0x000FFFFFFFFFFFC0 }
  else if off = 0x30 then { q with frtSize := loWord x }
  else if off = 0x38 then { q with savePool := x &&& 0x000FFFFFFFFFFFC0 }
  else if off = 0x40 then { q with saveSize := loWord x }
  else if off = 0x48 then { q with kvpCtl := kvpCtlSet q (loWord x) }
  else if off = 0x50 then (if bit q.kvpCtl 31 then q else { q with kvpVa := x })
  else if off = 0x58 then (if bit q.kvpCtl 31 then q else { q with kvpCnt := x &&& 0x000FFFFFFFFFFFC0 })
  else q

/-- Whether an offset in a partition's entry holds a register (R418). -/
def entryReg (off : Nat) : Bool := off % 8 = 0 && (decide (off < 0x60) || (decide (0x80 ≤ off) && decide (off < 0xC0)))

/-- A write into entry `p` (R418, R421, R423), whichever of its registers it reaches: it takes effect only while the entry may change, and one to
a frozen entry sends its VFs to ERROR. -/
def entryWrite (s : State) (p off : Nat) (x : DWord) : State :=
  if 19 < p || !entryReg off then s
  else
    let s1 := (s.fns.filter (fun f => f.2.part = p)).foldl (fun s f => vfError s f.1) s
    if partBusy s p then s1
    else match tableReg (s.part p) off x with
      | none => s1.updPart p (fun q => wideReg q off x)
      | some q => if partOk s p q then s1.updPart p (fun _ => q) else s1

/-- PARTITION_TABLE_WRITE (R421). -/
def execPartitionTableWrite (p : Nat) (off : Nat) (x : DWord) : State → Host.Outcome State Fault Refusal := fun s =>
  .next (entryWrite s p off x)

/-- Clear CLHOLD bits (R330). -/
def holdClear (s : State) (cl : Nat) (x : DWord) : State :=
  if 47 < cl then s else s.updCluster cl (fun c => { c with hold := c.hold &&& ~~~((loWord x).extractLsb' 0 24) })

/-- CLHOLD_CLEAR (R330). -/
def execClholdClear (cl : Nat) (x : DWord) : State → Host.Outcome State Fault Refusal := fun s => .next (holdClear s cl x)

/-- Whether a function's frozen registers would be written (R423). -/
def frozen (x : Fn) : Bool := x.tdisp = 1 || x.tdisp = 2

/-- A write of LQ_CTL (R320, R423): LOG2N changes only while EN is 0, and is frozen with the VF. -/
def lqCtlWrite (s : State) (f q : Nat) (x : Word) : State :=
  let l := (s.fn f).queue q
  let s1 := if frozen (s.fn f) && bits x 4 0 ≠ l.log2n then vfError s f else s
  let n := if l.en || frozen (s.fn f) then l.log2n else fieldIn 4 16 (bits x 4 0) l.log2n
  setLq s1 f q { l with en := bit x 31, err := l.err && !bit x 30, irq := bit x 23, log2n := n, stuck := l.stuck && bit x 31 }

def lqBaseWrite (s : State) (f q : Nat) (x : DWord) : State :=
  let l := (s.fn f).queue q
  if frozen (s.fn f) then vfError s f
  else if l.en then s else setLq s f q { l with base := bits x 51 7 * 128 }

/-- The launch and event queue registers of a function, and COLL_BASE (R320, R420, R428). -/
def queueReg (s : State) (f off : Nat) (x : DWord) : State :=
  if off < 0x80 then
    (match off % 0x20 with
     | 0x00 => lqCtlWrite s f (off / 0x20) (loWord x)
     | 0x08 => lqBaseWrite s f (off / 0x20) x
     | 0x18 => tailWrite s f (off / 0x20) x
     | _ => s)
  else if off = 0x100 then
    let n (y : Fn) : Nat := if y.heqEn then y.heqLog2n else fieldIn 4 16 (bits x 4 0) y.heqLog2n
    heqFlush (s.updFn f (fun y => { y with heqEn := bit x 31, heqLog2n := n y })) f
  else if off = 0x108 then s.updFn f (fun y => { y with heqBase := bits x 63 12 * 4096 })
  else if off = 0x110 then heqFlush (s.updFn f (fun y => { y with heqHead := loWord x })) f
  else if off = 0x400 then s.updFn f (fun y => { y with collBase := x &&& 0x000FFFFFFFFFC000 })
  else s

/-- A write of KVQ[v] (R364, R423). -/
def kvqWrite (s : State) (v : Nat) (x : DWord) : State :=
  if frozen (s.fn (v + 1)) then vfError s (v + 1) else s.updFn (v + 1) (fun y => { y with kvqQuota := bits x 31 0 })

/-- A command the mailbox knows (R438). -/
def mbKnown (c : Nat) : Bool := [1, 2, 3, 4, 5, 6, 0x10, 0x11].contains c

/-- The end of a mailbox command (R437): its results, its error, READY, and MSI-X vector 2. -/
def mbEnd (s : State) (err : Nat) (results : List (Nat × Word)) : State :=
  msix { s with mgmt := { s.mgmt with busy := false, ended := true, err := err, arg := results.foldl (fun a r => put a r.1 r.2) s.mgmt.arg } } 0 2

/-- A write of MB_CMD (R437): while BUSY it only sets ERR to 3. -/
def mbCmd (s : State) (x : Word) : State :=
  if s.mgmt.busy then { s with mgmt := { s.mgmt with err := 3 } }
  else
    let s1 : State := { s with mgmt := { s.mgmt with cmd := x &&& 0xFF, busy := true, err := 0 } }
    if mbKnown (bits x 7 0) then s1 else mbEnd s1 1 []

/-- The physical function's own registers (R417, R418). -/
def pfReg (s : State) (off : Nat) (x : DWord) : State :=
  if 0x1000 ≤ off && off < 0x1200 then s.updFn ((off - 0x1000) / 8 + 1) (fun y => { y with weight := bits x 7 0 })
  else if 0x1200 ≤ off && off < 0x1400 then kvqWrite s ((off - 0x1200) / 8) x
  else if 0x1400 ≤ off && off < 0x1580 then holdClear s ((off - 0x1400) / 8) x
  else if 0x2000 ≤ off && off < 0x2200 then vfCfg s ((off - 0x2000) / 8) x
  else if off = 0x3000 then mbCmd s (loWord x)
  else if 0x3100 ≤ off && off < 0x3200 && off % 4 = 0 then
    { s with mgmt := { s.mgmt with arg := put s.mgmt.arg ((off - 0x3100) / 4) (loWord x) } }
  else if 0x4000 ≤ off && off < 0x5400 then entryWrite s ((off - 0x4000) / 0x100) (off % 0x100) x
  else if 0x6000 ≤ off && off < 0x8080 then
    s.updFn ((off - 0x6000) / 0x80) (fun y => { y with comm := put y.comm (off % 0x80 / 8) (x &&& 0x8001FFFF0001FFFF) })
  else s

/-- Whether a function is exposed at the host port: with no valid image the physical function alone (R436). -/
def exposed (s : State) (fn : Nat) : Bool := s.mgmt.powered && (!s.mgmt.noImage || fn = 0) && decide (fn ≤ 64)

/-- REGISTER_WRITE (R417, R418, R320, R330, R420): offsets not listed, and the physical function's in a VF's block, ignore
writes. With no valid image there is the physical function alone (R436). -/
def execRegisterWrite (fn : Nat) (off : Nat) (x : DWord) : State → Host.Outcome State Fault Refusal := fun s =>
  if !exposed s fn || (off % 8 ≠ 0 && !(0x3100 ≤ off && off < 0x3200)) then .next s
  else if off < 0x1000 then .next (queueReg s fn off x)
  else if fn = 0 then .next (pfReg s off x)
  else .next s

/-- MB_STAT (R437). -/
def mbStat (m : Mgmt) : Nat := m.err * 2 ^ 16 + (if m.busy then 1 else if m.noImage && !m.ended then 2 else 0)

/-- The value of a launch or event queue register of a function, of a counter, of FN_CFG or of COLL_BASE (R417, R320, R420, R419, R398). -/
def queueValue (s : State) (f off : Nat) : Nat :=
  let x := s.fn f
  let l := x.queue (off / 0x20)
  let b (c : Bool) (n : Nat) : Nat := if c then 2 ^ n else 0
  if off < 0x80 then
    (match off % 0x20 with
     | 0x00 => b l.en 31 + b l.err 30 + l.errcode * 2 ^ 24 + b l.irq 23 + l.log2n
     | 0x08 => l.base
     | 0x10 => l.head.toNat
     | 0x18 => l.tail.toNat
     | _ => 0)
  else if off = 0x100 then b x.heqEn 31 + x.heqDropped * 2 ^ 8 + x.heqLog2n
  else if off = 0x108 then x.heqBase
  else if off = 0x110 then x.heqHead.toNat
  else if off = 0x118 then x.heqTail.toNat
  else if 0x200 ≤ off && off < 0x268 then at_ x.counts ((off - 0x200) / 8) 0
  else if off = 0x280 then x.cIssue
  else if off = 0x288 then x.cEngine
  else if off = 0x290 then x.cBytes
  else if off = 0x300 then b x.en 31 + x.tdisp * 2 ^ 29 + b (f = 0) 28 + b x.world 27 + x.part * 2 ^ 22 + (f - 1) * 2 ^ 16 + x.asid
  else if off = 0x400 then x.collBase.toNat
  else 0

/-- The value of a register in a partition's entry (R418). -/
def entryValue (q : Part) (off : Nat) : Nat :=
  match off with
  | 0x00 => q.clu.toNat
  | 0x08 => q.sec.toNat
  | 0x10 => q.asidDir.toNat
  | 0x18 => q.houseKey.toNat
  | 0x20 => q.qctl.toNat
  | 0x28 => q.frtBase.toNat
  | 0x30 => q.frtSize.toNat
  | 0x38 => q.savePool.toNat
  | 0x40 => q.saveSize.toNat
  | 0x48 => q.kvpCtl.toNat
  | 0x50 => q.kvpVa.toNat
  | 0x58 => q.kvpCnt.toNat
  | _ => if 0x80 ≤ off && off < 0xC0 then (at_ q.mems ((off - 0x80) / 8) 0).toNat else 0

/-- The value of a register that is the physical function's alone (R418). -/
def pfValue (s : State) (off : Nat) : Nat :=
  let cfg (f : Nat) : Nat := queueValue s f 0x300
  if 0x1000 ≤ off && off < 0x1200 then (s.fn ((off - 0x1000) / 8 + 1)).weight
  else if 0x1200 ≤ off && off < 0x1400 then let x := s.fn ((off - 0x1200) / 8 + 1); x.kvqUsed * 2 ^ 32 + x.kvqQuota
  else if 0x1400 ≤ off && off < 0x1580 then (s.cluster ((off - 0x1400) / 8)).hold.toNat
  else if 0x2000 ≤ off && off < 0x2200 then cfg ((off - 0x2000) / 8 + 1)
  else if off = 0x3000 then s.mgmt.cmd.toNat
  else if off = 0x3008 then mbStat s.mgmt
  else if 0x3100 ≤ off && off < 0x3200 then (at_ s.mgmt.arg ((off - 0x3100) / 4) 0).toNat
  else if 0x4000 ≤ off && off < 0x5400 then entryValue (s.part ((off - 0x4000) / 0x100)) (off % 0x100)
  else if 0x6000 ≤ off && off < 0x8080 then (at_ (s.fn ((off - 0x6000) / 0x80)).comm (off % 0x80 / 8) 0).toNat
  else 0

/-- The value a host read of a function's register block gives (R417, R418): offsets not listed, and the physical function's in a VF's block, read
as zero. A read changes nothing, and no instruction or event makes one. -/
def registerValue (s : State) (fn off : Nat) : DWord :=
  if !exposed s fn || (off % 8 ≠ 0 && !(0x3100 ≤ off && off < 0x3200 && off % 4 = 0)) then 0
  else if off < 0x1000 then BitVec.ofNat 64 (queueValue s fn off)
  else if fn = 0 then BitVec.ofNat 64 (pfValue s off)
  else 0

/-- FUNCTION_RESET (R417). -/
def execFunctionReset (fn : Nat) : State → Host.Outcome State Fault Refusal := fun s =>
  if !exposed s fn then .next s
  else .next (s.updFn fn (fun y => { y with counts := [], cIssue := 0, cEngine := 0, cBytes := 0 }))

/-- Whether a byte may be reached from another package (R425): some enabled range of a partition that accepts the key covers
it. -/
def houseOpen (s : State) (key a : Nat) : Bool :=
  key ≠ 0 && decide (a < devBytes) && s.parts.any (fun p => p.2.houseKey.toNat = key && inRanges p.2 a)

/-- REMOTE_HOUSE_ACCESS (R425): a load, or a store of `data`, of a kernel of another package with a house key. -/
def execRemoteHouseAccess (key : Nat) (addr : Nat) (n : Nat) (data : Option (List Byte)) : State → Host.Outcome State Fault Refusal := fun s =>
  match data with
  | some b =>
    if !s.mgmt.up || b = [] || !(upto addr b.length).all (houseOpen s key) then .next s
    else .next (performBytes s addr b)
  | none =>
    if !s.mgmt.up || n = 0 || !(upto addr n).all (houseOpen s key) then .next s
    else
      let (b, s1) := egress s addr n
      .next { s1 with house := { s1.house with reply := b } }

end Sys2Proof.Machine
end

