-- ==== Sys2Proof/Machine/RegSpace.lean ====
section
/-!
DEFINITION. Register-space instructions (R113-R120).
-/
namespace Sys2Proof.Machine

/-- The register a computed index reaches (R113). -/
def indexed (w : Who) (base : BitVec 9) (x : Word) (n : Nat) : Res Nat := do
  let i : Word := base.setWidth 32 + x
  trapIf (decide (w.k.regs ≤ i.toNat)) 0x06 (i.setWidth 64) 0x20
  trapIf (n = 2 && i.toNat % 2 = 1) 0x09 (i.setWidth 64) 0
  .ok i.toNat

/-- The registers an indexed access reaches, where its index reads. -/
def indexedWords (ty : Ty) (base : BitVec 9) (x : Src) (w : Who) (s : State) : List (Nat × Nat) :=
  match (src32 w s x).bind (fun x => indexed w base x (tyWords ty)) with
  | .ok i => [(i, tyWords ty)]
  | .error _ => []

/-- RDX (R113). -/
def execRdx (h : Hdr) (ty : Ty) (d : BitVec 9) (a : BitVec 9) (b : Src) : State → Host.Outcome State Fault Refusal :=
  runInstr h { srcs := [(.b, b, 1)], named := [(a.toNat, 1)], dst := some (d.toNat, tyWords ty),
               lists := indexedWords ty a b } (fun w s => do
    let x ← src32 w s b
    let i ← indexed w a x (tyWords ty)
    let ws ← bankRead w s i (tyWords ty)
    res w h s d (tyWords ty) (valueOf ws))

/-- WRX (R113): no latch; the index is read and checked before the value. -/
def execWrx (h : Hdr) (ty : Ty) (d : BitVec 9) (a b : Src) : State → Host.Outcome State Fault Refusal :=
  runInstr h { srcs := [(.a, a, 1), (.b, b, tyWords ty)], named := [(d.toNat, 1)], wrote := indexedWords ty d a } (fun w s => do
    let x ← src32 w s a
    let i ← indexed w d x (tyWords ty)
    let v ← src w s b (tyWords ty)
    writeReg w s i (tyWords ty) v)

/-- The words of an own register that TAKE or GIVE awaits in one state (R114, R40): a POISON word traps before a PEND one is waited for
(log 79). -/
def awaitTags (w : Who) (s : State) (i n : Nat) (g : Tag) : Res (List Word) :=
  let ws := operandWords s w.t i n
  if i ≠ 0 && ownAccOn s w.t i n then .error (.wait .retry)
  else match firstPoison ws i with
  | some p => .error (.trap (poisonCause p.2) (BitVec.ofNat 64 (regAddr s w.t p.1)) p.2)
  | none => if ws.all (fun x => x.tag = g) then .ok (ws.map (·.val)) else .error (.wait .retry)

/-- TAKE (R114). -/
def execTake (h : Hdr) (ty : Ty) (d : BitVec 9) (a : BitVec 9) : State → Host.Outcome State Fault Refusal :=
  runInstr h { named := [(a.toNat, tyWords ty)], dst := some (d.toNat, tyWords ty), cancel := .always,
               lists := fun _ _ => [(a.toNat, tyWords ty)] } (fun w s => do
    let ws ← awaitTags w s a.toNat (tyWords ty) .full
    res w h (operandTags s w.t a.toNat (tyWords ty) .empty) d (tyWords ty) (valueOf ws))

/-- GIVE (R114): a release (R144). -/
def execGive (h : Hdr) (ty : Ty) (d : BitVec 9) (a : Src) : State → Host.Outcome State Fault Refusal :=
  runInstr h { srcs := [(.a, a, tyWords ty)], named := [(d.toNat, tyWords ty)], cancel := .always } (fun w s => do
    releaseGate w s
    let v ← src w s a (tyWords ty)
    if d = 0 then .ok s
    else do
      let _ ← awaitTags w s d.toNat (tyWords ty) .empty
      .ok (operandWrite s w.t d.toNat (wordsN (tyWords ty) v)))

/-- Set one tag of a TAGSET (R115, R40). -/
def tagOne (s : State) (t : Tid) (st : TagState) (i : Nat) : State :=
  match st with
  | .empty => setTag s t i .empty
  | .full => setTag s t i .full
  | .poison => loseWord s t i (poisonRecord 4 0)

/-- Set the tags of `n` words from `i` up, held at the first PEND word (R115). -/
def tagRun (s : State) (t : Tid) (st : TagState) (i : Nat) : Nat → Res State
  | 0 => .ok s
  | n + 1 => if (regGet s t i).tag = .pend || ownAccOn s t i 1 then .error (.part (.tags i) s) else tagRun (tagOne s t st i) t st (i + 1) n

/-- TAGSET (R115). -/
def execTagset (h : Hdr) (st : TagState) (d : BitVec 9) (b : Src) : State → Host.Outcome State Fault Refusal :=
  runInstr h { srcs := [(.b, b, 1)], named := [(d.toNat, 1)] } (fun w s => do
    let n ← src32 w s b
    trapIf (n ≠ 0 && decide (w.k.regs < d.toNat + n.toNat)) 0x06 0 0x20
    let start := match w.th.wait with | .tags i => i | _ => d.toNat
    tagRun s w.t st start (d.toNat + n.toNat - start))

/-- TAGQ (R115). -/
def execTagq (h : Hdr) (d : BitVec 9) (a : BitVec 9) (n : BitVec 18) : State → Host.Outcome State Fault Refusal :=
  runInstr h { named := [(a.toNat, 1)], dst := some (d.toNat, 1), polls := true } (fun w s => do
    trapIf (decide (w.k.regs < a.toNat + n.toNat)) 0x06 0 0x20
    let v := (upto 0 n.toNat).foldl (fun x i => x + (regGet s w.t (a.toNat + i)).tag.code * 4 ^ i) 0
    res w h s d 1 (BitVec.ofNat 64 v))

/-- The lowest free slot of a core: closed, with no access in flight (R50). -/
def freeSlot (s : State) (core : Nat) : Option Nat :=
  (upto 0 256).find? (fun i => !(slotAt s core i).opened && inflight s core i = 0)

/-- A new export of a slot ends what the forwarding map has for its handle and for the slot (R51, R53). -/
def dropForward (s : State) (core slot gen : Nat) : State :=
  { s with fwd := s.fwd.filter (fun f => f.1 ≠ (core, slot, gen) && !(f.2.1 = core && f.2.2.1 = slot)) }

/-- WEXP (R116, R50): the group's own limit first, then the range, then the core's slots (log 72). -/
def execWexp (h : Hdr) (rights : Rights) (clus : Bool) (d : BitVec 9) (a : BitVec 9) (b : Src) : State → Host.Outcome State Fault Refusal :=
  runInstr h { srcs := [(.b, b, 1)], named := [(a.toNat, 1)], dst := some (d.toNat, 1) } (fun w s => do
    let len ← src32 w s b
    trapIf (decide (w.k.windows ≤ (openSlots s w.t.vgid).length)) 0x08 0 0x0B
    trapIf (len = 0 || a = 0 || decide (w.k.regs < a.toNat + len.toNat)) 0x08 0 0x0C
    match (freeSlot s w.g.core).filter (fun _ => slotLeft s w.g.core w.gk) with
    | none => .error (.trap 0x08 0 0x0B)
    | some i => do
      let gen := (slotAt s w.g.core i).nextGen
      let s1 ← resLater w s d 1 ((handleOf w.g.core i gen).setWidth 64)
      .ok (setSlot (dropForward s1 w.g.core i gen) w.g.core i
        { owner := w.t, vf := w.k.vf, part := w.k.part, opened := true, world := w.k.world, clus := clus, rights := rights,
          gen := gen, base := a.toNat, lenm1 := len.toNat - 1 }))

/-- WREV (R117, R54). -/
def execWrev (h : Hdr) (a : Src) : State → Host.Outcome State Fault Refusal :=
  runInstr h { srcs := [(.a, a, 1)] } (fun w s => do
    let x ← src32 w s a
    let (core, slot, _) := handleSlot s x
    match handleCheck s w x with
    | some reason => .error (.trap 0x08 (x.setWidth 64) (windowInfo reason 0))
    | none => do
      trapIf ((slotAt s core slot).owner.vgid ≠ w.t.vgid) 0x08 (x.setWidth 64) (windowInfo 0x07 0)
      let s1 := revoke s core slot
      if inflight s1 core slot = 0 then .ok s1
      else do
        cancelPoint w s
        .error (.hold (.wrev core slot) s1))

/-- A window read, accepted (R118): the destination is claimed, and the thread goes on. -/
def windowRead (w : Who) (s : State) (kind : WinKind) (right : Right) (ty : Ty) (d : BitVec 9) (a b : Src) : Res State := do
  acqGate w s
  let h ← src32 w s a
  let o ← src32 w s b
  let (core, slot, x) ← windowAccess w s h o.toNat (tyWords ty) right
  let s1 ← claim w s d.toNat (tyWords ty)
  .ok (accept s1 kind w.t (some (core, slot)) x.owner (x.base + o.toNat) (tyWords ty) [] d.toNat h o.toNat).2

/-- A window write, accepted: the thread is held until the word is written (R118). -/
def windowWrite (w : Who) (s : State) (kind : WinKind) (right : Right) (ty : Ty) (a b c : Src) : Res State := do
  let h ← src32 w s a
  let o ← src32 w s b
  let (core, slot, x) ← windowAccess w s h o.toNat (tyWords ty) right
  let v ← src w s c (tyWords ty)
  let (id, s1) := accept s kind w.t (some (core, slot)) x.owner (x.base + o.toNat) (tyWords ty) (wordsN (tyWords ty) v) 0 h o.toNat
  .error (.hold (.access id) s1)

def useRead (ty : Ty) (d : BitVec 9) (a b : Src) : Use :=
  { srcs := [(.a, a, 1), (.b, b, 1)], dst := some (d.toNat, tyWords ty) }
def useWrite (ty : Ty) (a b c : Src) : Use :=
  { srcs := [(.a, a, 1), (.b, b, 1), (.c, c, tyWords ty)], wrote := ownWindow a b (tyWords ty) }

/-- WLD (R118). -/
def execWld (h : Hdr) (ty : Ty) (d : BitVec 9) (a b : Src) : State → Host.Outcome State Fault Refusal :=
  runInstr h (useRead ty d a b) (fun w s => windowRead w s .wld .read ty d a b)
/-- WST (R118). -/
def execWst (h : Hdr) (ty : Ty) (a b c : Src) : State → Host.Outcome State Fault Refusal :=
  runInstr h (useWrite ty a b c) (fun w s => do
    acqGate w s
    windowWrite w s .wst .write ty a b c)
/-- WTAKE (R118). -/
def execWtake (h : Hdr) (ty : Ty) (d : BitVec 9) (a b : Src) : State → Host.Outcome State Fault Refusal :=
  runInstr h { useRead ty d a b with cancel := .always } (fun w s => windowRead w s .wtake .take ty d a b)
/-- WGIVE (R118): a release (R144). -/
def execWgive (h : Hdr) (ty : Ty) (a b c : Src) : State → Host.Outcome State Fault Refusal :=
  runInstr h { useWrite ty a b c with cancel := .always } (fun w s => do
    releaseGate w s
    windowWrite w s .wgive .give ty a b c)

/-- The thread a lane access reaches (R119). -/
def laneOf (w : Who) (lane : Word) : Res Tid := do
  trapIf (decide (w.k.width ≤ lane.toNat)) 0x06 0 0x21
  .ok ⟨w.t.vgid, w.t.layer, lane.toNat⟩

/-- LNRD (R119). -/
def execLnrd (h : Hdr) (ty : Ty) (d : BitVec 9) (a : Src) (b : BitVec 9) : State → Host.Outcome State Fault Refusal :=
  runInstr h { srcs := [(.a, a, 1)], remote := [(b.toNat, tyWords ty)], dst := some (d.toNat, tyWords ty) } (fun w s => do
    let x ← src32 w s a
    let t ← laneOf w x
    let s1 ← claim w s d.toNat (tyWords ty)
    .ok (accept s1 .lnrd w.t none t b.toNat (tyWords ty) [] d.toNat 0 0).2)

/-- The own registers that a write to a lane reaches, where the lane is the issuer's own (R70). -/
def ownLane (a : Src) (d : BitVec 9) (n : Nat) (w : Who) (s : State) : List (Nat × Nat) :=
  match src32 w s a with
  | .ok x => if x.toNat = w.t.lane then [(d.toNat, n)] else []
  | .error _ => []

/-- LNWR (R119). -/
def execLnwr (h : Hdr) (ty : Ty) (d : BitVec 9) (a b : Src) : State → Host.Outcome State Fault Refusal :=
  runInstr h { srcs := [(.a, a, 1), (.b, b, tyWords ty)], remote := [(d.toNat, tyWords ty)], wrote := ownLane a d (tyWords ty) } (fun w s => do
    let x ← src32 w s a
    let v ← src w s b (tyWords ty)
    let t ← laneOf w x
    let (id, s1) := accept s .lnwr w.t none t d.toNat (tyWords ty) (wordsN (tyWords ty) v) 0 0 0
    .error (.hold (.access id) s1))

/-- Whether a cluster belongs to a partition (R421). -/
def inPart (s : State) (p c : Nat) : Bool := bit (s.part p).clu c

/-- The slot of a core that MCAST reaches, through the forwarding map: the one open there, else where a window exported there has moved
(R120, log 73). -/
def mcastSlot (s : State) (core slot : Nat) : Nat × Nat :=
  if (slotAt s core slot).opened then (core, slot)
  else match s.fwd.reverse.find? (fun f => f.1.1 = core && f.1.2.1 = slot && (slotAt s f.2.1 f.2.2.1).opened && (slotAt s f.2.1 f.2.2.1).gen = f.2.2.2) with
    | some f => (f.2.1, f.2.2.1)
    | none => (core, slot)

/-- The window of cluster `c` that MCAST delivers to, if any (R120). -/
def mcastTarget (s : State) (w : Who) (h : Word) (o c : Nat) : Option (Nat × Nat × Slot) :=
  let (core, slot) := mcastSlot s (24 * c + bits h 25 21) (bits h 20 13)
  let d := slotAt s core slot
  if bits h 25 21 ≤ 23 && d.opened && d.rights.w && kernelOfGroup s d.owner.vgid = some w.kn && d.vf = w.k.vf && d.world = w.k.world
      && o ≤ d.lenm1 then some (core, slot, d) else none

/-- The own registers that a multicast reaches (R70). -/
def ownMcast (a b c : Src) (w : Who) (s : State) : List (Nat × Nat) :=
  match src32 w s a, src w s b 2, src w s c 2 with
  | .ok x, .ok mask, .ok p => (((upto 0 64).filter (bit mask)).filterMap (mcastTarget s w x (hiWord p).toNat)).filterMap (fun y =>
      if y.2.2.owner = w.t then some (y.2.2.base + (hiWord p).toNat, 1) else none)
  | _, _, _ => []

/-- MCAST (R120): the thread is held until every delivery is done. -/
def execMcast (h : Hdr) (ty : Ty) (d : BitVec 9) (a b c : Src) : State → Host.Outcome State Fault Refusal :=
  runInstr h { srcs := [(.a, a, 1), (.b, b, 2), (.c, c, 2)], dst := some (d.toNat, tyWords ty), wrote := ownMcast a b c } (fun w s => do
    acqGate w s
    let x ← src32 w s a
    let mask ← src w s b 2
    let p ← src w s c 2
    let o := (hiWord p).toNat
    let clusters := (upto 0 64).filter (bit mask)
    trapIf (clusters.any (fun k => decide (48 ≤ k) || !inPart s w.k.part k)) 0x06 0 0
    let targets := clusters.filterMap (mcastTarget s w x o)
    if targets.isEmpty then resLater w s d 1 0
    else do
      let s1 ← claim w s d.toNat 1
      let (id, s2) := s1.newId
      let s3 := { s2 with mcasts := s2.mcasts ++ [{ id := id, tid := w.t, dst := d.toNat, handle := x, left := targets.length, off := o, next := w.th.pc + 8 }] }
      let s4 := targets.foldl (fun s (y : Nat × Nat × Slot) =>
        (accept s (.mcast id) w.t (some (y.1, y.2.1)) y.2.2.owner (y.2.2.base + o) 1 [loWord p] 0 x o).2) s3
      .error (.hold (.access id) s4))

end Sys2Proof.Machine
end

