-- ==== Sys2Proof/Machine/Matrix.lean ====
section
/-!
DEFINITION. Tile tasks (R184-R200, R180, R181) and the matrix instructions (R218-R221).
-/
namespace Sys2Proof.Machine

/-- The fields of a tile-task record (R185). -/
structure Rec where
  op : Nat
  a : Option Ty
  b : Option Ty
  c : Option Ty
  slot : Nat
  k : Nat
  n : Nat
  m : Nat
  index : Bool
  shape : Bool
  kind : Nat
  ppair : Nat
  spair : Nat

def tyCode (x : Nat) : Option Ty := if x < 12 then some (Ty.ofCode x) else none

def recOf (ws : List Word) : Rec :=
  let w (i : Nat) : Word := ws.getD i 0
  { op := bits (w 0) 7 0, a := tyCode (bits (w 0) 19 16), b := tyCode (bits (w 0) 23 20), c := tyCode (bits (w 0) 27 24),
    slot := bits (w 0) 29 28, k := bits (w 1) 31 16, n := bits (w 1) 15 8 + 1, m := bits (w 1) 7 0 + 1,
    index := bit (w 8) 31, shape := bit (w 10) 31, kind := bits (w 12) 31 30, ppair := bits (w 12) 17 9, spair := bits (w 12) 8 0 }

/-- The types of a checked record. -/
def Rec.at_ (r : Rec) : Ty := r.a.getD .f32
def Rec.bt (r : Rec) : Ty := r.b.getD .f32
def Rec.ct (r : Rec) : Ty := r.c.getD .f32

def narrowTy (t : Ty) : Bool :=
  match t with
  | .bf16 | .f16 | .e4m3 | .e5m2 | .i8 | .c4 => true
  | _ => false

/-- Operand types stored as described blocks (R186). -/
def blockTy (t : Ty) : Bool :=
  match t with
  | .e4m3 | .e5m2 | .i8 | .c4 => true
  | _ => false

/-- Whether three types form a row of R186. -/
def recTypes (r : Rec) : Bool :=
  match r.a, r.b, r.c with
  | some .f64, some .f64, some .f64 => true
  | some .f32, some .f32, some .f32 => true
  | some x, some y, some .f32 => narrowTy x && narrowTy y
  | _, _, _ => false

/-- The indexes of a record's regions in use, in the order A, B, C, index, shape, with the right each needs (R189). -/
def recRegions (r : Rec) : List (Nat × Right) :=
  [(2, .read), (4, .read), (6, if r.op = 1 || r.op = 4 then .readWrite else .write)]
    ++ (if r.index then [(8, .read)] else []) ++ (if r.shape then [(10, .read)] else [])

/-- Words of a region in its group. -/
def regionWords (s : State) (g : Region) : Nat := groupWidth s g.vgid * g.len

/-- Elements an operand region of a type holds; K elements a row (R187). -/
def regionElems (s : State) (g : Region) (t : Ty) : Nat :=
  if blockTy t then regionWords s g / 16 * elemCount t else regionWords s g * 32 / tyBits t

/-- The number of source rows S (R187). -/
def sourceRows (s : State) (g : Region) (t : Ty) (k : Nat) : Nat :=
  if blockTy t then regionWords s g / (16 * (k / elemCount t)) else regionElems s g t / k

/-- The words of a C tile (R196). -/
def tileWords (r : Rec) : Nat := r.m * r.n * tyWords r.ct

/-- The first failing check of R189, by reason, for the record of an issuer; `d` is MTASK's destination (R218). DESIGN CHOICE
(log 96): R189 lists no reason for NM1 or MM1 above 31 (R185): such a record is accepted, and its image holds the first 32 rows' words. -/
def recBad (w : Who) (s : State) (ws : List Word) (r : Rec) (gs : List Region) (d : Nat) : Option Nat :=
  let x (i : Nat) : Word := ws.getD i 0
  let g (i : Nat) : Region := gs.getD i ⟨0, 0, 0, 1, 0⟩
  let e (t : Ty) : Bool := blockTy t && r.k % elemCount t ≠ 0
  let conv := r.op = 3 || r.op = 4
  let reserved := bits (x 0) 31 30 ≠ 0 || bits (x 0) 15 8 ≠ 0 || bits (x 12) 29 18 ≠ 0
    || (upto 13 3).any (fun i => x i ≠ 0) || [2, 4, 6].any (fun i => bits (x i) 31 19 ≠ 0) || [8, 10].any (fun i => bits (x i) 30 19 ≠ 0)
  let past (q : Region) : Bool := decide ((s.who ⟨q.vgid, 0, 0⟩).k.regs < q.base + q.len)
  let sr := sourceRows s (g 0) r.at_ r.k
  let own := if (g 2).handle = 0 then upto (g 2).base (g 2).len else []
  let pairs := (if r.kind % 2 = 1 then [r.spair] else []) ++ (if r.kind / 2 = 1 then [r.ppair] else [])
  let meets (p : Nat) : Bool := own.contains p || own.contains (p + 1)
  if r.op = 0 || r.op > 4 then some 0x01
  else if !recTypes r then some 0x02
  else if r.k = 0 || e r.at_ || e r.bt then some 0x03
  else if reserved || gs.any (fun q => q.len = 0 || decide (512 < q.len)) then some 0x04
  else if gs.any past || decide (regionWords s (g 2) < tileWords r) || decide (regionElems s (g 1) r.bt < r.k * r.n) then some 0x05
  else if (if r.index then sr = 0 || decide (regionWords s (g 3) < r.m) else !r.shape && decide (sr < r.m)) then some 0x06
  else if (r.index && r.shape) || (r.shape && !conv) || (conv && !r.shape) || (conv && blockTy r.at_) then some 0x07
  else if pairs.any (fun p => p % 2 = 1 || p = 0 || decide (w.k.regs ≤ p + 1) || meets p) || (r.kind = 3 && r.spair = r.ppair)
      || (d ≠ 0 && (pairs.contains d || meets d)) then some 0x08
  else none

/-- The C words of a task in their region, in ascending order. -/
def tileAt (r : Rec) (g : Region) : List (Tid × Nat) := (upto 0 (tileWords r)).map (regionWord g)

/-- MTASK (R218). -/
def execMtask (h : Hdr) (d a : BitVec 9) : State → Host.Outcome State Fault Refusal :=
  runInstr h { named := [(a.toNat, 1)], dst := some (d.toNat, 2), lists := fun _ _ => [(a.toNat, 16)] } (fun w s => do
    acqGate w s
    rangeIf w a.toNat 16
    let ws ← listRead w s a.toNat 16
    let r := recOf ws
    let use := recRegions r
    let gs := use.map (fun u => regionOf w s (ws.getD u.1 0) (ws.getD (u.1 + 1) 0))
    match (gs.zip use).findSome? (fun x => (regionFault w s x.1 x.2.2).map (fun i => (x.1.handle, i))) with
    | some (x, info) => .error (.trap 0x08 (x.setWidth 64) info)
    | none => do
      match recBad w s ws r gs d.toNat with
      | some reason => .error (.trap 0x14 0 (BitVec.ofNat 32 reason))
      | none => do
        let cl := clusterOf w.g.core
        if 256 ≤ (s.cluster cl).mt.length then .error (.wait .retry)
        let c := gs.getD 2 ⟨0, 0, 0, 1, 0⟩
        let tile := if c.handle = 0 then tileAt r c else []
        let claimed := tile ++ (if r.kind % 2 = 1 then pairWords' w.t r.spair else []) ++ (if r.kind / 2 = 1 then pairWords' w.t r.ppair else [])
        if claimed.any (fun p => (regGet s p.1 p.2).tag = .pend) then .error (.wait .retry)
        let lost := tile.filter (fun p => (regGet s p.1 p.2).tag = .poison)
        let s1 := claimed.foldl (fun s p => setTag s p.1 p.2 .pend) s
        let book := codebook w.g r.slot
        let seq := (s1.cluster cl).mtSeq
        let (n, s2) := s1.newId
        let t : MtTask := { home := cl, seq := seq, order := n, tid := w.t, kernel := w.kn, words := ws, regions := gs,
                            cb := book.entries, loaded := book.loaded, lost := lost }
        let s3 := s2.updCluster cl (fun c => { c with mtSeq := seq + 1, mt := c.mt ++ [t] })
        res w h s3 d 2 (ticketVal false 0 0 cl seq))
where
  pairWords' (t : Tid) (p : Nat) : List (Tid × Nat) := [(t, p), (t, p + 1)]

/-- A task wherever it is held, by its ticket (R221): its cluster now, and itself. -/
def findTask (s : State) (home seq : Nat) : Option (Nat × MtTask) :=
  s.clusters.findSome? (fun c => (c.2.mt.find? (fun t => t.home = home && t.seq = seq)).map (fun t => (c.1, t)))

def updTask (s : State) (t : MtTask) : State :=
  { s with clusters := s.clusters.map (fun c => (c.1, { c.2 with
    mt := c.2.mt.map (fun x => if x.home = t.home && x.seq = t.seq then t else x) })) }

/-- A ticket's checks in the order of R219: none once its outcome is no longer kept, a sequence number not yet assigned, and another
partition's cluster. -/
def ticketOf (w : Who) (s : State) (v : DWord) : Res (Option (Nat × Nat)) := do
  let cl := bits v 49 44
  let seq := bits v 43 0
  let next := (s.cluster cl).mtSeq
  if seq + 4096 < next then .ok none
  else do
    trapIf (decide (next ≤ seq)) 0x14 0 0x09
    trapIf (decide (47 < cl) || !inPart s w.k.part cl) 0x06 0 0x23
    .ok (some (cl, seq))

/-- MTWAIT (R219). -/
def execMtwait (h : Hdr) (d : BitVec 9) (a : Src) : State → Host.Outcome State Fault Refusal :=
  runInstr h { srcs := [(.a, a, 2)], dst := some (d.toNat, 2), cancel := .always } (fun w s => do
    let v ← src w s a 2
    match ← ticketOf w s v with
    | none => res w h s d 2 (ticketVal true 0x7F 0 (bits v 49 44) (bits v 43 0))
    | some (cl, seq) =>
      match look (s.cluster cl).stamps seq with
      | some (_, x) => res w h s d 2 x
      | none => .error (.wait .retry))

/-- State codes of R220. -/
def MtState.code : MtState → Nat
  | .queued => 0
  | .ready => 1
  | .running => 2
  | .frozen => 3
  | .checking => 4
  | .writing => 5
  | .done => 6
  | .faulted => 7
  | .cancelled => 8

/-- An engine of the issuer's cluster (R221 check 1). -/
def engineAt (w : Who) (s : State) (a : Src) : Res (Nat × Engine) := do
  let e ← src32 w s a
  trapIf (decide (7 < e.toNat)) 0x14 0 0x0C
  .ok (e.toNat, at_ (s.cluster (clusterOf w.g.core)).engines e.toNat {})

/-- MTQRY (R220). -/
def execMtqry (h : Hdr) (eng : Bool) (d : BitVec 9) (a : Src) : State → Host.Outcome State Fault Refusal :=
  runInstr h { srcs := [(.a, a, if eng then 1 else 2)], dst := some (d.toNat, 1) } (fun w s => do
    if eng then do
      let (_, e) ← engineAt w s a
      let v := (if e.frozen then 2 ^ 31 else 0) + (match e.task with | some q => 2 ^ 30 + q.2 % 2 ^ 30 | none => 0)
      resLater w s d 1 (BitVec.ofNat 64 v)
    else do
      let v ← src w s a 2
      let code := match ← ticketOf w s v with
        | none => 15
        | some (cl, seq) => match look (s.cluster cl).stamps seq with
          | some (st, _) => st.code
          | none => match findTask s cl seq with
            | some (_, t) => t.st.code
            | none => 15
      resLater w s d 1 (BitVec.ofNat 64 code))

def MtTask.record (t : MtTask) : Rec := recOf t.words
def MtTask.region (t : MtTask) (i : Nat) : Region := t.regions.getD i ⟨0, 0, 0, 1, 0⟩

/-- The C words of a task in its issuer's registers, which it has claimed (R184, R196). -/
def MtTask.claimed (t : MtTask) : List (Tid × Nat) := if (t.region 2).handle = 0 then tileAt t.record (t.region 2) else []

/-- A word as a task reads it (R193): its own claimed C words through its claim, with what they held when it claimed them; an uncorrectable
word faults as a POISON one (R288). -/
def taskWord (s : State) (t : MtTask) (g : Region) (j : Nat) : ItemOut Nat :=
  let p := regionWord g j
  let x := regGet s p.1 p.2
  if g.handle ≠ 0 && !handleLive s g.handle then .fault 0x23
  else match x.tag with
    | .pend =>
      if t.claimed.contains p then (if t.lost.contains p then .fault 0x21 else .ok x.val.toNat)
      else .pend (if g.handle = 0 then none else some p)
    | .poison => .fault 0x21
    | _ => if (eccAt s p.1 p.2 1).any (·.2) then .fault 0x21 else .ok x.val.toNat

def ItemOut.bind {α β : Type} (x : ItemOut α) (f : α → ItemOut β) : ItemOut β :=
  match x with
  | .ok a => f a
  | .pend w => .pend w
  | .blocked => .blocked
  | .fault r => .fault r

def ItemOut.map {α β : Type} (x : ItemOut α) (f : α → β) : ItemOut β := x.bind (fun a => .ok (f a))

/-- Run an attempt on each member of a list. -/
def ItemOut.all {α β : Type} (f : α → ItemOut β) : List α → ItemOut (List β)
  | [] => .ok []
  | a :: r => (f a).bind (fun b => (ItemOut.all f r).map (fun bs => b :: bs))

def taskWords (s : State) (t : MtTask) (g : Region) (lo n : Nat) : ItemOut (List Nat) := ItemOut.all (taskWord s t g) (upto lo n)

/-- A raw element of a region, by its index (R187). -/
def taskElem (s : State) (k : MtTask) (g : Region) (t : Ty) (i : Nat) : ItemOut Nat :=
  let b := tyBits t
  if b = 64 then (taskWords s k g (2 * i) 2).map (fun ws => ws.getD 0 0 + 2 ^ 32 * ws.getD 1 0)
  else (taskWord s k g (i / (32 / b))).map (fun x => x / 2 ^ (b * (i % (32 / b))) % 2 ^ b)

/-- The flags of reading a raw operand: DEN, and IVL for a signalling NaN (R173). -/
def rawFlags (f : FFmt) (x : Nat) : Flags :=
  (if subnormal f x then den else 0) ||| (match unpack f x with | .nan _ _ _ q => if q then 0 else ivl | _ => 0)

def rawValue (t : Ty) (x : Nat) : FV × Flags := (unpack (fmtOfTy t) x, rawFlags (fmtOfTy t) x)

/-- A line of K elements stored as blocks: row r of A or column r of B (R187); a failed decode faults (R198). -/
def blockLine (s : State) (x : MtTask) (g : Region) (t : Ty) (k r : Nat) : ItemOut (List (FV × Flags)) :=
  let e := elemCount t
  (ItemOut.all (fun q =>
    (taskWords s x g (16 * (k / e) * r + 16 * q) 16).bind (fun ws =>
      let bs := bytesOf (ws.map (BitVec.ofNat 32))
      match blockCheck bs t x.record.slot x.loaded with
      | some (c, i) => .fault (if c = 0x10 then 0x31 else match i with | 1 => 0x32 | 3 => 0x33 | 2 => 0x34 | 4 => 0x35 | _ => 0x36)
      | none => .ok ((upto 0 e).map (elemValue bs t x.cb)))) (upto 0 (k / e))).map (fun ls => ls.flatMap id)

/-- A column of B (R187). -/
def bColumn (s : State) (t : MtTask) (j : Nat) : ItemOut (List (FV × Flags)) :=
  let r := t.record
  if blockTy r.bt then blockLine s t (t.region 1) r.bt r.k j
  else (ItemOut.all (fun k => taskElem s t (t.region 1) r.bt (k * r.n + j)) (upto 0 r.k)).map (fun xs => xs.map (rawValue r.bt))

/-- A field of a shape record (R194). -/
def shapeField (ws : List Word) (i hi lo : Nat) : Nat := bits (ws.getD i 0) hi lo

/-- Element (i, k) of a convolution's A (R195): its element index, or none for padding. -/
def convIndex (ws : List Word) (i k : Nat) : Option Nat :=
  let f := shapeField ws
  let wd := f 0 31 16; let ht := f 0 15 0; let ch := f 1 15 0
  let sw := f 2 31 24; let sh := f 2 23 16; let fw := f 2 15 8
  let pl := f 3 31 24; let pt := f 3 23 16; let dw := f 3 15 8; let dh := f 3 7 0
  let ow := f 5 31 16; let oh := f 5 15 0
  let p := f 6 31 0 + i
  let n := p / (oh * ow)
  let oy := p / ow % oh
  let ox := p % ow
  let c := k % ch
  let fx := k / ch % fw
  let fy := k / (ch * fw)
  let y : Int := ((oy * sh + fy * dh : Nat) : Int) - pt
  let x : Int := ((ox * sw + fx * dw : Nat) : Int) - pl
  if 0 ≤ y && y < ht && 0 ≤ x && x < wd then some (((n * ht + y.toNat) * wd + x.toNat) * ch + c) else none

/-- Whether a shape record is invalid (R194). -/
def shapeBad (s : State) (t : MtTask) (ws : List Word) : Bool :=
  let f := shapeField ws
  let r := t.record
  [f 0 31 16, f 0 15 0, f 1 31 16, f 1 15 0, f 2 31 24, f 2 23 16, f 2 15 8, f 2 7 0, f 3 15 8, f 3 7 0, f 5 31 16, f 5 15 0].contains 0
    || f 7 31 0 ≠ 0 || r.k ≠ f 2 7 0 * f 2 15 8 * f 1 15 0 || decide (f 1 31 16 * f 5 15 0 * f 5 31 16 ≤ f 6 31 0 + (r.m - 1))
    || decide (regionElems s (t.region 0) r.at_ < f 1 31 16 * f 0 15 0 * f 0 31 16 * f 1 15 0)

/-- Row i of A as the task uses it (R192, R195). -/
def aRow (s : State) (t : MtTask) (i : Nat) : ItemOut (List (FV × Flags)) :=
  let r := t.record
  if r.shape then
    ItemOut.all (fun k => match convIndex t.shape i k with
      | none => .ok (rawValue .f32 (t.shape.getD 4 0).toNat)
      | some x => (taskElem s t (t.region 0) r.at_ x).map (rawValue r.at_)) (upto 0 r.k)
  else
    let q := t.rows.getD i 0
    if r.index && decide (sourceRows s (t.region 0) r.at_ r.k ≤ q) then .fault 0x20
    else if blockTy r.at_ then blockLine s t (t.region 0) r.at_ r.k q
    else (ItemOut.all (fun k => taskElem s t (t.region 0) r.at_ (q * r.k + k)) (upto 0 r.k)).map (fun xs => xs.map (rawValue r.at_))

/-- The fill's own reads: the index list, the shape record and the initial C (R192, R196). DESIGN CHOICE (log 96): a shape region of fewer than
8 words faults with no reason of its own: the missing words read as those of a lane that the group does not have. -/
def fillRead (s : State) (t : MtTask) : ItemOut MtTask :=
  let r := t.record
  let rows : ItemOut (List Nat) :=
    if r.index then
      (taskWords s t (t.region 3) 0 r.m).bind (fun xs =>
        if xs.any (fun x => decide (sourceRows s (t.region 0) r.at_ r.k ≤ x)) then .fault 0x20 else .ok xs)
    else .ok (upto 0 r.m)
  rows.bind (fun rows =>
    let shape : ItemOut (List Word) :=
      if r.shape then (taskWords s t (t.region 3) 0 8).bind (fun xs =>
        let ws := xs.map (BitVec.ofNat 32)
        if shapeBad s t ws then .fault 0x25 else .ok ws)
      else .ok []
    shape.bind (fun shape =>
      let c0 : ItemOut (List DWord) :=
        if r.op = 1 || r.op = 4 then
          (ItemOut.all (fun i => taskElem s t (t.region 2) r.ct i) (upto 0 (r.m * r.n))).map
             (fun xs => xs.map (BitVec.ofNat 64))
        else .ok (List.replicate (r.m * r.n) 0)
      c0.map (fun c0 => { t with
        filled := true, rows := rows, shape := shape, c0 := c0, acc := c0, knext := 0,
        flags := t.flags ||| (if r.op = 1 || r.op = 4 then c0.foldl (fun (f : Flags) x => f ||| rawFlags (fmtOfTy r.ct) x.toNat) 0 else 0) })))

/-- One rounding of the chain of R180 or R181: the exact products and the accumulator, rounded RNE; NaN is canonical (R171). A NaN that the
group's products make of operands that are not NaNs sets IVL, whatever the accumulator holds (R173). -/
def sumStep (f : FFmt) (ps : List (FV × FV)) (acc : Nat) : Nat × Flags :=
  let a := unpack f acc
  if a.isNan || ps.any (fun p => p.1.isNan || p.2.isNan) then
    let qs := (ps.filter (fun p => !p.1.isNan && !p.2.isNan)).map (fun p => fvMul p.1 p.2)
    let made := qs.any (·.isNone) || (qs.length = ps.length && (fvSum .rne (qs.filterMap id)).isNone)
    (f.nan, if made then ivl else 0)
  else fusedSum f .rne false ps [a]

/-- The chain over the remaining pairs, `g` at a time. -/
def sumChain (f : FFmt) (g : Nat) : Nat → List (FV × FV) → Nat → Nat × Flags
  | 0, _, acc => (acc, 0)
  | n + 1, ps, acc =>
    if ps.isEmpty then (acc, 0)
    else
      let (x, fl) := sumStep f (ps.take g) acc
      let (y, fl2) := sumChain f g n (ps.drop g) x
      (y, fl ||| fl2)

def fvAbs : FV → FV
  | .num _ m e => .num false m e
  | .inf _ => .inf false
  | v => v

def fvProd (x y : FV) : FV := (fvMul x y).getD fvNan
def fvTotal (xs : List FV) : FV := if xs.any (·.isNan) then fvNan else (fvSum .rne xs).getD fvNan

/-- Whether a row's shadow checksum passes (R197). -/
def rowPasses (f : FFmt) (as : List FV) (bs : List (List FV)) (c0 c : List DWord) : Bool :=
  let cs := c.map (fun x => unpack f x.toNat)
  let c0s := c0.map (fun x => unpack f x.toNat)
  let col (k : Nat) : List FV := bs.map (fun b => fvAt b k)
  let h := fvTotal ((as.zipIdx.map (fun x => fvProd x.1 (fvTotal (col x.2)))) ++ c0s)
  let rho := fvTotal cs
  let mag := fvTotal ((as.zipIdx.map (fun x => fvProd (fvAbs x.1) (fvTotal ((col x.2).map fvAbs)))) ++ c0s.map fvAbs)
  let bound := fvTotal [mag.scale (-8), .num false bs.length (-149)]
  let bad (v : FV) : Bool := match v with | .num _ _ _ => false | _ => true
  if cs.any bad || bad h || bad bound then true
  else fvCmp (fvAbs (fvTotal [h, rho.flip])) bound ≠ .gt

/-- Add the k from KNEXT to `k1` (R180, R181), with the shadow sums, and, at the end, the check. -/
def advanceTask (s : State) (t : MtTask) (k1 : Nat) : ItemOut MtTask :=
  let r := t.record
  let f := fmtOfTy r.ct
  let g := if narrowTy r.at_ then 4 else 1
  (ItemOut.all (aRow s t) (upto 0 r.m)).bind (fun rows =>
    (ItemOut.all (bColumn s t) (upto 0 r.n)).map (fun cols =>
      let fl := (rows ++ cols).foldl (fun (x : Flags) l => l.foldl (fun (x : Flags) e => x ||| e.2) x) 0
      let as := rows.map (fun l => l.map (·.1))
      let bs := cols.map (fun l => l.map (·.1))
      let part (l : List FV) : List FV := (l.take k1).drop t.knext
      let out := as.zipIdx.flatMap (fun a => bs.zipIdx.map (fun b =>
        sumChain f g k1 ((part a.1).zip (part b.1)) (t.acc.getD (a.2 * r.n + b.2) 0).toNat))
      let acc := out.map (fun x => BitVec.ofNat 64 x.1)
      let old (i : Nat) : FV := match t.shadow[i]? with
        | some w => unpack fmt32 w.toNat
        | none => fvTotal ((t.c0.drop (i * r.n)).take r.n |>.map (fun x => unpack f x.toNat))
      let shadow := as.zipIdx.map (fun a =>
        let h := fvTotal (old a.2 :: (part a.1).zipIdx.map (fun x => fvProd x.1 (fvTotal (bs.map (fun b => fvAt b (t.knext + x.2))))))
        BitVec.ofNat 32 (deliverF fmt32 .rne false false h).1)
      let passes := as.zipIdx.all (fun a =>
        rowPasses f a.1 bs ((t.c0.drop (a.2 * r.n)).take r.n) ((acc.drop (a.2 * r.n)).take r.n))
      { t with acc := acc, shadow := shadow, knext := k1, flags := t.flags ||| fl ||| out.foldl (fun (x : Flags) y => x ||| y.2) 0,
               bad := t.bad || (k1 = r.k && !passes) }))

/-- The depth of an operand type (R2). -/
def tyDepth : Ty → Nat
  | .f64 => 1
  | .f32 => 4
  | .bf16 | .f16 => 16
  | .c4 => 60
  | _ => 30

/-- Where a task stands after `x` more compute cycles, at least none and before its last k: each adds the depth of its operands (R2, R200);
KNEXT is a multiple of the group size (R199), so a cycle that ends inside a group leaves that group to the next (log 74). -/
def boundaryAfter (t : MtTask) (x : Nat) : Nat :=
  let r := t.record
  let d := min (tyDepth r.at_) (tyDepth r.bt)
  let g := if narrowTy r.at_ then 4 else 1
  t.knext + x % max 1 ((r.k - t.knext + d - 1) / d) * d / g * g

/-- Where a RUNNING task stands at the compute-cycle boundary at which it is frozen or drained: how far it has come is a
free value (log 6); with its operands not readable it stays at KNEXT. -/
def atBoundary (s : State) (t : MtTask) : MtTask × State :=
  let (x, s1) := s.free
  let tried := (if t.filled then .ok t else fillRead s1 t).bind (fun t1 =>
    let k1 := boundaryAfter t1 x.toNat
    if k1 = t1.knext then .ok t1 else advanceTask s1 t1 k1)
  match tried with
  | .ok t1 => (t1, s1)
  | _ => (t, s1)

def setEngine (s : State) (cl e : Nat) (x : Engine) : State := s.updCluster cl (fun c => { c with engines := put c.engines e x })

/-- The task of an engine. -/
def engineTask (s : State) (x : Engine) : Option MtTask := x.task.bind (fun q => (findTask s q.1 q.2).map (·.2))

/-- R221 check 2: the engine's task belongs to the issuer's partition and world. -/
def engineIf (w : Who) (s : State) (x : Engine) : Res Unit :=
  match engineTask s x with
  | some t => let k := s.kernel t.kernel; trapIf (k.part ≠ w.k.part || k.world != w.k.world) 0x06 0 0x23
  | none => .ok ()

/-- MFREEZE (R221, R184): a task that checks or writes ends first, whatever replay comes before its end; the engine is then frozen. -/
def execMfreeze (h : Hdr) (a : Src) : State → Host.Outcome State Fault Refusal :=
  runInstr h { srcs := [(.a, a, 1)], sys := true } (fun w s => do
    let (e, x) ← engineAt w s a
    engineIf w s x
    let cl := clusterOf w.g.core
    match engineTask s x with
    | none => .ok (setEngine s cl e { x with frozen := true })
    | some t =>
      if t.st = .frozen then .ok s
      else if w.th.wait = .freeze && t.freeze then .error (.wait .freeze)
      else if t.st = .running then
        let (t1, s1) := atBoundary s t
        .ok (setEngine (updTask s1 { t1 with st := .frozen, freeze := false }) cl e { x with frozen := true })
      else .error (.part .freeze (updTask s { t with freeze := true })))

/-- MTHAW (R221). -/
def execMthaw (h : Hdr) (a : Src) : State → Host.Outcome State Fault Refusal :=
  runInstr h { srcs := [(.a, a, 1)], sys := true } (fun w s => do
    let (e, x) ← engineAt w s a
    engineIf w s x
    if !x.frozen then .ok s
    else
      let s1 := setEngine s (clusterOf w.g.core) e { x with frozen := false }
      match engineTask s x with
      | some t => .ok (updTask s1 { t with st := .running })
      | none => .ok s1)

/-- `n` free values, for words of an image that the spec gives no value (log 6). -/
def freeWords (s : State) (n : Nat) : List Word := (upto 0 n).map (fun i => (Config.freeValue (s.fresh + i)).setWidth 32)

/-- The image of an engine's task (R199). -/
def imageOf (s : State) (t : MtTask) : List Word :=
  let f64 := decide (t.record.ct = Ty.f64)
  let flag : Nat := 2 ^ 31 + (if f64 then 2 ^ 30 else 0) + (if t.replayed then 2 ^ 29 else 0)
  let ticket := ticketVal false 0 0 t.home t.seq
  let book := (upto 0 8).map (fun i => (t.cb.getD (2 * i + 1) 0 ++ t.cb.getD (2 * i) 0 : Word))
  let pad (n : Nat) (l : List Word) : List Word := (l ++ List.replicate n 0).take n
  let acc := t.acc.flatMap (fun x => if f64 then [loWord x, hiWord x] else [loWord x])
  pad 16 t.words ++ [BitVec.ofNat 32 flag, BitVec.ofNat 32 t.knext, loWord ticket, hiWord ticket] ++ book
    ++ pad 32 (t.rows.map (BitVec.ofNat 32)) ++ pad 32 t.shadow ++ List.replicate 4 0
    ++ (acc ++ freeWords s 2048).take (if f64 then 2048 else 1024)

/-- The region of an image, checked (R221): R52 first, then the region word as in R189. -/
def imageRegion (w : Who) (s : State) (p : DWord) (right : Right) : Res Region := do
  let x := loWord p
  let g := regionOf w s x (hiWord p)
  match regionFault w s g right with
  | some info => .error (.trap 0x08 (g.handle.setWidth 64) info)
  | none => do
    trapIf (bits x 31 19 ≠ 0 || g.len = 0 || decide (512 < g.len)) 0x14 0 0x04
    trapIf (decide ((s.who ⟨g.vgid, 0, 0⟩).k.regs < g.base + g.len)) 0x14 0 0x05
    .ok g

/-- A wait on the PEND words of an image region: bounded through a window (R46). -/
def imageWait {α : Type} (w : Who) (s : State) (g : Region) (ws : List (Tid × Nat)) : Res α :=
  if g.handle = 0 then .error (.wait .retry) else windowWait w s g.handle ws

/-- Write words into a region with ordinary writes. -/
def regionWrite (s : State) (g : Region) (ws : List Word) : State :=
  ws.zipIdx.foldl (fun s x => let (t, r) := regionWord g x.2; writeWord s t r x.1) s

/-- MDRAIN (R221, R199): a snapshot; a RUNNING task is unchanged. -/
def execMdrain (h : Hdr) (a b : Src) : State → Host.Outcome State Fault Refusal :=
  runInstr h { srcs := [(.a, a, 1), (.b, b, 2)], sys := true } (fun w s => do
    let s ← probeGate w s
    let (_, x) ← engineAt w s a
    engineIf w s x
    let p ← src w s b 2
    let g ← imageRegion w s p .write
    let out : List Word × State := match engineTask s x with
      | none => (freeWords s 16 ++ [0] ++ freeWords s 75 ++ List.replicate 4 0, { s with fresh := s.fresh + 75 })
      | some t => if t.st = MtState.running then
          let (t1, s1) := atBoundary s t
          (imageOf s1 t1, { s1 with fresh := s1.fresh + 2048 })
        else (imageOf s t, { s with fresh := s.fresh + 2048 })
    let img := out.1
    let s1 := out.2
    trapIf (decide (regionWords s g < img.length)) 0x14 0 0x05
    let at_ := (upto 0 img.length).map (regionWord g)
    match pendingOf s at_ with
    | [] => .ok (regionWrite (dropProbes s1 w.t) g img)
    | ps => imageWait w s g ps)

/-- The words of an image in a region, as the thread reads them in ascending order (R40, R44). -/
def imageWords (w : Who) (s : State) (g : Region) (n : Nat) : Res (List Word) :=
  let ws := (upto 0 n).map (fun j => let (t, r) := regionWord g j; (t, r, regGet s t r))
  match ws.find? (fun x => x.2.2.tag = .pend || x.2.2.tag = .poison) with
  | some (t, r, x) =>
    if x.tag = .pend then imageWait w s g [(t, r)]
    else .error (.trap (poisonCause x.val) (BitVec.ofNat 64 (regAddr s t r)) x.val)
  | none => (readCheck w s (ws.map (fun x => (x.1, x.2.1)))).map (fun _ => ws.map (fun x => x.2.2.val))

/-- The accumulator of an image (R199). -/
def imageAcc (ws : List Word) (f64 : Bool) (n : Nat) : List DWord :=
  (upto 0 n).map (fun i => if f64 then pairOf (ws.getD (96 + 2 * i) 0) (ws.getD (97 + 2 * i) 0) else pairOf (ws.getD (96 + i) 0) 0)

/-- MFILL (R221, R199): the task goes on with the image's accumulator, sums, index list and codebook; one that was altered makes the checksum
fail. -/
def execMfill (h : Hdr) (a b : Src) : State → Host.Outcome State Fault Refusal :=
  runInstr h { srcs := [(.a, a, 1), (.b, b, 2)], sys := true } (fun w s => do
    let s ← probeGate w s
    let (e, x) ← engineAt w s a
    engineIf w s x
    trapIf (!x.frozen || x.task.isSome) 0x14 0 0x0A
    let p ← src w s b 2
    let g ← imageRegion w s p .read
    trapIf (decide (regionWords s g < 96)) 0x14 0 0x05
    let hd ← imageWords w s g 96
    let wd (i : Nat) : Word := hd.getD i 0
    if !bit (wd 16) 31 then .ok (dropProbes s w.t)
    else
      let tk := pairOf (wd 18) (wd 19)
      match findTask s (bits tk 49 44) (bits tk 43 0) with
      | none => .error (.trap 0x14 0 0x0B)
      | some (cl0, t) => do
        let k := s.kernel t.kernel
        trapIf (k.part ≠ w.k.part || k.world != w.k.world || t.st ≠ .frozen || t.knext ≠ (wd 17).toNat || t.replayed != bit (wd 16) 29) 0x14 0 0x0B
        let f64 := decide (t.record.ct = Ty.f64)
        let size := if f64 then 2144 else 1120
        trapIf (decide (regionWords s g < size)) 0x14 0 0x05
        let ws ← imageWords w s g size
        let acc := imageAcc ws f64 (t.record.m * t.record.n)
        let shadow := (ws.drop 60).take t.shadow.length
        let rows := ((ws.drop 28).take t.rows.length).map (·.toNat)
        let cb := (ws.drop 20).take 8 |>.flatMap (fun x => [x.extractLsb' 0 16, x.extractLsb' 16 16])
        let same := rows = t.rows && cb = t.cb
        let t1 := { t with
          acc := if t.filled then acc else t.acc, shadow := shadow, rows := rows, cb := cb,
          kept := if same then t.kept else t.kept.or (some (t.rows, t.cb)),
          bad := t.bad || (t.filled && acc ≠ t.acc) || shadow ≠ t.shadow || !same }
        let cl := clusterOf w.g.core
        let s0 := dropProbes s w.t
        let s1 := { s0 with clusters := s0.clusters.map (fun c => (c.1, { c.2 with
          engines := c.2.engines.map (fun y => if y.2.task = some (t.home, t.seq) then (y.1, { y.2 with task := none }) else y) })) }
        let s2 := setEngine s1 cl e { x with task := some (t.home, t.seq) }
        let s3 := s2.updCluster cl0 (fun c => { c with mt := c.mt.filter (fun y => !(y.home = t.home && y.seq = t.seq)) })
        .ok (s3.updCluster cl (fun c => { c with mt := c.mt ++ [t1] })))

/-- The end of a task (R184, R188): the stamp last, its outcome kept, and the engine freed; a freeze asked for takes effect. -/
def taskEnd (s : State) (t : MtTask) (reason : Nat) : State :=
  let r := t.record
  let faulted := decide (reason ≠ 0)
  let v := ticketVal faulted reason t.flags.toNat t.home t.seq
  let c := t.region 2
  let s1 := if faulted && c.handle = 0 then (tileAt r c).foldl (fun (s : State) (p : Tid × Nat) => lossWord s p.1 p.2 (poisonRecord 3 0)) s else s
  let s2 := if r.kind % 2 = 1 then arriveWords s1 t.tid r.spair [loWord v, hiWord v] else s1
  let s3 : State := { s2 with clusters := s2.clusters.map (fun x => (x.1, { x.2 with
    mt := x.2.mt.filter (fun y => !(y.home = t.home && y.seq = t.seq)),
    engines := x.2.engines.map (fun y => if y.2.task = some (t.home, t.seq) then (y.1, { y.2 with task := none, frozen := y.2.frozen || t.freeze }) else y) })) }
  let s4 := s3.updCluster t.home (fun x => { x with stamps := put x.stamps t.seq ((if faulted then .faulted else .done), v) })
  let s5 := sibEngine s4 t.tid.vgid
  let owner := (s5.kernel t.kernel).owner
  if reason = 0x31 then count s5 owner 11 1 else if reason = 0x24 then count s5 owner 7 1 else s5

end Sys2Proof.Machine
end

