-- ==== Sys2Proof/Machine/EventsHouse.lean ====
section
/-!
DEFINITION. Events of the management controller's SPDM responder and the TDISP interfaces (R423), and of the collective engine
(R426-R428). What an SPDM response holds is a free value (log 13). An event that is not enabled leaves the state unchanged
(log 1).
-/
namespace Sys2Proof.Machine

/-- Answer an SPDM request, its progress changed by `f`; refuse it where the connection has not come so far (R423, log 13). -/
def spdmAnswer (s : State) (ok : Bool) (f : Spdm → Spdm) : State :=
  if ok then
    let (x, s1) := s.free
    { s1 with spdm := { f s1.spdm with reply := some x, refused := false } }
  else { s with spdm := { s.spdm with reply := none, refused := true } }

/-- GET_VERSION (R423): it begins a connection anew. -/
def execGetVersion : State → Host.Outcome State Fault Refusal := fun s =>
  .next (spdmAnswer s true (fun _ => { version := true }))

/-- GET_CAPABILITIES (R423). -/
def execGetCapabilities : State → Host.Outcome State Fault Refusal := fun s =>
  .next (spdmAnswer s s.spdm.version (fun x => { x with caps := true }))

/-- NEGOTIATE_ALGORITHMS (R423): `algs` is nonzero where the requester offers the supported algorithms. -/
def execNegotiateAlgorithms (algs : Nat) : State → Host.Outcome State Fault Refusal := fun s =>
  .next (spdmAnswer s (s.spdm.caps && decide (algs ≠ 0)) (fun x => { x with algs := true }))

/-- GET_DIGESTS (R423). -/
def execGetDigests : State → Host.Outcome State Fault Refusal := fun s => .next (spdmAnswer s s.spdm.algs id)

/-- GET_CERTIFICATE (R423). -/
def execGetCertificate (_off : Nat) (_n : Nat) : State → Host.Outcome State Fault Refusal := fun s => .next (spdmAnswer s s.spdm.algs id)

/-- CHALLENGE (R423). -/
def execChallenge (_nonce : Nat) : State → Host.Outcome State Fault Refusal := fun s => .next (spdmAnswer s s.spdm.algs id)

/-- GET_MEASUREMENTS (R423). -/
def execGetMeasurements (_idx : Nat) : State → Host.Outcome State Fault Refusal := fun s => .next (spdmAnswer s s.spdm.algs id)

/-- KEY_EXCHANGE (R423): a session opens, which FINISH completes. -/
def execKeyExchange (id : Nat) : State → Host.Outcome State Fault Refusal := fun s =>
  .next (spdmAnswer s (s.spdm.algs && (look s.spdm.sessions id).isNone) (fun x => { x with sessions := put x.sessions id false }))

/-- FINISH (R423): `ok` is whether its authentication codes check. -/
def execFinish (id : Nat) (ok : Bool) : State → Host.Outcome State Fault Refusal := fun s =>
  .next (spdmAnswer s (ok && look s.spdm.sessions id = some false) (fun x => { x with sessions := put x.sessions id true }))

/-- END_SESSION (R423). -/
def execEndSession (id : Nat) : State → Host.Outcome State Fault Refusal := fun s =>
  .next (spdmAnswer s (look s.spdm.sessions id = some true) (fun x => { x with sessions := del x.sessions id }))

/-- A TDISP request's outcome. -/
def tdispTo (s : State) (f st : Nat) : State :=
  { s.updFn f (fun x => { x with tdisp := st }) with spdm := { s.spdm with refused := false } }
def tdispFail (s : State) : State := { s with spdm := { s.spdm with refused := true } }

/-- LOCK_INTERFACE_REQUEST (R423). -/
def execLockInterfaceRequest (v : Nat) : State → Host.Outcome State Fault Refusal := fun s =>
  let f := v + 1
  if v < 64 && (s.fn f).tdisp = 0 && !(s.kernels.any (fun k => k.2.st ≠ .ended && k.2.owner = f)) then .next (tdispTo s f 1)
  else .next (tdispFail s)

/-- START_INTERFACE_REQUEST (R423). -/
def execStartInterfaceRequest (v : Nat) (_nonce : Nat) : State → Host.Outcome State Fault Refusal := fun s =>
  if v < 64 && (s.fn (v + 1)).tdisp = 1 then .next (tdispTo s (v + 1) 2) else .next (tdispFail s)

/-- Write zeros over memory. -/
def zeroBytes (s : State) (a n : Nat) : State := performBytes s a (List.replicate n 0)

/-- Free the pages charged to a VF (R365, R423). -/
def freePages (s : State) (v : Nat) : State :=
  let p := (s.fn (v + 1)).part
  let q := s.part p
  if !bit q.kvpCtl 31 then s
  else
    (upto 0 (bits q.kvpCtl 19 0 + 1)).foldl (fun s i =>
      let x := read32 s (pageAddr q i)
      if bit x 31 && !bit x 24 && bits x 30 25 = v then
        (pageWrite s p i (bits x 30 0 - bits x 15 0)).updFn (v + 1) (fun f => { f with kvqUsed := f.kvqUsed - 1 })
      else s) s

/-- STOP_INTERFACE_REQUEST (R423): the VF's gangs are killed; then its inboxes, save areas and launch queue registers are zeroed and
its pool pages freed. -/
def execStopInterfaceRequest (v : Nat) : State → Host.Outcome State Fault Refusal := fun s =>
  if 63 < v then .next (tdispFail s)
  else
    let f := v + 1
    let gs := s.groups.filter (fun g => (s.kernel (s.gang g.2.gang).kernel).owner = f)
    let boxes := gs.map (fun g => (g.2.evPhys, 2048))
    let areas := gs.filterMap (fun g => g.2.saved.map (fun a => (a.base, (areaShape s g.1).size)))
    let s1 := (boxes ++ areas).foldl (fun s x => zeroBytes s x.1 x.2) (killFn s f)
    let zero : Lq := { log2n := 0 }
    let s2 := s1.updFn f (fun x => { x with lq := (upto 0 4).map (fun q => (q, zero)) })
    .next (tdispTo (freePages s2 v) f 0)

/-- IDE_FAILURE (R423). -/
def execIdeFailure (v : Nat) : State → Host.Outcome State Fault Refusal := fun s => if 63 < v then .next s else .next (vfError s (v + 1))

/-- A communicator's entry of a function (R428): whether it is in use, N and RANK. -/
def commOf (s : State) (f c : Nat) : Bool × Nat × Nat :=
  let x := at_ (s.fn f).comm c 0
  (bit x 63, bits x 48 32 + 1, bits x 16 0)

def curOf (s : State) (f c : Nat) : Nat := at_ (s.fn f).cur c 0

/-- The element types of R426. -/
def collTy (x : Nat) : Option Ty :=
  match tyCode x with
  | some .s32 => some .s32
  | some .z32 => some .z32
  | some .s64 => some .s64
  | some .z64 => some .z64
  | some .f64 => some .f64
  | some .f32 => some .f32
  | some .bf16 => some .bf16
  | _ => none

/-- Bytes that a collective reads at SRC and writes at DST, for `n` members (R426, log 30). -/
def collBytes (op count e n : Nat) : Nat × Nat :=
  match op with
  | 1 => (count * e, count * e)
  | 2 => (n * count * e, count * e)
  | 3 => (count * e, n * count * e)
  | 4 => (count * e, count * e)
  | _ => (0, 0)

/-- The descriptor in a slot (R426). -/
def collOf (ws : List Word) (seq : Nat) : Coll :=
  let w (i : Nat) : Word := ws.getD i 0
  { op := bits (w 0) 31 24, ty := bits (w 0) 23 20, redop := bits (w 0) 19 16, attempt := bits (w 0) 15 0, comm := bits (w 1) 3 0,
    count := (w 2).toNat, root := (w 3).toNat, src := (pairOf (w 4) (w 5)).toNat, dst := (pairOf (w 6) (w 7)).toNat,
    stamp := (pairOf (w 8) (w 9)).toNat, seq := seq }

def Coll.esize (c : Coll) : Nat := tyBits ((collTy c.ty).getD .s32) / 8

/-- Whether a run of bytes lies in device memory inside the function's partition ranges. -/
def collRange (s : State) (f a n : Nat) : Bool := n = 0 || (runInRanges (s.part (s.fn f).part) a n && decide (a + n ≤ devBytes))

/-- A slot that ends with REASON 0x7A (R426): an unlisted code of TYPE or REDOP ends one of any operation. -/
def collBad (s : State) (f : Nat) (ws : List Word) (c : Coll) : Bool :=
  let (en, n, _) := commOf s f c.comm
  let (r, w) := collBytes c.op c.count c.esize n
  let data := 1 ≤ c.op && c.op ≤ 4
  bits (ws.getD 1 0) 31 4 ≠ 0 || (upto 10 5).any (fun i => ws.getD i 0 ≠ 0) || bits (ws.getD 15 0) 30 0 ≠ 0
    || !([1, 2, 3, 4, 5, 0xF].contains c.op) || (collTy c.ty).isNone || decide (2 < c.redop) || !en
    || (c.op = 4 && decide (n ≤ c.root))
    || !collRange s f c.stamp 8 || (data && !(collRange s f c.src r && collRange s f c.dst w))

/-- A collective's stamp (R426, R188), where its address can be written. -/
def collStamp (s : State) (f : Nat) (c : Coll) (fault : Bool) (reason : Nat) : State :=
  if collRange s f c.stamp 8 then performBytes s c.stamp (bytes64 (ticketVal fault reason 0 0 c.seq)) else s

/-- The running collectives of a communicator at an attempt that is past end with REASON 0x7B; no DST word is written
(R427, log 31). -/
def collStale (s : State) (f comm cur : Nat) : State :=
  let old (c : Coll) : Bool := c.comm = comm && c.attempt ≠ cur
  let gone := (s.fn f).colls.filter old
  gone.foldl (fun s c => collStamp s f c true 0x7B) (s.updFn f (fun x => { x with colls := x.colls.filter (fun c => !old c) }))

/-- A member takes a new attempt number (R427). -/
def setCur (s : State) (f comm cur : Nat) : State :=
  collStale (s.updFn f (fun x => { x with cur := put x.cur comm cur })) f comm cur

/-- The next slot of a function's ring, where it is VALID (R426). -/
def nextSlot (s : State) (f : Nat) : Option (Nat × List Word) :=
  let x := s.fn f
  let a := x.collBase.toNat + 64 * (x.collSeq % 256)
  if x.collBase = 0 || !collRange s f a 64 then none
  else
    let ws := wordsOf (physRead s a 64)
    if bit (ws.getD 15 0) 31 then some (a, ws) else none

/-- The engine consumes the next slot, whose operation is `op` or no listed one (R426, R427). -/
def collTake (op f : Nat) (s : State) : State :=
  match nextSlot s f with
  | none => s
  | some (a, ws) =>
    let c := collOf ws (s.fn f).collSeq
    if c.op ≠ op && [1, 2, 3, 4, 5, 0xF].contains c.op then s
    else
      let s1 := performBytes s (a + 60) (bytesOf [ws.getD 15 0 &&& 0x7FFFFFFF])
      let s2 := s1.updFn f (fun x => { x with collSeq := x.collSeq + 1 })
      if collBad s2 f ws c then collStamp s2 f c true 0x7A
      else if c.attempt ≠ curOf s2 f c.comm then collStamp s2 f c true 0x7C
      else if c.op = 0xF then
        let v := (c.attempt + 1) % 65536
        let s3 : State := { s2 with house := { s2.house with tokens := s2.house.tokens ++ [(f, c.comm, v)] } }
        collStamp (setCur s3 f c.comm v) f c false 0
      else s2.updFn f (fun x => { x with colls := x.colls ++ [c] })

/-- COLL_ALL_REDUCE (R426, R428). -/
def execCollAllReduce (fn : Nat) : State → Host.Outcome State Fault Refusal := fun s => .next (collTake 1 fn s)
/-- COLL_REDUCE_SCATTER (R426). -/
def execCollReduceScatter (fn : Nat) : State → Host.Outcome State Fault Refusal := fun s => .next (collTake 2 fn s)
/-- COLL_ALL_GATHER (R426). -/
def execCollAllGather (fn : Nat) : State → Host.Outcome State Fault Refusal := fun s => .next (collTake 3 fn s)
/-- COLL_BROADCAST (R426). -/
def execCollBroadcast (fn : Nat) : State → Host.Outcome State Fault Refusal := fun s => .next (collTake 4 fn s)
/-- COLL_BARRIER (R426). -/
def execCollBarrier (fn : Nat) : State → Host.Outcome State Fault Refusal := fun s => .next (collTake 5 fn s)
/-- COLL_ABORT (R426, R427). -/
def execCollAbort (fn : Nat) : State → Host.Outcome State Fault Refusal := fun s => .next (collTake 0xF fn s)

/-- ABORT_TOKEN (R427). -/
def execAbortToken (fn : Nat) (comm : Nat) (attempt : Nat) : State → Host.Outcome State Fault Refusal := fun s =>
  if attempt = (curOf s fn comm + 1) % 65536 then .next (setCur s fn comm attempt) else .next s

/-- One level of the pairwise tree (R428). -/
def treeLevel (f : Nat → Nat → Nat) : List Nat → List Nat
  | a :: b :: r => f a b :: treeLevel f r
  | l => l

/-- The fixed pairwise tree (R428). -/
def tree (f : Nat → Nat → Nat) : Nat → List Nat → Nat
  | 0, l => l.headD 0
  | n + 1, l => match l with
    | [a] => a
    | _ => tree f n (treeLevel f l)

/-- Combine two elements (R428): a floating sum that is a NaN is the canonical one (R171). -/
def collCombine (t : Ty) (redop a b : Nat) : Nat :=
  let op : AtomOp := match redop with
    | 0 => .add
    | 1 => .min
    | _ => .max
  let v := (atomValue t op a b 0).1
  match t with
  | .f32 | .f64 | .bf16 => if redop = 0 && (unpack (fmtOfTy t) v).isNan then (fmtOfTy t).nan else v
  | _ => v

/-- The elements of a byte list. -/
def elemsOf (e : Nat) (b : List Byte) : List Nat := (upto 0 (b.length / max 1 e)).map (fun i => ofBytes ((b.drop (e * i)).take e))

/-- The bytes that a member writes at DST (R426, R428), from all members' inputs in rank order. -/
def collResult (c : Coll) (rank : Nat) (ins : List (List Byte)) : List Byte :=
  let e := c.esize
  let t := (collTy c.ty).getD .s32
  let reduced : List Nat :=
    let rows := ins.map (elemsOf e)
    (upto 0 ((rows.headD []).length)).map (fun i => tree (collCombine t c.redop) 18 (rows.map (fun r => r.getD i 0)))
  let out (l : List Nat) : List Byte := l.flatMap (fun x => (bytes64 (BitVec.ofNat 64 x)).take e)
  match c.op with
  | 1 => out reduced
  | 2 => out ((reduced.drop (c.count * rank)).take c.count)
  | 3 => ins.flatMap id
  | 4 => ins.getD c.root []
  | _ => []

/-- COLL_COMPLETE (R428): the oldest running collective of a function ends. `ins` holds the members' inputs in rank order; its own is
read from SRC, and a read that fails its checks loses (R237): it fails at egress, and is counted so (R291, R292). -/
def execCollComplete (fn : Nat) (ins : List (List Byte)) : State → Host.Outcome State Fault Refusal := fun s =>
  match (s.fn fn).colls with
  | [] => .next s
  | c :: r =>
    let (_, n, rank) := commOf s fn c.comm
    let (rd, _) := collBytes c.op c.count c.esize n
    if ins.length ≠ n || ins.any (fun b => b.length ≠ rd) then .next s
    else
      let s1 := s.updFn fn (fun x => { x with colls := r })
      match badAt s1 c.src rd with
      | some (_, g) => .next (collStamp (count s1 fn (if g = .uncorrectable then 10 else 9) 1) fn c true (granReason g))
      | none =>
        let all := ins.set rank (physRead s1 c.src rd)
        .next (collStamp (performBytes s1 c.dst (collResult c rank all)) fn c false 0)

end Sys2Proof.Machine
end

