-- ==== Sys2Proof/Machine/EventsMatrix.lean ====
section
/-!
DEFINITION. Events of the matrix task scheduler and the engines (R184, R190-R200). An event that is not enabled leaves the
state unchanged (log 1).
-/
namespace Sys2Proof.Machine

/-- Whether two register ranges overlap: group, layer, and first to last register (R190). -/
def rangesMeet (g h : Region) : Bool :=
  g.vgid = h.vgid && g.layer = h.layer && decide (g.base < h.base + h.len) && decide (h.base < g.base + g.len)

/-- The range of one word. -/
def wordRange (t : Tid) (r n : Nat) : Region := ⟨t.vgid, t.layer, r, n, 0⟩

/-- The regions a task reads and the one it writes (R190). -/
def MtTask.reads (t : MtTask) : List Region :=
  let r := t.record
  t.regions.zipIdx.filterMap (fun x => if x.2 = 2 && !(r.op = 1 || r.op = 4) then none else some x.1)

def MtTask.writes (t : MtTask) : Region := t.region 2

/-- What a request of the copy engine writes in registers until it is complete (R190): of one that has not started, the region it will
write. -/
def ceWrites (r : CeReq) : List Region :=
  if r.st = .accepted && (r.kind = .bcopy || r.kind = .kvcopy) then r.region.toList
  else r.items.filterMap (fun i => match i.dst with
    | .claim t x => some (wordRange t x 1)
    | .win _ t x => some (wordRange t x 1)
    | _ => none)

/-- What it reads there. -/
def ceReads (r : CeReq) : List Region :=
  if r.st = .accepted && r.kind = .bstore then r.region.toList
  else r.items.flatMap (fun i => i.src.filterMap (fun x => match x with
    | .reg t n => some (wordRange t n 1)
    | .win _ t n => some (wordRange t n 1)
    | _ => none))

/-- The earlier requests that are not complete, as the ranges they read and write (R190). -/
def earlierRanges (s : State) (order : Nat) : List Region × List Region :=
  let ts := s.clusters.flatMap (fun c => c.2.mt.filter (fun (x : MtTask) => x.st.live && decide (x.order < order)))
  let cs := s.clusters.flatMap (fun c => c.2.ce.filter (fun (x : CeReq) => x.st.live && decide (x.order < order)))
  let ws := (s.accs.filter (fun a => decide (a.id < order) && a.ended.isNone && match a.kind with
    | .wst | .wgive | .mcast _ | .atomw _ _ => true
    | _ => false)).map (fun a => wordRange a.owner a.reg a.n)
  (ts.flatMap (·.reads) ++ cs.flatMap ceReads, ts.map (·.writes) ++ cs.flatMap ceWrites ++ ws)

/-- Whether an earlier request conflicts with a record (R190). -/
def conflicts (s : State) (t : MtTask) : Bool :=
  let (rs, ws) := earlierRanges s t.order
  ws.any (fun x => t.reads.any (rangesMeet x) || rangesMeet x t.writes) || rs.any (rangesMeet t.writes)

/-- A record in the queue of a cluster. -/
def queued (s : State) (cl seq : Nat) : Option MtTask :=
  (s.cluster cl).mt.find? (fun (t : MtTask) => t.home = cl && t.seq = seq)

/-- MT_TASK_READY (R184, R190). -/
def execMtTaskReady (cl : Nat) (seq : Nat) : State → Host.Outcome State Fault Refusal := fun s =>
  match queued s cl seq with
  | none => .next s
  | some t => if t.st = .queued && !conflicts s t then .next (updTask s { t with st := .ready, ready := s.cyc }) else .next s

/-- MT_READY_AGING (R191): 4,096 cycles after the record became READY. -/
def execMtReadyAging (cl : Nat) (seq : Nat) : State → Host.Outcome State Fault Refusal := fun s =>
  match queued s cl seq with
  | none => .next s
  | some t =>
    if t.st = .ready && !t.aged then .next (updTask (s.setCyc (max s.cyc (t.ready + 4096))) { t with aged := true }) else .next s

/-- The record that is dispatched next (R191): the oldest of the highest launch priority, or the oldest record before it that has been READY
for 4,096 cycles. -/
def dispatchNext (s : State) (cl : Nat) : Option MtTask :=
  let rs := (s.cluster cl).mt.filter (fun (t : MtTask) => t.st = .ready)
  let prio (t : MtTask) : Nat := (s.kernel t.kernel).prio
  match sortBy (fun (a b : MtTask) => prio b < prio a || (prio a = prio b && a.order ≤ b.order)) rs with
  | [] => none
  | t :: _ => match sortBy (fun (a b : MtTask) => a.order ≤ b.order) (rs.filter (fun x => (x.aged || decide (x.ready + 4096 ≤ s.cyc)) && x.order < t.order)) with
    | u :: _ => some u
    | [] => some t

/-- The lowest-numbered free engine of a cluster. -/
def freeEngine (s : State) (cl : Nat) : Option Nat :=
  (upto 0 8).find? (fun e => let x : Engine := at_ (s.cluster cl).engines e {}; !x.frozen && x.task.isNone)

/-- Words of `lines` lines of `k` elements of a type (R186, R187). -/
def lineWords (t : Ty) (lines k : Nat) : Nat :=
  if blockTy t then 16 * (k / elemCount t) * lines else (lines * k * tyBits t + 31) / 32

/-- The promised cycle of a task (R200). -/
def taskPromise (t : MtTask) : Nat :=
  let r := t.record
  let f := lineWords r.at_ r.m r.k + lineWords r.bt r.n r.k + (if r.index then r.m else 0) + (if r.shape then 8 else 0)
    + (if r.op = 1 || r.op = 4 then tileWords r else 0)
  let d := min (tyDepth r.at_) (tyDepth r.bt)
  t.ready + 20 + max ((r.k + d - 1) / d) ((f + 511) / 512) + (tileWords r + 511) / 512

/-- A task waits for a PEND word in a window: the bound counts from when it first found that word so (R46). -/
def taskPend (s : State) (t : MtTask) (p : Tid × Nat) : State :=
  match t.since with
  | some (x, r, c) =>
    if (x, r) ≠ p then updTask s { t with since := some (p.1, p.2, s.cyc) }
    else if c + 65536 ≤ s.cyc then taskEnd s t 0x22 else s
  | none => updTask s { t with since := some (p.1, p.2, s.cyc) }

/-- The state with the check-bit errors of the words of a task's regions changed by `f`, to other errors or to none. -/
def MtTask.withEcc (t : MtTask) (s : State) (f : Tid → Nat × Bool → Option (Nat × Bool)) : State :=
  { s with threads := s.threads.map (fun p => (p.1, { p.2 with ecc := p.2.ecc.filterMap (fun e =>
    if t.reads.any (fun g => g.vgid = p.1.vgid && g.layer = p.1.layer && decide (g.base ≤ e.1) && decide (e.1 < g.base + g.len)) then f p.1 e
    else some e) })) }

/-- The words with a single-bit error that an attempt at a task's reads came to: those with which it would have faulted, were they
uncorrectable (R288). -/
def MtTask.corrects (t : MtTask) (s : State) (f : State → ItemOut MtTask) : List (Tid × (Nat × Bool)) :=
  let faults (x : ItemOut MtTask) : Bool := match x with | .fault 0x21 => true | _ => false
  if s.threads.all (fun p => p.2.ecc.isEmpty) || faults (f s) then []
  else (s.threads.flatMap (fun p => (p.2.ecc.filter (fun e => !e.2)).map (fun e => (p.1, e)))).filter (fun x =>
    faults (f (t.withEcc s (fun u e => if u = x.1 && e = x.2 then some (e.1, true) else some e))))

/-- Whether it is an uncorrectable word that an attempt faulted at (R288). -/
def MtTask.struck (t : MtTask) (s : State) (f : State → ItemOut MtTask) : Option Tid :=
  let faults (x : ItemOut MtTask) : Bool := match x with | .fault 0x21 => true | _ => false
  if faults (f s) && !faults (f (t.withEcc s (fun _ e => if e.2 then none else some e))) then
    (s.threads.find? (fun p => p.2.ecc.any (·.2) && t.reads.any (fun g => g.vgid = p.1.vgid))).map (·.1)
  else none

/-- The check bits of the words an attempt read: single-bit errors corrected and counted, an uncorrectable one counted (R288, R292). -/
def taskChecks (s : State) (t : MtTask) (f : State → ItemOut MtTask) : State :=
  let fn := (s.kernel t.kernel).owner
  let s1 := (t.corrects s f).foldl (fun s x => eccRead s fn t.tid x.1 [x.2]) s
  match t.struck s f with
  | some u => count s1 (charge fn (s.who u).k.owner) 1 1
  | none => s1

/-- What an attempt of a running task at its reads gives: the task further on, a wait, or a fault (R193, R198). -/
def taskTry (s0 : State) (t : MtTask) (f : State → ItemOut MtTask) : State :=
  let s := taskChecks s0 t f
  match f s0 with
  | .ok u => updTask s { u with since := none }
  | .fault reason => taskEnd s t reason
  | .pend (some p) => taskPend s t p
  | .pend none => s
  | .blocked => s

/-- MT_DISPATCH (R191, R192, R188, R439): the engine is bound, the promise written, and fill begins. -/
def execMtDispatch (cl : Nat) (seq : Nat) : State → Host.Outcome State Fault Refusal := fun s =>
  match dispatchNext s cl, freeEngine s cl with
  | some t, some e =>
    if t.seq ≠ seq || t.home ≠ cl || s.mgmt.holding then .next s
    else
      let u := { t with st := .running }
      let s1 := setEngine (updTask s u) cl e { frozen := false, task := some (t.home, t.seq) }
      let p := BitVec.ofNat 64 (taskPromise t)
      let s2 := if t.record.kind / 2 = 1 then arriveWords s1 t.tid t.record.ppair [loWord p, hiWord p] else s1
      .next (taskTry s2 u (fun s => fillRead s u))
  | _, _ => .next s

/-- The task of an engine of a cluster, in one state. -/
def onEngine (s : State) (cl eng : Nat) (st : MtState) : Option MtTask :=
  let x : Engine := at_ (s.cluster cl).engines eng {}
  match engineTask s x with
  | some t => if t.st = st then some t else none
  | none => none

/-- MT_COMPUTE_END (R184, R192, R193): the fill, where it has not ended, and the last k group. -/
def execMtComputeEnd (cl : Nat) (eng : Nat) : State → Host.Outcome State Fault Refusal := fun s =>
  match onEngine s cl eng .running with
  | none => .next s
  | some t =>
    .next (taskTry s t (fun s => (if t.filled then ItemOut.ok t else fillRead s t).bind (fun u =>
      (advanceTask s u u.record.k).map (fun v => { v with st := .checking }))))

/-- MT_CHECKSUM (R184, R197, R198): `upset` is an error in the product that the sums show (log 14). A replay takes the index list and the
codebook that MTASK gave (R221). -/
def execMtChecksum (cl : Nat) (eng : Nat) (upset : Bool) : State → Host.Outcome State Fault Refusal := fun s =>
  match onEngine s cl eng .checking with
  | none => .next s
  | some t =>
    if !(upset || t.bad) then .next (updTask s { t with st := .writing, wrote := 0 })
    else if t.replayed then .next (taskEnd s t 0x24)
    else .next (updTask (count s (s.kernel t.kernel).owner 6 1)
      { t with st := .running, replayed := true, acc := t.c0, knext := 0, shadow := [], bad := false,
               rows := (t.kept.map (·.1)).getD t.rows, cb := (t.kept.map (·.2)).getD t.cb, kept := none })

/-- The C words of a task, in ascending order (R196). -/
def accWords (t : MtTask) : List Word :=
  t.acc.flatMap (fun x => if t.record.ct = .f64 then [loWord x, hiWord x] else [loWord x])

/-- Write C words through a window from the first not yet written (R196): ordinary writes under R40 and R46. -/
def windowBack (s : State) (t : MtTask) : List (Word × (Tid × Nat)) → State
  | [] => taskEnd s t 0
  | x :: r =>
    if !handleLive s (t.region 2).handle then taskEnd s t 0x23
    else if (regGet s x.2.1 x.2.2).tag = .pend then taskPend s t x.2
    else windowBack (writeWord s x.2.1 x.2.2 x.1) { t with wrote := t.wrote + 1, since := none } r

/-- MT_WRITEBACK_END (R184, R196): C in ascending word order, then the stamp. -/
def execMtWritebackEnd (cl : Nat) (eng : Nat) : State → Host.Outcome State Fault Refusal := fun s =>
  match onEngine s cl eng .writing with
  | none => .next s
  | some t =>
    let c := t.region 2
    let ws := (accWords t).zip (tileAt t.record c)
    if c.handle = 0 then .next (taskEnd (ws.foldl (fun s x => arriveWord s x.2.1 x.2.2 x.1) s) t 0)
    else .next (windowBack s t (ws.drop t.wrote))

end Sys2Proof.Machine
end

