-- ==== Sys2Proof/Machine/EventsMgmt.lean ====
section
/-!
DEFINITION. Events of the management controller: reset and power (R435, R436, R440), the mailbox commands (R437-R439), and the
export and import of a VF's state (R433, R438). An event that is not enabled leaves the state unchanged (log 1).
-/
namespace Sys2Proof.Machine

/-- The image used at a reset: the valid one with the larger version (R435). -/
def imagePick (m : Mgmt) : Option Image × Bool :=
  let a := m.slotA.filter (·.valid)
  let b := m.slotB.filter (·.valid)
  match a, b with
  | some x, some y => if x.version < y.version then (some y, true) else (some x, false)
  | none, some y => (some y, true)
  | x, none => (x, false)

/-- MGN_CTL of every core after a reset (R282, R436). -/
def coresAfter (target : Nat) : Tab Core :=
  if target % 16 = 0 then []
  else (upto 0 1152).map (fun c => (c, { mgnCtl := 0x0000008214404000 ||| BitVec.ofNat 64 (target % 16) }))

/-- The machine after a reset (R436): device memory zero, every register at its reset value; flash, the lifetime records and memory
that is not the device's stay. -/
def resetWith (s : State) (m : Mgmt) : State :=
  let (img, b) := imagePick m
  let limit := match img with | some i => i.plimit | none => 3200
  let target := match img with | some i => i.mtarget | none => 0
  { mem := s.mem.filter (fun c => devBytes ≤ c.1), cores := coresAfter target,
    mgmt := { slotA := m.slotA, slotB := m.slotB, active := img, inUseB := b, noImage := img.isNone, plimit := limit,
              bins := m.bins, lifeA := m.lifeA, lifeB := m.lifeB, quarRing := m.quarRing, quarLost := m.quarLost },
    house := { exports := s.house.exports, images := s.house.images },
    turns := s.turns, fresh := s.fresh, nextId := s.nextId, rr := s.rr, due := s.due, epoch := s.epoch }

/-- The histograms that a start after a power loss uses: the good copy with the higher sequence number (R440). -/
def newestBins (m : Mgmt) : Tab Nat :=
  match m.lifeA.good, m.lifeB.good with
  | true, true => if m.lifeA.seq < m.lifeB.seq then m.lifeB.bins else m.lifeA.bins
  | true, false => m.lifeA.bins
  | false, true => m.lifeB.bins
  | false, false => []

/-- POWER_ON (R436, R440). -/
def execPowerOn : State → Host.Outcome State Fault Refusal := fun s =>
  if s.mgmt.powered then .next s else .next (resetWith s { s.mgmt with bins := newestBins s.mgmt })

/-- A copy of the histograms whose write was cut short: its CRC fails (R440). -/
def tornWrite (m : Mgmt) : Mgmt :=
  let c : Lifetime := { seq := max m.lifeA.seq m.lifeB.seq + 1, bins := m.bins, good := false }
  if m.lifeA.seq ≤ m.lifeB.seq then { m with lifeA := c } else { m with lifeB := c }

/-- POWER_LOSS (R440): all work stops, and what is not in flash is lost; whether it falls into the hourly write, which then leaves the older copy
with a bad CRC, is a free value (log 6). -/
def execPowerLoss : State → Host.Outcome State Fault Refusal := fun s0 =>
  let (x, s) := s0.free
  let m := if bit x 0 && s.mgmt.powered then tornWrite s.mgmt else s.mgmt
  let s1 := resetWith s { m with bins := [] }
  .next { s1 with mgmt := { s1.mgmt with active := none, powered := false } }

/-- A mailbox command that has been started (R437). -/
def mbRuns (s : State) (c : Nat) : Bool := s.mgmt.busy && s.mgmt.cmd.toNat = c && s.mgmt.powered
def mbArg (s : State) (i : Nat) : Word := at_ s.mgmt.arg i 0

/-- TELEMETRY (R438, R439). -/
def execTelemetry : State → Host.Outcome State Fault Refusal := fun s =>
  if !mbRuns s 1 then .next s
  else
    let n (x : Nat) : Word := BitVec.ofNat 32 x
    let m := s.mgmt
    .next (mbEnd s 0 ([(0, n m.watts), (1, n m.plimit)] ++ (upto 0 4).map (fun d => (2 + d, n (at_ m.dieWatts d 0)))
      ++ (upto 0 4).map (fun d => (6 + d, n (at_ m.temps d 0))) ++ [(10, n m.heldMs)]))

/-- POWER_SET (R438). -/
def execPowerSet : State → Host.Outcome State Fault Refusal := fun s =>
  if !mbRuns s 2 then .next s
  else
    let w := (mbArg s 0).toNat
    if 800 ≤ w && w ≤ 3200 then .next (mbEnd { s with mgmt := { s.mgmt with plimit := w } } 0 []) else .next (mbEnd s 2 [])

/-- CORE_RESET (R438). -/
def execCoreReset : State → Host.Outcome State Fault Refusal := fun s =>
  if !mbRuns s 3 then .next s
  else
    let x := mbArg s 0
    let core := 24 * bits x 10 5 + bits x 4 0
    if bits x 10 5 > 47 || bits x 4 0 > 23 || !(s.core core).quar then .next (mbEnd s 2 [])
    else .next (mbEnd (s.updCore core (fun c => { c with quar := false, step := 0 })) 0 [])

/-- Whether a run of bytes lies in the host range (R352). -/
def hostRange (a n : Nat) : Bool :=
  (match place a with | .host _ => true | _ => false) && (n = 0 || match place (a + n - 1) with | .host _ => true | _ => false)

/-- Whether an access of package flash fails is a free value: the spec says no more of a failure than its error code (R437, log 13). -/
def flashFails (s : State) : Bool × State := let (x, s1) := s.free; (bit x 0, s1)

/-- HISTORY (R438, R440): the bytes of the lifetime region, whose layout the spec does not give, are a fixed function of its copies (log 13). -/
def execHistory : State → Host.Outcome State Fault Refusal := fun s =>
  if !mbRuns s 4 then .next s
  else
    let a := (pairOf (mbArg s 0) (mbArg s 1)).toNat
    let n := (mbArg s 2).toNat
    if !hostRange a n || decide (0x40000 < n) then .next (mbEnd s 2 [])
    else
      let (fails, s1) := flashFails s
      .next (if fails then mbEnd s1 4 [] else mbEnd (performBytes s1 a ((upto 0 n).map (lifeByte s.mgmt.lifeA s.mgmt.lifeB))) 0 [])

/-- The image in header and body, valid where its fields are in range and its signature checks (R435, log 13). -/
def imageHeader (bs : List Byte) : Image :=
  let ws := wordsOf (bs.take 128)
  let w (i : Nat) : Word := ws.getD i 0
  let harvest := pairOf (w 4) (w 5)
  let torus := bit (w 2) 9
  let left := ((upto 0 48).filter (fun c => !bit harvest c)).length
  let ok := w 0 = 0x53544F41 && bits (w 2) 31 12 = 0 && bits (w 2) 8 0 = 0 && decide (bits (w 2) 11 10 < 3)
    && decide ((w 3).toNat < (if torus then 2 ^ 17 else 1024)) && bits harvest 63 48 = 0 && decide (2 ≤ left)
    && decide (800 ≤ bits (w 6) 15 0) && decide (bits (w 6) 15 0 ≤ 3200) && bits (w 6) 31 20 = 0
    && decide ((w 7).toNat + 128 ≤ 0x1000000)
  { version := (w 1).toNat, farways := bits (w 2) 11 10, torus := torus, position := (w 3).toNat, harvest := harvest,
    plimit := bits (w 6) 15 0, mtarget := bits (w 6) 19 16, valid := ok && Config.signed bs, bytes := bs }

/-- Bytes of an image at an address: its header and the body that the header gives (R435). -/
def imageSize (s : State) (a : Nat) : Nat := 128 + min (read32 s (a + 28)).toNat 0x1000000

/-- IMAGE_WRITE (R438, R435). -/
def execImageWrite : State → Host.Outcome State Fault Refusal := fun s =>
  if !mbRuns s 5 then .next s
  else
    let a := (pairOf (mbArg s 0) (mbArg s 1)).toNat
    let img := imageHeader (physRead s a (imageSize s a))
    let (fails, s1) := flashFails s
    if !hostRange a (imageSize s a) || !img.valid then .next (mbEnd s 2 [])
    else if fails then .next (mbEnd s1 4 [])
    else
      let m := if s.mgmt.inUseB then { s1.mgmt with slotA := some img } else { s1.mgmt with slotB := some img }
      .next (mbEnd { s1 with mgmt := m } 0 [])

/-- PACKAGE_RESET (R436, R438): every kernel ends with no completion record. -/
def execPackageReset : State → Host.Outcome State Fault Refusal := fun s =>
  if mbRuns s 6 then .next (resetWith s s.mgmt) else .next s

/-- POWER_SAMPLE (R439): the package's power and each die's hottest sensor, in 0.1 °C; each die's power is a free value (log 15). -/
def execPowerSample (watts : Nat) (temps : List Nat) : State → Host.Outcome State Fault Refusal := fun s =>
  if !s.mgmt.powered then .next s
  else if temps.any (fun t => decide (1150 ≤ t)) then .next (resetWith s s.mgmt)
  else
    let dies := (upto 0 4).map (fun d => (d, (Config.freeValue (s.fresh + d)).toNat % 2 ^ 32))
    let ts := (temps.take 4).zipIdx.map (fun x => (x.2, x.1))
    let held := s.mgmt.heldMs + (if s.mgmt.holding then 1 else 0)
    let m := { s.mgmt with watts := watts, dieWatts := dies, temps := ts, holding := decide (s.mgmt.plimit < watts), heldMs := held }
    .next { s with fresh := s.fresh + 4, mgmt := m }

/-- LIFETIME_WRITE (R293, R440): one more hour at each die's temperature, and the histograms into the older copy. -/
def execLifetimeWrite : State → Host.Outcome State Fault Refusal := fun s =>
  if !s.mgmt.powered then .next s
  else
    let s1 := s.mgmt.temps.foldl (fun s t => histAdd s (0x10000 + 8 * t.1 + min 7 ((t.2 - 300) / 100))) s
    let m := s1.mgmt
    let c : Lifetime := { seq := max m.lifeA.seq m.lifeB.seq + 1, bins := m.bins, good := true }
    .next { s1 with mgmt := if m.lifeA.seq ≤ m.lifeB.seq then { m with lifeA := c } else { m with lifeB := c } }

/-- The groups of a function. -/
def fnGroups (s : State) (f : Nat) : List (Nat × Group) :=
  s.groups.filter (fun g => (s.kernel (s.gang g.2.gang).kernel).owner = f)

/-- Whether an engine request, a matrix task, a page-in or an accepted reduction of a function is under way (R433). -/
def fnBusy (s : State) (f : Nat) : Bool :=
  let mine (k : Kernel) : Bool := k.owner = f
  s.clusters.any (fun c => c.2.ce.any (fun (r : CeReq) => r.st.live && r.owner = f)
    || c.2.mt.any (fun (t : MtTask) => t.st.live && mine (s.kernel t.kernel)))
  || s.parts.any (fun p => p.2.tracker.any (fun t => t.st = .inflight && t.owner = f && p.1 = (s.fn f).part))
  || s.reds.any (fun r => mine (s.kernel r.kernel))

/-- A group's save area in memory: where it lies and its bytes. -/
def areaSpan (s : State) (v : Nat) : Nat × Nat :=
  match (s.group v).saved with
  | some a => (a.base, (areaShape s v).size)
  | none => (0, 0)
def areaOf (s : State) (v : Nat) : List Byte := physRead s (areaSpan s v).1 (areaSpan s v).2

/-- What the state records of a VF hold (R433). -/
def vfImage (s : State) (v : Nat) : VfImage :=
  let f := v + 1
  let p := s.part (s.fn f).part
  let ks := s.kernels.filter (fun k => k.2.owner = f)
  let has (k : Nat) : Bool := ks.any (fun x => x.1 = k)
  let gs := fnGroups s f
  let mine (x : Nat) : Bool := gs.any (fun g => g.1 = x)
  let ths := s.threads.filter (fun t => mine t.1.vgid)
  let pages := (upto 0 (if bit p.kvpCtl 31 then bits p.kvpCtl 19 0 + 1 else 0)).filterMap (fun i =>
    let x := read32 s (pageAddr p i)
    if bit x 31 && !bit x 24 && bits x 30 25 = v then some (i, x) else none)
  let qs := (s.cores.map (fun c => (c.1, (c.2.onchip.filter (fun e => has e.kernel), c.2.cellar.filter (fun e => has e.kernel))))).filter
    (fun x => x.2 ≠ ([], []))
  let links := ths.flatMap (fun t => t.2.links.filterMap (fun l => (findReq s l.cl l.seq).map (fun r => (l.cl, r))))
  { kernels := ks, gangs := s.gangs.filter (fun g => has g.2.kernel), groups := gs, threads := ths,
    areas := gs.map (fun g => (g.1, areaOf s g.1)),
    slots := (gs.map (fun g => (areaCore g.1, (s.core (areaCore g.1)).slots))).filter (fun x => x.2 ≠ []),
    fwd := s.fwd.filter (fun x => gs.any (fun g => x.2.1 = areaCore g.1)),
    barriers := s.barriers.filter (fun b => mine b.owner.vgid), estate := s.estate.filter (fun e => e.fn = f),
    ballots := s.ballots.filter (fun b => has b.kernel), queues := qs, waits := p.waits.filter (fun q => q.fn = f),
    pages := pages, kvqUsed := (s.fn f).kvqUsed, reqs := links }

/-- The payloads of the state records: each save area with its VGID, and one for the rest, which is free values (R433, log 32). -/
def imagePayloads (s : State) (x : VfImage) : List (Nat × List Byte) :=
  x.areas ++ [(0, (upto 0 64).map (fun i => (Config.freeValue (s.fresh + i)).setWidth 8))]

/-- The state records and the trailer (R432, R433). -/
def imageBytes (s : State) (v : Nat) (ps : List (Nat × List Byte)) : List Byte :=
  let f := s.fn (v + 1)
  let enc := if f.tdisp = 1 || f.tdisp = 2 then some (sessionKey s) else none
  let c : Cut := { tick := 0, dest := 0, asidsel := 0, regs := false, seqno := ps.length }
  ps.zipIdx.flatMap (fun a => recordBytes enc (a.2 + 1) 3 f.asid (BitVec.ofNat 64 a.1.1) a.1.2) ++ cutTrailer c false

/-- The granules of a VF's save areas that fail their check, with where their bytes lie in the state records (R291): 64 bytes of header come before
each payload. -/
def badAreas (s : State) (x : VfImage) : List Nat :=
  (x.areas.foldl (fun (y : Nat × List Nat) a =>
    let (b, n) := areaSpan s a.1
    (y.1 + 64 + n, y.2 ++ ((upto 0 (n / 64)).filter (fun k => (granBad s (b + 64 * k)).isSome)).map (fun k => y.1 + 64 + 64 * k))) (0, [])).2

/-- STATE_EXPORT (R433, R438): it waits until nothing of the VF is under way; what fails its check leaves as data poison (R291). -/
def execStateExport : State → Host.Outcome State Fault Refusal := fun s =>
  if !mbRuns s 0x10 then .next s
  else
    let v := (mbArg s 0).toNat
    let a := (pairOf (mbArg s 1) (mbArg s 2)).toNat
    let f := v + 1
    if 63 < v || place a = .nowhere then .next (mbEnd s 2 [])
    else if (fnGroups s f).any (fun g => g.2.saved.isNone) then .next (mbEnd s 5 [])
    else if fnBusy s f then .next s
    else
      let x := vfImage s v
      let ps := imagePayloads s x
      let s1 := poisonGrans (performBytes s a (imageBytes s v ps)) a (badAreas s x)
      .next (mbEnd { s1 with fresh := s1.fresh + 64, house := { s1.house with images := s1.house.images ++ [(ps.flatMap (·.2), x)] } } 0 [])

/-- A record read at an address, checked: its kind, WHERE, payload and length, or none where its tag, CRC or number fails, or its bytes do (R432,
R433, R290). -/
def recordAt (s : State) (q a : Nat) : Option (Nat × DWord × List Byte × Nat) :=
  let h := wordsOf (physRead s a 64)
  let w (i : Nat) : Word := h.getD i 0
  let kind := bits (w 0) 31 24
  let n := if kind = 0 then 0 else (w 4).toNat
  let stored := physRead s (a + 64) n
  let key := sessionKey s
  let tag := (w 6, w 7, w 8, w 9)
  let enc := tag ≠ (0, 0, 0, 0)
  let t := Config.tag key q stored
  let good := !enc || tag = (t.setWidth 32, (t >>> 32).setWidth 32, (t >>> 64).setWidth 32, (t >>> 96).setWidth 32)
  if (pairOf (w 10) (w 11)).toNat ≠ q || (kind ≠ 0 && crc32c stored ≠ w 5) || !good || (badAt s a (64 + n)).isSome then none
  else some (kind, pairOf (w 2) (w 3), if enc then cutCrypt key q stored else stored, 64 + n)

/-- Load one cut's records from an address (R433): granules are written through the VF's page tables. The result is the state, or the number of the
first record that is rejected. -/
def loadCut (s : State) (c : Ctx) : Nat → Nat → Nat → Except Nat State
  | 0, q, _ => .error q
  | fuel + 1, q, a =>
    match recordAt s q a with
    | none => .error q
    | some (kind, va, bs, n) =>
      if kind = 0 then .ok s
      else if kind = 1 then
        (match translate s c va.toNat .write (some .g) with
         | .ok (pa, s1) => loadCut (performBytes s1 pa bs) c fuel (q + 1) (a + n)
         | .error _ => .error q)
      else loadCut s c fuel (q + 1) (a + n)

/-- The address after a cut's trailer, by the lengths in its records' headers. -/
def cutPast (s : State) : Nat → Nat → Nat
  | 0, a => a
  | fuel + 1, a =>
    let h := wordsOf (physRead s a 64)
    if bits (h.getD 0 0) 31 24 = 0 then a + 64 else cutPast s fuel (a + 64 + (h.getD 4 0).toNat)

/-- The cuts that lie one after another at an address, each as its CUTNO and its first record, and the address after them (R432). -/
def cutsAt (s : State) : Nat → Nat → List (Nat × Nat) × Nat
  | 0, a => ([], a)
  | fuel + 1, a =>
    let h := wordsOf (physRead s a 64)
    if h.getD 0 0 ≠ 2 then ([], a)
    else
      let (l, b) := cutsAt s fuel (cutPast s (2 ^ 26) (a + 64))
      (((h.getD 1 0).toNat, a + 64) :: l, b)

/-- Load the cuts at an address in CUTNO order (R433): the address after them and the state. -/
def loadCuts (s : State) (c : Ctx) (fuel a : Nat) : Except Nat (Nat × State) :=
  let (l, b) := cutsAt s fuel a
  ((sortBy (fun (x y : Nat × Nat) => x.1 ≤ y.1) l).foldlM (fun s x => loadCut s c (2 ^ 26) 1 x.2) s).map (fun s1 => (b, s1))

/-- The state records at an address, checked: their payloads, or the number of the first that is rejected. -/
def checkRecords (s : State) : Nat → Nat → Nat → Except Nat (List Byte)
  | 0, q, _ => .error q
  | fuel + 1, q, a =>
    match recordAt s q a with
    | none => .error q
    | some (kind, _, bs, n) => if kind = 0 then .ok [] else (checkRecords s fuel (q + 1) (a + n)).map (fun r => bs ++ r)

/-- What state records with these payloads hold: as they were exported here, or as another package wrote them (R433, log 32). -/
def recordsHold (s : State) (bs : List Byte) : Option VfImage :=
  match s.house.images.find? (fun x => x.1 = bs) with
  | some x => some x.2
  | none => foreignImage bs

/-- Whether an estate entry, a ballot, a page or a VGID that an import needs is taken (R433). -/
def importTaken (s : State) (p : Part) (x : VfImage) : Bool :=
  x.estate.any (fun e => s.estate.any (fun y => y.die = e.die && y.idx = e.idx))
  || x.ballots.any (fun b => s.ballots.any (fun y => y.die = b.die && y.idx = b.idx))
  || x.pages.any (fun i => bit (read32 s (pageAddr p i.1)) 31)
  || x.groups.any (fun g => (look s.groups g.1).isSome)

/-- Put the save areas into the partition's pool (R327, R433). -/
def importAreas (s : State) (part : Nat) : List (Nat × Group × List Byte) → Option State
  | [] => some s
  | (v, g, bs) :: r =>
    match poolTake (s.part part) bs.length with
    | none => none
    | some b =>
      let saved := g.saved.map (fun a => { a with base := b, pool := true })
      let s1 := performBytes (poolAdd s part b bs.length) b bs
      importAreas { s1 with groups := put s1.groups v { g with saved := saved } } part r

/-- The state of a VF, placed (R433): the source's own numbers of kernels and gangs move up by `d`, and its function's values become
the destination's. -/
def importState (s : State) (f : Nat) (x : VfImage) : Option State :=
  let fn := s.fn f
  let d := s.nextId
  let top := (x.kernels.map (·.1) ++ x.gangs.map (·.1)).foldl max 0
  let word := fnWord f fn
  let kern (k : Kernel) : Kernel := { k with words := k.words.set 13 word, code := s.mem, fn := f, order := k.order + d }
  let entry (e : QEntry) : QEntry := { e with kernel := e.kernel + d }
  let far (cl : Nat) : Nat := cl + 64 * d
  let slot (y : Slot) : Slot := { y with vf := f - 1, part := fn.part, world := fn.world }
  let est (e : Est) : Est := { e with fn := f, vf := f - 1, part := fn.part, world := fn.world, claim := e.claim.map entry }
  let s1 : State := { s with
    nextId := d + top + 1,
    kernels := s.kernels ++ x.kernels.map (fun k => (k.1 + d, kern k.2)),
    gangs := s.gangs ++ x.gangs.map (fun g => (g.1 + d, { g.2 with kernel := g.2.kernel + d })),
    threads := s.threads ++ x.threads.map (fun t => (t.1, { t.2 with links := t.2.links.map (fun l => { l with cl := far l.cl }) })),
    cores := s.cores ++ x.slots.map (fun c => (c.1, { slots := c.2.map (fun y => (y.1, slot y.2)) })),
    fwd := s.fwd ++ x.fwd, barriers := s.barriers ++ x.barriers,
    estate := s.estate ++ x.estate.map est,
    ballots := s.ballots ++ x.ballots.map (fun b => { b with kernel := b.kernel + d, part := fn.part }) }
  let s2 := x.reqs.foldl (fun s r => s.updCluster (far r.1) (fun c => { c with ce := c.ce ++ [r.2] })) s1
  let s3 := x.queues.foldl (fun s q => s.updCore q.1 (fun c => (q.2.1 ++ q.2.2).foldl (fun c e => qPush c (entry e)) c)) s2
  let s4 := s3.updPart fn.part (fun p => { p with waits := p.waits ++ x.waits.map (fun q => { q with words := q.words.set 13 word, fn := f }) })
  let s5 := x.pages.foldl (fun s i => pageWrite s fn.part i.1 ((i.2 &&& 0x81FFFFFF).toNat + (f - 1) * 2 ^ 25)) s4
  let s6 := s5.updFn f (fun y => { y with kvqUsed := x.kvqUsed, tdisp := 2 })
  importAreas s6 fn.part (x.groups.map (fun g => (g.1, { g.2 with gang := g.2.gang + d }, at_ x.areas g.1 [])))

/-- STATE_IMPORT (R433, R438): the cuts, then the state records; ARG 0 returns 0, or the number of the first rejected record. -/
def execStateImport : State → Host.Outcome State Fault Refusal := fun s =>
  if !mbRuns s 0x11 then .next s
  else
    let f := (mbArg s 0).toNat + 1
    let a := (pairOf (mbArg s 1) (mbArg s 2)).toNat
    let x := s.fn f
    if 64 < f then .next (mbEnd s 2 [])
    else if x.tdisp ≠ 1 then .next (mbEnd s 5 [])
    else match loadCuts s { unit := 1204, part := x.part, asid := x.asid, world := x.world, house := 0 } (2 ^ 24) a with
      | .error q => .next (mbEnd s 0 [(0, BitVec.ofNat 32 q)])
      | .ok (b, s1) =>
        match checkRecords s1 (2 ^ 24) 1 b with
        | .error q => .next (mbEnd s1 0 [(0, BitVec.ofNat 32 q)])
        | .ok bs => match recordsHold s1 bs with
        | none => .next (mbEnd s1 0 [(0, 1)])
        | some img =>
          if importTaken s1 (s1.part x.part) img then .next (mbEnd s1 0 [(0, 1)])
          else match importState s1 f img with
            | some s2 => .next (mbEnd s2 0 [(0, 0)])
            | none => .next (mbEnd s1 0 [(0, 1)])

end Sys2Proof.Machine
end

