-- ==== Sys2Proof/Machine/Integer.lean ====
section
/-!
DEFINITION. Integer and predicate instructions (R84-R99): the operation of each on operand values, then its meaning.
-/
namespace Sys2Proof.Machine

/-- The value of an operand of a type: signed for .s types (R84). -/
def opInt (ty : Ty) (x : DWord) : Int := intOf ty x.toNat

/-- A result modulo 2^w, clamped first with SAT (R84). -/
def wrapInt (ty : Ty) (sat : Bool) (x : Int) : DWord :=
  BitVec.ofInt 64 (intBits ty (if sat then max (intMin ty) (min (intMax ty) x) else x))

def intAdd (ty : Ty) (sat : Bool) (a b : DWord) : DWord := wrapInt ty sat (opInt ty a + opInt ty b)
def intSub (ty : Ty) (sat : Bool) (a b : DWord) : DWord := wrapInt ty sat (opInt ty a - opInt ty b)
def intMad (ty : Ty) (sat : Bool) (a b c : DWord) : DWord := wrapInt ty sat (opInt ty a * opInt ty b + opInt ty c)
def intMul (ty : Ty) (hi : Bool) (a b : DWord) : DWord :=
  let x := opInt ty a * opInt ty b
  wrapInt ty false (if hi then x / 2 ^ tyBits ty else x)

/-- IDIV (R85): the quotient or the remainder, and DVZ. -/
def intDiv (ty : Ty) (rem : Bool) (a b : DWord) : DWord × Flags :=
  let x := opInt ty a
  let y := opInt ty b
  if y = 0 then (wrapInt ty false (if rem then x else 2 ^ tyBits ty - 1), dvz)
  else (wrapInt ty false (if rem then x.tmod y else x.tdiv y), 0)

def intAbs (ty : Ty) (sat : Bool) (a : DWord) : DWord := wrapInt ty sat (opInt ty a).natAbs
def intMinOf (ty : Ty) (a b : DWord) : DWord := if opInt ty b < opInt ty a then b else a
def intMaxOf (ty : Ty) (a b : DWord) : DWord := if opInt ty b > opInt ty a then b else a

/-- AND, OR and XOR with NB (R87); the upper half of a 32-bit result is not used. -/
def withNb (nb : Bool) (b : DWord) : DWord := if nb then ~~~b else b

/-- Shifts (R88): counts at or above the width shift everything out. -/
def intShl (ty : Ty) (a : DWord) (n : Word) : DWord := if tyBits ty ≤ n.toNat then 0 else a <<< n.toNat
def intShr (ty : Ty) (a : DWord) (n : Word) : DWord := if tyBits ty ≤ n.toNat then 0 else a >>> n.toNat
def intSar (ty : Ty) (a : DWord) (n : Word) : DWord :=
  wrapInt ty false (if tyBits ty ≤ n.toNat then (if opInt ty a < 0 then -1 else 0) else opInt ty a / 2 ^ n.toNat)
def intRot (ty : Ty) (a : DWord) (n : Word) : DWord :=
  if tyBits ty = 64 then a.rotateLeft (n.toNat % 64) else ((loWord a).rotateLeft (n.toNat % 32)).setWidth 64

/-- The descriptor of BFE and BFI (R89): position and length. -/
def fieldPos (x : Word) : Nat := bits x 5 0
def fieldLen (ty : Ty) (x : Word) : Nat := min (bits x 14 8) (tyBits ty)

def bitExtract (ty : Ty) (a : DWord) (desc : Word) : DWord :=
  let pos := fieldPos desc
  let len := fieldLen ty desc
  if tyBits ty ≤ pos || len = 0 then 0
  else
    let f := a.toNat / 2 ^ pos % 2 ^ len
    wrapInt ty false (if tySigned ty && f ≥ 2 ^ (len - 1) then (f : Int) - 2 ^ len else f)

def bitInsert (ty : Ty) (a b : DWord) (desc : Word) : DWord :=
  let pos := fieldPos desc
  let len := fieldLen ty desc
  if tyBits ty ≤ pos || len = 0 then a
  else
    let n := min (pos + len) (tyBits ty) - pos
    let m : DWord := BitVec.ofNat 64 ((2 ^ n - 1) * 2 ^ pos)
    (a &&& ~~~m) ||| ((b <<< pos) &&& m)

def popCount (a : DWord) : Nat := ((upto 0 64).filter (bit a)).length
/-- Leading zeros of the low `n` bits. -/
def leadZeros (a : DWord) : Nat → Nat
  | 0 => 0
  | n + 1 => if bit a n then 0 else 1 + leadZeros a n
def bitReverse (ty : Ty) (a : DWord) : DWord :=
  let n := tyBits ty
  BitVec.ofNat 64 ((upto 0 n).foldl (fun x i => x + (if bit a i then 2 ^ (n - 1 - i) else 0)) 0)

/-- PRMT (R91): bytes 0 to 3 are A's, 4 to 7 B's. -/
def bytePermute (a b sel : Word) : Word :=
  let all : DWord := pairOf a b
  let one (i : Nat) : Nat :=
    let n := bits sel (4 * i + 3) (4 * i)
    let x := bits all (8 * (n % 8) + 7) (8 * (n % 8))
    if n ≥ 8 then (if x ≥ 128 then 255 else 0) else x
  BitVec.ofNat 32 (one 0 + one 1 * 2 ^ 8 + one 2 * 2 ^ 16 + one 3 * 2 ^ 24)

/-- ICMP (R93). -/
def intCompare (c : ICond) (ty : Ty) (a b : DWord) : Bool :=
  let x := opInt ty a
  let y := opInt ty b
  match c with
  | .eq => x = y
  | .ne => x ≠ y
  | .lt => x < y
  | .le => x ≤ y
  | .gt => x > y
  | .ge => x ≥ y

/-- LEA (R99). -/
def leaOf (ty : Ty) (shift : Nat) (a : DWord) (b : Word) : DWord :=
  wrapInt ty false (a.toNat + (if tySigned ty then b.toInt else (b.toNat : Int)) * 2 ^ shift)

/-- The identity values (R20, R97). -/
def sregValue (w : Who) (s : State) : SregName → Nat
  | .lane => w.t.lane
  | .layer => w.t.layer
  | .gwidth => w.k.width
  | .gdepth => w.k.depth
  | .group => w.g.gidx
  | .gang => w.gang.idx
  | .ngang => w.k.ngang
  | .core => w.g.core % 24
  | .cluster => clusterOf w.g.core
  | .die => coreDie w.g.core
  | .vgid => w.t.vgid
  | .cyc => s.cyc
  | .hbt => s.hbt
  | .phase => w.gang.phase
  | .sibidx => if w.k.sib then w.gang.idx else 0
  | .sibn => if w.k.sib then w.k.sibn else 0
  | .karg => w.k.karg.toNat

/-- An instruction of one type on A and B, complete at issue. -/
def alu2 (h : Hdr) (ty : Ty) (d : BitVec 9) (a b : Src) (f : DWord → DWord → DWord) : State → Host.Outcome State Fault Refusal :=
  runInstr h (useDAB ty d a b) (fun w s => do
    let x ← src w s a (tyWords ty)
    let y ← src w s b (tyWords ty)
    res w h s d (tyWords ty) (f x y))

/-- The same with an always-32-bit B. -/
def aluW (h : Hdr) (ty : Ty) (d : BitVec 9) (a b : Src) (f : DWord → Word → DWord) : State → Host.Outcome State Fault Refusal :=
  runInstr h (useDAw ty d a b) (fun w s => do
    let x ← src w s a (tyWords ty)
    let y ← src32 w s b
    res w h s d (tyWords ty) (f x y))

/-- One source, with a destination of `n` words. -/
def alu1 (h : Hdr) (ty : Ty) (d : BitVec 9) (n : Nat) (a : Src) (f : DWord → DWord) : State → Host.Outcome State Fault Refusal :=
  runInstr h { srcs := [(.a, a, tyWords ty)], dst := some (d.toNat, n) } (fun w s => do
    let x ← src w s a (tyWords ty)
    res w h s d n (f x))

/-- A result that is claimed in 64-bit types (R109). -/
def resWide (w : Who) (h : Hdr) (s : State) (ty : Ty) (d : BitVec 9) (v : DWord) : Res State :=
  if tyWords ty = 2 then resLater w s d 2 v else res w h s d 1 v

/-- A claimed result that sets flags when it arrives (R174). -/
def resFlags (w : Who) (s : State) (d : BitVec 9) (n : Nat) (v : DWord) (f : Flags) : Res State :=
  (claim w s d.toNat n).map (fun s1 => pushResult s1 w.t (if d = 0 then [] else numbered d.toNat (wordsN n v)) f true)

def execIadd (h : Hdr) (ty : Ty) (sat : Bool) (d : BitVec 9) (a b : Src) : State → Host.Outcome State Fault Refusal :=
  alu2 h ty d a b (intAdd ty sat)
def execIsub (h : Hdr) (ty : Ty) (sat : Bool) (d : BitVec 9) (a b : Src) : State → Host.Outcome State Fault Refusal :=
  alu2 h ty d a b (intSub ty sat)

def execImul (h : Hdr) (ty : Ty) (hi : Bool) (d : BitVec 9) (a b : Src) : State → Host.Outcome State Fault Refusal :=
  runInstr h (useDAB ty d a b) (fun w s => do
    let x ← src w s a (tyWords ty)
    let y ← src w s b (tyWords ty)
    resWide w h s ty d (intMul ty hi x y))

def execImad (h : Hdr) (ty : Ty) (sat : Bool) (d : BitVec 9) (a b c : Src) : State → Host.Outcome State Fault Refusal :=
  runInstr h { useDAB ty d a b with srcs := [(.a, a, tyWords ty), (.b, b, tyWords ty), (.c, c, tyWords ty)] } (fun w s => do
    let x ← src w s a (tyWords ty)
    let y ← src w s b (tyWords ty)
    let z ← src w s c (tyWords ty)
    resWide w h s ty d (intMad ty sat x y z))

def execIdiv (h : Hdr) (ty : Ty) (rem : Bool) (d : BitVec 9) (a b : Src) : State → Host.Outcome State Fault Refusal :=
  runInstr h (useDAB ty d a b) (fun w s => do
    let x ← src w s a (tyWords ty)
    let y ← src w s b (tyWords ty)
    let r := intDiv ty rem x y
    resFlags w s d (tyWords ty) r.1 r.2)

def execIabs (h : Hdr) (ty : Ty) (sat : Bool) (d : BitVec 9) (a : Src) : State → Host.Outcome State Fault Refusal :=
  alu1 h ty d (tyWords ty) a (intAbs ty sat)
def execImin (h : Hdr) (ty : Ty) (d : BitVec 9) (a b : Src) : State → Host.Outcome State Fault Refusal :=
  alu2 h ty d a b (intMinOf ty)
def execImax (h : Hdr) (ty : Ty) (d : BitVec 9) (a b : Src) : State → Host.Outcome State Fault Refusal :=
  alu2 h ty d a b (intMaxOf ty)
def execAnd (h : Hdr) (ty : Ty) (nb : Bool) (d : BitVec 9) (a b : Src) : State → Host.Outcome State Fault Refusal :=
  alu2 h ty d a b (fun x y => x &&& withNb nb y)
def execOr (h : Hdr) (ty : Ty) (nb : Bool) (d : BitVec 9) (a b : Src) : State → Host.Outcome State Fault Refusal :=
  alu2 h ty d a b (fun x y => x ||| withNb nb y)
def execXor (h : Hdr) (ty : Ty) (nb : Bool) (d : BitVec 9) (a b : Src) : State → Host.Outcome State Fault Refusal :=
  alu2 h ty d a b (fun x y => x ^^^ withNb nb y)
def execShl (h : Hdr) (ty : Ty) (d : BitVec 9) (a b : Src) : State → Host.Outcome State Fault Refusal := aluW h ty d a b (intShl ty)
def execShr (h : Hdr) (ty : Ty) (d : BitVec 9) (a b : Src) : State → Host.Outcome State Fault Refusal := aluW h ty d a b (intShr ty)
def execSar (h : Hdr) (ty : Ty) (d : BitVec 9) (a b : Src) : State → Host.Outcome State Fault Refusal := aluW h ty d a b (intSar ty)
def execRot (h : Hdr) (ty : Ty) (d : BitVec 9) (a b : Src) : State → Host.Outcome State Fault Refusal := aluW h ty d a b (intRot ty)
def execBfe (h : Hdr) (ty : Ty) (d : BitVec 9) (a b : Src) : State → Host.Outcome State Fault Refusal :=
  aluW h ty d a b (bitExtract ty)

def execBfi (h : Hdr) (ty : Ty) (d : BitVec 9) (a b c : Src) : State → Host.Outcome State Fault Refusal :=
  runInstr h { useDAB ty d a b with srcs := [(.a, a, tyWords ty), (.b, b, tyWords ty), (.c, c, 1)] } (fun w s => do
    let x ← src w s a (tyWords ty)
    let y ← src w s b (tyWords ty)
    let z ← src32 w s c
    res w h s d (tyWords ty) (bitInsert ty x y z))

def execPopc (h : Hdr) (ty : Ty) (d : BitVec 9) (a : Src) : State → Host.Outcome State Fault Refusal :=
  alu1 h ty d 1 a (fun x => BitVec.ofNat 64 (popCount x))
def execClz (h : Hdr) (ty : Ty) (d : BitVec 9) (a : Src) : State → Host.Outcome State Fault Refusal :=
  alu1 h ty d 1 a (fun x => BitVec.ofNat 64 (leadZeros x (tyBits ty)))
def execBrev (h : Hdr) (ty : Ty) (d : BitVec 9) (a : Src) : State → Host.Outcome State Fault Refusal :=
  alu1 h ty d (tyWords ty) a (bitReverse ty)

def execPrmt (h : Hdr) (ty : Ty) (d : BitVec 9) (a b c : Src) : State → Host.Outcome State Fault Refusal :=
  runInstr h { useDAB ty d a b with srcs := [(.a, a, 1), (.b, b, 1), (.c, c, 1)] } (fun w s => do
    let x ← src32 w s a
    let y ← src32 w s b
    let z ← src32 w s c
    res w h s d 1 ((bytePermute x y z).setWidth 64))

/-- ISEL (R92): the unselected source is not read. -/
def execIsel (h : Hdr) (ty : Ty) (psel : BitVec 3) (pneg : Bool) (d : BitVec 9) (a b : Src) : State → Host.Outcome State Fault Refusal :=
  runInstr h { useDAB ty d a b with sel := some (psel, pneg) } (fun w s => do
    let x ← src w s (if w.th.preds.getLsbD psel.toNat ^^ pneg then a else b) (tyWords ty)
    res w h s d (tyWords ty) x)

def execIcmp (h : Hdr) (ty : Ty) (cond : ICond) (d : BitVec 3) (a b : Src) : State → Host.Outcome State Fault Refusal :=
  runInstr h { srcs := [(.a, a, tyWords ty), (.b, b, tyWords ty)] } (fun w s => do
    let x ← src w s a (tyWords ty)
    let y ← src w s b (tyWords ty)
    .ok (setPred s w.t d (intCompare cond ty x y)))

/-- What a PSET names. -/
def psetUse : PsetOp → Use
  | .nz _ a => { srcs := [(.a, a, 1)] }
  | .load a => { srcs := [(.a, a, 1)] }
  | .save d => { dst := some (d.toNat, 1) }
  | _ => {}

/-- PSET (R94). -/
def execPset (h : Hdr) (op : PsetOp) : State → Host.Outcome State Fault Refusal :=
  runInstr h (psetUse op) (fun w s =>
    let p (i : BitVec 3) : Bool := w.th.preds.getLsbD i.toNat
    match op with
    | .and d a b => .ok (setPred s w.t d (p a && p b))
    | .or d a b => .ok (setPred s w.t d (p a || p b))
    | .xor d a b => .ok (setPred s w.t d (p a ^^ p b))
    | .andn d a b => .ok (setPred s w.t d (p a && !p b))
    | .nz d a => do
      let x ← src32 w s a
      .ok (setPred s w.t d (x != 0))
    | .save d => res w h s d 1 (w.th.preds.setWidth 64)
    | .load a => do
      let x ← src32 w s a
      .ok (s.updThread w.t (fun th => { th with preds := (x.setWidth 8 &&& 0x7F) ||| 0x80 })))

/-- VOTE (R95, R28): a ballot's pair is written at completion, or later where a word of it is PEND (R40). -/
def execVote (h : Hdr) (op : VoteOp) (a : BitVec 3) : State → Host.Outcome State Fault Refusal :=
  let dst : Option (Nat × Nat) := match op with | .ballot d => some (d.toNat, 2) | _ => none
  runInstr h { dst := dst, collective := true } (fun w s =>
    match w.th.wait with
    | .ballot r => if voteBusy s w.t op h.nw then .error (.wait (.ballot r)) else .ok (voteGive s w.t op h.nw r)
    | _ => collArrive w s (.vote op h.nw) (if guardTrue h w.th then some (w.th.preds.getLsbD a.toNat) else none))

def execMov (h : Hdr) (ty : Ty) (d : BitVec 9) (a : Src) : State → Host.Outcome State Fault Refusal :=
  alu1 h ty d (tyWords ty) a id

def execMovi (h : Hdr) (ty : Ty) (d : BitVec 9) (x : DWord) : State → Host.Outcome State Fault Refusal :=
  runInstr h { dst := some (d.toNat, tyWords ty), len := 16, cycles := 2 } (fun w s => res w h s d (tyWords ty) x)

def execSreg (h : Hdr) (ty : Ty) (d : BitVec 9) (sel : SregName) : State → Host.Outcome State Fault Refusal :=
  runInstr h { dst := some (d.toNat, tyWords ty) } (fun w s => res w h s d (tyWords ty) (BitVec.ofNat 64 (sregValue w s sel)))

def execLea (h : Hdr) (ty : Ty) (shift : BitVec 4) (d : BitVec 9) (a b : Src) : State → Host.Outcome State Fault Refusal :=
  aluW h ty d a b (leaOf ty shift.toNat)

end Sys2Proof.Machine
end

