-- ==== Sys2Proof/Machine/Pair.lean ====
section
/-!
DEFINITION. The pair form (R71-R74): two halves that read before either writes.
-/
namespace Sys2Proof.Machine

/-- Whether a pair opcode takes the 9-bit immediate (R74). -/
def pairImm : PairOp → Bool
  | .movi | .iaddImm | .andImm | .shlImm | .shrImm | .sarImm | .rotImm => true
  | _ => false

/-- Whether a half reads its destination (R73). -/
def pairReadsDst : PairOp → Bool
  | .mov | .movi => false
  | _ => true

/-- The effect of a half on its operands: that of the full form of its mnemonic and type (R73, R74). -/
def pairValue (op : PairOp) (ty : Ty) (th : Thread) (x y : Word) : Word × Flags :=
  let a : DWord := x.setWidth 64
  let b : DWord := y.setWidth 64
  let f := fmtOfTy ty
  let m := roundOf th .dflt
  let z := ftzOf th false
  let fl (r : Nat × Flags) : Word × Flags := (BitVec.ofNat 32 r.1, r.2)
  match op with
  | .mov | .movi => (y, 0)
  | .iadd | .iaddImm => (loWord (intAdd ty false a b), 0)
  | .isub => (loWord (intSub ty false a b), 0)
  | .imul => (loWord (intMul ty false a b), 0)
  | .imin => (loWord (intMinOf ty a b), 0)
  | .imax => (loWord (intMaxOf ty a b), 0)
  | .and | .andImm => (x &&& y, 0)
  | .or => (x ||| y, 0)
  | .xor => (x ^^^ y, 0)
  | .shl | .shlImm => (loWord (intShl ty a y), 0)
  | .shr | .shrImm => (loWord (intShr ty a y), 0)
  | .sar | .sarImm => (loWord (intSar ty a y), 0)
  | .rot | .rotImm => (loWord (intRot ty a y), 0)
  | .fadd => fl (fAdd f m z x.toNat y.toNat)
  | .fsub => fl (fSub f m z x.toNat y.toNat)
  | .fmul => fl (fMul f m z x.toNat y.toNat)
  | .fmin => fl (fMinMax f false false z x.toNat y.toNat)
  | .fmax => fl (fMinMax f true false z x.toNat y.toNat)

/-- The header of a pair word: it has no guard of its own, and retains nothing. -/
def pairHdr : Hdr := ⟨7, false, false, .none⟩

/-- The registers a half names. -/
def halfRegs (p : PairHalf) : List (Nat × Nat) :=
  (p.half.dst.toNat, 1) :: (if pairImm p.op then [] else [(p.half.src.toNat, 1)])

/-- The registers a half reads (R73). -/
def halfReads (p : PairHalf) : List (Nat × Nat) :=
  (if pairReadsDst p.op then [(p.half.dst.toNat, 1)] else []) ++ (if pairImm p.op then [] else [(p.half.src.toNat, 1)])

/-- The halves whose guard is true: the others read, write and check nothing (R73). -/
def activeHalves (hs : List PairHalf) (th : Thread) : List PairHalf := hs.filter (fun p => th.preds.getLsbD p.half.pidx.toNat)

/-- The words whose PEND holds a pair: what the half reads or writes (R73). -/
def halfHeld (p : PairHalf) : List Nat := p.half.dst.toNat :: (if pairImm p.op then [] else [p.half.src.toNat])

/-- A half's result. -/
def halfRun (w : Who) (s : State) (p : PairHalf) : Res (Nat × Word × Flags) := do
  let x ← if pairReadsDst p.op then bankRead w s p.half.dst.toNat 1 else .ok [0]
  let y ← if pairImm p.op then .ok [p.half.src.signExtend 32] else bankRead w s p.half.src.toNat 1
  let r := pairValue p.op p.half.ty w.th (x.headD 0) (y.headD 0)
  .ok (p.half.dst.toNat, r.1, r.2)

/-- A pair word (R73): it waits while a register of an active half is PEND; both halves read; then each writes. Where both would trap, the trap
is the first half's (log 96). -/
def runPair (op : PairOp) (a : Half) (b : PairHalf) : State → Host.Outcome State Fault Refusal :=
  let hs : List PairHalf := [⟨op, a⟩, b]
  runInstr pairHdr { named := hs.flatMap halfRegs, lists := fun w _ => (activeHalves hs w.th).flatMap halfReads } (fun w s => do
    let act := activeHalves hs w.th
    if (act.flatMap halfHeld).any (fun i => i ≠ 0 && busy s w.t i 1) then .error (.wait .retry)
    let rs ← act.mapM (halfRun w s)
    .ok (rs.foldl (fun s r => raise (writeWord s w.t r.1 r.2.1) w.t r.2.2) s))

def execPairMov (a : Half) (b : PairHalf) : State → Host.Outcome State Fault Refusal := runPair .mov a b
def execPairIadd (a : Half) (b : PairHalf) : State → Host.Outcome State Fault Refusal := runPair .iadd a b
def execPairIsub (a : Half) (b : PairHalf) : State → Host.Outcome State Fault Refusal := runPair .isub a b
def execPairImul (a : Half) (b : PairHalf) : State → Host.Outcome State Fault Refusal := runPair .imul a b
def execPairImin (a : Half) (b : PairHalf) : State → Host.Outcome State Fault Refusal := runPair .imin a b
def execPairImax (a : Half) (b : PairHalf) : State → Host.Outcome State Fault Refusal := runPair .imax a b
def execPairAnd (a : Half) (b : PairHalf) : State → Host.Outcome State Fault Refusal := runPair .and a b
def execPairOr (a : Half) (b : PairHalf) : State → Host.Outcome State Fault Refusal := runPair .or a b
def execPairXor (a : Half) (b : PairHalf) : State → Host.Outcome State Fault Refusal := runPair .xor a b
def execPairShl (a : Half) (b : PairHalf) : State → Host.Outcome State Fault Refusal := runPair .shl a b
def execPairShr (a : Half) (b : PairHalf) : State → Host.Outcome State Fault Refusal := runPair .shr a b
def execPairSar (a : Half) (b : PairHalf) : State → Host.Outcome State Fault Refusal := runPair .sar a b
def execPairRot (a : Half) (b : PairHalf) : State → Host.Outcome State Fault Refusal := runPair .rot a b
def execPairFadd (a : Half) (b : PairHalf) : State → Host.Outcome State Fault Refusal := runPair .fadd a b
def execPairFsub (a : Half) (b : PairHalf) : State → Host.Outcome State Fault Refusal := runPair .fsub a b
def execPairFmul (a : Half) (b : PairHalf) : State → Host.Outcome State Fault Refusal := runPair .fmul a b
def execPairFmin (a : Half) (b : PairHalf) : State → Host.Outcome State Fault Refusal := runPair .fmin a b
def execPairFmax (a : Half) (b : PairHalf) : State → Host.Outcome State Fault Refusal := runPair .fmax a b
def execPairMovi (a : Half) (b : PairHalf) : State → Host.Outcome State Fault Refusal := runPair .movi a b
def execPairIaddImm (a : Half) (b : PairHalf) : State → Host.Outcome State Fault Refusal := runPair .iaddImm a b
def execPairAndImm (a : Half) (b : PairHalf) : State → Host.Outcome State Fault Refusal := runPair .andImm a b
def execPairShlImm (a : Half) (b : PairHalf) : State → Host.Outcome State Fault Refusal := runPair .shlImm a b
def execPairShrImm (a : Half) (b : PairHalf) : State → Host.Outcome State Fault Refusal := runPair .shrImm a b
def execPairSarImm (a : Half) (b : PairHalf) : State → Host.Outcome State Fault Refusal := runPair .sarImm a b
def execPairRotImm (a : Half) (b : PairHalf) : State → Host.Outcome State Fault Refusal := runPair .rotImm a b

end Sys2Proof.Machine
end

