-- ==== Sys2Proof/Machine/Dispatch.lean ====
section
/-!
DEFINITION. One arm for each constructor of Instr, each a direct call of its meaning.
-/
namespace Sys2Proof.Machine

def exec (i : Instr) (s : State) : Host.Outcome State Fault Refusal :=
  match i with
  | .nop h => Sys2Proof.Machine.execNop h s
  | .bra h off => Sys2Proof.Machine.execBra h off s
  | .brx h ty a b => Sys2Proof.Machine.execBrx h ty a b s
  | .call h off => Sys2Proof.Machine.execCall h off s
  | .callx h d x => Sys2Proof.Machine.execCallx h d x s
  | .ret h ty a => Sys2Proof.Machine.execRet h ty a s
  | .exit h => Sys2Proof.Machine.execExit h s
  | .yield h => Sys2Proof.Machine.execYield h s
  | .sleep h a => Sys2Proof.Machine.execSleep h a s
  | .sleepP h a => Sys2Proof.Machine.execSleepP h a s
  | .cancp h => Sys2Proof.Machine.execCancp h s
  | .trap h b => Sys2Proof.Machine.execTrap h b s
  | .tret h => Sys2Proof.Machine.execTret h s
  | .tfence h => Sys2Proof.Machine.execTfence h s
  | .iadd h ty sat d a b => Sys2Proof.Machine.execIadd h ty sat d a b s
  | .isub h ty sat d a b => Sys2Proof.Machine.execIsub h ty sat d a b s
  | .imul h ty hi d a b => Sys2Proof.Machine.execImul h ty hi d a b s
  | .imad h ty sat d a b c => Sys2Proof.Machine.execImad h ty sat d a b c s
  | .idiv h ty rem d a b => Sys2Proof.Machine.execIdiv h ty rem d a b s
  | .iabs h ty sat d a => Sys2Proof.Machine.execIabs h ty sat d a s
  | .imin h ty d a b => Sys2Proof.Machine.execImin h ty d a b s
  | .imax h ty d a b => Sys2Proof.Machine.execImax h ty d a b s
  | .and h ty nb d a b => Sys2Proof.Machine.execAnd h ty nb d a b s
  | .or h ty nb d a b => Sys2Proof.Machine.execOr h ty nb d a b s
  | .xor h ty nb d a b => Sys2Proof.Machine.execXor h ty nb d a b s
  | .shl h ty d a b => Sys2Proof.Machine.execShl h ty d a b s
  | .shr h ty d a b => Sys2Proof.Machine.execShr h ty d a b s
  | .sar h ty d a b => Sys2Proof.Machine.execSar h ty d a b s
  | .rot h ty d a b => Sys2Proof.Machine.execRot h ty d a b s
  | .bfe h ty d a b => Sys2Proof.Machine.execBfe h ty d a b s
  | .bfi h ty d a b c => Sys2Proof.Machine.execBfi h ty d a b c s
  | .popc h ty d a => Sys2Proof.Machine.execPopc h ty d a s
  | .clz h ty d a => Sys2Proof.Machine.execClz h ty d a s
  | .brev h ty d a => Sys2Proof.Machine.execBrev h ty d a s
  | .prmt h ty d a b c => Sys2Proof.Machine.execPrmt h ty d a b c s
  | .isel h ty psel pneg d a b => Sys2Proof.Machine.execIsel h ty psel pneg d a b s
  | .icmp h ty cond d a b => Sys2Proof.Machine.execIcmp h ty cond d a b s
  | .pset h op => Sys2Proof.Machine.execPset h op s
  | .vote h op a => Sys2Proof.Machine.execVote h op a s
  | .mov h ty d a => Sys2Proof.Machine.execMov h ty d a s
  | .movi h ty d x => Sys2Proof.Machine.execMovi h ty d x s
  | .sreg h ty d sel => Sys2Proof.Machine.execSreg h ty d sel s
  | .lea h ty shift d a b => Sys2Proof.Machine.execLea h ty shift d a b s
  | .fadd h ty rm ftz d a b => Sys2Proof.Machine.execFadd h ty rm ftz d a b s
  | .fsub h ty rm ftz d a b => Sys2Proof.Machine.execFsub h ty rm ftz d a b s
  | .fmul h ty rm ftz d a b => Sys2Proof.Machine.execFmul h ty rm ftz d a b s
  | .ffma h ty rm ftz d a b c => Sys2Proof.Machine.execFfma h ty rm ftz d a b c s
  | .fmin h ty num ftz d a b => Sys2Proof.Machine.execFmin h ty num ftz d a b s
  | .fmax h ty num ftz d a b => Sys2Proof.Machine.execFmax h ty num ftz d a b s
  | .fcmp h ty cond ftz d a b => Sys2Proof.Machine.execFcmp h ty cond ftz d a b s
  | .fclass h ty ftz d a => Sys2Proof.Machine.execFclass h ty ftz d a s
  | .fdiv h ty rm ftz d a b => Sys2Proof.Machine.execFdiv h ty rm ftz d a b s
  | .fsqrt h ty rm ftz d a => Sys2Proof.Machine.execFsqrt h ty rm ftz d a s
  | .frcp h ty ftz d a => Sys2Proof.Machine.execFrcp h ty ftz d a s
  | .frsq h ty ftz d a => Sys2Proof.Machine.execFrsq h ty ftz d a s
  | .fexp2 h ty ftz d a => Sys2Proof.Machine.execFexp2 h ty ftz d a s
  | .flog2 h ty ftz d a => Sys2Proof.Machine.execFlog2 h ty ftz d a s
  | .fsin h ty ftz d a => Sys2Proof.Machine.execFsin h ty ftz d a s
  | .fcos h ty ftz d a => Sys2Proof.Machine.execFcos h ty ftz d a s
  | .frnd h ty rm ftz d a => Sys2Proof.Machine.execFrnd h ty rm ftz d a s
  | .fscale h ty rm ftz d a b => Sys2Proof.Machine.execFscale h ty rm ftz d a b s
  | .fxtr h ty man ftz d a => Sys2Proof.Machine.execFxtr h ty man ftz d a s
  | .fcvt h ty rm ftz sat d a sty => Sys2Proof.Machine.execFcvt h ty rm ftz sat d a sty s
  | .f2i h ty rm ftz d a sty => Sys2Proof.Machine.execF2i h ty rm ftz d a sty s
  | .i2f h ty rm d a sty => Sys2Proof.Machine.execI2f h ty rm d a sty s
  | .fdot2 h ty rm ftz d a b c => Sys2Proof.Machine.execFdot2 h ty rm ftz d a b c s
  | .fstat h op d => Sys2Proof.Machine.execFstat h op d s
  | .fmode h b => Sys2Proof.Machine.execFmode h b s
  | .dbdec h ty rm d a b fam slot => Sys2Proof.Machine.execDbdec h ty rm d a b fam slot s
  | .dbenc h rm sat d a b => Sys2Proof.Machine.execDbenc h rm sat d a b s
  | .cbld h slot a => Sys2Proof.Machine.execCbld h slot a s
  | .cbread h slot d b => Sys2Proof.Machine.execCbread h slot d b s
  | .ncvt h ty op d => Sys2Proof.Machine.execNcvt h ty op d s
  | .bsum h ty d a fam slot => Sys2Proof.Machine.execBsum h ty d a fam slot s
  | .mtask h d a => Sys2Proof.Machine.execMtask h d a s
  | .mtwait h d a => Sys2Proof.Machine.execMtwait h d a s
  | .mtqry h eng d a => Sys2Proof.Machine.execMtqry h eng d a s
  | .mdrain h a b => Sys2Proof.Machine.execMdrain h a b s
  | .mfill h a b => Sys2Proof.Machine.execMfill h a b s
  | .mfreeze h a => Sys2Proof.Machine.execMfreeze h a s
  | .mthaw h a => Sys2Proof.Machine.execMthaw h a s
  | .rdx h ty d a b => Sys2Proof.Machine.execRdx h ty d a b s
  | .wrx h ty d a b => Sys2Proof.Machine.execWrx h ty d a b s
  | .take h ty d a => Sys2Proof.Machine.execTake h ty d a s
  | .give h ty d a => Sys2Proof.Machine.execGive h ty d a s
  | .tagset h st d b => Sys2Proof.Machine.execTagset h st d b s
  | .tagq h d a n => Sys2Proof.Machine.execTagq h d a n s
  | .wexp h rights clus d a b => Sys2Proof.Machine.execWexp h rights clus d a b s
  | .wrev h a => Sys2Proof.Machine.execWrev h a s
  | .wld h ty d a b => Sys2Proof.Machine.execWld h ty d a b s
  | .wst h ty a b c => Sys2Proof.Machine.execWst h ty a b c s
  | .wtake h ty d a b => Sys2Proof.Machine.execWtake h ty d a b s
  | .wgive h ty a b c => Sys2Proof.Machine.execWgive h ty a b c s
  | .lnrd h ty d a b => Sys2Proof.Machine.execLnrd h ty d a b s
  | .lnwr h ty d a b => Sys2Proof.Machine.execLnwr h ty d a b s
  | .mcast h ty d a b c => Sys2Proof.Machine.execMcast h ty d a b c s
  | .ldg h ty ord am d a => Sys2Proof.Machine.execLdg h ty ord am d a s
  | .ldf h ty ord am d a => Sys2Proof.Machine.execLdf h ty ord am d a s
  | .ldh h ty ord am d a => Sys2Proof.Machine.execLdh h ty ord am d a s
  | .stg h ty ord am a b => Sys2Proof.Machine.execStg h ty ord am a b s
  | .stf h ty ord am a b => Sys2Proof.Machine.execStf h ty ord am a b s
  | .sth h ty ord am a b => Sys2Proof.Machine.execSth h ty ord am a b s
  | .waitq h st b => Sys2Proof.Machine.execWaitq h st b s
  | .binit h sc d b => Sys2Proof.Machine.execBinit h sc d b s
  | .barr h d a b => Sys2Proof.Machine.execBarr h d a b s
  | .barrGrp h => Sys2Proof.Machine.execBarrGrp h s
  | .bwait h a b c => Sys2Proof.Machine.execBwait h a b c s
  | .bxfer h out a b c => Sys2Proof.Machine.execBxfer h out a b c s
  | .fence h kind sc => Sys2Proof.Machine.execFence h kind sc s
  | .fencesc h => Sys2Proof.Machine.execFencesc h s
  | .marm h op => Sys2Proof.Machine.execMarm h op s
  | .mwait h d b => Sys2Proof.Machine.execMwait h d b s
  | .wbar h sc => Sys2Proof.Machine.execWbar h sc s
  | .hbwait h b => Sys2Proof.Machine.execHbwait h b s
  | .atom h ty ord d a b op => Sys2Proof.Machine.execAtom h ty ord d a b op s
  | .acas h ty ord d a b c => Sys2Proof.Machine.execAcas h ty ord d a b c s
  | .red h ty ord a b op => Sys2Proof.Machine.execRed h ty ord a b op s
  | .vatom h ty ord d a b op nm1 => Sys2Proof.Machine.execVatom h ty ord d a b op nm1 s
  | .fatom h ty ord d a b op => Sys2Proof.Machine.execFatom h ty ord d a b op s
  | .atomw h ty op d a b c => Sys2Proof.Machine.execAtomw h ty op d a b c s
  | .acopy h nm1 sp d r b c => Sys2Proof.Machine.execAcopy h nm1 sp d r b c s
  | .awrite h nm1 sp d r b c => Sys2Proof.Machine.execAwrite h nm1 sp d r b c s
  | .bcopy h sp d a b c x => Sys2Proof.Machine.execBcopy h sp d a b c x s
  | .bstore h sp d a b c x => Sys2Proof.Machine.execBstore h sp d a b c x s
  | .acq h nt d a => Sys2Proof.Machine.execAcq h nt d a s
  | .publish h a => Sys2Proof.Machine.execPublish h a s
  | .wopen h d a c => Sys2Proof.Machine.execWopen h d a c s
  | .launch h d a x => Sys2Proof.Machine.execLaunch h d a x s
  | .qpush h a b => Sys2Proof.Machine.execQpush h a b s
  | .qpop h d a => Sys2Proof.Machine.execQpop h d a s
  | .qpopH h d a => Sys2Proof.Machine.execQpopH h d a s
  | .qdepth h d => Sys2Proof.Machine.execQdepth h d s
  | .qsteal h d => Sys2Proof.Machine.execQsteal h d s
  | .lwait h d a => Sys2Proof.Machine.execLwait h d a s
  | .hold h try_ d a => Sys2Proof.Machine.execHold h try_ d a s
  | .hfree h a => Sys2Proof.Machine.execHfree h a s
  | .hfreeTask h a => Sys2Proof.Machine.execHfreeTask h a s
  | .heir h a b => Sys2Proof.Machine.execHeir h a b s
  | .hconvey h d a => Sys2Proof.Machine.execHconvey h d a s
  | .hconveyAll h d => Sys2Proof.Machine.execHconveyAll h d s
  | .prom h d a => Sys2Proof.Machine.execProm h d a s
  | .keep h ty a b => Sys2Proof.Machine.execKeep h ty a b s
  | .pwait h d a => Sys2Proof.Machine.execPwait h d a s
  | .estq h d a => Sys2Proof.Machine.execEstq h d a s
  | .estqRec h d a => Sys2Proof.Machine.execEstqRec h d a s
  | .sibpost h d a => Sys2Proof.Machine.execSibpost h d a s
  | .sibq h d => Sys2Proof.Machine.execSibq h d s
  | .sibwait h d => Sys2Proof.Machine.execSibwait h d s
  | .sibacct h d => Sys2Proof.Machine.execSibacct h d s
  | .kvcopy h nm1 d a b c => Sys2Proof.Machine.execKvcopy h nm1 d a b c s
  | .pgalloc h t d => Sys2Proof.Machine.execPgalloc h t d s
  | .pgfree h t d a => Sys2Proof.Machine.execPgfree h t d a s
  | .pgref h t d a => Sys2Proof.Machine.execPgref h t d a s
  | .tierin h nm1 d b c => Sys2Proof.Machine.execTierin h nm1 d b c s
  | .tierq h d b c => Sys2Proof.Machine.execTierq h d b c s
  | .invr h a b c => Sys2Proof.Machine.execInvr h a b c s
  | .invwait h => Sys2Proof.Machine.execInvwait h s
  | .srd h ty d reg => Sys2Proof.Machine.execSrd h ty d reg s
  | .srdLogPop h ty d reg => Sys2Proof.Machine.execSrdLogPop h ty d reg s
  | .swr h ty reg b => Sys2Proof.Machine.execSwr h ty reg b s
  | .swrLogClear h ty reg b => Sys2Proof.Machine.execSwrLogClear h ty reg b s
  | .swrMgnInj h ty b => Sys2Proof.Machine.execSwrMgnInj h ty b s
  | .syscall h b => Sys2Proof.Machine.execSyscall h b s
  | .halt h b => Sys2Proof.Machine.execHalt h b s
  | .quar h a => Sys2Proof.Machine.execQuar h a s
  | .ckcut h d a => Sys2Proof.Machine.execCkcut h d a s
  | .ckwait h d a => Sys2Proof.Machine.execCkwait h d a s
  | .evpop h d => Sys2Proof.Machine.execEvpop h d s
  | .evwait h d b => Sys2Proof.Machine.execEvwait h d b s
  | .csave h whole d a b c => Sys2Proof.Machine.execCsave h whole d a b c s
  | .pairMov a b => Sys2Proof.Machine.execPairMov a b s
  | .pairIadd a b => Sys2Proof.Machine.execPairIadd a b s
  | .pairIsub a b => Sys2Proof.Machine.execPairIsub a b s
  | .pairImul a b => Sys2Proof.Machine.execPairImul a b s
  | .pairImin a b => Sys2Proof.Machine.execPairImin a b s
  | .pairImax a b => Sys2Proof.Machine.execPairImax a b s
  | .pairAnd a b => Sys2Proof.Machine.execPairAnd a b s
  | .pairOr a b => Sys2Proof.Machine.execPairOr a b s
  | .pairXor a b => Sys2Proof.Machine.execPairXor a b s
  | .pairShl a b => Sys2Proof.Machine.execPairShl a b s
  | .pairShr a b => Sys2Proof.Machine.execPairShr a b s
  | .pairSar a b => Sys2Proof.Machine.execPairSar a b s
  | .pairRot a b => Sys2Proof.Machine.execPairRot a b s
  | .pairFadd a b => Sys2Proof.Machine.execPairFadd a b s
  | .pairFsub a b => Sys2Proof.Machine.execPairFsub a b s
  | .pairFmul a b => Sys2Proof.Machine.execPairFmul a b s
  | .pairFmin a b => Sys2Proof.Machine.execPairFmin a b s
  | .pairFmax a b => Sys2Proof.Machine.execPairFmax a b s
  | .pairMovi a b => Sys2Proof.Machine.execPairMovi a b s
  | .pairIaddImm a b => Sys2Proof.Machine.execPairIaddImm a b s
  | .pairAndImm a b => Sys2Proof.Machine.execPairAndImm a b s
  | .pairShlImm a b => Sys2Proof.Machine.execPairShlImm a b s
  | .pairShrImm a b => Sys2Proof.Machine.execPairShrImm a b s
  | .pairSarImm a b => Sys2Proof.Machine.execPairSarImm a b s
  | .pairRotImm a b => Sys2Proof.Machine.execPairRotImm a b s
  | .heartbeatTick => Sys2Proof.Machine.execHeartbeatTick s
  | .pcHashDisplace core => Sys2Proof.Machine.execPcHashDisplace core s
  | .loadArrival id => Sys2Proof.Machine.execLoadArrival id s
  | .storePerformed vgid => Sys2Proof.Machine.execStorePerformed vgid s
  | .sleepWake t => Sys2Proof.Machine.execSleepWake t s
  | .mwaitTimeout t => Sys2Proof.Machine.execMwaitTimeout t s
  | .evwaitTimeout t => Sys2Proof.Machine.execEvwaitTimeout t s
  | .windowWaitTimeout id => Sys2Proof.Machine.execWindowWaitTimeout id s
  | .windowAccessComplete id => Sys2Proof.Machine.execWindowAccessComplete id s
  | .wrevDrainEnd t => Sys2Proof.Machine.execWrevDrainEnd t s
  | .gangRelaunch gang => Sys2Proof.Machine.execGangRelaunch gang s
  | .groupRetire vgid => Sys2Proof.Machine.execGroupRetire vgid s
  | .kernelComplete k => Sys2Proof.Machine.execKernelComplete k s
  | .phaseStart gang others => Sys2Proof.Machine.execPhaseStart gang others s
  | .preemptRequest cl mask => Sys2Proof.Machine.execPreemptRequest cl mask s
  | .preemptHandlerTimeout t => Sys2Proof.Machine.execPreemptHandlerTimeout t s
  | .contextSave vgid => Sys2Proof.Machine.execContextSave vgid s
  | .contextRestore vgid core => Sys2Proof.Machine.execContextRestore vgid core s
  | .instructionReplay core late again => Sys2Proof.Machine.execInstructionReplay core late again s
  | .marginStepRise core => Sys2Proof.Machine.execMarginStepRise core s
  | .marginSettleEnd core => Sys2Proof.Machine.execMarginSettleEnd core s
  | .replayWindowEnd core => Sys2Proof.Machine.execReplayWindowEnd core s
  | .escalationWindowEnd core => Sys2Proof.Machine.execEscalationWindowEnd core s
  | .ceRequestStart cl seq => Sys2Proof.Machine.execCeRequestStart cl seq s
  | .ceWordArrival cl seq j => Sys2Proof.Machine.execCeWordArrival cl seq j s
  | .ceLoss cl seq j => Sys2Proof.Machine.execCeLoss cl seq j s
  | .wopenGranuleCopy cl seq j => Sys2Proof.Machine.execWopenGranuleCopy cl seq j s
  | .publishExchange t => Sys2Proof.Machine.execPublishExchange t s
  | .seAtomicApply id => Sys2Proof.Machine.execSeAtomicApply id s
  | .redAccept vgid => Sys2Proof.Machine.execRedAccept vgid s
  | .redApply id => Sys2Proof.Machine.execRedApply id s
  | .mtTaskReady cl seq => Sys2Proof.Machine.execMtTaskReady cl seq s
  | .mtReadyAging cl seq => Sys2Proof.Machine.execMtReadyAging cl seq s
  | .mtDispatch cl seq => Sys2Proof.Machine.execMtDispatch cl seq s
  | .mtComputeEnd cl eng => Sys2Proof.Machine.execMtComputeEnd cl eng s
  | .mtChecksum cl eng upset => Sys2Proof.Machine.execMtChecksum cl eng upset s
  | .mtWritebackEnd cl eng => Sys2Proof.Machine.execMtWritebackEnd cl eng s
  | .lqTailWrite fn q v => Sys2Proof.Machine.execLqTailWrite fn q v s
  | .launchRecordTake dev src q => Sys2Proof.Machine.execLaunchRecordTake dev src q s
  | .waitListCheck part n => Sys2Proof.Machine.execWaitListCheck part n s
  | .gangPlace gang => Sys2Proof.Machine.execGangPlace gang s
  | .priorityAging gang => Sys2Proof.Machine.execPriorityAging gang s
  | .schedPreempt gang => Sys2Proof.Machine.execSchedPreempt gang s
  | .gangSteal cl victim => Sys2Proof.Machine.execGangSteal cl victim s
  | .queueDepthExchange cl => Sys2Proof.Machine.execQueueDepthExchange cl s
  | .cellarRefill core => Sys2Proof.Machine.execCellarRefill core s
  | .wbarRoomSave gang => Sys2Proof.Machine.execWbarRoomSave gang s
  | .meshRouteRecompute die => Sys2Proof.Machine.execMeshRouteRecompute die s
  | .invrAck id => Sys2Proof.Machine.execInvrAck id s
  | .pageIn id => Sys2Proof.Machine.execPageIn id s
  | .cancelSignal vgid => Sys2Proof.Machine.execCancelSignal vgid s
  | .hostMemWrite addr data => Sys2Proof.Machine.execHostMemWrite addr data s
  | .hostMemRead addr n => Sys2Proof.Machine.execHostMemRead addr n s
  | .hostSnoop addr => Sys2Proof.Machine.execHostSnoop addr s
  | .vfCfgWrite v x => Sys2Proof.Machine.execVfCfgWrite v x s
  | .partitionTableWrite p off x => Sys2Proof.Machine.execPartitionTableWrite p off x s
  | .clholdClear cl x => Sys2Proof.Machine.execClholdClear cl x s
  | .registerWrite fn off x => Sys2Proof.Machine.execRegisterWrite fn off x s
  | .getVersion => Sys2Proof.Machine.execGetVersion s
  | .getCapabilities => Sys2Proof.Machine.execGetCapabilities s
  | .negotiateAlgorithms algs => Sys2Proof.Machine.execNegotiateAlgorithms algs s
  | .getDigests => Sys2Proof.Machine.execGetDigests s
  | .getCertificate off n => Sys2Proof.Machine.execGetCertificate off n s
  | .challenge nonce => Sys2Proof.Machine.execChallenge nonce s
  | .getMeasurements idx => Sys2Proof.Machine.execGetMeasurements idx s
  | .keyExchange id => Sys2Proof.Machine.execKeyExchange id s
  | .finish id ok => Sys2Proof.Machine.execFinish id ok s
  | .endSession id => Sys2Proof.Machine.execEndSession id s
  | .lockInterfaceRequest v => Sys2Proof.Machine.execLockInterfaceRequest v s
  | .startInterfaceRequest v nonce => Sys2Proof.Machine.execStartInterfaceRequest v nonce s
  | .stopInterfaceRequest v => Sys2Proof.Machine.execStopInterfaceRequest v s
  | .ideFailure v => Sys2Proof.Machine.execIdeFailure v s
  | .collAllReduce fn => Sys2Proof.Machine.execCollAllReduce fn s
  | .collReduceScatter fn => Sys2Proof.Machine.execCollReduceScatter fn s
  | .collAllGather fn => Sys2Proof.Machine.execCollAllGather fn s
  | .collBroadcast fn => Sys2Proof.Machine.execCollBroadcast fn s
  | .collBarrier fn => Sys2Proof.Machine.execCollBarrier fn s
  | .collAbort fn => Sys2Proof.Machine.execCollAbort fn s
  | .abortToken fn comm attempt => Sys2Proof.Machine.execAbortToken fn comm attempt s
  | .collComplete fn ins => Sys2Proof.Machine.execCollComplete fn ins s
  | .cutTick part => Sys2Proof.Machine.execCutTick part s
  | .cutGranuleCopy part addr => Sys2Proof.Machine.execCutGranuleCopy part addr s
  | .powerOn => Sys2Proof.Machine.execPowerOn s
  | .telemetry => Sys2Proof.Machine.execTelemetry s
  | .powerSet => Sys2Proof.Machine.execPowerSet s
  | .coreReset => Sys2Proof.Machine.execCoreReset s
  | .history => Sys2Proof.Machine.execHistory s
  | .imageWrite => Sys2Proof.Machine.execImageWrite s
  | .packageReset => Sys2Proof.Machine.execPackageReset s
  | .stateExport => Sys2Proof.Machine.execStateExport s
  | .stateImport => Sys2Proof.Machine.execStateImport s
  | .powerSample watts temps => Sys2Proof.Machine.execPowerSample watts temps s
  | .lifetimeWrite => Sys2Proof.Machine.execLifetimeWrite s
  | .resultArrival id => Sys2Proof.Machine.execResultArrival id s
  | .remoteHouseAccess key addr n data => Sys2Proof.Machine.execRemoteHouseAccess key addr n data s
  | .functionReset fn => Sys2Proof.Machine.execFunctionReset fn s
  | .powerLoss => Sys2Proof.Machine.execPowerLoss s
  | .memoryScrub addr bad => Sys2Proof.Machine.execMemoryScrub addr bad s
  | .translationCacheEviction unit n => Sys2Proof.Machine.execTranslationCacheEviction unit n s

end Sys2Proof.Machine
end

