-- ==== Sys2Proof/Machine/Schedule.lean ====
section
/-!
DEFINITION. Fetching and decoding for a thread (R57, R64-R66), the issue of one thread, and forming the issue group
(R24-R26).
-/
namespace Sys2Proof.Machine

/-- No thread is issuing. -/
def clearCur : Host.Outcome State Fault Refusal → Host.Outcome State Fault Refusal
  | .next s => .next { s with cur := none }
  | o => o

/-- One thread issues its instruction (R26, log 1). -/
def issueThread (t : Tid) (s : State) : Host.Outcome State Fault Refusal :=
  match fetch s t with
  | .error s1 => .next s1
  | .ok (i, s1) => clearCur (exec i { s1 with cur := some t })

/-- A wait that is tried again (R23, R268 kind 1), and the fences, which end by their condition alone. -/
def Wait.retries : Wait → Bool
  | .retry | .fence _ _ | .fencesc _ _ _ | .publish _ Option.none | .window | .header _ | .freeze | .barrier _ _ | .arrive _ _ | .counted _ | .ballot _ | .promise _ | .kept _ | .tags _ | .mwait _ _ | .evwait _ _ | .csave _ _ | .posted | .invr _ | .slept _ _ => true
  | _ => false

/-- Whether a waiting thread's condition now holds: its instruction would no longer wait as it does. -/
def wouldGo (s : State) (t : Tid) : Bool :=
  match issueThread t { s with threads := put s.threads t { s.thread t with st := .ready } } with
  | .next s1 => !((s1.thread t).st = .waiting && (s1.thread t).pc = (s.thread t).pc && (s1.thread t).wait = (s.thread t).wait)
  | _ => false

/-- Whether pre-emption holds the thread back (R265, R266). -/
def heldBack (s : State) (t : Tid) (th : Thread) : Bool :=
  (s.group t.vgid).stop.isSome && (th.stopped || !entryBit s t)

/-- The threads of a core that may issue. -/
def candidates (s : State) (c : Nat) : List (Tid × Thread) :=
  s.threads.filter (fun (p : Tid × Thread) =>
    match look s.groups p.1.vgid with
    | none => false
    | some g => g.core = c && g.saved.isNone && !heldBack s p.1 p.2 &&
        (p.2.st = .ready || (p.2.st = .waiting && p.2.wait.retries && wouldGo s p.1)))

/-- The key of a thread in the PC hash table (R24). -/
def keyOf (s : State) (t : Tid) (th : Thread) : PcKey :=
  let k := (s.who t).k
  ⟨th.pc, k.asid, k.world, th.sys⟩

/-- The lowest index of 64 that no entry uses. -/
def tableFree (t : Tab PcKey) : Option Nat := (upto 0 64).find? (fun i => (look t i).isNone)

/-- Give free entries to the head of the overflow list (R24). -/
def tableFill : Nat → Tab PcKey × List (PcKey × Nat) → Tab PcKey × List (PcKey × Nat)
  | 0, x => x
  | n + 1, (t, o) =>
    match tableFree t, o with
    | some i, (k, _) :: r => tableFill n (put t i k, r)
    | _, _ => (t, o)

/-- The age of an entry: the earliest ready cycle of its members. -/
def ageOf (ms : List (PcKey × Nat)) (k : PcKey) : Nat :=
  match (ms.filter (fun m => m.1 = k)).map (·.2) with
  | [] => 0
  | x :: r => r.foldl min x

/-- The hash table with the members that are READY (R24): entries without members are freed, waiting keys take them, and new
keys enter in the order of their first ready cycle. A waiting key without a READY member leaves the list, and new keys of one cycle enter in the
order of `State.threads` (log 96). -/
def tableUpdate (s : State) (c : Nat) (ms : List (PcKey × Nat)) : Tab PcKey × List (PcKey × Nat) :=
  let co := s.core c
  let has (k : PcKey) : Bool := ms.any (fun m => m.1 = k)
  let t0 := co.table.filter (fun e => has e.2)
  let o0 := co.waitKeys.filter (fun e => has e.1)
  let fresh := (sortBy (fun (a b : PcKey × Nat) => a.2 ≤ b.2) ms).map (·.1)
  let new := (fresh.filter (fun k => !(t0.any (fun e => e.2 = k)) && !(o0.any (fun e => e.1 = k)))).eraseDups
  tableFill 64 (t0, o0 ++ new.map (fun k => (k, ageOf ms k)))

/-- The lower of two members of one lane: the earlier ready cycle, then the lower layer, then the lower VGID (R25). -/
def firstOf (a b : Tid × Thread) : Bool :=
  a.2.ready < b.2.ready || (a.2.ready = b.2.ready && (a.1.layer < b.1.layer || (a.1.layer = b.1.layer && a.1.vgid ≤ b.1.vgid)))

/-- One member for each physical lane, in lane order. -/
def perLane (s : State) (ms : List (Tid × Thread)) : List Tid :=
  (upto 0 64).filterMap (fun l =>
    match sortBy firstOf (ms.filter (fun m => (s.group m.1.vgid).lane0 + m.1.lane = l)) with
    | m :: _ => some m.1
    | [] => none)

/-- A waiting thread of a core whose wait has ended is READY from this cycle on (R23, R25). -/
def wakeDue (s : State) (c : Nat) : State :=
  ((candidates s c).filter (fun m => m.2.st = .waiting)).foldl (fun s m =>
    s.updThread m.1 (fun th => { th with st := .ready, ready := s.cyc })) s

/-- Form the next issue group of a core (R25) at the cycle it can issue, or nothing where no thread may. -/
def formSlot (s0 : State) (c : Nat) : Option State :=
  let s := wakeDue s0 c
  let co := s.core c
  let all := candidates s c
  if co.quar || all.isEmpty then none
  else
    let first := match all.map (·.2.ready) with
      | [] => 0
      | x :: r => r.foldl min x
    let cyc := max (max s.cyc co.free) (max first co.settle)
    let ready := all.filter (fun m => m.2.ready ≤ cyc)
    let ms := ready.map (fun m => (keyOf s m.1 m.2, m.2.ready))
    let (t, o) := tableUpdate s c ms
    let pick := sortBy (fun (a b : Nat × PcKey) =>
      ageOf ms a.2 < ageOf ms b.2 || (ageOf ms a.2 = ageOf ms b.2 && a.1 ≤ b.1)) t
    match pick with
    | [] => none
    | e :: _ =>
      let group := perLane s (ready.filter (fun m => keyOf s m.1 m.2 = e.2))
      some ((s.setCyc cyc).updCore c (fun x => { x with
        table := t, waitKeys := o, slot := group, last := group, free := cyc, nrep := keptReplays s group, mismatch := false }))

/-- After the last thread of an issue group has issued, a dispatch fault that its injection chose strikes (R287). -/
def doomed (s : State) (c : Nat) : State := if (s.core c).doom && (s.core c).slot.isEmpty then dispatchFault s c else s

/-- The head of the core's issue group issues; a thread that a step before it stopped is passed over. -/
def issueHead (s : State) (c : Nat) : Host.Outcome State Fault Refusal :=
  match (s.core c).slot with
  | [] => .next s
  | t :: r =>
    let s1 := s.updCore c (fun x => { x with slot := r })
    match look s1.threads t with
    | some th =>
      if th.st = .ready && (s1.group t.vgid).saved.isNone && !heldBack s1 t th then
        (match issueThread t s1 with
         | .next s2 => .next (doomed s2 c)
         | o => o)
      else .next (doomed s1 c)
    | none => .next (doomed s1 c)

/-- An issue group that has not begun to issue: an injection may strike it first (R283). -/
def issueFirst (s : State) (c : Nat) : Host.Outcome State Fault Refusal :=
  let (s1, go) := attempt s c
  if go then issueHead s1 c else .next s1

/-- A core's issue stage: a new issue group (R25), a group that begins to issue or was replayed (R284), or the next thread of its issue
group (R26). A late transition or a mismatch may strike a group that is formed and has not begun (R281, log 14). -/
def issueCore (s : State) (c : Nat) : Host.Outcome State Fault Refusal :=
  let co := s.core c
  match co.slot with
  | _ :: _ =>
    if unstarted co then
      let cyc := max s.cyc (max co.free co.settle)
      let s1 := (s.setCyc cyc).updCore c (fun x => { x with free := cyc + 1 })
      if co.doom then issueHead (dropReplays s1 co.slot) c else issueFirst s1 c
    else issueHead s c
  | [] =>
    match formSlot s c with
    | none => .next s
    | some s1 => .next s1

/-- Steps of the memory system that something is waiting for; page-ins in every fourth round alone, since a far read is slow. -/
def dueMemory (s : State) : List Instr :=
  s.loads.flatMap (fun l => if l.pieces.isEmpty then [.loadArrival l.id] else l.pieces.map (fun _ => .loadArrival l.id))
  ++ s.groups.flatMap (fun g => g.2.queue.flatMap (fun e =>
      if e.red.isSome then [.redAccept g.1] else if e.pieces.isEmpty then [.storePerformed g.1] else e.pieces.map (fun _ => .storePerformed g.1)))
  ++ s.atomics.map (fun a => .seAtomicApply a.id) ++ s.reds.map (fun r => .redApply r.id)
  ++ s.accs.map (fun a => .windowAccessComplete a.id) ++ s.mcasts.map (fun m => .windowAccessComplete m.id)
  ++ s.invs.map (fun i => .invrAck i.id)
  ++ (if s.cyc / 512 % 4 = 0 then s.parts.flatMap (fun p => (p.2.tracker.filter (fun t => t.st = .inflight)).map (fun t => .pageIn t.id)) else [])

/-- Steps of the engines: a request's start, its first item not done, or its loss; a task's next state. -/
def dueEngines (s : State) : List Instr :=
  s.clusters.flatMap (fun c =>
    c.2.ce.flatMap (fun (r : CeReq) =>
      if r.st = .accepted then [.ceRequestStart c.1 r.seq]
      else if r.st ≠ .running then []
      else if r.kind = .wopen then [.wopenGranuleCopy c.1 r.seq (r.counted / 64)]
      else
        let js := ((r.items.zipIdx).filter (fun x => !x.1.done)).map (·.2)
        if js.isEmpty then [.ceWordArrival c.1 r.seq 0]
        else js.map (fun j => .ceWordArrival c.1 r.seq j) ++ (js.take 1).map (fun j => .ceLoss c.1 r.seq j))
    ++ c.2.mt.flatMap (fun (t : MtTask) =>
      if t.st = .queued then [.mtTaskReady c.1 t.seq]
      else if t.st = .ready then
        [.mtDispatch c.1 t.seq]
      else [])
    ++ c.2.engines.flatMap (fun e => [.mtComputeEnd c.1 e.1, .mtChecksum c.1 e.1 false, .mtWritebackEnd c.1 e.1]))

/-- Whether the results and register accesses of a group have all arrived. -/
def landed (s : State) (v : Nat) : Bool := s.results.all (fun r => r.tid.vgid ≠ v) && s.accs.all (fun a => a.tid.vgid ≠ v || a.waiting)

/-- Steps of threads that a condition already holds for. -/
def dueThreads (s : State) : List Instr :=
  s.threads.flatMap (fun (p : Tid × Thread) =>
    if p.2.st ≠ .waiting then []
    else match p.2.wait with
      | .wrev _ _ => [.wrevDrainEnd p.1]
      | .publish _ Option.none => [.publishExchange p.1]
      | _ => [])

/-- Where a saved group may return: its own cluster, and after a save of a whole gang any of its partition (R269). -/
def returnTo (s : State) (v : Nat) : Option Nat :=
  let w := s.who ⟨v, 0, 0⟩
  let vs := saveUnit s v
  let cls := w.gang.cl :: (if wholeGang s w.gang then (upto 0 48).filter (bit (s.part w.k.part).clu) else [])
  if mateStops s v then none else cls.findSome? (restoreCore s vs)

/-- Steps of groups and gangs that a condition already holds for. -/
def dueGroups (s : State) : List Instr :=
  s.gangs.flatMap (fun g => if g.2.st = .pending then [.gangPlace g.1] else [])
  ++ s.groups.flatMap (fun g =>
    if g.2.stop.isSome then [.contextSave g.1] else if allExited s g.1 && landed s g.1 then [.groupRetire g.1] else [])
  ++ s.gangs.flatMap (fun g =>
    if g.2.signal.isSome && g.2.cancel.isNone then (match g.2.groups.find? (fun v => (look s.groups v).isSome) with | some v => [.cancelSignal v] | none => [])
    else if g.2.killed = some false then [.gangRelaunch g.1]
    else if gangAtWbar s g.2 then [.phaseStart g.1 0, .wbarRoomSave g.1] else [])
  ++ (if s.gangs.any (fun g => g.2.st = .pending && decide (g.2.since + 1024 ≤ s.cyc)) then (upto 0 48).flatMap (fun cl =>
      match ((upto 1 47).map (fun i => (cl + i) % 48)).find? (fun c => clusterPart s cl = clusterPart s c && !(pendingOn s (fun g => g.cl = c)).isEmpty) with
      | some c => [.gangSteal cl c]
      | none => []) else [])
  ++ s.groups.flatMap (fun g => match g.2.saved with
    | some _ => (match returnTo s g.1 with | some c => [.contextRestore g.1 c] | none => [])
    | none => [])
  ++ s.kernels.flatMap (fun k => if k.2.st ≠ .ended && kernelDone s k.1 then [.kernelComplete k.1] else [])

/-- Steps of the cores' queues (R329). -/
def dueCoreUnits (s : State) : List Instr := s.cores.flatMap (fun c => if c.2.refill.isEmpty then [] else [.cellarRefill c.1])

/-- Steps of the front of house and the understudy. -/
def dueHome (s : State) : List Instr :=
  (match nextQueue s with
    | some x => [.launchRecordTake false x.1 x.2]
    | none => [])
  ++ s.parts.flatMap (fun p =>
    (if p.2.devq.isEmpty then [] else [.launchRecordTake true p.1 0])
    ++ (upto 0 p.2.waits.length).map (fun n => .waitListCheck p.1 n)
    ++ (match p.2.cut with
      | some c =>
        if !c.ticked then []
        else match c.items.find? (fun i => !i.done) with
          | some i => [.cutGranuleCopy p.1 i.phys]
          | none => [.cutGranuleCopy p.1 0]
      | none => []))

/-- Collectives of a communicator of this package alone (R426). -/
def dueColl (s : State) : List Instr :=
  s.fns.flatMap (fun f => match f.2.colls with
    | [] => []
    | c :: _ =>
      let (_, n, _) := commOf s f.1 c.comm
      if n = 1 then [.collComplete f.1 [List.replicate (collBytes c.op c.count c.esize 1).1 0]] else [])

/-- The timed steps of threads: the bound of a handler under pre-emption, and the ends of timed waits (R106, R137, R139, R266, R312). A
heartbeat is named by the cycle before it. -/
def timedThreads (s : State) : List (Nat × Instr) :=
  s.threads.flatMap (fun (p : Tid × Thread) =>
    (match (s.group p.1.vgid).stop with
     | some c => if p.2.st ≠ .exited && entryBit s p.1 && !p.2.stopped then [(c + 2 ^ 20, .preemptHandlerTimeout p.1)] else []
     | none => [])
    ++ (match waiting s p.1 with
        | some (.sleep c) => [(c, .sleepWake p.1)]
        | some (.mwait c _) => [(c, .mwaitTimeout p.1)]
        | some (.evwait c _) => [(c, .evwaitTimeout p.1)]
        | some (.hbt n) => [(128 * n - 1, .heartbeatTick)]
        | _ => [])
    ++ (match p.2.st, p.2.wait with
        | .waiting, .promised c _ => [(c, .sleepWake p.1)]
        | _, _ => []))

/-- The timed steps of the cores: a rise of STEP, and the key at the head of an overflow list (R24, R280). -/
def timedCores (s : State) : List (Nat × Instr) :=
  s.cores.flatMap (fun c =>
    (if c.2.step < mgnTarget c.2.mgnCtl && !c.2.quar then [(c.2.calm + 65536, .marginStepRise c.1)] else [])
    ++ (match c.2.waitKeys with
        | (k, since) :: _ => if (tableMembers s c.1).any (fun m => m.1 = k) then [(since + 1024, .pcHashDisplace c.1)] else []
        | [] => []))

/-- The bounds of waits in a window: an access, a word of a copy, a word of a task (R46, R193, R237). -/
def timedWaits (s : State) : List (Nat × Instr) :=
  s.accs.flatMap (fun a => match a.since, a.ended, accTry s a with
    | some c, none, .waits true => [(c + 65536, .windowWaitTimeout a.id)]
    | _, _, _ => [])
  ++ s.clusters.flatMap (fun c =>
    c.2.ce.flatMap (fun (r : CeReq) => if r.st = .running then r.items.zipIdx.filterMap (fun x =>
      if x.1.done then none else x.1.since.map (fun b => (b + 65536, .ceLoss c.1 r.seq x.2))) else [])
    ++ c.2.engines.flatMap (fun (e : Nat × Engine) => match engineTask s e.2 with
      | some t => (match t.since, t.st with
        | some (_, _, b), .running => [(b + 65536, .mtComputeEnd c.1 e.1)]
        | some (_, _, b), .writing => [(b + 65536, .mtWritebackEnd c.1 e.1)]
        | _, _ => [])
      | none => []))

/-- The timed steps of the scheduler and the understudy: pre-emption and aging of a pending gang, an exchange of queue depths that would move
an entry, and a cut's tick (R307, R325, R327, R331). -/
def timedUnits (s : State) : List (Nat × Instr) :=
  s.gangs.flatMap (fun g => if g.2.st ≠ .pending then [] else
    [(g.2.since + 65536, .schedPreempt g.1)]
    ++ (if g.2.boost < 3 then [(g.2.since + 2 ^ 24 * (g.2.boost + 1), .priorityAging g.1)] else []))
  ++ (((s.cores.filter (fun c => !c.2.onchip.isEmpty || !c.2.cellar.isEmpty)).map (fun c => clusterOf c.1)).eraseDups).flatMap (fun cl =>
    if (exchangeDepths s cl).cores ≠ s.cores then [(1024 * nextExchange s cl, .queueDepthExchange cl)] else [])
  ++ s.parts.flatMap (fun p => match p.2.cut with
    | some c => if c.ticked then (p.2.later.take 1).map (fun c => (128 * c.tick, .cutTick p.1)) else [(128 * c.tick, .cutTick p.1)]
    | none => [])

/-- A timed step as it happens: at its cycle, or where that has passed, now. -/
def doTimed (s : State) (x : Nat × Instr) : Host.Outcome State Fault Refusal :=
  exec x.2 { s.setCyc (max s.cyc x.1) with cur := none }

/-- What is timed, the cycle and the step: those still to come, and those that are late and would do something. -/
def timed (s : State) : List (Nat × Instr) :=
  (timedThreads s ++ timedCores s ++ timedWaits s ++ timedUnits s).filter (fun x =>
    decide (s.cyc < x.1) || (match doTimed s x with | .next s1 => s1 ≠ { s with cur := none } | _ => true))

/-- The first of the timed steps. -/
def firstTimed (s : State) : Option (Nat × Instr) :=
  match timed s with
  | [] => none
  | x :: r => some (r.foldl (fun b y => if y.1 < b.1 then y else b) x)

/-- The first timed step, where its cycle lies before cycle `c`. -/
def overdue (s : State) (c : Nat) : Option (Nat × Instr) := (firstTimed s).filter (fun x => decide (x.1 < c))

/-- The cores on which a thread may issue. -/
def dueCores (s : State) : List Nat :=
  ((s.groups.map (fun g => g.2.core)).eraseDups).filter (fun c => !(s.core c).slot.isEmpty || !(candidates s c).isEmpty)

/-- The steps other than an issue that something waits for. -/
def dueEvents (s : State) : List Instr :=
  dueMemory s ++ dueEngines s ++ dueThreads s ++ dueGroups s ++ dueCoreUnits s ++ dueHome s ++ dueColl s

/-- The core that issues next where no turn is named: one within an issue group, else the one whose issue stage is free first. -/
def nextCore (s : State) (cs : List Nat) : Nat :=
  match cs.find? (fun c => !(s.core c).slot.isEmpty) with
  | some c => c
  | none => cs.foldl (fun b c => if (s.core c).free < (s.core b).free then c else b) (cs.headD 0)

/-- Time passes where no thread may issue: to the first timed step where that comes before the next heartbeat, or where
nothing else is under way; else to the next heartbeat. -/
def timePasses (s : State) (busy : Bool) : Turn × State :=
  match firstTimed s with
  | some (c, e) => if c ≤ 128 * (s.hbt + 1) || !busy then (.event e, s.setCyc (max s.cyc c)) else (.event .heartbeatTick, s)
  | none => (.event .heartbeatTick, s)

/-- Whether something waits for a heartbeat that no step of its own brings. -/
def tickWait (s : State) : Bool := s.threads.any (fun (p : Tid × Thread) => match waiting s p.1 with | some (.fencesc _ _ _) => true | _ => false)

/-- A result or a register access that no step has tried yet. -/
def prompt (s : State) : Option Instr :=
  match s.results, s.accs.find? (fun a => a.ended.isSome || (!a.waiting && !accHeld s a)) with
  | r :: _, _ => some (.resultArrival r.id)
  | [], some a => some (.windowAccessComplete a.id)
  | [], none => none

/-- A core's issue, or where no thread may issue, the passing of time. -/
def issueOrWait (s : State) : Turn × State :=
  match dueCores s with
  | [] => timePasses s (tickWait s || !(dueEvents s).isEmpty)
  | c :: cs => (.issue (nextCore s (c :: cs)), s)

/-- The next due step of this round, or the end of the round. -/
def roundTurn (s : State) : Turn × State :=
  let es := dueEvents s
  let i := if es.length < s.due then s.rr - 1 else s.rr
  match es[i]? with
  | some e => (.event e, { s with rr := i + 1, due := es.length })
  | none => issueOrWait { s with rr := 0, due := 0, epoch := s.cyc / 512 }

/-- The next turn where none is named (log 1): a result or register access under way, at once; the due steps one after another, once in
512 cycles; else the cores' issues; and where no thread may issue, time passes. -/
def defaultTurn (s : State) : Turn × State :=
  match prompt s with
  | some e => (.event e, s)
  | none => if s.epoch < s.cyc / 512 then roundTurn s else issueOrWait s

/-- The next turn: the one named, else the default one (log 1). -/
def nextTurn (s : State) : Turn × State :=
  match s.turns with
  | t :: r => (t, { s with turns := r })
  | [] => defaultTurn s

/-- What a turn does. -/
def takeTurn (t : Turn) (s : State) : Host.Outcome State Fault Refusal :=
  match t with
  | .issue c => issueCore s c
  | .event e => exec e { s with cur := none }

/-- A cut's tick that comes as a turn reaches its cycle: nothing that the turn does at the tick may precede it (R307). -/
def cutAt (s : State) (c : Nat) : Option (Nat × Instr) :=
  (timedUnits s).find? (fun x => decide (s.cyc < x.1) && x.1 = c && match x.2 with | .cutTick _ => true | _ => false)

/-- The timed step that a turn which ends in cycle `c` gives way to. -/
def waited (s : State) (c : Nat) : Option (Nat × Instr) := (overdue s c).or (cutAt s c)

/-- A turn, unless it would pass the cycle of a timed step: that happens first, and the turn is still to come (log 1). -/
def onTime (s : State) (o : Host.Outcome State Fault Refusal) : Host.Outcome State Fault Refusal :=
  match o with
  | .next s1 => match waited s s1.cyc with
    | some x => doTimed s x
    | none => o
  | o => o

/-- Whether a core must issue before cycle `c` passes, for the bound of R27: a READY thread could miss its 4,096 cycles, with two for each other
thread, or the core has formed no issue group for 1,024 cycles and a thread waits that may go on (log 2). -/
def starves (s : State) (c core : Nat) : Bool :=
  let co := s.core core
  let ts := s.threads.filter (fun (p : Tid × Thread) => match look s.groups p.1.vgid with
    | none => false
    | some g => g.core = core && g.saved.isNone && !heldBack s p.1 p.2)
  !co.quar && (ts.any (fun p => p.2.st = .ready && decide (max p.2.ready co.settle + 3072 < c + 2 * ts.length))
    || (decide (max co.free co.settle + 1024 < c) && !(candidates s core).isEmpty))

/-- The core that must issue before the cycle passes to `c`, of several the one whose issue stage is free first (R27). -/
def starved (s : State) (c : Nat) : Option Nat :=
  if c ≤ s.cyc then none
  else match ((s.groups.map (fun g => g.2.core)).eraseDups).filter (starves s c) with
    | [] => none
    | x :: r => some (nextCore s (x :: r))

/-- A turn, unless a thread would starve as its time passes: that thread's core issues first, and the turn is still to come (R27, log 2). -/
def inTurn (s : State) (o : Host.Outcome State Fault Refusal) : Host.Outcome State Fault Refusal :=
  match o with
  | .next s1 => match starved s (((waited s s1.cyc).map (·.1)).getD s1.cyc) with
    | some c => issueCore s c
    | none => o
  | o => o

end Sys2Proof.Machine
end

