-- ==== Sys2Proof/Machine/Step.lean ====
section
/-!
DEFINITION. One step: a timed event whose cycle has come, else the next turn, which is one thread's issue, the forming of an issue group or
one event (log 1); and placing one instruction where the
next step fetches it (log 8).
-/
namespace Sys2Proof.Machine

/-- One step: a timed step whose cycle has come, else the next turn, which neither a timed step nor a starving thread is passed by (log 1, R27). -/
def step (s : State) : Host.Outcome State Fault Refusal :=
  match overdue s (s.cyc + 1) with
  | some x => doTimed s x
  | none => onTime s (inTurn s (takeTurn (nextTurn s).1 (nextTurn s).2))

namespace State

/-- The launch record of the placed kernel: 512 registers, one group of 8 lanes, entry 0x10000 (R319). -/
def probeWords : List Word := [0x10000, 0, 0, 0, 0, 0, 0, 0, 0x10] ++ List.replicate 23 0

/-- The state with one instruction of `nbits` bits `w`, every bit above them zero, as the next step's: a kernel loaded from
outside, its group on core 0, its code page at physical 0x10000 (log 8). -/
def withFetchWord (s : State) (nbits w : Nat) : State :=
  let t : Tid := ⟨1, 0, 0⟩
  let m := memWrite s.mem 0x10000 (leBytes 16 (w % 2 ^ nbits))
  { s with
    mem := m,
    threads := put s.threads t { pc := 0x10000 },
    groups := put s.groups 1 { gang := 0, gidx := 0, core := 0, bases := [0] },
    gangs := put s.gangs 0 { kernel := 0, idx := 0, st := .placed, groups := [1] },
    kernels := put s.kernels 0 { words := probeWords, code := m, st := .running },
    parts := put s.parts 0 { s.part 0 with mems := [(0, 0x8000000000000000)] },
    tlbs := put s.tlbs 0 [⟨0, 0, 0x10000, 0x10000, 0x105F, 0, 0⟩],
    cores := put s.cores 0 { s.core 0 with slot := [t] },
    turns := [.issue 0] }

end State

end Sys2Proof.Machine
end

