-- ==== Sys2Proof/Safety.lean ====
section
/-!
DEFINITION. What a safe state is: the memory in its canonical form, and the heartbeat the count of whole 128 cycles (R4);
and the terms the statements use: an issue that nothing turns away, what its operands read, and what it leaves.
-/
namespace Sys2Proof.Machine

/-- The invariant that every step keeps. -/
def State.Inv (s : State) : Prop := Memory.wf s.mem = true ∧ s.hbt = s.cyc / 128

/-- A step is safe where it does not stop the machine. -/
def Safe (s : State) : Prop := ∃ s', step s = .next s'

/-- The word of a live, resident thread issues in `s` and nothing turns it away before its own effect: `u` is what the word names,
its registers pass the decode checks (R75), its guard is true, no cancellation is pending, no acquire of the thread is still to return where the
word names a register (R125, R144), the latches it reads are valid, and the check bits of the words it reads agree (R288). -/
structure Issues (h : Hdr) (u : Use) (w : Who) (s : State) : Prop where
  who : s.who? = some w
  checks : useCheck w u = none
  guard : guardTrue h w.th = true
  noCancel : w.gang.cancel = none
  free : accessHeld w u s = false
  latches : latchGate w.th u = none
  sound : consumed w u s = []

/-- The source `x`, of `n` words, reads as `v` when the instruction issues. -/
def Reads (u : Use) (w : Who) (s : State) (x : Src) (n : Nat) (v : DWord) : Prop := src w (advance w u s) x n = .ok v

/-- V[i] is a word of the destination of `n` words at `d`; V[0] is in none (R41). -/
def inDst (d n i : Nat) : Bool := decide (d ≠ 0) && decide (d ≤ i) && decide (i < d + n)

/-- No word of the destination is PEND, and no access of the issuer's own through a window or a lane is on its way to one, so that it can be
written or claimed (R40, R42, R150). -/
def DstFree (w : Who) (s : State) (d n : Nat) : Prop :=
  (∀ i, inDst d n i = true → (regGet s w.t i).tag ≠ .pend) ∧ (d ≠ 0 → ownAccOn s w.t d n = false)

/-- Word `j` of a result. -/
def wordOf (v : DWord) (j : Nat) : Word := if j = 0 then loWord v else hiWord v

/-- The address `n` bytes past the issuer's instruction. -/
def nextPc (w : Who) (n : Nat) : DWord := w.th.pc + BitVec.ofNat 64 n

/-- The issuer is past the instruction, at `pc`: its issue count has moved on, its mode has not changed. -/
structure Past (w : Who) (pc : DWord) (t : State) : Prop where
  pc : (t.thread w.t).pc = pc
  iseq : (t.thread w.t).iseq = w.th.iseq + 1
  sys : (t.thread w.t).sys = w.th.sys
  wait : (t.thread w.t).wait = .none

/-- What a register instruction leaves alone: memory and every part of the machine but the threads, the account of a sibling's
issues, the cycle from which the core issues, and the count of free values; every register word but the issuer's own that `mine`
names; every other thread, but for a monitor that fires. -/
structure Rest (w : Who) (mine : Nat → Bool) (s t : State) : Prop where
  machine : t = { s with threads := t.threads, gangs := t.gangs, cores := t.cores, fresh := t.fresh }
  gangs : ∀ g, t.gang g = { s.gang g with sib := (t.gang g).sib }
  cores : ∀ c, t.core c = { s.core c with free := (t.core c).free }
  regs : ∀ x i, ¬(x = w.t ∧ mine i = true) → regGet t x i = regGet s x i
  others : ∀ x, x ≠ w.t → t.thread x = { s.thread x with monitor := (t.thread x).monitor }

/-- The result `v` of `n` words is written at issue (R42, R67): the destination's words are FULL with it, unless N suppresses the
write; the destination's latch holds it; the flags `f` are set in the float control word; nothing else has changed. -/
structure WroteNow (h : Hdr) (d : BitVec 9) (n : Nat) (pc v : DWord) (f : Flags) (w : Who) (s t : State) : Prop where
  past : Past w pc t
  dst : h.nw = false → ∀ i, inDst d.toNat n i = true → regGet t w.t i = ⟨wordOf v (i - d.toNat), .full⟩
  latch : (at_ (t.thread w.t).latches (d.toNat % 8) {}).valid = true
  latchLo : loWord (at_ (t.thread w.t).latches (d.toNat % 8) {}).val = loWord v
  latchHi : n = 2 → (at_ (t.thread w.t).latches (d.toNat % 8) {}).val = v
  preds : (t.thread w.t).preds = w.th.preds
  fcw : (t.thread w.t).fcw = w.th.fcw ||| f.setWidth 32
  rest : Rest w (fun i => !h.nw && inDst d.toNat n i) s t

/-- The instruction completes at issue with the result `v`. -/
def GivesNow (i : Instr) (h : Hdr) (d : BitVec 9) (n len : Nat) (v : DWord) (w : Who) (s : State) : Prop :=
  ∃ t, exec i s = .next t ∧ WroteNow h d n (nextPc w len) v 0 w s t

/-- The float instruction completes at issue with a result and flags (R173, R174). -/
def GivesFloat (i : Instr) (h : Hdr) (d : BitVec 9) (n : Nat) (r : Nat × Flags) (w : Who) (s : State) : Prop :=
  ∃ t, exec i s = .next t ∧ WroteNow h d n (nextPc w 8) (BitVec.ofNat 64 r.1) r.2 w s t

/-- The result `v` is on its way (R42, R174): the destination's words are claimed and the result, with the flags it will set, stands
last in the list of results; everything else is unchanged. -/
structure WillWrite (d : BitVec 9) (n len : Nat) (v : DWord) (f : Flags) (float : Bool) (w : Who) (s t : State) : Prop where
  past : Past w (nextPc w len) t
  claimed : ∀ i, inDst d.toNat n i = true → (regGet t w.t i).tag = .pend
  result : t.results = s.results ++ [⟨s.nextId, w.t, if d = 0 then [] else numbered d.toNat (wordsN n v), f, float⟩]
  latch : (at_ (t.thread w.t).latches (d.toNat % 8) {}).valid = false
  preds : (t.thread w.t).preds = w.th.preds
  fcw : (t.thread w.t).fcw = w.th.fcw
  rest : Rest w (inDst d.toNat n) { s with results := t.results, nextId := s.nextId + 1 } t

def GivesLater (i : Instr) (d : BitVec 9) (n len : Nat) (v : DWord) (f : Flags) (float : Bool) (w : Who) (s : State) : Prop :=
  ∃ t, exec i s = .next t ∧ WillWrite d n len v f float w s t

/-- The float instruction completes with its result and its flags on their way (R174). -/
def GivesFloatLater (i : Instr) (d : BitVec 9) (n : Nat) (r : Nat × Flags) (w : Who) (s : State) : Prop :=
  GivesLater i d n 8 (BitVec.ofNat 64 r.1) r.2 true w s

/-- The value of an operand of a type: signed for the .s types (R79, R84). -/
def intValue (ty : Ty) (x : DWord) : Int :=
  match ty with
  | .s32 => (loWord x).toInt
  | .s64 => x.toInt
  | .z64 => x.toNat
  | _ => (loWord x).toNat

/-- The types of the integer instructions (R79). -/
def intType (ty : Ty) : Bool :=
  match ty with
  | .s32 | .z32 | .s64 | .z64 => true
  | _ => false

/-- An exact result under SAT: clamped to the range of the type (R84). -/
def saturate (ty : Ty) (sat : Bool) (x : Int) : Int :=
  if !sat then x
  else if tySigned ty then max (-(2 ^ (tyBits ty - 1))) (min (2 ^ (tyBits ty - 1) - 1) x)
  else max 0 (min (2 ^ tyBits ty - 1) x)

/-- The instruction issues, and its destination can be written at issue. -/
def CanWrite (h : Hdr) (u : Use) (d : BitVec 9) (n : Nat) (w : Who) (s : State) : Prop :=
  Issues h u w s ∧ (h.nw = true ∨ DstFree w s d.toNat n)

/-- The instruction issues, and its destination can be claimed. -/
def CanClaim (h : Hdr) (u : Use) (d : BitVec 9) (n : Nat) (w : Who) (s : State) : Prop :=
  Issues h u w s ∧ DstFree w s d.toNat n

/-- Predicates after a write of `v` to predicate `p` (R80): p7 keeps its value. -/
def withPred (ps : BitVec 8) (p : BitVec 3) (v : Bool) (qs : BitVec 8) : Prop :=
  ∀ i, i < 8 → qs.getLsbD i = if i = p.toNat ∧ p ≠ 7 then v else ps.getLsbD i

/-- The instruction completes with no effect but on the issuer's predicates, which become ones that `new` allows. -/
def GivesPreds (i : Instr) (new : BitVec 8 → Prop) (w : Who) (s : State) : Prop :=
  ∃ t, exec i s = .next t ∧ Past w (nextPc w 8) t ∧ new (t.thread w.t).preds ∧ (t.thread w.t).fcw = w.th.fcw ∧
    (t.thread w.t).latches = w.th.latches ∧ Rest w (fun _ => false) s t

/-- The issuer is past the instruction, at `pc`, and nothing else has changed. -/
def OnlyPast (w : Who) (pc : DWord) (s t : State) : Prop :=
  Past w pc t ∧ (t.thread w.t).preds = w.th.preds ∧ (t.thread w.t).fcw = w.th.fcw ∧
    (t.thread w.t).latches = w.th.latches ∧ Rest w (fun _ => false) s t

/-- The instruction completes with no effect but to be past. -/
def GivesNothing (i : Instr) (w : Who) (s : State) : Prop := ∃ t, exec i s = .next t ∧ OnlyPast w (nextPc w 8) s t

/-- The instruction jumps. -/
def Jumps (i : Instr) (pc : DWord) (w : Who) (s : State) : Prop := ∃ t, exec i s = .next t ∧ OnlyPast w pc s t

/-- The instruction performs nothing and waits (R23). -/
def WaitsFor (i : Instr) (k : Wait) (w : Who) (s : State) : Prop :=
  exec i s = .next (s.updThread w.t (fun th => { th with st := .waiting, wait := k }))

/-- The instruction holds its thread, at its own address, until what it waits for; nothing else has changed. -/
def Holds (i : Instr) (k : Wait) (w : Who) (s : State) : Prop :=
  ∃ t, exec i s = .next t ∧ (t.thread w.t).st = .waiting ∧ (t.thread w.t).wait = k ∧ (t.thread w.t).pc = w.th.pc ∧
    (t.thread w.t).preds = w.th.preds ∧ (t.thread w.t).fcw = w.th.fcw ∧ (t.thread w.t).latches = w.th.latches ∧
    Rest w (fun _ => false) s t

/-- The instruction is turned away with a precise trap (R255): the trap is taken at its address, and it has performed nothing. -/
def TrapsWith (i : Instr) (cause : Nat) (addr : DWord) (info : Word) (w : Who) (s : State) : Prop :=
  exec i s = .next (takeTrap s w.t cause w.th.pc addr info)

/-- A trap has been delivered to the issuer (R260): cause and mode, PC, address and information stand in the handler bank, ENTRY is
1, the thread is in system mode at the handler, its latches are invalid, and no other register word has changed. -/
structure Delivered (cause : Nat) (pc addr : DWord) (info : Word) (w : Who) (s t : State) : Prop where
  cause : bankGet t w.t 31 = BitVec.ofNat 32 (cause + (if w.th.sys then 256 else 0))
  pc : bankPair t w.t 26 = pc
  addr : bankPair t w.t 28 = addr
  info : bankGet t w.t 30 = info
  mask : bankGet t w.t 23 = bankGet s w.t 23 ||| 0x80000000
  sys : (t.thread w.t).sys = true
  at_ : (t.thread w.t).pc = bankPair s w.t 24
  ready : (t.thread w.t).st = .ready
  latches : ∀ k, ((Machine.at_ (t.thread w.t).latches k {}).valid) = false
  retained : (t.thread w.t).retained = none
  preds : (t.thread w.t).preds = w.th.preds
  fcw : (t.thread w.t).fcw = w.th.fcw
  rest : Rest w (fun i => [23, 26, 27, 28, 29, 30, 31].any (fun b => i = w.k.regs + b)) s t

/-- A trap has been delivered to the thread `x` at its own address (R260). -/
structure Trapped (cause : Nat) (addr : DWord) (info : Word) (x : Tid) (s t : State) : Prop where
  cause : bankGet t x 31 = BitVec.ofNat 32 (cause + (if (s.thread x).sys then 256 else 0))
  pc : bankPair t x 26 = (s.thread x).pc
  addr : bankPair t x 28 = addr
  info : bankGet t x 30 = info
  sys : (t.thread x).sys = true
  at_ : (t.thread x).pc = bankPair s x 24
  ready : (t.thread x).st = .ready

/-- The three conditions of delivery (R260) for a cause of class `cls`. -/
def Deliverable (cls : Nat) (w : Who) (s : State) : Prop :=
  w.k.handler ≠ 0 ∧ (bankGet s w.t 23).getLsbD 31 = false ∧ (bankGet s w.t 23).getLsbD cls = false

/-- A group-collective instruction arrives, whatever its guard (R28). -/
structure Arrives (u : Use) (w : Who) (s : State) : Prop where
  who : s.who? = some w
  checks : useCheck w u = none
  noCancel : w.gang.cancel = none
  free : accessHeld w u s = false
  latches : latchGate w.th u = none
  sound : consumed w u s = []

/-- The issuer's earlier loads and atomics have returned, its window and lane accesses are complete, and its stores and reductions are
performed (R125, R135). -/
def Drained (w : Who) (s : State) : Prop :=
  (∀ l ∈ s.loads, l.tid ≠ w.t) ∧ (∀ x ∈ s.atomics, x.tid ≠ w.t) ∧ (∀ a ∈ s.accs, a.tid ≠ w.t) ∧
  (∀ e ∈ (s.group w.t.vgid).queue, e.tid ≠ w.t) ∧ (∀ r ∈ s.reds, r.tid ≠ w.t)

/-- A live thread of the issuer's layer (R28). -/
def LiveIn (w : Who) (s : State) (x : Tid) : Prop :=
  x.vgid = w.t.vgid ∧ x.layer = w.t.layer ∧ x.lane < w.k.width ∧ (s.thread x).st ≠ .exited

/-- Every other live thread of the layer waits at the collective `k` at the issuer's PC. -/
def OthersAt (k : CollKind) (w : Who) (s : State) : Prop :=
  ∀ x, LiveIn w s x → x ≠ w.t → (s.thread x).st = .waiting ∧ (∃ c, (s.thread x).wait = .coll k c) ∧ (s.thread x).pc = w.th.pc

/-- What a live thread contributes: the issuer `mine`, another what it arrived with. -/
def contribution (w : Who) (s : State) (mine : Option Bool) (x : Tid) : Option Bool :=
  if x = w.t then mine else match (s.thread x).wait with | .coll _ c => c | _ => none

/-- The thread goes on past its 8-byte instruction. -/
def GoesOn (s t : State) (x : Tid) : Prop :=
  (t.thread x).st = .ready ∧ (t.thread x).wait = .none ∧ (t.thread x).pc = (s.thread x).pc + 8

/-- The words V[i] to V[i + n - 1], each its own register, read as `ws` when the instruction issues (R45). -/
def ReadsList (u : Use) (w : Who) (s : State) (i n : Nat) (ws : List Word) : Prop := listRead w (advance w u s) i n = .ok ws

/-- V[i] is one of the `n` words at `d`, each its own register; V[0] keeps its value (R41). -/
def inList (d n i : Nat) : Bool := decide (i ≠ 0) && decide (d ≤ i) && decide (i < d + n)

/-- The words `ws` are on their way to claimed registers (R42, R174). -/
structure WillWriteList (d : BitVec 9) (ws : List Word) (f : Flags) (float : Bool) (w : Who) (s t : State) : Prop where
  past : Past w (nextPc w 8) t
  claimed : ∀ i, inList d.toNat ws.length i = true → (regGet t w.t i).tag = .pend
  result : t.results = s.results ++ [⟨s.nextId, w.t, numbered d.toNat ws, f, float⟩]
  preds : (t.thread w.t).preds = w.th.preds
  fcw : (t.thread w.t).fcw = w.th.fcw
  rest : Rest w (inList d.toNat ws.length) { s with results := t.results, nextId := s.nextId + 1 } t

def GivesList (i : Instr) (d : BitVec 9) (ws : List Word) (f : Flags) (float : Bool) (w : Who) (s : State) : Prop :=
  ∃ t, exec i s = .next t ∧ WillWriteList d ws f float w s t

/-- The instruction issues, and its `n` destination words can be claimed. -/
def CanClaimList (h : Hdr) (u : Use) (d : BitVec 9) (n : Nat) (w : Who) (s : State) : Prop :=
  Issues h u w s ∧ (∀ i, inList d.toNat n i = true → (regGet s w.t i).tag ≠ .pend) ∧ ownAccOn s w.t d.toNat n = false

/-- Nothing but what `t` names differs in memory and in the register words, but for the issuer's that `mine` names. -/
def SameWords (w : Who) (mine : Nat → Bool) (s t : State) : Prop :=
  t.mem = s.mem ∧ ∀ x i, ¬(x = w.t ∧ mine i = true) → regGet t x i = regGet s x i

/-- No access of the issuer that its later ones wait for is under way (R125, R144). -/
def NoTake (w : Who) (s : State) : Prop := acqPending s w.t = false

/-- The issuer is past the 8-byte instruction; its predicates and control word are as they were, and nothing has changed but its
register words that `mine` names and its latches. -/
structure Goes (w : Who) (mine : Nat → Bool) (s t : State) : Prop where
  past : Past w (nextPc w 8) t
  preds : (t.thread w.t).preds = w.th.preds
  fcw : (t.thread w.t).fcw = w.th.fcw
  rest : Rest w mine s t

/-- The instruction has been issued and holds its thread at its own address; nothing has changed but the issuer's register words that
`mine` names and its latches. -/
structure HeldFor (w : Who) (k : Wait) (mine : Nat → Bool) (s t : State) : Prop where
  st : (t.thread w.t).st = .waiting
  wait : (t.thread w.t).wait = k
  pc : (t.thread w.t).pc = w.th.pc
  preds : (t.thread w.t).preds = w.th.preds
  fcw : (t.thread w.t).fcw = w.th.fcw
  rest : Rest w mine s t

/-- The words of the destination are claimed (R42). -/
def Claimed (w : Who) (d n : Nat) (t : State) : Prop := ∀ i, inDst d n i = true → (regGet t w.t i).tag = .pend

/-- The words of the destination are FULL with `v` (R40). -/
def HoldsNow (w : Who) (d n : Nat) (v : DWord) (t : State) : Prop :=
  ∀ i, inDst d n i = true → regGet t w.t i = ⟨wordOf v (i - d), .full⟩

/-- The issuer's operand of `n` words at V[i] has `v`, none of its words PEND or POISON, and no access of its own on its way to one; v0 is 0
(R40, R41, R79, R150). -/
def OwnValue (w : Who) (s : State) (i n : Nat) (v : DWord) : Prop :=
  (i ≠ 0 → ownAccOn s w.t i n = false) ∧
  (∀ j, inDst i n j = true → (regGet s w.t j).tag ≠ .pend ∧ (regGet s w.t j).tag ≠ .poison) ∧
  loWord v = (if i = 0 then 0 else (regGet s w.t i).val) ∧ hiWord v = (if i = 0 ∨ n ≠ 2 then 0 else (regGet s w.t (i + 1)).val)

/-- Every word of the issuer's operand at V[i] has the tag `g`. -/
def AllTagged (w : Who) (s : State) (i n : Nat) (g : Tag) : Prop := ∀ j, inDst i n j = true → (regGet s w.t j).tag = g

/-- What the value operand of a store gives: `k` words (R123, R124). -/
def StoreWords (u : Use) (w : Who) (s : State) (b : Src) (k : Nat) (ws : List Word) : Prop :=
  match b with
  | .reg i => regRead w (advance w u s) i.toNat k = .ok ws
  | _ => k ≤ 2 ∧ ∃ v, Reads u w s b k v ∧ ws = wordsN k v

/-- The byte addresses of runs of bytes, in order. -/
def bytesAt (ps : List (Nat × Nat)) : List Nat := ps.flatMap (fun p => (List.range p.2).map (fun j => p.1 + j))

/-- Pieces of an access: runs of at most 4 bytes that cross no multiple of 4, or the whole runs (R123). -/
def PiecesFit (whole : Bool) (ps qs : List (Nat × Nat)) : Prop :=
  bytesAt qs = bytesAt ps ∧ (whole = true → qs = ps) ∧ (whole = false → ∀ q ∈ qs, q.2 ≠ 0 ∧ q.1 % 4 + q.2 ≤ 4)

/-- The barrier object `x` after a change, where `k` arrivals are deferred: if nothing is outstanding, the next generation, in which the
deferred arrivals count; so many of them may complete further ones (R131). -/
def nextGen (k : Nat) (x : BarObj) : BarObj :=
  if x.pending = 0 ∧ x.inbound = 0 ∧ x.outbound = 0 then
    { x with gen := (x.gen + 1 + k / x.expected) % 16, pending := x.expected - k % x.expected }
  else x

/-- A barrier object that a barrier instruction of the issuer reaches at V[i] of the resident thread `o`: it has an entry, its words are
whole, its fields fit, and each thread whose arrival is deferred there is listed once (R127 to R132). -/
structure ObjectAt (s : State) (o : Tid) (i : Nat) (x : BarObj) : Prop where
  entry : ∃ e ∈ s.barriers, e.owner = o ∧ e.reg = i
  place : 4 ≤ i ∧ (s.group o.vgid).saved = none
  words : ∀ j, j < 4 → (regGet s o (i + j)).tag ≠ .pend ∧ (regGet s o (i + j)).tag ≠ .poison
  sound : ∀ j, j < 4 → eccAt s o (i + j) 1 = []
  once : (deferred s o i).Nodup
  fields : barGet s o i = x
  fits : x.expected ≠ 0 ∧ x.pending ≤ x.expected

/-- Where the issuer waits for a window word, none has ended with a fault (R46, R54). -/
def NoProbe (w : Who) (s : State) : Prop := w.th.wait = .window → ∀ q ∈ s.accs, q.kind = .probe → q.tid = w.t → q.ended = none

/-- No word but v0 is in both lists (R245). -/
def Apart (xs ys : List (Tid × Nat)) : Prop := ∀ p ∈ xs, p.2 ≠ 0 → p ∉ ys

/-- A copy request can be accepted (R246): no word to claim and no word of the promise pair is PEND or has an access on its way that must come
first (R150), and the cluster's engine holds fewer than 256 live requests. -/
def CanAccept (w : Who) (claimed : List (Tid × Nat)) (pp : Nat) (s : State) : Prop :=
  (∀ p ∈ claimed ++ pairWords w.t pp, (regGet s p.1 p.2).tag ≠ .pend ∧ accOnWord s w.t p.1 p.2 = false) ∧
  ((s.cluster (w.g.core / 24)).ce.filter (fun r => r.st.live)).length < 256

/-- The request `k` of the issuer has been accepted (R228, R235, R246): it stands last in its cluster's list with the next sequence
number, its words are claimed, its promise pair is written and linked; nothing else has changed in memory and in the register words
beyond what the state `m` shows. -/
structure Accepts (w : Who) (claimed : List (Tid × Nat)) (pp len : Nat) (s m t : State) (k : CeReq) : Prop where
  past : Past w (nextPc w len) t
  queue : (t.cluster (w.g.core / 24)).ce = (s.cluster (w.g.core / 24)).ce ++ [k]
  seq : k.seq = (s.cluster (w.g.core / 24)).ceSeq ∧ (t.cluster (w.g.core / 24)).ceSeq = (s.cluster (w.g.core / 24)).ceSeq + 1
  clusters : ∀ z, z ≠ w.g.core / 24 → t.cluster z = s.cluster z
  accepted : k.st = .accepted ∧ k.tid = w.t ∧ k.asid = w.k.asid ∧ k.part = w.k.part ∧ k.world = w.k.world
  promise : pp ≠ 0 → (∀ j, j < 2 → (regGet t w.t (pp + j)).tag = .full) ∧ ⟨pp, w.g.core / 24, k.seq⟩ ∈ (t.thread w.t).links
  pend : ∀ p ∈ claimed, p.2 ≠ 0 → (regGet t p.1 p.2).tag = .pend
  mem : t.mem = m.mem
  regs : ∀ q i, (q, i) ∉ claimed → ¬(q = w.t ∧ inDst pp 2 i = true) → regGet t q i = regGet m q i

/-- No cut is under way in any partition, so that a write writes its own bytes alone (R430). -/
def NoCut (s : State) : Prop := ∀ p ∈ s.parts, p.2.cut = none

/-- Between the states `m` and `t`, the `n` bytes at the physical address `pa` have been written with the number `v`, and no other byte of
memory has changed. -/
def WroteAt (m t : State) (pa n v : Nat) : Prop :=
  (Memory.wf m.mem = true → ofBytes (physRead t pa n) = v % 256 ^ n) ∧ ∀ a, (∀ j, j < n → a ≠ canon m (pa + j)) → memGet t.mem a = memGet m.mem a

/-- A destination of `n` words is claimed and the result `v` is on its way, last in the list (R42). -/
def Sends (w : Who) (d : BitVec 9) (n : Nat) (v : DWord) (s t : State) : Prop :=
  Claimed w d.toNat n t ∧ ∃ id, t.results = s.results ++ [⟨id, w.t, if d = 0 then [] else numbered d.toNat (wordsN n v), 0, false⟩]

/-- `s` with the parts that a write to device memory, a translation, an estate change and a result on its way can change, as in `t`. -/
def estateBase (s t : State) : State :=
  { s with
    mem := t.mem, gran := t.gran, host := t.host, tlbs := t.tlbs, estate := t.estate, groups := t.groups, holdq := t.holdq,
    results := t.results, nextId := t.nextId, fresh := t.fresh }

/-- The 8-byte word at `va` translates to `pa` in the state `m`, and the issuer's earlier accesses that must come first are done (R402, R150,
R152). -/
def WordAt (u : Use) (w : Who) (s : State) (va : Nat) (need : Need) (pa : Nat) (m : State) : Prop :=
  va % 8 = 0 ∧ translate (advance w u s) w.ctx va need (some .g) = .ok (pa, m) ∧ ownPendingW w m pa 8 = false

/-- The entry `e` is the issuer's holding at the word, of kind `k`, and its word matches it (R387, R402). -/
def HoldingAt (w : Who) (m : State) (pa : Nat) (k : EstKind) (e : Est) : Prop :=
  estAt m pa = some e ∧ e.kind = k ∧ e.mine w = true ∧ stray m e = false

/-- The words at `d`, each its own register, are claimed and `ws` are on their way, last in the list (R42). -/
def SendsList (w : Who) (d : BitVec 9) (ws : List Word) (s t : State) : Prop :=
  (∀ i, inList d.toNat ws.length i = true → (regGet t w.t i).tag = .pend) ∧
  ∃ id, t.results = s.results ++ [⟨id, w.t, numbered d.toNat ws, 0, false⟩]

/-- The result of a half of a pair word on its operands (R73, R74), a float half's with its flags in the thread's default modes. -/
def halfResult (op : PairOp) (ty : Ty) (th : Thread) (x y : Word) : Word × Flags :=
  let f := fmtOfTy ty
  let fl (r : Nat × Flags) : Word × Flags := (BitVec.ofNat 32 r.1, r.2)
  let le := if tySigned ty then decide (x.toInt ≤ y.toInt) else decide (x.toNat ≤ y.toNat)
  match op with
  | .mov | .movi => (y, 0)
  | .iadd | .iaddImm => (x + y, 0)
  | .isub => (x - y, 0)
  | .imul => (x * y, 0)
  | .imin => (if le then x else y, 0)
  | .imax => (if le then y else x, 0)
  | .and | .andImm => (x &&& y, 0)
  | .or => (x ||| y, 0)
  | .xor => (x ^^^ y, 0)
  | .shl | .shlImm => (BitVec.ofNat 32 (if 32 ≤ y.toNat then 0 else x.toNat * 2 ^ y.toNat), 0)
  | .shr | .shrImm => (BitVec.ofNat 32 (if 32 ≤ y.toNat then 0 else x.toNat / 2 ^ y.toNat), 0)
  | .sar | .sarImm => (BitVec.ofInt 32 (if 32 ≤ y.toNat then (if x.toInt < 0 then -1 else 0) else x.toInt / 2 ^ y.toNat), 0)
  | .rot | .rotImm => (BitVec.ofNat 32 (x.toNat * 2 ^ (y.toNat % 32) + x.toNat / 2 ^ (32 - y.toNat % 32)), 0)
  | .fadd => fl (fAdd f (roundOf th .dflt) (ftzOf th false) x.toNat y.toNat)
  | .fsub => fl (fSub f (roundOf th .dflt) (ftzOf th false) x.toNat y.toNat)
  | .fmul => fl (fMul f (roundOf th .dflt) (ftzOf th false) x.toNat y.toNat)
  | .fmin => fl (fMinMax f false false (ftzOf th false) x.toNat y.toNat)
  | .fmax => fl (fMinMax f true false (ftzOf th false) x.toNat y.toNat)

/-- The register words of resident groups that `mine` does not name are as they were. -/
def KeepsRegs (mine : Tid → Nat → Bool) (s t : State) : Prop :=
  ∀ x i, (s.group x.vgid).saved = none → mine x i = false → regGet t x i = regGet s x i

/-- Every thread but those that `mine` names is as it was, but for a monitor that fires. -/
def KeepsThreads (mine : Tid → Bool) (s t : State) : Prop :=
  ∀ x, mine x = false → t.thread x = { s.thread x with monitor := (t.thread x).monitor }

/-- Of the accesses under way nothing has changed but that later ones may have passed them (R152, log 86). -/
def OnlyPassed (s t : State) : Prop :=
  t.loads.map (fun x => { x with overtaken := false }) = s.loads.map (fun x => { x with overtaken := false }) ∧
  t.atomics.map (fun x => { x with overtaken := false }) = s.atomics.map (fun x => { x with overtaken := false }) ∧
  t.accs.map (fun x => { x with overtaken := false }) = s.accs.map (fun x => { x with overtaken := false })

/-- A word that was claimed has its value (R40): it is FULL with it. -/
def Arrived (s t : State) (x : Tid) (i : Nat) (v : Word) : Prop := i ≠ 0 → (regGet s x i).tag = .pend → regGet t x i = ⟨v, .full⟩

/-- A word of a claim has been lost (R40, R44): it is POISON with the record. -/
def Lost (s t : State) (x : Tid) (i : Nat) (r : Word) : Prop := i ≠ 0 → (regGet s x i).tag = .pend → regGet t x i = ⟨r, .poison⟩

end Sys2Proof.Machine
end

