-- ==== Sys2Proof/WellFormed.lean ====
section
/-!
DEFINITION. Well-formed instructions: the operand values that the encoding tables admit (R59 to R64, R67, R70,
R72, R74, R83, R111, R204, R244, R297, R336, R348, R367, R400). An event is always well formed.
-/
namespace Sys2Proof

/-- A source that is no immediate. -/
def Src.noImm : Src → Bool
  | .imm _ => false
  | _ => true

/-- A source that RETAIN may name: a register read as a register (R70). -/
def Src.isRegSrc : Src → Bool
  | .reg _ => true
  | _ => false

/-- N only where it is allowed; RETAIN only on a listed register source. -/
def Hdr.ok (h : Hdr) (nwOk : Bool) (srcs : List (Retain × Src)) : Bool :=
  (!h.nw || nwOk) && (h.retain == .none || srcs.any (fun p => p.1 == h.retain && p.2.isRegSrc))

/-- The types a 64-bit operand takes (R61). -/
def Ty.isWide : Ty → Bool
  | .s64 | .z64 | .f64 => true
  | _ => false

def Ty.isFloat : Ty → Bool
  | .f64 | .f32 | .f16 | .bf16 => true
  | _ => false

/-- ATOM against type and value register (R111). -/
def atomFits (ty : Ty) (am : Atomicity) (valueReg : Src) : Bool :=
  match am with
  | .word => true
  | .a8 => ty.isWide
  | .a16 => ty.isWide && (match valueReg with | .reg i => i.toNat % 4 == 0 | _ => false)

def PsetOp.ok (h : Hdr) : PsetOp → Bool
  | .and _ _ _ | .or _ _ _ | .xor _ _ _ | .andn _ _ _ => h.ok false []
  | .nz _ a | .load a => h.ok false [(.a, a)] && a.noImm
  | .save _ => h.ok true []

def VoteOp.ok (h : Hdr) : VoteOp → Bool
  | .any _ | .all _ | .uni _ => h.ok false []
  | .ballot _ => h.ok true []

def FstatOp.ok (h : Hdr) : FstatOp → Bool
  | .read => h.ok true []
  | .clr b | .set b => h.ok true [(.b, b)]

def NcvtOp.ok (h : Hdr) : NcvtOp → Bool
  | .up a => h.ok false [(.a, a)] && a.noImm
  | .dn _ _ a => h.ok true [(.a, a)] && a.noImm

def MarmOp.ok (h : Hdr) : MarmOp → Bool
  | .g a => h.ok false [(.a, a)] && a.noImm
  | .w a b => h.ok false [(.a, a), (.b, b)] && a.noImm && b.noImm

def CopyReg.srcs : CopyReg → List (Retain × Src)
  | .own _ => []
  | .win a => [(.a, a)]
def CopyReg.ok : CopyReg → Bool
  | .own _ => true
  | .win a => a.noImm

/-- A family constant of R204: the slot is 0 unless the type is .c4. -/
def famOk (fam : Ty) (slot : BitVec 2) : Bool :=
  [Ty.f16, .bf16, .e4m3, .e5m2, .i8].contains fam && slot == 0 || fam == .c4

/-- A pair word: types listed, banks apart, shift counts in range (R72, R74). -/
def pairOk (op : PairOp) (a : Half) (b : PairHalf) : Bool :=
  op.types.contains a.ty.code && b.op.types.contains b.half.ty.code && banksOk ⟨op, a⟩ b
  && (PairHalf.mk op a).immOk && b.immOk

def Instr.wf : Instr → Bool
  | .nop h => h.ok false []
  | .bra h _ => h.ok false []
  | .brx h ty a b => h.ok false [(.a, a), (.b, b)] && [Ty.z64].contains ty && a.noImm && b.noImm
  | .call h _ => h.ok false []
  | .callx h _ _ => h.ok true []
  | .ret h ty a => h.ok false [(.a, a)] && [Ty.z64].contains ty && a.noImm
  | .exit h => h.ok false []
  | .yield h => h.ok false []
  | .sleep h a => h.ok false [(.a, a)]
  | .sleepP h a => h.ok false [(.a, a)] && a.noImm
  | .cancp h => h.ok false []
  | .trap h b => h.ok false [(.b, b)]
  | .tret h => h.ok false []
  | .tfence h => h.ok false []
  | .iadd h ty _ _ a b => h.ok true [(.a, a), (.b, b)] && [Ty.s32, .z32, .s64, .z64].contains ty && a.noImm
  | .isub h ty _ _ a b => h.ok true [(.a, a), (.b, b)] && [Ty.s32, .z32, .s64, .z64].contains ty && a.noImm
  | .imul h ty _ _ a b => h.ok (!ty.isWide) [(.a, a), (.b, b)] && [Ty.s32, .z32, .s64, .z64].contains ty && a.noImm
  | .imad h ty _ _ a b c => h.ok (!ty.isWide) [(.a, a), (.b, b), (.c, c)] && [Ty.s32, .z32, .s64, .z64].contains ty && a.noImm && b.noImm && c.noImm
  | .idiv h ty _ _ a b => h.ok false [(.a, a), (.b, b)] && [Ty.s32, .z32, .s64, .z64].contains ty && a.noImm
  | .iabs h ty _ _ a => h.ok true [(.a, a)] && [Ty.s32, .s64].contains ty && a.noImm
  | .imin h ty _ a b => h.ok true [(.a, a), (.b, b)] && [Ty.s32, .z32, .s64, .z64].contains ty && a.noImm
  | .imax h ty _ a b => h.ok true [(.a, a), (.b, b)] && [Ty.s32, .z32, .s64, .z64].contains ty && a.noImm
  | .and h ty _ _ a b => h.ok true [(.a, a), (.b, b)] && [Ty.s32, .z32, .s64, .z64].contains ty && a.noImm
  | .or h ty _ _ a b => h.ok true [(.a, a), (.b, b)] && [Ty.s32, .z32, .s64, .z64].contains ty && a.noImm
  | .xor h ty _ _ a b => h.ok true [(.a, a), (.b, b)] && [Ty.s32, .z32, .s64, .z64].contains ty && a.noImm
  | .shl h ty _ a b => h.ok true [(.a, a), (.b, b)] && [Ty.z32, .z64].contains ty && a.noImm
  | .shr h ty _ a b => h.ok true [(.a, a), (.b, b)] && [Ty.z32, .z64].contains ty && a.noImm
  | .sar h ty _ a b => h.ok true [(.a, a), (.b, b)] && [Ty.s32, .s64].contains ty && a.noImm
  | .rot h ty _ a b => h.ok true [(.a, a), (.b, b)] && [Ty.z32, .z64].contains ty && a.noImm
  | .bfe h ty _ a b => h.ok true [(.a, a), (.b, b)] && [Ty.s32, .z32, .s64, .z64].contains ty && a.noImm
  | .bfi h ty _ a b c => h.ok true [(.a, a), (.b, b), (.c, c)] && [Ty.z32, .z64].contains ty && a.noImm && b.noImm && c.noImm
  | .popc h ty _ a => h.ok true [(.a, a)] && [Ty.z32, .z64].contains ty && a.noImm
  | .clz h ty _ a => h.ok true [(.a, a)] && [Ty.z32, .z64].contains ty && a.noImm
  | .brev h ty _ a => h.ok true [(.a, a)] && [Ty.z32, .z64].contains ty && a.noImm
  | .prmt h ty _ a b c => h.ok true [(.a, a), (.b, b), (.c, c)] && [Ty.z32].contains ty && a.noImm && b.noImm && c.noImm
  | .isel h ty _ _ _ a b => h.ok true [(.a, a), (.b, b)] && [Ty.s32, .z32, .s64, .z64].contains ty && a.noImm
  | .icmp h ty _ _ a b => h.ok false [(.a, a), (.b, b)] && [Ty.s32, .z32, .s64, .z64].contains ty && a.noImm
  | .pset h op => op.ok h
  | .vote h op _ => op.ok h
  | .mov h ty _ a => h.ok true [(.a, a)] && [Ty.s32, .z32, .f32, .f16, .bf16, .s64, .z64, .f64].contains ty
  | .movi h ty _ _ => h.ok true [] && [Ty.s32, .z32, .f32, .f16, .bf16, .s64, .z64, .f64].contains ty
  | .sreg h ty _ _ => h.ok true [] && [Ty.z32, .z64].contains ty
  | .lea h ty _ _ a b => h.ok true [(.a, a), (.b, b)] && [Ty.s32, .z32, .s64, .z64].contains ty && a.noImm
  | .fadd h ty _ _ _ a b => h.ok true [(.a, a), (.b, b)] && [Ty.f32, .f64, .f16, .bf16].contains ty && a.noImm && b.noImm
  | .fsub h ty _ _ _ a b => h.ok true [(.a, a), (.b, b)] && [Ty.f32, .f64, .f16, .bf16].contains ty && a.noImm && b.noImm
  | .fmul h ty _ _ _ a b => h.ok true [(.a, a), (.b, b)] && [Ty.f32, .f64, .f16, .bf16].contains ty && a.noImm && b.noImm
  | .ffma h ty _ _ _ a b c => h.ok true [(.a, a), (.b, b), (.c, c)] && [Ty.f32, .f64, .f16, .bf16].contains ty && a.noImm && b.noImm && c.noImm
  | .fmin h ty _ _ _ a b => h.ok true [(.a, a), (.b, b)] && [Ty.f32, .f64, .f16, .bf16].contains ty && a.noImm && b.noImm
  | .fmax h ty _ _ _ a b => h.ok true [(.a, a), (.b, b)] && [Ty.f32, .f64, .f16, .bf16].contains ty && a.noImm && b.noImm
  | .fcmp h ty _ _ _ a b => h.ok false [(.a, a), (.b, b)] && [Ty.f32, .f64, .f16, .bf16].contains ty && a.noImm && b.noImm
  | .fclass h ty _ _ a => h.ok true [(.a, a)] && [Ty.f32, .f64, .f16, .bf16].contains ty && a.noImm
  | .fdiv h ty _ _ _ a b => h.ok false [(.a, a), (.b, b)] && [Ty.f32, .f64].contains ty && a.noImm && b.noImm
  | .fsqrt h ty _ _ _ a => h.ok false [(.a, a)] && [Ty.f32, .f64].contains ty && a.noImm
  | .frcp h ty _ _ a => h.ok false [(.a, a)] && [Ty.f32, .f64].contains ty && a.noImm
  | .frsq h ty _ _ a => h.ok false [(.a, a)] && [Ty.f32, .f64].contains ty && a.noImm
  | .fexp2 h ty _ _ a => h.ok false [(.a, a)] && [Ty.f32].contains ty && a.noImm
  | .flog2 h ty _ _ a => h.ok false [(.a, a)] && [Ty.f32].contains ty && a.noImm
  | .fsin h ty _ _ a => h.ok false [(.a, a)] && [Ty.f32].contains ty && a.noImm
  | .fcos h ty _ _ a => h.ok false [(.a, a)] && [Ty.f32].contains ty && a.noImm
  | .frnd h ty _ _ _ a => h.ok true [(.a, a)] && [Ty.f32, .f64, .f16, .bf16].contains ty && a.noImm
  | .fscale h ty _ _ _ a b => h.ok true [(.a, a), (.b, b)] && [Ty.f32, .f64, .f16, .bf16].contains ty && a.noImm
  | .fxtr h ty _ _ _ a => h.ok true [(.a, a)] && [Ty.f32, .f64, .f16, .bf16].contains ty && a.noImm
  | .fcvt h ty _ _ _ _ a sty => h.ok true [(.a, a)] && [Ty.f32, .f64, .f16, .bf16].contains ty && a.noImm && [Ty.f32, Ty.f64, Ty.f16, Ty.bf16].contains sty && sty != ty
  | .f2i h ty _ _ _ a sty => h.ok true [(.a, a)] && [Ty.s32, .z32, .s64, .z64].contains ty && a.noImm && [Ty.f32, Ty.f64, Ty.f16, Ty.bf16].contains sty
  | .i2f h ty _ _ a sty => h.ok true [(.a, a)] && [Ty.f32, .f64, .f16, .bf16].contains ty && a.noImm && [Ty.s32, Ty.z32, Ty.s64, Ty.z64].contains sty
  | .fdot2 h ty _ _ _ a b c => h.ok true [(.a, a), (.b, b), (.c, c)] && [Ty.bf16, .f16].contains ty && a.noImm && b.noImm && c.noImm
  | .fstat h op _ => op.ok h
  | .fmode h b => h.ok false [(.b, b)]
  | .dbdec h ty _ _ _ b fam slot => h.ok false [(.b, b)] && [Ty.f32, .bf16].contains ty && b.noImm && famOk fam slot
  | .dbenc h _ _ _ _ b => h.ok false [(.b, b)] && b.noImm
  | .cbld h _ _ => h.ok false []
  | .cbread h _ _ b => h.ok true [(.b, b)]
  | .ncvt h ty op _ => op.ok h && [Ty.e4m3, .e5m2, .i8].contains ty
  | .bsum h ty _ _ fam slot => h.ok false [] && [Ty.f32].contains ty && famOk fam slot
  | .mtask h _ _ => h.ok true []
  | .mtwait h _ a => h.ok true [(.a, a)] && a.noImm
  | .mtqry h _ _ a => h.ok false [(.a, a)] && a.noImm
  | .mdrain h a b => h.ok false [(.a, a), (.b, b)] && a.noImm && b.noImm
  | .mfill h a b => h.ok false [(.a, a), (.b, b)] && a.noImm && b.noImm
  | .mfreeze h a => h.ok false [(.a, a)] && a.noImm
  | .mthaw h a => h.ok false [(.a, a)] && a.noImm
  | .rdx h ty _ _ b => h.ok true [(.b, b)] && [Ty.z32, .z64].contains ty && b.noImm
  | .wrx h ty _ a b => h.ok false [(.a, a), (.b, b)] && [Ty.z32, .z64].contains ty && a.noImm && b.noImm
  | .take h ty _ _ => h.ok true [] && [Ty.z32, .z64].contains ty
  | .give h ty _ a => h.ok false [(.a, a)] && [Ty.z32, .z64].contains ty && a.noImm
  | .tagset h _ _ b => h.ok false [(.b, b)]
  | .tagq h _ _ n => h.ok true [] && decide (1 ≤ n.toNat) && decide (n.toNat ≤ 16)
  | .wexp h rights _ _ _ b => h.ok false [(.b, b)] && (rights.r || rights.w || rights.t || rights.g)
  | .wrev h a => h.ok false [(.a, a)] && a.noImm
  | .wld h ty _ a b => h.ok false [(.a, a), (.b, b)] && [Ty.z32, .z64].contains ty && a.noImm
  | .wst h ty a b c => h.ok false [(.a, a), (.b, b), (.c, c)] && [Ty.z32, .z64].contains ty && a.noImm && b.noImm && c.noImm
  | .wtake h ty _ a b => h.ok false [(.a, a), (.b, b)] && [Ty.z32, .z64].contains ty && a.noImm
  | .wgive h ty a b c => h.ok false [(.a, a), (.b, b), (.c, c)] && [Ty.z32, .z64].contains ty && a.noImm && b.noImm && c.noImm
  | .lnrd h ty _ a _ => h.ok false [(.a, a)] && [Ty.z32, .z64].contains ty && a.noImm
  | .lnwr h ty _ a b => h.ok false [(.a, a), (.b, b)] && [Ty.z32, .z64].contains ty && a.noImm && b.noImm
  | .mcast h ty _ a b c => h.ok false [(.a, a), (.b, b), (.c, c)] && [Ty.z32].contains ty && a.noImm && b.noImm && c.noImm
  | .ldg h ty _ am d a => h.ok false [(.a, a)] && [Ty.s32, .z32, .f32, .s64, .z64, .f64, .i8, .f16, .bf16].contains ty && a.noImm && atomFits ty am (.reg d)
  | .ldf h ty _ am d a => h.ok false [(.a, a)] && [Ty.s32, .z32, .f32, .s64, .z64, .f64, .i8, .f16, .bf16].contains ty && a.noImm && atomFits ty am (.reg d)
  | .ldh h ty _ am d a => h.ok false [(.a, a)] && [Ty.s32, .z32, .f32, .s64, .z64, .f64, .i8, .f16, .bf16].contains ty && a.noImm && atomFits ty am (.reg d)
  | .stg h ty _ am a b => h.ok false [(.a, a), (.b, b)] && [Ty.s32, .z32, .f32, .s64, .z64, .f64, .i8, .f16, .bf16].contains ty && a.noImm && b.noImm && atomFits ty am b
  | .stf h ty _ am a b => h.ok false [(.a, a), (.b, b)] && [Ty.s32, .z32, .f32, .s64, .z64, .f64, .i8, .f16, .bf16].contains ty && a.noImm && b.noImm && atomFits ty am b
  | .sth h ty _ am a b => h.ok false [(.a, a), (.b, b)] && [Ty.s32, .z32, .f32, .s64, .z64, .f64, .i8, .f16, .bf16].contains ty && a.noImm && b.noImm && atomFits ty am b
  | .waitq h _ b => h.ok false [(.b, b)]
  | .binit h sc _ b => h.ok false [(.b, b)] && [Scope.core, Scope.gang].contains sc
  | .barr h _ a b => h.ok true [(.a, a), (.b, b)] && a.noImm && b.noImm
  | .barrGrp h => h.ok false []
  | .bwait h a b c => h.ok false [(.a, a), (.b, b), (.c, c)] && a.noImm && b.noImm && c.noImm
  | .bxfer h _ a b c => h.ok false [(.a, a), (.b, b), (.c, c)] && a.noImm && b.noImm && c.noImm
  | .fence h _ _ => h.ok false []
  | .fencesc h => h.ok false []
  | .marm h op => op.ok h
  | .mwait h _ b => h.ok true [(.b, b)]
  | .wbar h sc => h.ok false [] && [Scope.troupe, Scope.company, Scope.house].contains sc
  | .hbwait h b => h.ok false [(.b, b)]
  | .atom h ty _ _ a b op => h.ok false [(.a, a), (.b, b)] && [Ty.s32, .z32, .s64, .z64].contains ty && a.noImm && b.noImm && decide (op.code < 7)
  | .acas h ty _ _ a b c => h.ok false [(.a, a), (.b, b), (.c, c)] && [Ty.s32, .z32, .s64, .z64].contains ty && a.noImm && b.noImm && c.noImm
  | .red h ty _ a b op => h.ok false [(.a, a), (.b, b)] && [Ty.s32, .z32, .s64, .z64, .f32, .f64].contains ty && a.noImm && b.noImm && decide (op.code < 7) && (!ty.isFloat || decide (op.code < 3))
  | .vatom h ty _ _ a _ op _ => h.ok true [(.a, a)] && [Ty.s32, .z32].contains ty && a.noImm && decide (op.code < 7)
  | .fatom h ty _ _ a b op => h.ok false [(.a, a), (.b, b)] && [Ty.f32, .f64].contains ty && a.noImm && b.noImm && decide (op.code < 3)
  | .atomw h ty _ _ a b c => h.ok false [(.a, a), (.b, b), (.c, c)] && [Ty.s32, .z32].contains ty && a.noImm && b.noImm && c.noImm
  | .acopy h _ _ _ r b _ => h.ok true (r.srcs ++ [(.b, b)]) && r.ok && b.noImm
  | .awrite h _ _ _ r b c => h.ok true (r.srcs ++ [(.b, b), (.c, c)]) && r.ok && b.noImm && c.noImm
  | .bcopy h _ _ a _ _ _ => h.ok true [(.a, a)] && a.noImm
  | .bstore h _ _ a _ c _ => h.ok true [(.a, a), (.c, c)] && a.noImm && c.noImm
  | .acq h _ _ a => h.ok true [(.a, a)] && a.noImm
  | .publish h a => h.ok false [(.a, a)] && a.noImm
  | .wopen h _ a _ => h.ok true [(.a, a)] && a.noImm
  | .launch h _ _ _ => h.ok false []
  | .qpush h a _ => h.ok false [(.a, a)] && a.noImm
  | .qpop h _ _ => h.ok false []
  | .qpopH h _ _ => h.ok false []
  | .qdepth h _ => h.ok false []
  | .qsteal h _ => h.ok false []
  | .lwait h _ a => h.ok true [(.a, a)] && a.noImm
  | .hold h _ _ a => h.ok false [(.a, a)] && a.noImm
  | .hfree h a => h.ok false [(.a, a)] && a.noImm
  | .hfreeTask h a => h.ok false [(.a, a)] && a.noImm
  | .heir h a b => h.ok false [(.a, a), (.b, b)] && a.noImm && b.noImm
  | .hconvey h _ a => h.ok false [(.a, a)] && a.noImm
  | .hconveyAll h _ => h.ok false []
  | .prom h _ a => h.ok false [(.a, a)] && a.noImm
  | .keep h ty a b => h.ok false [(.a, a), (.b, b)] && [Ty.z32, .z64].contains ty && a.noImm && b.noImm
  | .pwait h _ a => h.ok false [(.a, a)] && a.noImm
  | .estq h _ a => h.ok false [(.a, a)] && a.noImm
  | .estqRec h _ a => h.ok false [(.a, a)] && a.noImm
  | .sibpost h _ a => h.ok false [(.a, a)] && a.noImm
  | .sibq h _ => h.ok false []
  | .sibwait h _ => h.ok false []
  | .sibacct h _ => h.ok false []
  | .kvcopy h _ _ _ b _ => h.ok false [(.b, b)] && b.noImm
  | .pgalloc h _ _ => h.ok true []
  | .pgfree h _ _ a => h.ok true [(.a, a)] && a.noImm
  | .pgref h _ _ a => h.ok true [(.a, a)] && a.noImm
  | .tierin h _ _ b _ => h.ok false [(.b, b)] && b.noImm
  | .tierq h _ b c => h.ok false [(.b, b), (.c, c)] && b.noImm && c.noImm
  | .invr h a b c => h.ok false [(.a, a), (.b, b), (.c, c)] && a.noImm && b.noImm && c.noImm
  | .invwait h => h.ok false []
  | .srd h ty _ _ => h.ok false [] && [Ty.z32, .z64].contains ty
  | .srdLogPop h ty _ _ => h.ok false [] && [Ty.z32, .z64].contains ty
  | .swr h ty reg b => h.ok false [(.b, b)] && [Ty.z32, .z64].contains ty && b.noImm && reg != .mgnInj
  | .swrLogClear h ty _ b => h.ok false [(.b, b)] && [Ty.z32, .z64].contains ty && b.noImm
  | .swrMgnInj h ty b => h.ok false [(.b, b)] && [Ty.z32, .z64].contains ty && b.noImm
  | .syscall h b => h.ok false [(.b, b)]
  | .halt h b => h.ok false [(.b, b)]
  | .quar h a => h.ok false [(.a, a)] && a.noImm
  | .ckcut h _ a => h.ok false [(.a, a)] && a.noImm
  | .ckwait h _ a => h.ok true [(.a, a)] && a.noImm
  | .evpop h _ => h.ok false []
  | .evwait h _ b => h.ok true [(.b, b)]
  | .csave h _ _ a b c => h.ok true [(.a, a), (.b, b), (.c, c)] && a.noImm && b.noImm && c.noImm
  | .pairMov a b => pairOk .mov a b
  | .pairIadd a b => pairOk .iadd a b
  | .pairIsub a b => pairOk .isub a b
  | .pairImul a b => pairOk .imul a b
  | .pairImin a b => pairOk .imin a b
  | .pairImax a b => pairOk .imax a b
  | .pairAnd a b => pairOk .and a b
  | .pairOr a b => pairOk .or a b
  | .pairXor a b => pairOk .xor a b
  | .pairShl a b => pairOk .shl a b
  | .pairShr a b => pairOk .shr a b
  | .pairSar a b => pairOk .sar a b
  | .pairRot a b => pairOk .rot a b
  | .pairFadd a b => pairOk .fadd a b
  | .pairFsub a b => pairOk .fsub a b
  | .pairFmul a b => pairOk .fmul a b
  | .pairFmin a b => pairOk .fmin a b
  | .pairFmax a b => pairOk .fmax a b
  | .pairMovi a b => pairOk .movi a b
  | .pairIaddImm a b => pairOk .iaddImm a b
  | .pairAndImm a b => pairOk .andImm a b
  | .pairShlImm a b => pairOk .shlImm a b
  | .pairShrImm a b => pairOk .shrImm a b
  | .pairSarImm a b => pairOk .sarImm a b
  | .pairRotImm a b => pairOk .rotImm a b
  | .loadArrival _ => true
  | .storePerformed _ => true
  | .sleepWake _ => true
  | .mwaitTimeout _ => true
  | .evwaitTimeout _ => true
  | .windowWaitTimeout _ => true
  | .windowAccessComplete _ => true
  | .wrevDrainEnd _ => true
  | .gangRelaunch _ => true
  | .groupRetire _ => true
  | .kernelComplete _ => true
  | .phaseStart _ _ => true
  | .preemptHandlerTimeout _ => true
  | .contextSave _ => true
  | .contextRestore _ _ => true
  | .marginStepRise _ => true
  | .marginSettleEnd _ => true
  | .replayWindowEnd _ => true
  | .escalationWindowEnd _ => true
  | .ceRequestStart _ _ => true
  | .ceWordArrival _ _ _ => true
  | .ceLoss _ _ _ => true
  | .wopenGranuleCopy _ _ _ => true
  | .publishExchange _ => true
  | .seAtomicApply _ => true
  | .redAccept _ => true
  | .redApply _ => true
  | .mtTaskReady _ _ => true
  | .mtReadyAging _ _ => true
  | .mtDispatch _ _ => true
  | .mtComputeEnd _ _ => true
  | .mtChecksum _ _ _ => true
  | .mtWritebackEnd _ _ => true
  | .launchRecordTake _ _ _ => true
  | .waitListCheck _ _ => true
  | .gangPlace _ => true
  | .priorityAging _ => true
  | .schedPreempt _ => true
  | .gangSteal _ _ => true
  | .queueDepthExchange _ => true
  | .cellarRefill _ => true
  | .wbarRoomSave _ => true
  | .invrAck _ => true
  | .pageIn _ => true
  | .cancelSignal _ => true
  | .collComplete _ _ => true
  | .cutTick _ => true
  | .cutGranuleCopy _ _ => true
  | .resultArrival _ => true
  | .heartbeatTick => true
  | .pcHashDisplace _ => true
  | .preemptRequest _ _ => true
  | .instructionReplay _ _ _ => true
  | .lqTailWrite _ _ _ => true
  | .meshRouteRecompute _ => true
  | .hostMemWrite _ _ => true
  | .hostMemRead _ _ => true
  | .hostSnoop _ => true
  | .vfCfgWrite _ _ => true
  | .partitionTableWrite _ _ _ => true
  | .clholdClear _ _ => true
  | .registerWrite _ _ _ => true
  | .getVersion => true
  | .getCapabilities => true
  | .negotiateAlgorithms _ => true
  | .getDigests => true
  | .getCertificate _ _ => true
  | .challenge _ => true
  | .getMeasurements _ => true
  | .keyExchange _ => true
  | .finish _ _ => true
  | .endSession _ => true
  | .lockInterfaceRequest _ => true
  | .startInterfaceRequest _ _ => true
  | .stopInterfaceRequest _ => true
  | .ideFailure _ => true
  | .collAllReduce _ => true
  | .collReduceScatter _ => true
  | .collAllGather _ => true
  | .collBroadcast _ => true
  | .collBarrier _ => true
  | .collAbort _ => true
  | .abortToken _ _ _ => true
  | .powerOn => true
  | .telemetry => true
  | .powerSet => true
  | .coreReset => true
  | .history => true
  | .imageWrite => true
  | .packageReset => true
  | .stateExport => true
  | .stateImport => true
  | .powerSample _ _ => true
  | .lifetimeWrite => true
  | .remoteHouseAccess _ _ _ _ => true
  | .functionReset _ => true
  | .powerLoss => true
  | .memoryScrub _ _ => true
  | .translationCacheEviction _ _ => true

end Sys2Proof
end

