-- ==== Sys2Proof/Certificates/Slice0/Obligations.lean ====
section
/-!
DEFINITION. The statements for the provers.
-/
open Sys2Proof Sys2Proof.Machine

/-- R84, R86: the exact sum, difference, product, product and sum, absolute value, smaller and larger of the operands, signed for
the .s types; HI takes the upper half of the product; SAT clamps; the result is taken modulo 2^w. A 64-bit product is claimed.
R85: the quotient rounded toward zero or the remainder with the sign of A; a divisor 0 gives 2^w - 1 and A, and DVZ. The
result is claimed, and DVZ sets with it. -/
def Obligations.IntegerArithmeticResults : Prop :=
  (∀ (h : Hdr) (ty : Ty) (sat hi : Bool) (d : BitVec 9) (a b c : Src) (w : Who) (s : State) (x y z : DWord),
    intType ty = true →
    let n := tyWords ty
    let u := useDAB ty d a b
    let u1 := useDA ty d a
    let u3 := { u with srcs := [(.a, a, n), (.b, b, n), (.c, c, n)] }
    let X := intValue ty x
    let Y := intValue ty y
    let Z := intValue ty z
    (CanWrite h u d n w s → Reads u w s a n x → Reads u w s b n y →
      GivesNow (.iadd h ty sat d a b) h d n 8 (BitVec.ofInt 64 (saturate ty sat (X + Y))) w s ∧
      GivesNow (.isub h ty sat d a b) h d n 8 (BitVec.ofInt 64 (saturate ty sat (X - Y))) w s ∧
      GivesNow (.imin h ty d a b) h d n 8 (BitVec.ofInt 64 (min X Y)) w s ∧
      GivesNow (.imax h ty d a b) h d n 8 (BitVec.ofInt 64 (max X Y)) w s ∧
      (n = 1 → GivesNow (.imul h ty hi d a b) h d n 8 (BitVec.ofInt 64 (if hi then X * Y / 2 ^ 32 else X * Y)) w s)) ∧
    (CanClaim h u d 2 w s → Reads u w s a 2 x → Reads u w s b 2 y → n = 2 →
      GivesLater (.imul h ty hi d a b) d 2 8 (BitVec.ofInt 64 (if hi then X * Y / 2 ^ 64 else X * Y)) 0 false w s) ∧
    (CanWrite h u3 d 1 w s → Reads u3 w s a 1 x → Reads u3 w s b 1 y → Reads u3 w s c 1 z → n = 1 →
      GivesNow (.imad h ty sat d a b c) h d 1 8 (BitVec.ofInt 64 (saturate ty sat (X * Y + Z))) w s) ∧
    (CanClaim h u3 d 2 w s → Reads u3 w s a 2 x → Reads u3 w s b 2 y → Reads u3 w s c 2 z → n = 2 →
      GivesLater (.imad h ty sat d a b c) d 2 8 (BitVec.ofInt 64 (saturate ty sat (X * Y + Z))) 0 false w s) ∧
    (CanWrite h u1 d n w s → Reads u1 w s a n x →
      GivesNow (.iabs h ty sat d a) h d n 8 (BitVec.ofInt 64 (saturate ty sat X.natAbs)) w s)) ∧
  (∀ (h : Hdr) (ty : Ty) (rem : Bool) (d : BitVec 9) (a b : Src) (w : Who) (s : State) (x y : DWord), intType ty = true →
    let n := tyWords ty
    let u := useDAB ty d a b
    let X := intValue ty x
    let Y := intValue ty y
    CanClaim h u d n w s → Reads u w s a n x → Reads u w s b n y →
    (Y = 0 → GivesLater (.idiv h ty rem d a b) d n 8 (BitVec.ofInt 64 (if rem then X else 2 ^ tyBits ty - 1)) dvz true w s) ∧
    (Y ≠ 0 → GivesLater (.idiv h ty rem d a b) d n 8 (BitVec.ofInt 64 (if rem then X - Y * X.tdiv Y else X.tdiv Y)) 0 true w s))

/-- R87, R88: bitwise operations, B complemented with NB; shifts, whose counts at or above the width shift everything out, and
rotation by the count modulo the width. -/
def Obligations.LogicAndShiftResults : Prop :=
  ∀ (h : Hdr) (ty : Ty) (nb : Bool) (d : BitVec 9) (a b : Src) (w : Who) (s : State) (x y : DWord), intType ty = true →
    let n := tyWords ty
    let W := tyBits ty
    let u := useDAB ty d a b
    let uw := useDAw ty d a b
    let Y := if nb then ~~~y else y
    let k := (loWord y).toNat
    (CanWrite h u d n w s → Reads u w s a n x → Reads u w s b n y →
      GivesNow (.and h ty nb d a b) h d n 8 (x &&& Y) w s ∧
      GivesNow (.or h ty nb d a b) h d n 8 (x ||| Y) w s ∧
      GivesNow (.xor h ty nb d a b) h d n 8 (x ^^^ Y) w s) ∧
    (CanWrite h uw d n w s → Reads uw w s a n x → Reads uw w s b 1 y →
      GivesNow (.shl h ty d a b) h d n 8 (BitVec.ofNat 64 (if W ≤ k then 0 else x.toNat * 2 ^ k)) w s ∧
      GivesNow (.shr h ty d a b) h d n 8 (BitVec.ofNat 64 (if W ≤ k then 0 else x.toNat / 2 ^ k)) w s ∧
      (tySigned ty = true → GivesNow (.sar h ty d a b) h d n 8
        (BitVec.ofInt 64 (if W ≤ k then (if intValue ty x < 0 then -1 else 0) else intValue ty x / 2 ^ k)) w s) ∧
      (∀ r : DWord, (∀ i, i < W → r.getLsbD ((i + k) % W) = x.getLsbD i) → GivesNow (.rot h ty d a b) h d n 8 r w s))

/-- R89, R90, R91: a bit field at a descriptor's position and length, extracted (with sign for the .s types) or replaced; the number
of 1 bits, of leading zeros, the bits reversed; and a word permuted from the eight bytes of two. -/
def Obligations.BitFieldResults : Prop :=
  ∀ (h : Hdr) (ty : Ty) (d : BitVec 9) (a b c : Src) (w : Who) (s : State) (x y z : DWord), intType ty = true →
    let n := tyWords ty
    let W := tyBits ty
    let uw := useDAw ty d a b
    let uc : Use := { useDAB ty d a b with srcs := [(.a, a, n), (.b, b, n), (.c, c, 1)] }
    let u1 : Use := { srcs := [(.a, a, n)], dst := some (d.toNat, 1) }
    let un := useDA ty d a
    let up : Use := { useDAB ty d a b with srcs := [(.a, a, 1), (.b, b, 1), (.c, c, 1)] }
    (CanWrite h uw d n w s → Reads uw w s a n x → Reads uw w s b 1 y →
      let pos := bits y 5 0
      let len := min (bits y 14 8) W
      let f := x.toNat / 2 ^ pos % 2 ^ len
      GivesNow (.bfe h ty d a b) h d n 8
        (BitVec.ofInt 64 (if W ≤ pos ∨ len = 0 then 0 else if tySigned ty ∧ 2 ^ (len - 1) ≤ f then (f : Int) - 2 ^ len else f)) w s) ∧
    (CanWrite h uc d n w s → Reads uc w s a n x → Reads uc w s b n y → Reads uc w s c 1 z →
      let pos := bits z 5 0
      let len := min (bits z 14 8) W
      ∀ r : DWord, (∀ i, i < W → r.getLsbD i = if pos ≤ i ∧ i < pos + len then y.getLsbD (i - pos) else x.getLsbD i) →
        GivesNow (.bfi h ty d a b c) h d n 8 r w s) ∧
    (CanWrite h u1 d 1 w s → Reads u1 w s a n x →
      GivesNow (.popc h ty d a) h d 1 8 (BitVec.ofNat 64 ((List.range W).filter (fun i => x.getLsbD i)).length) w s ∧
      (∀ z, z ≤ W → (∀ i, W - z ≤ i → i < W → x.getLsbD i = false) → (z < W → x.getLsbD (W - 1 - z) = true) →
        GivesNow (.clz h ty d a) h d 1 8 (BitVec.ofNat 64 z) w s)) ∧
    (CanWrite h un d n w s → Reads un w s a n x →
      ∀ r : DWord, (∀ i, i < W → r.getLsbD i = x.getLsbD (W - 1 - i)) → GivesNow (.brev h ty d a) h d n 8 r w s) ∧
    (CanWrite h up d 1 w s → Reads up w s a 1 x → Reads up w s b 1 y → Reads up w s c 1 z →
      ∀ r : DWord, (∀ i j, i < 4 → j < 8 →
        let sel := bits z (4 * i + 3) (4 * i)
        let src : DWord := if sel % 8 < 4 then x else y
        r.getLsbD (8 * i + j) = src.getLsbD (8 * (sel % 4) + (if 8 ≤ sel then 7 else j))) →
        GivesNow (.prmt h ty d a b c) h d 1 8 r w s)

/-- R92, R96, R97, R99: the selected operand alone is read and copied; a source, an extension word, an identity value of R20 or a
scaled sum is written. -/
def Obligations.SelectionAndMoveResults : Prop :=
  ∀ (h : Hdr) (ty : Ty) (p : BitVec 3) (neg : Bool) (sh : BitVec 4) (d : BitVec 9) (a b : Src) (w : Who) (s : State) (x y : DWord),
    let n := tyWords ty
    let ui : Use := { useDAB ty d a b with sel := some (p, neg) }
    let ua := useDA ty d a
    let um : Use := { dst := some (d.toNat, n), len := 16, cycles := 2 }
    let us : Use := { dst := some (d.toNat, n) }
    let ul := useDAw ty d a b
    (CanWrite h ui d n w s → Reads ui w s (if w.th.preds.getLsbD p.toNat ^^ neg then a else b) n x →
      GivesNow (.isel h ty p neg d a b) h d n 8 x w s) ∧
    (CanWrite h ua d n w s → Reads ua w s a n x → GivesNow (.mov h ty d a) h d n 8 x w s) ∧
    (CanWrite h um d n w s → GivesNow (.movi h ty d y) h d n 16 y w s) ∧
    (CanWrite h us d n w s →
      GivesNow (.sreg h ty d .lane) h d n 8 (BitVec.ofNat 64 w.t.lane) w s ∧
      GivesNow (.sreg h ty d .layer) h d n 8 (BitVec.ofNat 64 w.t.layer) w s ∧
      GivesNow (.sreg h ty d .gwidth) h d n 8 (BitVec.ofNat 64 w.k.width) w s ∧
      GivesNow (.sreg h ty d .gdepth) h d n 8 (BitVec.ofNat 64 w.k.depth) w s ∧
      GivesNow (.sreg h ty d .group) h d n 8 (BitVec.ofNat 64 w.g.gidx) w s ∧
      GivesNow (.sreg h ty d .gang) h d n 8 (BitVec.ofNat 64 w.gang.idx) w s ∧
      GivesNow (.sreg h ty d .ngang) h d n 8 (BitVec.ofNat 64 w.k.ngang) w s ∧
      GivesNow (.sreg h ty d .core) h d n 8 (BitVec.ofNat 64 (w.g.core % 24)) w s ∧
      GivesNow (.sreg h ty d .cluster) h d n 8 (BitVec.ofNat 64 (w.g.core / 24)) w s ∧
      GivesNow (.sreg h ty d .die) h d n 8 (BitVec.ofNat 64 (w.g.core / 288)) w s ∧
      GivesNow (.sreg h ty d .vgid) h d n 8 (BitVec.ofNat 64 w.t.vgid) w s ∧
      GivesNow (.sreg h ty d .cyc) h d n 8 (BitVec.ofNat 64 s.cyc) w s ∧
      GivesNow (.sreg h ty d .hbt) h d n 8 (BitVec.ofNat 64 s.hbt) w s ∧
      GivesNow (.sreg h ty d .phase) h d n 8 (BitVec.ofNat 64 w.gang.phase) w s ∧
      GivesNow (.sreg h ty d .karg) h d n 8 w.k.karg w s ∧
      GivesNow (.sreg h ty d .sibidx) h d n 8 (BitVec.ofNat 64 (if w.k.sib then w.gang.idx else 0)) w s ∧
      GivesNow (.sreg h ty d .sibn) h d n 8 (BitVec.ofNat 64 (if w.k.sib then w.k.sibn else 0)) w s) ∧
    (intType ty = true → CanWrite h ul d n w s → Reads ul w s a n x → Reads ul w s b 1 y →
      GivesNow (.lea h ty sh d a b) h d n 8
        (BitVec.ofInt 64 (x.toNat + (if tySigned ty then (loWord y).toInt else (loWord y).toNat) * 2 ^ sh.toNat)) w s)

/-- R93, R94, R80: a comparison or a predicate operation writes one predicate, and p7 never changes; PSET.save writes the eight
predicates to a register, PSET.load reads p0 to p6 from one. -/
def Obligations.PredicateResults : Prop :=
  ∀ (h : Hdr) (ty : Ty) (p pa pb : BitVec 3) (d : BitVec 9) (a b : Src) (w : Who) (s : State) (x y : DWord),
    let n := tyWords ty
    let uc : Use := { srcs := [(.a, a, n), (.b, b, n)] }
    let ua : Use := { srcs := [(.a, a, 1)] }
    let X := intValue ty x
    let Y := intValue ty y
    let A := w.th.preds.getLsbD pa.toNat
    let B := w.th.preds.getLsbD pb.toNat
    (intType ty = true → Issues h uc w s → Reads uc w s a n x → Reads uc w s b n y →
      GivesPreds (.icmp h ty .eq p a b) (withPred w.th.preds p (X = Y)) w s ∧
      GivesPreds (.icmp h ty .ne p a b) (withPred w.th.preds p (X ≠ Y)) w s ∧
      GivesPreds (.icmp h ty .lt p a b) (withPred w.th.preds p (X < Y)) w s ∧
      GivesPreds (.icmp h ty .le p a b) (withPred w.th.preds p (X ≤ Y)) w s ∧
      GivesPreds (.icmp h ty .gt p a b) (withPred w.th.preds p (Y < X)) w s ∧
      GivesPreds (.icmp h ty .ge p a b) (withPred w.th.preds p (Y ≤ X)) w s) ∧
    (Issues h {} w s →
      GivesPreds (.pset h (.and p pa pb)) (withPred w.th.preds p (A && B)) w s ∧
      GivesPreds (.pset h (.or p pa pb)) (withPred w.th.preds p (A || B)) w s ∧
      GivesPreds (.pset h (.xor p pa pb)) (withPred w.th.preds p (A ^^ B)) w s ∧
      GivesPreds (.pset h (.andn p pa pb)) (withPred w.th.preds p (A && !B)) w s) ∧
    (Issues h ua w s → Reads ua w s a 1 x →
      GivesPreds (.pset h (.nz p a)) (withPred w.th.preds p (loWord x ≠ 0)) w s ∧
      GivesPreds (.pset h (.load a)) (fun q => ∀ i, i < 8 → q.getLsbD i = (decide (i = 7) || x.getLsbD i)) w s) ∧
    (CanWrite h { dst := some (d.toNat, 1) } d 1 w s →
      GivesNow (.pset h (.save d)) h d 1 8 (w.th.preds.setWidth 64) w s)

/-- R100, R101, R64, R57: a branch, a call, a call and a return to an absolute address set the PC to their target; CALL leaves the
link in v30 and v31, CALLX in its destination; a target outside the address space or not a multiple of 8 traps at the branch, and
no link is written. -/
def Obligations.BranchesCallsAndReturns : Prop :=
  ∀ (h : Hdr) (ty : Ty) (off : BitVec 28) (d : BitVec 9) (a b : Src) (x y : DWord) (w : Who) (s : State), tyWords ty = 2 →
    let near := w.th.pc + 8 * off.signExtend 64
    let ub : Use := { srcs := [(.a, a, 2), (.b, b, 1)] }
    let ur : Use := { srcs := [(.a, a, 2)] }
    let uc : Use := { dst := some (d.toNat, 2), len := 16, cycles := 2 }
    let far := x + 8 * y
    let off57 (t : DWord) : Prop := bits t 2 0 ≠ 0
    let off64 (t : DWord) : Prop := bits t 63 54 ≠ 0
    (Issues h { cancel := .never } w s →
      (¬ off64 near → Jumps (.bra h off) near w s) ∧ (off64 near → TrapsWith (.bra h off) 0x03 near 0 w s)) ∧
    (Issues h {} w s →
      (¬ off64 near → DstFree w s 30 2 → ∃ t, exec (.call h off) s = .next t ∧ Past w near t ∧
        regGet t w.t 30 = ⟨loWord (nextPc w 8), .full⟩ ∧ regGet t w.t 31 = ⟨hiWord (nextPc w 8), .full⟩ ∧
        (t.thread w.t).latches = w.th.latches ∧ (t.thread w.t).preds = w.th.preds ∧ (t.thread w.t).fcw = w.th.fcw ∧
        Rest w (inDst 30 2) s t) ∧
      (¬ off64 near → ¬ DstFree w s 30 2 → WaitsFor (.call h off) .retry w s) ∧
      (off64 near → TrapsWith (.call h off) 0x03 near 0 w s)) ∧
    (Issues h ub w s → Reads ub w s a 2 x → Reads ub w s b 1 y → hiWord y = 0 →
      (¬ off57 far → ¬ off64 far → Jumps (.brx h ty a b) far w s) ∧
      (off57 far → TrapsWith (.brx h ty a b) 0x09 far 0 w s) ∧
      (¬ off57 far → off64 far → TrapsWith (.brx h ty a b) 0x03 far 0 w s)) ∧
    (Issues h ur w s → Reads ur w s a 2 x →
      (¬ off57 x → ¬ off64 x → Jumps (.ret h ty a) x w s) ∧
      (off57 x → TrapsWith (.ret h ty a) 0x09 x 0 w s) ∧
      (¬ off57 x → off64 x → TrapsWith (.ret h ty a) 0x03 x 0 w s)) ∧
    (CanWrite h uc d 2 w s →
      (¬ off57 x → ¬ off64 x → ∃ t, exec (.callx h d x) s = .next t ∧ WroteNow h d 2 x (nextPc w 16) 0 w s t) ∧
      (off57 x → TrapsWith (.callx h d x) 0x09 x 0 w s) ∧
      (¬ off57 x → off64 x → TrapsWith (.callx h d x) 0x03 x 0 w s))

/-- R103, R105, R108, R175, R300: NOP, YIELD and CANCP change nothing; TFENCE changes nothing where no sticky flag is enabled,
traps with the enabled flags otherwise, and waits while a float result of the thread is on its way.
R104, R33: EXIT makes the thread EXITED; its registers keep their values and tags.
R106, R107, R235, R236: SLEEP holds the thread until the issue cycle plus its count, SLEEP.P until the promised cycle, whatever becomes of
the pair meanwhile; a count of 0 or a promise that has passed ends at once; a promise whose linked copy is under way then traps, and one that
was under way at the promised cycle too, whatever it has done since. -/
def Obligations.SimpleControl : Prop :=
  (∀ (h : Hdr) (w : Who) (s : State),
    let m := w.th.fcw.extractLsb' 0 6 &&& w.th.fcw.extractLsb' 8 6
    (Issues h { cancel := .never } w s → GivesNothing (.nop h) w s ∧ GivesNothing (.yield h) w s) ∧
    (Issues h { cancel := .always } w s → GivesNothing (.cancp h) w s) ∧
    (Issues h { cancel := .never } w s →
      ((∃ r ∈ s.results, r.tid = w.t ∧ r.float = true) → WaitsFor (.tfence h) .retry w s) ∧
      ((∀ r ∈ s.results, r.tid = w.t → r.float = false) →
        (m = 0 → GivesNothing (.tfence h) w s) ∧ (m ≠ 0 → TrapsWith (.tfence h) 0x0A 0 (m.setWidth 32) w s)))) ∧
  (∀ (h : Hdr) (w : Who) (s : State), Issues h { cancel := .always } w s →
    (∀ x : Tid, x.vgid = w.t.vgid → x.layer = w.t.layer → x ≠ w.t → ∀ k c, (s.thread x).wait ≠ .coll k c) →
    ∃ t, exec (.exit h) s = .next t ∧ (t.thread w.t).st = .exited ∧ (t.thread w.t).links = [] ∧ Rest w (fun _ => false) s t) ∧
  (∀ (h : Hdr) (a : Src) (x : DWord) (w : Who) (s : State),
    let u1 : Use := { srcs := [(.a, a, 1)], cancel := .always }
    let u2 : Use := { srcs := [(.a, a, 2)], cancel := .always }
    let linked (i : Nat) (l : Link) (r : CeReq) : Prop :=
      a = .reg (BitVec.ofNat 9 i) ∧ i < 512 ∧ w.th.links.find? (fun l => l.pair = i) = some l ∧
      (s.cluster l.cl).ce.find? (fun r => r.seq = l.seq) = some r ∧ (r.st = .accepted ∨ r.st = .running)
    (Issues h u1 w s → Reads u1 w s a 1 x →
      (loWord x = 0 → GivesNothing (.sleep h a) w s) ∧
      (loWord x ≠ 0 → Holds (.sleep h a) (.sleep (s.cyc + (loWord x).toNat)) w s)) ∧
    (Issues h u2 w s → (∀ c p, w.th.wait ≠ .promised c p) → (∀ c m, w.th.wait ≠ .slept c m) → Reads u2 w s a 2 x →
      (s.cyc < x.toNat → Holds (.sleepP h a) (.promised x.toNat (pairIndex a)) w s) ∧
      (x.toNat ≤ s.cyc → (∀ i l r, ¬ linked i l r) → GivesNothing (.sleepP h a) w s) ∧
      (x.toNat ≤ s.cyc → ∀ i l r, linked i l r → ∃ n, TrapsWith (.sleepP h a) 0x0B (BitVec.ofNat 64 (regAddr s w.t i)) n w s)) ∧
    (∀ c p, Issues h u2 w s → w.th.wait = .promised c p → Holds (.sleepP h a) (.promised c p) w s) ∧
    (∀ c, Issues h u2 w s → w.th.wait = .slept c false → GivesNothing (.sleepP h a) w s) ∧
    (∀ c, Issues h u2 w s → w.th.wait = .slept c true → ∃ n, TrapsWith (.sleepP h a) 0x0B (BitVec.ofNat 64 (regAddr s w.t (pairIndex a))) n w s))

/-- R298, R260: TRAP and SYSCALL with a deliverable cause enter the handler with TRAP_PC at the next instruction and their code in
TRAP_INFO.
R260: a trap whose class is clear in TRAP_MASK, of a thread whose kernel has a handler and whose ENTRY is 0, is delivered; one for a table entry
that could not be read is counted too (R292).
R261, R276, R323: a trap that cannot be delivered makes every thread of the gang EXITED, and the first such kill of a kernel is
the one its completion record carries. -/
def Obligations.TrapsAreDeliveredOrKill : Prop :=
  (∀ (h : Hdr) (b : Src) (x : DWord) (w : Who) (s : State),
    let u : Use := { srcs := [(.b, b, 1)], cancel := .never }
    Issues h u w s → Reads u w s b 1 x → Deliverable 0 w s →
    (∃ t, exec (.trap h b) s = .next t ∧ Delivered 0x17 (nextPc w 8) 0 (loWord x) w s t) ∧
    (∃ t, exec (.syscall h b) s = .next t ∧ Delivered 0x16 (nextPc w 8) 0 (loWord x) w s t)) ∧
  (∀ (cause cls : Nat) (pc addr : DWord) (info : Word) (w : Who) (s : State), s.who? = some w →
    (cause, cls) ∈ [(0x01, 0), (0x02, 0), (0x03, 1), (0x04, 1), (0x05, 1), (0x06, 1), (0x09, 1), (0x07, 2), (0x08, 2), (0x0C, 2),
      (0x0E, 2), (0x0A, 3), (0x14, 3), (0x15, 3), (0x0B, 4), (0x0F, 5), (0x13, 5), (0x10, 6), (0x12, 7), (0x16, 0), (0x17, 0)] →
    let t := takeTrap s w.t cause pc addr info
    let m := if cause = 0x05 ∧ info.toNat / 16 = 3 then count s w.k.owner 10 1 else s
    (Deliverable cls w s → Delivered cause pc addr info w m t) ∧
    (¬ Deliverable cls w s → cause ≠ 0x12 →
      (t.kernel w.kn).kill = (s.kernel w.kn).kill.or (some ⟨cause, pc, addr, info⟩) ∧
      (t.gang w.gk).killed = some true ∧
      ∀ x, x.vgid ∈ w.gang.groups → (look s.groups x.vgid).isSome → (look s.threads x).isSome → (t.thread x).st = .exited))

/-- R262, R299: TRET restores the mode of TRAP_CAUSE.PMODE and the PC of TRAP_PC, clears ENTRY, and makes every latch invalid; a
TRAP_PC that is no multiple of 8 traps at the TRET. -/
def Obligations.ReturnFromTrap : Prop :=
  ∀ (h : Hdr) (w : Who) (s : State), Issues h { sys := true, cancel := .never, tret := true } w s → w.k.handler ≠ 0 →
    (bits (bankPair s w.t 26) 2 0 = 0 → ∃ t, exec (.tret h) s = .next t ∧
      (t.thread w.t).sys = (bankGet s w.t 31).getLsbD 8 ∧ (t.thread w.t).pc = bankPair s w.t 26 ∧
      bankGet t w.t 23 = bankGet s w.t 23 &&& 0x7FFFFFFF ∧ (∀ k, (at_ (t.thread w.t).latches k {}).valid = false) ∧ (t.thread w.t).retained = none ∧
      (t.thread w.t).preds = w.th.preds ∧ (t.thread w.t).fcw = w.th.fcw ∧ Rest w (fun i => i = w.k.regs + 23) s t) ∧
    (bits (bankPair s w.t 26) 2 0 ≠ 0 → TrapsWith (.tret h) 0x09 (bankPair s w.t 26) 0 w s)

/-- R28: a thread that arrives at VOTE, BARR.grp or WBAR before the last live thread of its layer waits there, whatever its guard. -/
def Obligations.CollectiveArrival : Prop :=
  ∀ (h : Hdr) (op : VoteOp) (a : BitVec 3) (sc : Scope) (w : Who) (s : State),
    let dst : Option (Nat × Nat) := match op with | .ballot d => some (d.toNat, 2) | _ => none
    let mine := if guardTrue h w.th then some (w.th.preds.getLsbD a.toNat) else none
    let waits (i : Instr) (k : CollKind) (c : Option Bool) : Prop :=
      ∃ t, exec i s = .next t ∧ (t.thread w.t).st = .waiting ∧ (t.thread w.t).wait = .coll k c ∧ (t.thread w.t).pc = w.th.pc ∧
        (t.thread w.t).preds = w.th.preds ∧ ∀ x i, regGet t x i = regGet s x i
    (∃ x, LiveIn w s x ∧ x ≠ w.t ∧ ((s.thread x).st ≠ .waiting ∨ ∀ k c, (s.thread x).wait ≠ .coll k c)) →
    (Arrives { dst := dst, collective := true } w s → (∀ r, w.th.wait ≠ .ballot r) →
      waits (.vote h op a) (.vote op h.nw) mine) ∧
    (Arrives { collective := true } w s →
      ((guardTrue h w.th = true → Drained w s) → waits (.barrGrp h) .barr none) ∧
      (w.gang.phase ≠ w.k.phm1 → sc ≠ .house → (∀ x, look w.k.scopes w.gang.phase = some x → x = sc) →
        waits (.wbar h sc) (.wbar sc) none))

/-- R28, R95: when the last live thread of a layer arrives at a VOTE, every thread goes on in that step, and every contributing one
has the result: whether any, whether every, whether all the same contributed true, or the mask of the lanes that did.
R40: a contributing thread whose ballot's pair cannot be written then waits with the result, and writes it when it can.
R28, R30, R32, R132: the last arrival at BARR.grp lets the layer go on, once the issuer's own accesses are performed; the last
arrival at WBAR leaves the layer waiting for the phase, whose scope it has fixed. -/
def Obligations.CollectiveCompletion : Prop :=
  (∀ (h : Hdr) (op : VoteOp) (a : BitVec 3) (w : Who) (s : State),
    let dst : Option (Nat × Nat) := match op with | .ballot d => some (d.toNat, 2) | _ => none
    let mine := if guardTrue h w.th then some (w.th.preds.getLsbD a.toNat) else none
    let c := contribution w s mine
    let gave (v : Bool) : Prop := ∃ y, LiveIn w s y ∧ c y = some v
    let mask (m : DWord) : Prop :=
      ∀ l, l < 64 → (m.getLsbD l = true ↔ LiveIn w s ⟨w.t.vgid, w.t.layer, l⟩ ∧ c ⟨w.t.vgid, w.t.layer, l⟩ = some true)
    let late (x : Tid) : Prop := c x ≠ none ∧ ∃ d, op = .ballot d ∧ h.nw = false ∧ d ≠ 0 ∧ busy s x d.toNat 2 = true
    Arrives { dst := dst, collective := true } w s → (∀ r, w.th.wait ≠ .ballot r) → w.t.lane < w.k.width → OthersAt (.vote op h.nw) w s →
    ∃ t, exec (.vote h op a) s = .next t ∧ ∀ x, LiveIn w s x →
      (late x → (t.thread x).st = .waiting ∧ (∃ m, mask m ∧ (t.thread x).wait = .ballot m) ∧ (t.thread x).pc = (s.thread x).pc) ∧
      (¬ late x → GoesOn s t x) ∧ (c x = none → (t.thread x).preds = (s.thread x).preds) ∧
      (c x ≠ none → match op with
        | .any d => ∃ v, (v = true ↔ gave true) ∧ withPred (s.thread x).preds d v (t.thread x).preds
        | .all d => ∃ v, (v = true ↔ ¬ gave false) ∧ withPred (s.thread x).preds d v (t.thread x).preds
        | .uni d => ∃ v, (v = true ↔ ¬ (gave true ∧ gave false)) ∧ withPred (s.thread x).preds d v (t.thread x).preds
        | .ballot d => h.nw = false → d ≠ 0 → ¬ late x →
            ∃ m, mask m ∧ regGet t x d.toNat = ⟨loWord m, .full⟩ ∧ regGet t x (d.toNat + 1) = ⟨hiWord m, .full⟩)) ∧
  (∀ (h : Hdr) (d : BitVec 9) (a : BitVec 3) (m : DWord) (w : Who) (s : State),
    Arrives { dst := some (d.toNat, 2), collective := true } w s → w.th.wait = .ballot m → h.nw = false → d ≠ 0 →
    (DstFree w s d.toNat 2 → ∃ t, exec (.vote h (.ballot d) a) s = .next t ∧ Goes w (inDst d.toNat 2) s t ∧ HoldsNow w d.toNat 2 m t) ∧
    (¬ DstFree w s d.toNat 2 → WaitsFor (.vote h (.ballot d) a) (.ballot m) w s)) ∧
  (∀ (h : Hdr) (sc : Scope) (w : Who) (s : State), Arrives { collective := true } w s → w.t.lane < w.k.width →
    (OthersAt .barr w s → (guardTrue h w.th = true → Drained w s) →
      ∃ t, exec (.barrGrp h) s = .next t ∧ (∀ x, LiveIn w s x → GoesOn s t x) ∧ ∀ x i, regGet t x i = regGet s x i) ∧
    (OthersAt (.wbar sc) w s → w.gang.phase ≠ w.k.phm1 → (∀ x, look w.k.scopes w.gang.phase = some x → x = sc) →
      (sc = .house → w.k.house ≠ 0 ∧ ∀ x ∈ s.house.hcounts, x.1 = w.k.house → x.2.1 = w.k.part → x.2.2 = w.k.hcount) →
      ∃ t, exec (.wbar h sc) s = .next t ∧ look (t.kernel w.kn).scopes w.gang.phase = some sc ∧
        (∀ x, LiveIn w s x → (t.thread x).st = .waiting ∧ (t.thread x).wait = .phase sc ∧ (t.thread x).pc = (s.thread x).pc) ∧
        ∀ x i, regGet t x i = regGet s x i))

/-- R205 to R212, R174: a float instruction that completes at issue writes its result and sets its flags in one step.
R210, R174: division, square root and the approximate functions claim their destination; the result and its flags are on
their way.
Inside the bounds of R210 an approximate function gives a free value (log 7). -/
def Obligations.FloatResults : Prop :=
  (∀ (h : Hdr) (ty sty : Ty) (rm : RMode) (ftz num man sat : Bool) (d : BitVec 9) (a b c : Src) (w : Who) (s : State) (x y z : DWord),
    let n := tyWords ty
    let cy := floatCycles ty
    let f := fmtOfTy ty
    let m := roundOf w.th rm
    let fl := ftzOf w.th ftz
    let u2 : Use := { useDAB ty d a b with cycles := cy }
    let u3 : Use := { useDAB ty d a b with srcs := [(.a, a, n), (.b, b, n), (.c, c, n)], cycles := cy }
    let uw : Use := { useDAw ty d a b with cycles := cy }
    let u1 (k : Nat) : Use := { srcs := [(.a, a, n)], dst := some (d.toNat, k), cycles := cy }
    let uv : Use := { srcs := [(.a, a, tyWords sty)], dst := some (d.toNat, n), cycles := cy }
    let ud : Use := { srcs := [(.a, a, 1), (.b, b, 1), (.c, c, 1)], dst := some (d.toNat, 1) }
    (CanWrite h u2 d n w s → Reads u2 w s a n x → Reads u2 w s b n y →
      GivesFloat (.fadd h ty rm ftz d a b) h d n (fAdd f m fl x.toNat y.toNat) w s ∧
      GivesFloat (.fsub h ty rm ftz d a b) h d n (fSub f m fl x.toNat y.toNat) w s ∧
      GivesFloat (.fmul h ty rm ftz d a b) h d n (fMul f m fl x.toNat y.toNat) w s ∧
      GivesFloat (.fmin h ty num ftz d a b) h d n (fMinMax f false num fl x.toNat y.toNat) w s ∧
      GivesFloat (.fmax h ty num ftz d a b) h d n (fMinMax f true num fl x.toNat y.toNat) w s) ∧
    (CanWrite h u3 d n w s → Reads u3 w s a n x → Reads u3 w s b n y → Reads u3 w s c n z →
      GivesFloat (.ffma h ty rm ftz d a b c) h d n (fFma f m fl x.toNat y.toNat z.toNat) w s) ∧
    (CanWrite h (u1 1) d 1 w s → Reads (u1 1) w s a n x →
      GivesFloat (.fclass h ty ftz d a) h d 1 (fClass f fl x.toNat) w s) ∧
    (CanWrite h (u1 n) d n w s → Reads (u1 n) w s a n x →
      GivesFloat (.frnd h ty rm ftz d a) h d n (fRound f m fl x.toNat) w s) ∧
    (let k := if man then n else 1
     CanWrite h (u1 k) d k w s → Reads (u1 k) w s a n x →
      GivesFloat (.fxtr h ty man ftz d a) h d k (fExtract f man fl x.toNat) w s) ∧
    (CanWrite h uw d n w s → Reads uw w s a n x → Reads uw w s b 1 y →
      GivesFloat (.fscale h ty rm ftz d a b) h d n (fScale f m fl x.toNat (loWord y).toInt) w s) ∧
    (CanWrite h uv d n w s → Reads uv w s a (tyWords sty) x →
      GivesFloat (.fcvt h ty rm ftz sat d a sty) h d n (fConvert f (fmtOfTy sty) m fl sat x.toNat) w s ∧
      GivesFloat (.f2i h ty rm ftz d a sty) h d n (fToInt ty (fmtOfTy sty) m fl x.toNat) w s ∧
      GivesFloat (.i2f h ty rm d a sty) h d n (intToF f m sty x.toNat) w s) ∧
    (CanWrite h ud d 1 w s → Reads ud w s a 1 x → Reads ud w s b 1 y → Reads ud w s c 1 z →
      GivesFloat (.fdot2 h ty rm ftz d a b c) h d 1
        (fDot2 f m fl (loWord x).toNat (loWord y).toNat (loWord z).toNat) w s)) ∧
  (∀ (h : Hdr) (ty : Ty) (rm : RMode) (ftz : Bool) (d : BitVec 9) (a b : Src) (w : Who) (s : State) (x y : DWord),
    let n := tyWords ty
    let f := fmtOfTy ty
    let m := roundOf w.th rm
    let fl := ftzOf w.th ftz
    let u2 := useDAB ty d a b
    let u1 := useDA ty d a
    (CanClaim h u2 d n w s → Reads u2 w s a n x → Reads u2 w s b n y →
      GivesFloatLater (.fdiv h ty rm ftz d a b) d n (fDiv f m fl x.toNat y.toNat) w s) ∧
    (CanClaim h u1 d n w s → Reads u1 w s a n x →
      GivesFloatLater (.fsqrt h ty rm ftz d a) d n (fSqrt f m fl x.toNat) w s ∧
      GivesFloatLater (.frcp h ty ftz d a) d n (fRcp f fl x.toNat) w s ∧
      GivesFloatLater (.frsq h ty ftz d a) d n (fRsq f fl x.toNat) w s ∧
      GivesFloatLater (.fexp2 h ty ftz d a) d n (fExp2 fl x.toNat) w s ∧
      GivesFloatLater (.flog2 h ty ftz d a) d n (fLog2 fl x.toNat) w s ∧
      GivesFloatLater (.fsin h ty ftz d a) d n (fTrig false fl x.toNat) w s ∧
      GivesFloatLater (.fcos h ty ftz d a) d n (fTrig true fl x.toNat) w s))

/-- R167: a finite exact value m * 2^e that rounds to a finite number of a format rounds to the nearest one, to the one of even
significand from half way, or to the nearest in the direction of the mode. Values are compared in units of 2^k, a unit that both
the value and the format hold. -/
def Obligations.RoundingIsNearestOrDirected : Prop :=
  ∀ (f : FFmt) (mode : Round) (neg : Bool) (m : Nat) (e k : Int) (r : Nat) (fl : Flags) (M : Nat) (E : Int),
    f ∈ [fmt64, fmt32, fmt16, fmtBf, fmtE5, fmtE4] → m ≠ 0 → k ≤ e → k ≤ f.qmin →
    roundTo f mode false false neg m e = (r, fl) → unpack f r = .num neg M E →
    let V := m * 2 ^ (e - k).toNat
    let G := M * 2 ^ (E - k).toNat
    let dist (a b : Nat) : Nat := (a - b) + (b - a)
    (fl.getLsbD 4 = true ↔ G ≠ V) ∧
    ∀ (y M' : Nat) (E' : Int), unpack f y = .num neg M' E' → y < 2 ^ f.width →
      let Y := M' * 2 ^ (E' - k).toNat
      match mode with
      | .rne => dist G V ≤ dist Y V ∧ (dist Y V = dist G V → Y ≠ G → r % 2 = 0)
      | .rtz => G ≤ V ∧ (Y ≤ V → Y ≤ G)
      | .rdn => if neg then V ≤ G ∧ (V ≤ Y → G ≤ Y) else G ≤ V ∧ (Y ≤ V → Y ≤ G)
      | .rup => if neg then G ≤ V ∧ (Y ≤ V → Y ≤ G) else V ≤ G ∧ (V ≤ Y → G ≤ Y)

/-- R208, R213: FCMP writes one predicate and sets its flags; FSTAT reads the control word and changes its flags, FMODE replaces the
rest of it. -/
def Obligations.FloatComparisonAndControlWord : Prop :=
  ∀ (h : Hdr) (ty : Ty) (cond : FCond) (ftz : Bool) (p : BitVec 3) (d : BitVec 9) (a b : Src) (w : Who) (s : State) (x y : DWord),
    let n := tyWords ty
    let uc : Use := { srcs := [(.a, a, n), (.b, b, n)], cycles := floatCycles ty }
    let us (l : List (Retain × Src × Nat)) : Use := { srcs := l, dst := some (d.toNat, 1) }
    let um : Use := { srcs := [(.b, b, 1)] }
    let r := fCompare (fmtOfTy ty) cond (ftzOf w.th ftz) x.toNat y.toNat
    let none_out : Prop := ∀ q ∈ s.results, q.tid = w.t → q.float = false
    let stat (i : Instr) (mask : Word) : Prop := ∃ t u, exec i s = .next t ∧ WroteNow h d 1 (nextPc w 8) (w.th.fcw.setWidth 64) 0 w s u ∧
      t = u.updThread w.t (fun th => { th with fcw := mask })
    (Issues h uc w s → Reads uc w s a n x → Reads uc w s b n y →
      ∃ t, exec (.fcmp h ty cond ftz p a b) s = .next t ∧ Past w (nextPc w 8) t ∧ withPred w.th.preds p r.1 (t.thread w.t).preds ∧
        (t.thread w.t).fcw = w.th.fcw ||| r.2.setWidth 32 ∧ (t.thread w.t).latches = w.th.latches ∧ Rest w (fun _ => false) s t) ∧
    (none_out → CanWrite h (us []) d 1 w s → stat (.fstat h .read d) w.th.fcw) ∧
    (none_out → CanWrite h (us [(.b, b, 1)]) d 1 w s → Reads (us [(.b, b, 1)]) w s b 1 y →
      stat (.fstat h (.clr b) d) (w.th.fcw &&& ~~~((loWord y) &&& 0x3F)) ∧
      stat (.fstat h (.set b) d) (w.th.fcw ||| ((loWord y) &&& 0x3F))) ∧
    (Issues h um w s → Reads um w s b 1 y →
      ∃ t, exec (.fmode h b) s = .next t ∧ Past w (nextPc w 8) t ∧ (t.thread w.t).preds = w.th.preds ∧
        (∀ i, i < 32 → (t.thread w.t).fcw.getLsbD i =
          if i < 6 then w.th.fcw.getLsbD i
          else if 8 ≤ i ∧ i < 14 then y.getLsbD (i - 8)
          else if i = 16 ∨ i = 17 then y.getLsbD (i - 8)
          else if i = 18 then y.getLsbD 10 else false) ∧
        (t.thread w.t).latches = w.th.latches ∧ Rest w (fun _ => false) s t)

/-- R214, R215, R217: DBDEC, DBENC, NCVT and BSUM claim their destination and give the decoded elements, the sealed block of the
encoded elements, the converted bytes, or the block's sum; the narrowing NCVT writes its word at issue.
R216, R166: CBLD loads the sixteen entries of a codebook slot of the group from eight registers, low half first; CBREAD reads a
pair of entries, or, at 8, whether the slot is loaded.
The element whose nearest code a codebook of equal distances leaves open is a free value (log 20). -/
def Obligations.FormatAndCodebookResults : Prop :=
  (∀ (h : Hdr) (ty fam : Ty) (rm : RMode) (sat : Bool) (slot : BitVec 2) (d a : BitVec 9) (b : Src) (w : Who) (s : State) (y : DWord)
    (bs : List Byte) (book : List (BitVec 16)) (ws : List Word),
    let m := roundOf w.th rm
    let ud : Use := { srcs := [(.b, b, 1)], named := [(a.toNat, 1)], dst := some (d.toNat, 1), lists := fun _ _ => [(a.toNat, 16)] }
    let ue : Use := { ud with lists := encWords a b }
    let ub : Use := { named := [(a.toNat, 1)], dst := some (d.toNat, tyWords ty), lists := fun _ _ => [(a.toNat, 16)] }
    let n := (loWord y).toNat
    let one (i : Nat) : Nat × Flags :=
      let v := elemValue bs fam book i
      let r := deliverElem (fmtOfTy ty) m v.1
      (r.1, v.2 ||| r.2)
    (CanClaim h ud d 1 w s → Reads ud w s b 1 y → readBlock w (advance w ud s) a fam slot = .ok (bs, book) → n < elemCount fam →
      (ty ≠ .bf16 → GivesFloatLater (.dbdec h ty rm d a b fam slot) d 1 (one n) w s) ∧
      (ty = .bf16 → n % 2 = 0 → GivesFloatLater (.dbdec h ty rm d a b fam slot) d 1
        ((one n).1 + (one (n + 1)).1 * 65536, (one n).2 ||| (one (n + 1)).2) w s)) ∧
    (let fmt := bits y 7 0
     let scale := bits y 15 8
     let zp := bits y 23 16
     let cb := codebook w.g (fmt - 0x10)
     CanClaimList h ue d 16 w s → Reads ue w s b 1 y → d ≠ 0 → d.toNat + 16 ≤ w.k.regs → fmtElem fmt = some fam →
      a.toNat + elemCount fam ≤ w.k.regs → (zpZero fam = true → zp = 0) → (fam = .c4 → cb.loaded = true) →
      (if scale = 0xFF then ws = [] else ReadsList ue w s a.toNat (elemCount fam) ws) →
      ∃ codes : List (Nat × Flags), ∃ q : Nat, q < 16 ∧
        codes = ws.map (fun v => encodeElem fam m sat scale (signedByte zp) cb.entries q v.toNat) ∧
        GivesList (.dbenc h rm sat d a b) d (wordsOf (sealBlock fmt scale zp (packCodes fam (codes.map (·.1)))))
          (codes.foldl (fun f c => f ||| c.2) 0) true w s) ∧
    (CanClaim h ub d 1 w s → readBlock w (advance w ub s) a fam slot = .ok (bs, book) →
      GivesFloatLater (.bsum h ty d a fam slot) d 1 (blockTotal bs fam book) w s) ∧
    (let uu : Use := { srcs := [(.a, b, 1)], dst := some (d.toNat, 4) }
     let byte (i : Nat) : Nat := bits y (8 * i + 7) (8 * i)
     let up (i : Nat) : Nat × Flags :=
       if ty = .i8 then deliverF fmt32 .rne false false (fvInt (signedByte (byte i))) else fConvert fmt32 (fmtOfTy ty) .rne false false (byte i)
     CanClaimList h uu d 4 w s → Reads uu w s b 1 y →
      GivesList (.ncvt h ty (.up b) d) d [BitVec.ofNat 32 (up 0).1, BitVec.ofNat 32 (up 1).1, BitVec.ofNat 32 (up 2).1, BitVec.ofNat 32 (up 3).1]
        ((up 0).2 ||| (up 1).2 ||| (up 2).2 ||| (up 3).2) true w s) ∧
    (let un : Use := { srcs := [(.a, b, 4)], dst := some (d.toNat, 1) }
     let down (x : Word) : Nat × Flags :=
       let v := operandF fmt32 false x.toNat
       let r := if ty = .i8 then narrowI m 0 v.1 else narrowF (fmtOfTy ty) m sat v.1
       (r.1, v.2 ||| r.2)
     ∀ x0 x1 x2 x3 m1, CanWrite h un d 1 w s → quad w (advance w un s) b = .ok ([x0, x1, x2, x3], m1) →
      GivesFloat (.ncvt h ty (.dn rm sat b) d) h d 1
        ((down x0).1 + (down x1).1 * 256 + (down x2).1 * 65536 + (down x3).1 * 16777216,
          (down x0).2 ||| (down x1).2 ||| (down x2).2 ||| (down x3).2) w s)) ∧
  (∀ (h : Hdr) (slot : BitVec 2) (d a : BitVec 9) (b : Src) (w : Who) (s : State) (y : DWord) (ws : List Word),
    let ul : Use := { named := [(a.toNat, 1)], lists := fun _ _ => [(a.toNat, 8)] }
    let ur : Use := { srcs := [(.b, b, 1)], dst := some (d.toNat, 1) }
    let cb := at_ w.g.cbs slot.toNat {}
    let i := (loWord y).toNat
    (Issues h ul w s → a.toNat + 8 ≤ w.k.regs → ReadsList ul w s a.toNat 8 ws →
      ∃ t, exec (.cbld h slot a) s = .next t ∧ Past w (nextPc w 8) t ∧ SameWords w (fun _ => false) s t ∧
        (∀ k, k ≠ slot.toNat → at_ (t.group w.t.vgid).cbs k {} = at_ (s.group w.t.vgid).cbs k {}) ∧
        (at_ (t.group w.t.vgid).cbs slot.toNat {}).loaded = true ∧
        ∀ j, j < 8 → (at_ (t.group w.t.vgid).cbs slot.toNat {}).entries.getD (2 * j) 0 = (ws.getD j 0).extractLsb' 0 16 ∧
          (at_ (t.group w.t.vgid).cbs slot.toNat {}).entries.getD (2 * j + 1) 0 = (ws.getD j 0).extractLsb' 16 16) ∧
    (CanWrite h ur d 1 w s → Reads ur w s b 1 y →
      (i < 8 → GivesNow (.cbread h slot d b) h d 1 8
        (BitVec.ofNat 64 ((cb.entries.getD (2 * i) 0).toNat + (cb.entries.getD (2 * i + 1) 0).toNat * 65536)) w s) ∧
      (i = 8 → GivesNow (.cbread h slot d b) h d 1 8 (if cb.loaded then 1 else 0) w s) ∧
      (8 < i → TrapsWith (.cbread h slot d b) 0x06 0 0x22 w s)))

/-- R36: an address of register space names a lane-bank or attic word, or none. R113, R114, R115: RDX and WRX reach the register at a computed
index; TAKE reads FULL words and leaves them EMPTY, GIVE fills
EMPTY words, each waiting for that state; TAGSET sets the tags of a run of words, and TAGQ reads them. -/
def Obligations.RegisterSpaceResults : Prop :=
  (∀ cl c l n d a, cl < 48 → c < 24 → l < 64 → n < 8192 → d < 4 → a < 2 ^ 20 →
    regForm (BitVec.ofNat 32 (cl * 2 ^ 24 + c * 2 ^ 19 + l * 2 ^ 13 + n)) = some (.bank cl c l n) ∧
    regForm (BitVec.ofNat 32 (2 ^ 30 + d * 2 ^ 20 + a)) = some (.attic d a)) ∧
  (∀ x : Word, (2 ≤ bits x 31 30 ∨ bits x 31 30 = 0 ∧ (47 < bits x 29 24 ∨ 23 < bits x 23 19) ∨ bits x 31 30 = 1 ∧ bits x 29 22 ≠ 0) →
    regForm x = none) ∧
  ∀ (h : Hdr) (ty : Ty) (st : TagState) (d a : BitVec 9) (x : Src) (m : BitVec 18) (w : Who) (s : State) (v y : DWord),
    let n := tyWords ty
    let idx (base : BitVec 9) : Word := base.setWidth 32 + loWord y
    let urd : Use := { srcs := [(.b, x, 1)], named := [(a.toNat, 1)], dst := some (d.toNat, n), lists := indexedWords ty a x }
    let uwr (b : Src) : Use := { srcs := [(.a, x, 1), (.b, b, n)], named := [(d.toNat, 1)] }
    let utk : Use := { named := [(a.toNat, n)], dst := some (d.toNat, n), cancel := .always, lists := fun _ _ => [(a.toNat, n)] }
    let ugv : Use := { srcs := [(.a, x, n)], named := [(d.toNat, n)], cancel := .always }
    let uts : Use := { srcs := [(.b, x, 1)], named := [(d.toNat, 1)] }
    let utq : Use := { named := [(a.toNat, 1)], dst := some (d.toNat, 1) }
    (CanWrite h urd d n w s → Reads urd w s x 1 y →
      ((idx a).toNat < w.k.regs → (n = 2 → (idx a).toNat % 2 = 0) → OwnValue w s (idx a).toNat n v → GivesNow (.rdx h ty d a x) h d n 8 v w s) ∧
      (w.k.regs ≤ (idx a).toNat → TrapsWith (.rdx h ty d a x) 0x06 ((idx a).setWidth 64) 0x20 w s) ∧
      ((idx a).toNat < w.k.regs → n = 2 → (idx a).toNat % 2 = 1 → TrapsWith (.rdx h ty d a x) 0x09 ((idx a).setWidth 64) 0 w s)) ∧
    (∀ b, Issues h (uwr b) w s → Reads (uwr b) w s x 1 y →
      ((idx d).toNat < w.k.regs → (n = 2 → (idx d).toNat % 2 = 0) → Reads (uwr b) w s b n v → DstFree w s (idx d).toNat n →
        ∃ t, exec (.wrx h ty d x b) s = .next t ∧ Goes w (inDst (idx d).toNat n) s t ∧ HoldsNow w (idx d).toNat n v t ∧
          (t.thread w.t).latches = w.th.latches) ∧
      (w.k.regs ≤ (idx d).toNat → TrapsWith (.wrx h ty d x b) 0x06 ((idx d).setWidth 64) 0x20 w s) ∧
      ((idx d).toNat < w.k.regs → n = 2 → (idx d).toNat % 2 = 1 → TrapsWith (.wrx h ty d x b) 0x09 ((idx d).setWidth 64) 0 w s)) ∧
    (Issues h utk w s →
      (AllTagged w s a.toNat n .full → OwnValue w s a.toNat n v → (h.nw = true ∨ DstFree w s d.toNat n) →
        ∃ t, exec (.take h ty d a) s = .next t ∧ Goes w (fun i => inDst a.toNat n i || (!h.nw && inDst d.toNat n i)) s t ∧
          (h.nw = false → HoldsNow w d.toNat n v t) ∧
          ∀ i, inDst a.toNat n i = true → (h.nw = true ∨ inDst d.toNat n i = false) → regGet t w.t i = ⟨(regGet s w.t i).val, .empty⟩) ∧
      (¬ AllTagged w s a.toNat n .full → (∀ i, inDst a.toNat n i = true → (regGet s w.t i).tag ≠ .poison) →
        WaitsFor (.take h ty d a) .retry w s)) ∧
    (Issues h ugv w s → Drained w s → Reads ugv w s x n v →
      (AllTagged w s d.toNat n .empty → (d ≠ 0 → ownAccOn s w.t d.toNat n = false) → ∃ t, exec (.give h ty d x) s = .next t ∧ Goes w (inDst d.toNat n) s t ∧ HoldsNow w d.toNat n v t ∧
        (t.thread w.t).latches = w.th.latches) ∧
      (¬ AllTagged w s d.toNat n .empty → (∀ i, inDst d.toNat n i = true → (regGet s w.t i).tag ≠ .poison) →
        WaitsFor (.give h ty d x) .retry w s)) ∧
    (let k := (loWord y).toNat
     Issues h uts w s → (∀ i, w.th.wait ≠ .tags i) → Reads uts w s x 1 y →
      ((k = 0 ∨ d.toNat + k ≤ w.k.regs) → (∀ i, inList d.toNat k i = true → (regGet s w.t i).tag ≠ .pend) →
        (k ≠ 0 → ownAccOn s w.t d.toNat k = false) →
        ∃ t, exec (.tagset h st d x) s = .next t ∧ Goes w (inList d.toNat k) s t ∧ ∀ i, inList d.toNat k i = true →
          regGet t w.t i = match st with
            | .empty => ⟨(regGet s w.t i).val, .empty⟩
            | .full => ⟨(regGet s w.t i).val, .full⟩
            | .poison => ⟨0x40000000, .poison⟩) ∧
      (k ≠ 0 → w.k.regs < d.toNat + k → TrapsWith (.tagset h st d x) 0x06 0 0x20 w s)) ∧
    (CanWrite h utq d 1 w s → m.toNat ≤ 16 →
      (a.toNat + m.toNat ≤ w.k.regs → (∀ i, m.toNat ≤ i → bits v (2 * i + 1) (2 * i) = 0) →
        (∀ i, i < m.toNat → bits v (2 * i + 1) (2 * i) = match (regGet s w.t (a.toNat + i)).tag with
          | .empty => 0 | .full => 1 | .pend => 2 | .poison => 3) → GivesNow (.tagq h d a m) h d 1 8 v w s) ∧
      (w.k.regs < a.toNat + m.toNat → TrapsWith (.tagq h d a m) 0x06 0 0x20 w s))

/-- R49, R50, R51, R116: WEXP opens the lowest free slot of the core with the next generation and claims its destination for the
handle; a length of 0, or a range with v0 or past the declared count, traps with reason 0x0C, and no free slot with 0x0B, as where the gangs
of the core reserve every slot that is left (R324).
R54, R117, R120: WREV of a window of the own group that no access names closes it; MCAST to no window gives 0, and to one or
more claims its destination, sends one delivery to each and holds its thread.
That MCAST holds its thread until its count is written is the model's reading (log 36). -/
def Obligations.WindowExportRevokeAndMulticast : Prop :=
  (∀ (h : Hdr) (rights : Rights) (clus : Bool) (d a : BitVec 9) (b : Src) (w : Who) (s : State) (y : DWord) (k : Nat),
    let u : Use := { srcs := [(.b, b, 1)], named := [(a.toNat, 1)], dst := some (d.toNat, 1) }
    let len := (loWord y).toNat
    let gen := (slotAt s w.g.core k).gen % 255 + 1
    let busy (i : Nat) : Prop := (slotAt s w.g.core i).opened = true ∨ inflight s w.g.core i ≠ 0
    let handle : Nat := w.g.core / 24 * 2 ^ 26 + w.g.core % 24 * 2 ^ 21 + k * 2 ^ 13 + gen * 2 ^ 5
    CanClaim h u d 1 w s → Reads u w s b 1 y →
    (w.k.windows ≤ (openSlots s w.t.vgid).length → TrapsWith (.wexp h rights clus d a b) 0x08 0 0x0B w s) ∧
    ((openSlots s w.t.vgid).length < w.k.windows →
      (len = 0 ∨ a = 0 ∨ w.k.regs < a.toNat + len → TrapsWith (.wexp h rights clus d a b) 0x08 0 0x0C w s) ∧
      (len ≠ 0 → a ≠ 0 → a.toNat + len ≤ w.k.regs →
        ((∀ i, i < 256 → busy i) ∨ slotLeft s w.g.core w.gk = false → TrapsWith (.wexp h rights clus d a b) 0x08 0 0x0B w s) ∧
        (slotLeft s w.g.core w.gk = true → k < 256 → ¬ busy k → (∀ i, i < k → busy i) →
          ∃ t, exec (.wexp h rights clus d a b) s = .next t ∧ WillWrite d 1 8 (BitVec.ofNat 64 (handle % 2 ^ 32)) 0 false w { s with cores := t.cores, fwd := t.fwd } t ∧
            slotAt t w.g.core k = ⟨w.t, w.k.vf, w.k.part, true, w.k.world, clus, rights, gen, a.toNat, len - 1⟩ ∧
            ∀ c i, (c, i) ≠ (w.g.core, k) → slotAt t c i = slotAt s c i)))) ∧
  (∀ (h : Hdr) (ty : Ty) (d : BitVec 9) (a b c : Src) (w : Who) (s : State) (x m p : DWord),
    let hd := loWord x
    let loc := handleSlot s hd
    let slot := slotAt s loc.1 loc.2.1
    let uv : Use := { srcs := [(.a, a, 1)] }
    let um : Use := { srcs := [(.a, a, 1), (.b, b, 2), (.c, c, 2)], dst := some (d.toNat, tyWords ty) }
    let targets := ((List.range 64).filter (fun i => m.getLsbD i)).filterMap (mcastTarget s w hd (hiWord p).toNat)
    (Issues h uv w s → Reads uv w s a 1 x →
      (handleCheck s w hd = none → slot.owner.vgid = w.t.vgid → inflight s loc.1 loc.2.1 = 0 →
        ∃ t, exec (.wrev h a) s = .next t ∧ Goes w (fun _ => false) { s with cores := t.cores } t ∧
          slotAt t loc.1 loc.2.1 = { slot with opened := false } ∧
          (∀ k i, (k, i) ≠ (loc.1, loc.2.1) → slotAt t k i = slotAt s k i) ∧ (t.thread w.t).latches = w.th.latches) ∧
      (∀ reason, handleCheck s w hd = some reason → TrapsWith (.wrev h a) 0x08 (hd.setWidth 64) (BitVec.ofNat 32 reason) w s) ∧
      (handleCheck s w hd = none → slot.owner.vgid ≠ w.t.vgid → TrapsWith (.wrev h a) 0x08 (hd.setWidth 64) 0x07 w s)) ∧
    (tyWords ty = 1 → CanClaim h um d 1 w s → NoTake w s → Reads um w s a 1 x → Reads um w s b 2 m → Reads um w s c 2 p →
      (∀ i, i < 64 → m.getLsbD i = true → i < 48 ∧ (s.part w.k.part).clu.getLsbD i = true) →
      (targets = [] → GivesLater (.mcast h ty d a b c) d 1 8 0 0 false w s) ∧
      (targets ≠ [] → ∃ t, exec (.mcast h ty d a b c) s = .next t ∧
        HeldFor w (.access s.nextId) (inDst d.toNat 1) { s with accs := t.accs, mcasts := t.mcasts, nextId := t.nextId } t ∧ Claimed w d.toNat 1 t ∧
        t.mcasts = s.mcasts ++ [{ id := s.nextId, tid := w.t, dst := d.toNat, handle := hd, left := targets.length, off := (hiWord p).toNat, next := nextPc w 8 }] ∧
        ∃ qs : List WinAcc, t.accs = s.accs ++ qs ∧ qs.length = targets.length ∧ ∀ (i : Nat) (q : WinAcc) (z : Nat × Nat × Slot), qs[i]? = some q → targets[i]? = some z →
          q.kind = .mcast s.nextId ∧ q.tid = w.t ∧ q.slot = some (z.1, z.2.1) ∧ q.owner = z.2.2.owner ∧
          q.reg = z.2.2.base + (hiWord p).toNat ∧ q.n = 1 ∧ q.vals = [loWord p])))

/-- R118, R119: a window or lane read that passes R52's checks claims its destination and is under way; a window or lane write is
under way and holds its thread; a failing check traps with its reason and the offset. -/
def Obligations.WindowAndLaneAccesses : Prop :=
  ∀ (h : Hdr) (ty : Ty) (d r : BitVec 9) (a b c : Src) (w : Who) (s : State) (x y v : DWord),
    let n := tyWords ty
    let hd := loWord x
    let o := (loWord y).toNat
    let loc := handleSlot s hd
    let slot := slotAt s loc.1 loc.2.1
    let ok (g : Right) : Prop := windowCheck s w hd o 1 g = none ∧ (n = 2 → o % 2 = 0 ∧ o + 1 ≤ slot.lenm1)
    let acc (kind : WinKind) (vals : List Word) (dst : Nat) : WinAcc :=
      { id := s.nextId, kind := kind, tid := w.t, slot := some (loc.1, loc.2.1), owner := slot.owner, reg := slot.base + o, n := n,
        vals := vals, dst := dst, handle := hd, off := o, after := w.th.seen }
    let lane (kind : WinKind) (reg : Nat) (vals : List Word) (dst : Nat) : WinAcc :=
      { id := s.nextId, kind := kind, tid := w.t, slot := none, owner := ⟨w.t.vgid, w.t.layer, hd.toNat⟩, reg := reg, n := n,
        vals := vals, dst := dst, handle := 0, off := 0, after := w.th.seen }
    let under (t : State) (q : WinAcc) : State := { s with accs := s.accs ++ [q], nextId := t.nextId }
    let reads (i : Instr) (q : WinAcc) : Prop :=
      ∃ t, exec i s = .next t ∧ Goes w (inDst d.toNat n) (under t q) t ∧ Claimed w d.toNat n t ∧ s.nextId < t.nextId
    let writes (i : Instr) (q : WinAcc) : Prop :=
      ∃ t, exec i s = .next t ∧ HeldFor w (.access s.nextId) (fun _ => false) (under t q) t ∧ s.nextId < t.nextId
    let refused (i : Instr) (g : Right) : Prop := ∀ reason, windowCheck s w hd o 1 g = some reason →
      TrapsWith i 0x08 (hd.setWidth 64) (BitVec.ofNat 32 (reason + o % 512 * 256)) w s
    let ur := useRead ty d a b
    let uw := useWrite ty a b c
    let ul : Use := { srcs := [(.a, a, 1)], remote := [(r.toNat, n)], dst := some (d.toNat, n) }
    let us : Use := { srcs := [(.a, a, 1), (.b, b, n)], remote := [(d.toNat, n)] }
    (CanClaim h ur d n w s → NoTake w s → Reads ur w s a 1 x → Reads ur w s b 1 y →
      (ok .read → reads (.wld h ty d a b) (acc .wld [] d.toNat)) ∧ refused (.wld h ty d a b) .read) ∧
    (CanClaim h { ur with cancel := .always } d n w s → NoTake w s → Reads ur w s a 1 x → Reads ur w s b 1 y →
      (ok .take → reads (.wtake h ty d a b) (acc .wtake [] d.toNat)) ∧ refused (.wtake h ty d a b) .take) ∧
    (Issues h uw w s → NoTake w s → Reads uw w s a 1 x → Reads uw w s b 1 y → Reads uw w s c n v →
      (ok .write → writes (.wst h ty a b c) (acc .wst (wordsN n v) 0)) ∧ refused (.wst h ty a b c) .write) ∧
    (Issues h { uw with cancel := .always } w s → Drained w s → Reads uw w s a 1 x → Reads uw w s b 1 y → Reads uw w s c n v →
      (ok .give → writes (.wgive h ty a b c) (acc .wgive (wordsN n v) 0)) ∧ refused (.wgive h ty a b c) .give) ∧
    (CanClaim h ul d n w s → Reads ul w s a 1 x →
      (hd.toNat < w.k.width → reads (.lnrd h ty d a r) (lane .lnrd r.toNat [] d.toNat)) ∧
      (w.k.width ≤ hd.toNat → TrapsWith (.lnrd h ty d a r) 0x06 0 0x21 w s)) ∧
    (Issues h us w s → Reads us w s a 1 x → Reads us w s b n v →
      (hd.toNat < w.k.width → writes (.lnwr h ty d a b) (lane .lnwr d.toNat (wordsN n v) 0)) ∧
      (w.k.width ≤ hd.toNat → TrapsWith (.lnwr h ty d a b) 0x06 0 0x21 w s))

/-- R352 to R358: a translation from memory, at a leaf that passes every check, gives the frame's address and the offset in the page,
sets A, and D for a write, in the leaf's eight bytes, and changes no other byte; a failing walk or check gives its error.
R359: the translation is cached in the unit and in the walker of its die. R358: the bits are set by a write at the SE, before which a granule
that a cut owes is copied (R430), and which fires monitors (R138).
An address that no table maps but at which an inbox stands translates to the inbox: where it stands is the model's choice (log 67). -/
def Obligations.TranslationFromMemory : Prop :=
  ∀ (s : State) (c : Ctx) (va : Nat) (need : Need) (sp : Option Space) (l : Leaf), cacheHit s c va = none →
    (∀ e, walk s c va = .error e → inboxFrame s c va = none → translate s c va need sp = .error e) ∧
    (∀ e pa, walk s c va = .error e → inboxFrame s c va = some pa → translate s c va need sp = match leafCheck s c (inboxLeaf c) pa need sp with
      | some x => .error x
      | none => .ok (pa, s)) ∧
    (walk s c va = .ok l →
      let size := leafSize l.lvl
      let pa := (if need = .engWrite ∧ l.e.getLsbD 9 = true then l.wings else (l.e.extractLsb' 12 36).toNat * 65536) + va % size
      let new := l.e ||| (if need = .write ∨ need = .atomic ∨ need = .engWrite then 0x60 else 0x40)
      (∀ e, leafCheck s c l.e pa need sp = some e → translate s c va need sp = .error e) ∧
      (leafCheck s c l.e pa need sp = none → ∃ m, translate s c va need sp = .ok (pa, m) ∧
        m = { (if new = l.e then s else performBytes s l.at_ (bytes64 new)) with tlbs := m.tlbs } ∧
        (cutOwed s l.at_ 8 = [] →
          m = { s with mem := m.mem, tlbs := m.tlbs, gran := m.gran, host := m.host, threads := m.threads } ∧
          (∀ x, m.thread x = { s.thread x with monitor := (m.thread x).monitor }) ∧
          (∀ a, (∀ j, j < 8 → a ≠ canon s (l.at_ + j)) → memGet m.mem a = memGet s.mem a) ∧
          (Memory.wf s.mem = true → l.at_ + 8 ≤ devBytes → read64 s l.at_ = l.e → read64 m l.at_ = new) ∧
          (∀ u, u ≠ c.unit → u ≠ walkerOf c.unit → at_ m.tlbs u [] = at_ s.tlbs u [])) ∧
        ∃ x, cacheHit m c va = some x ∧ x.leaf = new ∧ x.va = va - va % size ∧ x.size = size ∧ x.src = l.at_))

/-- R121 to R124: a load or a store whose address translates takes an entry with the access's bytes in their pieces, a load claiming
its destination, and changes nothing else beyond what its translation did; a store's bytes are its value's. A misaligned
address traps where ATOM asks for alignment, a failed translation traps, and a thread with 32 entries waits. -/
def Obligations.LoadsAndStoresIssue : Prop :=
  ∀ (h : Hdr) (ty : Ty) (ord : MemOrd) (am : Atomicity) (d : BitVec 9) (a b : Src) (w : Who) (s : State) (x : DWord) (ws : List Word),
    let n := accessBytes ty am
    let k := max 1 (n / 4)
    let va := x.toNat
    let ul : Use := { srcs := [(.a, a, 2)], dst := some (d.toNat, k) }
    let us : Use := { srcs := [(.a, a, 2), (.b, b, k)] }
    let off : Prop := am ≠ .word ∧ va % n ≠ 0
    let pushed (e : StoreEntry) : Group :=
      { s.group w.t.vgid with
        queue := (s.group w.t.vgid).queue ++ [e] }
    let loads (sp : Space) (i : Instr) : Prop :=
      (off → TrapsWith i 0x09 x 0 w s) ∧
      (¬ off → ∀ e v, translateRange (advance w ul s) w.ctx va n .read (some sp) = .error (e, v) →
        TrapsWith i e.cause (BitVec.ofNat 64 v) e.info w s) ∧
      (¬ off → ∀ ps m, translateRange (advance w ul s) w.ctx va n .read (some sp) = .ok (ps, m) →
        ((s.loads.filter (fun l => l.tid = w.t)).length < 32 →
          ∃ t e, exec i s = .next t ∧ Goes w (inDst d.toNat k) { m with loads := s.loads ++ [e], nextId := s.nextId + 1 } t ∧
            Claimed w d.toNat k t ∧ e.tid = w.t ∧ e.dst = d.toNat ∧ e.ty = ty ∧ e.va = va ∧ e.got = [] ∧ e.acq = ord ∧ e.after = w.th.seen ∧
            PiecesFit (am ≠ .word) ps e.pieces) ∧
        (32 ≤ (s.loads.filter (fun l => l.tid = w.t)).length → WaitsFor i .retry w s))
    let stores (sp : Space) (i : Instr) : Prop :=
      let held := ((s.group w.t.vgid).queue.filter (fun e => e.tid = w.t)).length
      (off → TrapsWith i 0x09 x 0 w s) ∧
      (¬ off → ∀ e v, translateRange (advance w us s) w.ctx va n .write (some sp) = .error (e, v) →
        TrapsWith i e.cause (BitVec.ofNat 64 v) e.info w s) ∧
      (¬ off → ∀ ps m, translateRange (advance w us s) w.ctx va n .write (some sp) = .ok (ps, m) →
        (held < 32 → ∃ t e, exec i s = .next t ∧ Goes w (fun _ => false) { m with groups := t.groups, nextId := s.nextId + 1 } t ∧
          (t.thread w.t).latches = w.th.latches ∧
          t.group w.t.vgid = pushed e ∧ (∀ v, v ≠ w.t.vgid → t.group v = s.group v) ∧
          e.tid = w.t ∧ e.va = va ∧ e.rel = ord ∧ e.red = none ∧ e.after = w.th.seen ∧
          PiecesFit (am ≠ .word) ps (e.pieces.map (fun p => (p.1, p.2.length))) ∧
          e.pieces.flatMap (fun p => p.2) = (bytesOf ws).take n) ∧
        (32 ≤ held → WaitsFor i .retry w s))
    (CanClaim h ul d k w s → NoTake w s → Reads ul w s a 2 x →
      loads .g (.ldg h ty ord am d a) ∧ loads .f (.ldf h ty ord am d a) ∧ loads .h (.ldh h ty ord am d a)) ∧
    (Issues h us w s → NoTake w s → Reads us w s a 2 x → StoreWords us w s b k ws →
      stores .g (.stg h ty ord am a b) ∧ stores .f (.stf h ty ord am a b) ∧ stores .h (.sth h ty ord am a b))

/-- R337, R339, R341, R342: ATOM, FATOM and ACAS claim their destination and go to the SE with the operands read; RED takes a store
entry; VATOM sends its first element and is held; ATOMW goes to the word.
That ATOMW on a POISON word traps at its issue is the model's reading (log 34). -/
def Obligations.AtomicsIssue : Prop :=
  ∀ (h : Hdr) (ty : Ty) (ord : MemOrd) (op : AtomOp) (d r : BitVec 9) (nm1 : BitVec 5) (a b c : Src) (w : Who) (s : State) (x y z : DWord)
    (ws : List Word),
    let n := tyWords ty
    let va := x.toNat
    let released : Prop := ord ≠ .relaxed → Drained w s
    let pushed (e : StoreEntry) : Group :=
      { s.group w.t.vgid with
        queue := (s.group w.t.vgid).queue ++ [e] }
    let device : Prop := ∀ e, cacheHit s w.ctx va = some e → (place (frameOf e.leaf + (va - e.va))).space = some .g
    let u2 : Use := { srcs := [(.a, a, 2), (.b, b, n)], dst := some (d.toNat, n) }
    let u3 : Use := { srcs := [(.a, a, 2), (.b, b, n), (.c, c, n)], dst := some (d.toNat, n) }
    let ur : Use := { srcs := [(.a, a, 2), (.b, b, n)] }
    let uv : Use := { srcs := [(.a, a, 2)], named := [(r.toNat, 1)], dst := some (d.toNat, 1), lists := fun _ _ => [(r.toNat, nm1.toNat + 1)] }
    let nc := if op = .cas then 2 else 1
    let uw : Use := { srcs := [(.a, a, 1), (.b, b, 1), (.c, c, nc)], dst := some (d.toNat, 1) }
    let sent (u : Use) (i : Instr) (kind : AtomKind) (v : DWord) : Prop :=
      (va % (4 * n) ≠ 0 → TrapsWith i 0x09 x 0 w s) ∧
      (va % (4 * n) = 0 → ∀ e, translate (advance w u s) w.ctx va .atomic (some .g) = .error e → TrapsWith i e.cause x e.info w s) ∧
      (va % (4 * n) = 0 → ∀ pa m, translate (advance w u s) w.ctx va .atomic (some .g) = .ok (pa, m) →
        ∃ t q, exec i s = .next t ∧ Goes w (inDst d.toNat n) { m with atomics := s.atomics ++ [q], nextId := s.nextId + 1 } t ∧
          Claimed w d.toNat n t ∧ q.tid = w.t ∧ q.kind = kind ∧ q.ty = ty ∧ q.addr = pa ∧ q.b = y ∧ q.c = v ∧ q.dst = d.toNat ∧ q.ord = ord)
    (CanClaim h u2 d n w s → NoTake w s → released → Reads u2 w s a 2 x → Reads u2 w s b n y →
      sent u2 (.atom h ty ord d a b op) (.op op) 0 ∧ sent u2 (.fatom h ty ord d a b op) (.op op) 0) ∧
    (CanClaim h u3 d n w s → NoTake w s → released → Reads u3 w s a 2 x → Reads u3 w s b n y → Reads u3 w s c n z →
      sent u3 (.acas h ty ord d a b c) .cas z) ∧
    (Issues h ur w s → NoTake w s → Reads ur w s a 2 x → Reads ur w s b n y →
      (va % (4 * n) ≠ 0 → TrapsWith (.red h ty ord a b op) 0x09 x 0 w s) ∧
      (va % (4 * n) = 0 → ¬ device → TrapsWith (.red h ty ord a b op) 0x06 x 0x10 w s) ∧
      (va % (4 * n) = 0 → device → ((s.group w.t.vgid).queue.filter (fun e => e.tid = w.t)).length < 32 →
        ∃ t e, exec (.red h ty ord a b op) s = .next t ∧ Goes w (fun _ => false) { s with groups := t.groups, nextId := s.nextId + 1 } t ∧
          t.group w.t.vgid = pushed e ∧ (∀ v, v ≠ w.t.vgid → t.group v = s.group v) ∧
          (t.thread w.t).latches = w.th.latches ∧ e.tid = w.t ∧ e.va = va ∧ e.rel = ord ∧ e.pieces = [] ∧ e.red = some ⟨op, ty, y⟩)) ∧
    (let cnt := nm1.toNat + 1
     Issues h uv w s → NoTake w s → released → w.th.resuming = false → Reads uv w s a 2 x → ReadsList uv w s r.toNat cnt ws →
      (va % 4 ≠ 0 → TrapsWith (.vatom h ty ord d a r op nm1) 0x09 x 0 w s) ∧
      (va % 4 = 0 → (w.k.regs < d.toNat + cnt ∨ w.k.regs < r.toNat + cnt) → TrapsWith (.vatom h ty ord d a r op nm1) 0x06 0 0x20 w s) ∧
      (va % 4 = 0 → d.toNat + cnt ≤ w.k.regs → r.toNat + cnt ≤ w.k.regs → ∀ pa m,
        translate (advance w uv s) w.ctx va .atomic (some .g) = .ok (pa, m) →
        ∃ t q, exec (.vatom h ty ord d a r op nm1) s = .next t ∧
          HeldFor w (.vatom s.nextId) (fun _ => false) { m with atomics := s.atomics ++ [q], nextId := s.nextId + 1 } t ∧
          q.tid = w.t ∧ q.kind = .vatom 0 cnt op ∧ q.addr = pa ∧ q.b = (ws.getD 0 0).setWidth 64 ∧ q.dst = d.toNat ∧ q.nw = h.nw)) ∧
    (let hd := loWord x
     let o := (loWord y).toNat
     let loc := handleSlot s hd
     let slot := slotAt s loc.1 loc.2.1
     CanClaim h uw d 1 w s → NoTake w s → Reads uw w s a 1 x → Reads uw w s b 1 y → Reads uw w s c nc z →
      windowCheck s w hd o 1 .readWrite = none → (regGet s slot.owner (slot.base + o)).tag ≠ .poison →
      ∃ t q, exec (.atomw h ty op d a b c) s = .next t ∧ Goes w (inDst d.toNat 1) { s with accs := s.accs ++ [q], nextId := s.nextId + 1 } t ∧
        Claimed w d.toNat 1 t ∧ q.kind = .atomw op (tySigned ty) ∧ q.tid = w.t ∧ q.slot = some (loc.1, loc.2.1) ∧ q.owner = slot.owner ∧
        q.reg = slot.base + o ∧ q.n = 1 ∧ q.vals = wordsN nc z ∧ q.dst = d.toNat)

/-- R126, R135, R136, R137, R139: WAITQ ends with at most its count of entries outstanding, FENCE when its kind's accesses are done,
FENCESC at the tick after its core has drained, HBWAIT at its tick; otherwise each waits. MWAIT takes a fired monitor.
R138: MARM arms the granule of a translated address or a word of a window, in place of the thread's earlier monitor.
That WAITQ.ld counts loads and no atomics is the model's reading (log 57). -/
def Obligations.QueueFenceAndMonitorInstructions : Prop :=
  (∀ (h : Hdr) (st : Bool) (sc : Scope) (d : BitVec 9) (b : Src) (w : Who) (s : State) (x : DWord),
    let uq : Use := { srcs := [(.b, b, 1)], cancel := .never }
    let held := if st then ((s.group w.t.vgid).queue.filter (fun e => e.tid = w.t)).length else (s.loads.filter (fun l => l.tid = w.t)).length
    let noLoads : Prop := (∀ l ∈ s.loads, l.tid ≠ w.t) ∧ (∀ q ∈ s.atomics, q.tid ≠ w.t) ∧ (∀ q ∈ s.accs, q.tid ≠ w.t)
    let um : Use := { srcs := [(.b, b, 1)], dst := some (d.toNat, 1), cancel := .always }
    let uh (n : Nat) : Use := { srcs := [(.b, b, n)], cancel := .always }
    let drained (m c : Nat) : Prop := noLoads ∧ (∀ g ∈ s.groups, g.2.core = c → ∀ e ∈ g.2.queue, m ≤ e.id) ∧
      (∀ r ∈ s.reds, (s.group r.tid.vgid).core = c → m ≤ r.id)
    (Issues h uq w s → Reads uq w s b 1 x →
      (held ≤ (loWord x).toNat → GivesNothing (.waitq h st b) w s) ∧ ((loWord x).toNat < held → WaitsFor (.waitq h st b) .retry w s)) ∧
    (Issues h {} w s →
      (noLoads → GivesNothing (.fence h .acq sc) w s) ∧ (¬ noLoads → WaitsFor (.fence h .acq sc) (.fence .acq sc) w s) ∧
      (Drained w s → GivesNothing (.fence h .full sc) w s ∧ GivesNothing (.fence h .rel sc) w s) ∧
      (¬ Drained w s → WaitsFor (.fence h .full sc) (.fence .full sc) w s ∧ WaitsFor (.fence h .rel sc) (.fence .rel sc) w s)) ∧
    (Issues h {} w s →
      ((∀ m c t, w.th.wait ≠ .fencesc m c t) →
        (drained s.nextId w.g.core → WaitsFor (.fencesc h) (.fencesc s.nextId w.g.core (some (s.hbt + 1))) w s) ∧
        (¬ drained s.nextId w.g.core → WaitsFor (.fencesc h) (.fencesc s.nextId w.g.core none) w s)) ∧
      (∀ m c, w.th.wait = .fencesc m c none → drained m c → WaitsFor (.fencesc h) (.fencesc m c (some (s.hbt + 1))) w s) ∧
      (∀ m c k, w.th.wait = .fencesc m c (some k) →
        (k ≤ s.hbt → GivesNothing (.fencesc h) w s) ∧ (s.hbt < k → WaitsFor (.fencesc h) (.fencesc m c (some k)) w s))) ∧
    (let n := match b with | .imm _ => 1 | _ => 2
     Issues h (uh n) w s → Reads (uh n) w s b n x →
      let tick := if n = 1 then s.hbt + x.toNat else x.toNat
      (tick ≤ s.hbt → GivesNothing (.hbwait h b) w s) ∧ (s.hbt < tick → Holds (.hbwait h b) (.hbt tick) w s)) ∧
    (CanWrite h um d 1 w s → Reads um w s b 1 x →
      (w.th.monitor = none → GivesNow (.mwait h d b) h d 1 8 0 w s) ∧
      (∀ m, w.th.monitor = some m → m.fired = true →
        ∃ t, exec (.mwait h d b) s = .next t ∧ WroteNow h d 1 (nextPc w 8) 1 0 w s t ∧ (t.thread w.t).monitor = none) ∧
      (∀ m, w.th.monitor = some m → m.fired = false → (∀ c e, w.th.wait ≠ .mwait c e) →
        (loWord x = 0 → ∃ t, exec (.mwait h d b) s = .next t ∧ WroteNow h d 1 (nextPc w 8) 0 0 w s t ∧ ((t.thread w.t).monitor).isSome) ∧
        (loWord x ≠ 0 → WaitsFor (.mwait h d b) (.mwait (s.cyc + (loWord x).toNat) d.toNat) w s)))) ∧
  (∀ (h : Hdr) (a b : Src) (w : Who) (s : State) (x y : DWord),
    let ug : Use := { srcs := [(.a, a, 2)] }
    let uw : Use := { srcs := [(.a, a, 1), (.b, b, 1)] }
    let hd := loWord x
    let o := (loWord y).toNat
    let loc := handleSlot s hd
    let slot := slotAt s loc.1 loc.2.1
    let used := ((s.threads.filter (fun p => p.2.monitor.isSome)).filter (fun p => (s.group p.1.vgid).gang = w.gk)).length
    let room : Prop := w.th.monitor.isSome ∨ (w.k.fr = false ∧ used < w.k.monitors)
    let full : Prop := w.th.monitor = none ∧ w.k.fr = false ∧ w.k.monitors ≤ used
    let spilled : Bool := match w.th.monitor with
      | some x => x.spill
      | none => false
    (Issues h ug w s → Reads ug w s a 2 x →
      (∀ e, translate (advance w ug s) w.ctx x.toNat .read (some .g) = .error e → TrapsWith (.marm h (.g a)) e.cause x e.info w s) ∧
      (∀ pa m, translate (advance w ug s) w.ctx x.toNat .read (some .g) = .ok (pa, m) →
        (room → ∃ t, exec (.marm h (.g a)) s = .next t ∧ Goes w (fun _ => false) m t ∧
          (t.thread w.t).monitor = some ⟨false, false, canon s pa / 64 * 64, w.t, 0, spilled⟩ ∧ (t.thread w.t).latches = w.th.latches) ∧
        (full → TrapsWith (.marm h (.g a)) 0x0E x 0x10 w s))) ∧
    (Issues h uw w s → NoTake w s → Reads uw w s a 1 x → Reads uw w s b 1 y → windowCheck s w hd o 1 .read = none →
      (room → ∃ t, exec (.marm h (.w a b)) s = .next t ∧ Goes w (fun _ => false) s t ∧
        (t.thread w.t).monitor = some ⟨false, true, 0, slot.owner, slot.base + o, spilled⟩ ∧ (t.thread w.t).latches = w.th.latches) ∧
      (full → TrapsWith (.marm h (.w a b)) 0x0E (BitVec.ofNat 64 (regAddr s slot.owner (slot.base + o))) 0x10 w s)))

/-- R127 to R131: BINIT writes a new object, whose generation is 0 and of which all arrivals are awaited, and takes its entry, or
frees the entry of one; a place, a count or a lack of an entry that does not allow it traps.
R130: freeing an object gives each thread that waits on it a trap.
R131 to R134: BARR counts an arrival and returns the generation; the last one, with no byte outstanding, begins the next
generation and makes the threads that wait for it READY; with none awaited the arrival is deferred, and the next generation counts it.
BWAIT ends when the generation differs, or when it was made READY so; BXFER adds a linked copy's outstanding bytes.
That a barrier word that is PEND makes the instruction wait is the model's reading (log 41). -/
def Obligations.BarrierObjects : Prop :=
  (∀ (h : Hdr) (sc : Scope) (d : BitVec 9) (b : Src) (w : Who) (s : State) (x : DWord),
    let u : Use := { srcs := [(.b, b, 1)], named := [(d.toNat, 1)] }
    let o := d.toNat
    let e := (loWord x).toNat
    let i := Instr.binit h sc d b
    let at_ := BitVec.ofNat 64 (regAddr s w.t o)
    let has : Prop := ∃ y ∈ s.barriers, y.owner = w.t ∧ y.reg = o
    let used := (s.barriers.filter (fun y => (s.group y.owner.vgid).gang = w.gk)).length
    Issues h u w s → Reads u w s b 1 x →
    ((o % 4 ≠ 0 ∨ o < 4) → TrapsWith i 0x09 (BitVec.ofNat 64 o) 0 w s) ∧
    (o % 4 = 0 → 4 ≤ o → w.k.regs ≤ o + 3 → TrapsWith i 0x06 (BitVec.ofNat 64 o) 0x20 w s) ∧
    (o % 4 = 0 → 4 ≤ o → o + 3 < w.k.regs →
      (65535 < e → TrapsWith i 0x01 0 5 w s) ∧
      (e = 0 → has → (∀ y ∈ barWaiters s w.t o, y = w.t) → ∃ t, exec i s = .next t ∧ Goes w (fun _ => false) { s with barriers := t.barriers } t ∧
        (t.thread w.t).latches = w.th.latches ∧ ∀ y, y ∈ t.barriers ↔ y ∈ s.barriers ∧ ¬ (y.owner = w.t ∧ y.reg = o)) ∧
      (e = 0 → has → (∀ y ∈ barWaiters s w.t o, y ≠ w.t → Deliverable 2 (s.who y) s) → ∃ t, exec i s = .next t ∧
        (∀ y, y ∈ t.barriers ↔ y ∈ s.barriers ∧ ¬ (y.owner = w.t ∧ y.reg = o)) ∧
        ∀ y ∈ barWaiters s w.t o, y ≠ w.t → Trapped 0x0E at_ 1 y s t) ∧
      (e = 0 → ¬ has → TrapsWith i 0x0E at_ 1 w s) ∧
      (0 < e → e ≤ 65535 → has → TrapsWith i 0x0E at_ 3 w s) ∧
      (0 < e → e ≤ 65535 → ¬ has → w.k.fr = false → w.k.barriers ≤ used → TrapsWith i 0x0E at_ 0 w s) ∧
      (0 < e → e ≤ 65535 → ¬ has → w.k.fr = false → used < w.k.barriers → (∀ j, j < 4 → (regGet s w.t (o + j)).tag ≠ .pend) →
        ownAccOn s w.t o 4 = false →
        ∃ t, exec i s = .next t ∧ Goes w (inDst o 4) { s with barriers := s.barriers ++ [⟨w.g.core / 288, w.t, o, sc, false⟩] } t ∧
          (t.thread w.t).latches = w.th.latches ∧
          regGet t w.t o = ⟨0, .full⟩ ∧ regGet t w.t (o + 1) = ⟨0, .full⟩ ∧
          regGet t w.t (o + 2) = ⟨BitVec.ofNat 32 (e % 16 * 2 ^ 28), .full⟩ ∧
          regGet t w.t (o + 3) = ⟨BitVec.ofNat 32 (e * 2 ^ 12 + e / 16), .full⟩))) ∧
  (∀ (h : Hdr) (out : Bool) (d : BitVec 9) (a b c : Src) (w : Who) (s : State) (x y z : DWord) (obj : BarObj),
    let hd := loWord x
    let loc := handleSlot s hd
    let slot := slotAt s loc.1 loc.2.1
    let o := slot.owner
    let i := slot.base + (loWord y).toNat
    let ok (g : Right) : Prop := windowCheck s w hd (loWord y).toNat 1 g = none
    let ur : Use := { srcs := [(.a, a, 1), (.b, b, 1)], dst := some (d.toNat, 1) }
    let uw : Use := { srcs := [(.a, a, 1), (.b, b, 1), (.c, c, 1)], cancel := .always }
    let ux : Use := { srcs := [(.a, a, 1), (.b, b, 1), (.c, c, 2)] }
    let object (q : Tid) (j : Nat) : Prop := q = o ∧ i ≤ j ∧ j < i + 4
    let kept := deferred s o i
    (∀ g, w.th.wait = .counted g → CanWrite h ur d 1 w s → GivesNow (.barr h d a b) h d 1 8 (BitVec.ofNat 64 g) w s) ∧
    (w.th.wait = .posted → Issues h uw w s → Reads uw w s c 1 z → GivesNothing (.bwait h a b c) w s) ∧
    (ObjectAt s o i obj → NoTake w s → w.t ∉ kept → (∀ g, w.th.wait ≠ .counted g) →
    (CanWrite h ur d 1 w s → Reads ur w s a 1 x → Reads ur w s b 1 y → ok .readWrite → Drained w s →
      (obj.pending ≠ 0 → (h.nw = true ∨ ¬ object w.t d.toNat) →
        ∃ t, exec (.barr h d a b) s = .next t ∧ Past w (nextPc w 8) t ∧ (h.nw = false → HoldsNow w d.toNat 1 (BitVec.ofNat 64 obj.gen) t) ∧
          barGet t o i = nextGen kept.length { obj with pending := obj.pending - 1 } ∧ t.mem = s.mem ∧
          (obj.pending = 1 → obj.inbound = 0 → obj.outbound = 0 → kept.length < obj.expected →
            ∀ q ∈ kept, (t.thread q).st = .ready ∧ (t.thread q).wait = .counted ((obj.gen + 1) % 16)) ∧
          (obj.pending = 1 → obj.inbound = 0 → obj.outbound = 0 → ∀ q, q ≠ w.t → waiting s q = some (.barrier o i) →
            (t.thread q).st = .ready ∧ (t.thread q).wait = .posted) ∧
          (∀ j, j < 4 → (regGet t o (i + j)).tag = .full) ∧
          ∀ q j, ¬ object q j → ¬ (q = w.t ∧ h.nw = false ∧ inDst d.toNat 1 j = true) → regGet t q j = regGet s q j) ∧
      (obj.pending = 0 → WaitsFor (.barr h d a b) (.arrive o i) w s)) ∧
    (w.th.wait ≠ .posted → Issues h uw w s → Reads uw w s a 1 x → Reads uw w s b 1 y → Reads uw w s c 1 z → ok .read →
      (obj.gen ≠ bits z 3 0 → GivesNothing (.bwait h a b c) w s) ∧ (obj.gen = bits z 3 0 → WaitsFor (.bwait h a b c) (.barrier o i) w s)) ∧
    (Issues h ux w s → Reads ux w s a 1 x → Reads ux w s b 1 y → Reads ux w s c 2 z → ok .readWrite →
      ((∀ p, c = .reg p → ∀ l ∈ w.th.links, l.pair ≠ p.toNat) → GivesNothing (.bxfer h out a b c) w s) ∧
      (∀ p l q n, c = .reg p → w.th.links.find? (fun l => l.pair = p.toNat) = some l → findReq s l.cl l.seq = some q → (q.st = .accepted ∨ q.st = .running) →
        q.total = some n →
        let v := (if out then obj.outbound else obj.inbound) + (n - q.counted)
        (2 ^ 30 ≤ v → TrapsWith (.bxfer h out a b c) 0x0E (BitVec.ofNat 64 (regAddr s o i)) 4 w s) ∧
        (v < 2 ^ 30 → ∃ t, exec (.bxfer h out a b c) s = .next t ∧ Past w (nextPc w 8) t ∧
          barGet t o i = nextGen kept.length (if out then { obj with outbound := v } else { obj with inbound := v }) ∧
          (findReq t l.cl l.seq).map (fun r => r.barriers) = some (q.barriers ++ [(o, i, out)]) ∧ t.mem = s.mem ∧
          ∀ p j, ¬ object p j → regGet t p j = regGet s p j)))))

/-- R218, R189, R219, R220: MTASK whose record passes every check claims the tile's own words and the pairs in use, adds the task to
its cluster's queue and writes the ticket; MTWAIT gives the stamp of an ended task and waits for one that has not; MTQRY gives the
state's code. -/
def Obligations.TileTaskTickets : Prop :=
  ∀ (h : Hdr) (d a : BitVec 9) (x : Src) (w : Who) (s : State) (v : DWord) (ws : List Word),
    let um : Use := { named := [(a.toNat, 1)], dst := some (d.toNat, 2), lists := fun _ _ => [(a.toNat, 16)] }
    let r := recOf ws
    let gs := (recRegions r).map (fun q => regionOf w (advance w um s) (ws.getD q.1 0) (ws.getD (q.1 + 1) 0))
    let cl := w.g.core / 24
    let c := gs.getD 2 ⟨0, 0, 0, 1, 0⟩
    let pair (on : Bool) (p : Nat) : List (Tid × Nat) := if on then [(w.t, p), (w.t, p + 1)] else []
    let own := (if c.handle = 0 then tileAt r c else []) ++ pair (r.kind % 2 = 1) r.spair ++ pair (r.kind / 2 = 1) r.ppair
    let uw : Use := { srcs := [(.a, x, 2)], dst := some (d.toNat, 2), cancel := .always }
    let uq : Use := { srcs := [(.a, x, 2)], dst := some (d.toNat, 1) }
    let ue : Use := { srcs := [(.a, x, 1)], dst := some (d.toNat, 1) }
    let tc := bits v 49 44
    let seq := bits v 43 0
    let there : Prop := tc ≤ 47 ∧ (s.part w.k.part).clu.getLsbD tc = true
    let next := (s.cluster tc).mtSeq
    (CanWrite h um d 2 w s → NoTake w s → a.toNat + 16 ≤ w.k.regs → ReadsList um w s a.toNat 16 ws →
      (∀ q ∈ gs.zip (recRegions r), regionFault w (advance w um s) q.1 q.2.2 = none) →
      (∀ reason, recBad w (advance w um s) ws r gs d.toNat = some reason → TrapsWith (.mtask h d a) 0x14 0 (BitVec.ofNat 32 reason) w s) ∧
      (recBad w (advance w um s) ws r gs d.toNat = none → (s.cluster cl).mt.length < 256 → (∀ p ∈ own, (regGet s p.1 p.2).tag ≠ .pend) →
        ∃ t k, exec (.mtask h d a) s = .next t ∧ Past w (nextPc w 8) t ∧
          (h.nw = false → HoldsNow w d.toNat 2 (BitVec.ofNat 64 (cl % 64 * 2 ^ 44 + (s.cluster cl).mtSeq % 2 ^ 44)) t) ∧
          (t.cluster cl).mt = (s.cluster cl).mt ++ [k] ∧ (t.cluster cl).mtSeq = (s.cluster cl).mtSeq + 1 ∧
          (∀ z, z ≠ cl → t.cluster z = s.cluster z) ∧ k.home = cl ∧ k.seq = (s.cluster cl).mtSeq ∧ k.tid = w.t ∧ k.words = ws ∧
          k.regions = gs ∧ k.st = .queued ∧ k.cb = (at_ w.g.cbs r.slot {}).entries ∧ t.mem = s.mem ∧
          (∀ p ∈ own, p.2 ≠ 0 → (regGet t p.1 p.2).tag = .pend) ∧
          ∀ q i, (q, i) ∉ own → ¬ (q = w.t ∧ h.nw = false ∧ inDst d.toNat 2 i = true) → regGet t q i = regGet s q i)) ∧
    (CanWrite h uw d 2 w s → Reads uw w s x 2 v →
      (next ≤ seq → TrapsWith (.mtwait h d x) 0x14 0 0x09 w s) ∧
      (¬ there → seq < next → next ≤ seq + 4096 → TrapsWith (.mtwait h d x) 0x06 0 0x23 w s) ∧
      (there → seq < next → next ≤ seq + 4096 →
        (∀ st y, look (s.cluster tc).stamps seq = some (st, y) → GivesNow (.mtwait h d x) h d 2 8 y w s) ∧
        (look (s.cluster tc).stamps seq = none → WaitsFor (.mtwait h d x) .retry w s)) ∧
      (seq + 4096 < next → GivesNow (.mtwait h d x) h d 2 8
        (BitVec.ofNat 64 (2 ^ 63 + 0x7F * 2 ^ 56 + tc * 2 ^ 44 + seq)) w s)) ∧
    (CanClaim h uq d 1 w s → Reads uq w s x 2 v →
      let code (st : MtState) : Nat := match st with
        | .queued => 0 | .ready => 1 | .running => 2 | .frozen => 3 | .checking => 4 | .writing => 5 | .done => 6 | .faulted => 7
        | .cancelled => 8
      (next ≤ seq → TrapsWith (.mtqry h false d x) 0x14 0 0x09 w s) ∧
      (¬ there → seq < next → next ≤ seq + 4096 → TrapsWith (.mtqry h false d x) 0x06 0 0x23 w s) ∧
      (there → seq < next → next ≤ seq + 4096 →
        (∀ st y, look (s.cluster tc).stamps seq = some (st, y) → GivesLater (.mtqry h false d x) d 1 8 (BitVec.ofNat 64 (code st)) 0 false w s) ∧
        (look (s.cluster tc).stamps seq = none → ∀ k q, findTask s tc seq = some (k, q) →
          GivesLater (.mtqry h false d x) d 1 8 (BitVec.ofNat 64 (code q.st)) 0 false w s)) ∧
      (seq + 4096 < next → GivesLater (.mtqry h false d x) d 1 8 15 0 false w s)) ∧
    (CanClaim h ue d 1 w s → Reads ue w s x 1 v →
      let e := at_ (s.cluster cl).engines (loWord v).toNat {}
      (7 < (loWord v).toNat → TrapsWith (.mtqry h true d x) 0x14 0 0x0C w s) ∧
      ((loWord v).toNat ≤ 7 → GivesLater (.mtqry h true d x) d 1 8 (BitVec.ofNat 64 ((if e.frozen then 2 ^ 31 else 0) +
        (match e.task with | some q => 2 ^ 30 + q.2 % 2 ^ 30 | none => 0))) 0 false w s))

/-- R221, R199: MFREEZE freezes an idle engine, or the running task at a boundary, and waits for the end of one that checks or writes; MTHAW lets either go on; MDRAIN writes the image of
the task, which stays as it was; MFILL moves the frozen task of an image to a frozen idle engine.
How far an engine is when it freezes, and the words of an image beyond the tile, are free values (log 42). -/
def Obligations.MatrixEngineControl : Prop :=
  ∀ (h : Hdr) (a b : Src) (w : Who) (s : State) (x p : DWord),
    let u1 : Use := { srcs := [(.a, a, 1)], sys := true }
    let u2 : Use := { srcs := [(.a, a, 1), (.b, b, 2)], sys := true }
    let cl := w.g.core / 24
    let e := (loWord x).toNat
    let eng (t : State) : Engine := at_ (t.cluster cl).engines e {}
    let task (t : State) : Option MtTask := engineTask t (eng t)
    let mine : Prop := ∀ q, task s = some q → (s.kernel q.kernel).part = w.k.part ∧ (s.kernel q.kernel).world = w.k.world
    let traps1 (i : Instr) : Prop := (7 < e → TrapsWith i 0x14 0 0x0C w s) ∧ (e ≤ 7 → ¬ mine → TrapsWith i 0x06 0 0x23 w s)
    let goes (i : Instr) (P : State → Prop) : Prop :=
      ∃ t, exec i s = .next t ∧ Goes w (fun _ => false) { s with clusters := t.clusters, fresh := t.fresh } t ∧ P t
    let fills (P : State → Prop) : Prop := ∃ t, exec (.mfill h a b) s = .next t ∧
      Goes w (fun _ => false) { dropProbes s w.t with clusters := t.clusters, fresh := t.fresh } t ∧ P t
    let g : Region := ⟨w.t.vgid, w.t.layer, bits (loWord p) 8 0, bits (loWord p) 18 9, 0⟩
    let room (n : Nat) : Prop := hiWord p = 0 ∧ bits (loWord p) 31 19 = 0 ∧ 0 < g.len ∧ g.len ≤ 512 ∧ g.base + g.len ≤ w.k.regs ∧
      n ≤ w.k.width * g.len
    let at_ (j : Nat) : Tid × Nat := (⟨w.t.vgid, w.t.layer, j / g.len⟩, g.base + j % g.len)
    let word (j : Nat) : RegWord := regGet s (at_ j).1 (at_ j).2
    let readable (n : Nat) : Prop := ∀ j, j < n → (word j).tag ≠ .pend ∧ (word j).tag ≠ .poison ∧ eccAt s (at_ j).1 (at_ j).2 1 = []
    (Issues h u1 w s → Reads u1 w s a 1 x →
      traps1 (.mfreeze h a) ∧ traps1 (.mthaw h a) ∧
      (e ≤ 7 → task s = none →
        goes (.mfreeze h a) (fun t => eng t = { eng s with frozen := true }) ∧
        goes (.mthaw h a) (fun t => eng t = { eng s with frozen := false })) ∧
      (e ≤ 7 → mine → ∀ q, task s = some q →
        (q.st ≠ .running → q.st ≠ .frozen → w.th.wait ≠ .freeze → ∃ t, exec (.mfreeze h a) s = .next t ∧ (t.thread w.t).st = .waiting ∧
          (t.thread w.t).wait = .freeze ∧ (t.thread w.t).pc = w.th.pc ∧ task t = some { q with freeze := true } ∧ eng t = eng s) ∧
        (q.st = .running → w.th.wait ≠ .freeze → goes (.mfreeze h a) (fun t => (eng t).frozen = true ∧
          ∃ k, task t = some k ∧ k.st = .frozen ∧ k.home = q.home ∧ k.seq = q.seq ∧ q.knext ≤ k.knext)) ∧
        (q.st = .frozen → GivesNothing (.mfreeze h a) w s ∧
          ((eng s).frozen = true → goes (.mthaw h a) (fun t => (eng t).frozen = false ∧ ∃ k, task t = some k ∧ k = { q with st := .running }))) ∧
        ((eng s).frozen = false → GivesNothing (.mthaw h a) w s))) ∧
    (Issues h u2 w s → NoProbe w s → Reads u2 w s a 1 x → Reads u2 w s b 2 p →
      traps1 (.mdrain h a b) ∧ traps1 (.mfill h a b) ∧
      (e ≤ 7 → mine → ((eng s).frozen = false ∨ (eng s).task.isSome) → TrapsWith (.mfill h a b) 0x14 0 0x0A w s) ∧
      (e ≤ 7 → task s = none → room 96 → (∀ j, j < 96 → (word j).tag ≠ .pend) →
        ∃ t, exec (.mdrain h a b) s = .next t ∧ Past w (nextPc w 8) t ∧ t.clusters = s.clusters ∧ t.mem = s.mem ∧
          (∀ j, j < 96 → (at_ j).2 ≠ 0 → (regGet t (at_ j).1 (at_ j).2).tag = .full) ∧
          ((at_ 16).2 ≠ 0 → (regGet t (at_ 16).1 (at_ 16).2).val.getLsbD 31 = false)) ∧
      (e ≤ 7 → mine → ∀ q, task s = some q → q.st ≠ .running →
        let n := if q.record.ct = .f64 then 2144 else 1120
        room n → q.words.length = 16 → (∀ j, j < n → (word j).tag ≠ .pend) →
        ∃ t, exec (.mdrain h a b) s = .next t ∧ Past w (nextPc w 8) t ∧ t.clusters = s.clusters ∧ t.mem = s.mem ∧
          (∀ j, j < n → (at_ j).2 ≠ 0 → (regGet t (at_ j).1 (at_ j).2).tag = .full) ∧
          let is (j : Nat) (v : Word) : Prop := (at_ j).2 ≠ 0 → (regGet t (at_ j).1 (at_ j).2).val = v
          (∀ j, j < 16 → is j (q.words.getD j 0)) ∧ is 17 (BitVec.ofNat 32 q.knext) ∧
          is 18 (loWord (ticketVal false 0 0 q.home q.seq)) ∧ is 19 (hiWord (ticketVal false 0 0 q.home q.seq)) ∧
          ((at_ 16).2 ≠ 0 → let f := (regGet t (at_ 16).1 (at_ 16).2).val
            f.getLsbD 31 = true ∧ f.getLsbD 30 = decide (q.record.ct = Ty.f64) ∧ f.getLsbD 29 = q.replayed)) ∧
      (e ≤ 7 → (eng s).frozen = true → (eng s).task = none → room 96 → readable 96 →
        ((word 16).val.getLsbD 31 = false → ∃ t, exec (.mfill h a b) s = .next t ∧ OnlyPast w (nextPc w 8) (dropProbes s w.t) t) ∧
        (let tk := pairOf (word 18).val (word 19).val
         (word 16).val.getLsbD 31 = true → ∀ k q, findTask s (bits tk 49 44) (bits tk 43 0) = some (k, q) →
          (s.kernel q.kernel).part = w.k.part → (s.kernel q.kernel).world = w.k.world → q.st = .frozen → q.knext = (word 17).val.toNat →
          q.replayed = (word 16).val.getLsbD 29 →
          let n := if q.record.ct = .f64 then 2144 else 1120
          room n → readable n →
          fills (fun t => eng t = { frozen := true, task := some (q.home, q.seq) } ∧
            (∃ k, k ∈ (t.cluster cl).mt ∧ k.home = q.home ∧ k.seq = q.seq ∧ k.st = .frozen ∧ k.knext = q.knext) ∧
            ∀ z i, (z, i) ≠ (cl, e) → (Machine.at_ (t.cluster z).engines i {}).task ≠ some (q.home, q.seq)))))

/-- R235, R243 to R249: ACOPY, AWRITE, BCOPY and BSTORE whose operands pass their checks are accepted: the words an inbound copy fills
and its stamp pair are claimed, an outbound copy has read its words, and the promise is written, unless N suppresses the write (R58). -/
def Obligations.CopyRequestsAccepted : Prop :=
  ∀ (h : Hdr) (nm1 : BitVec 6) (sp : Space) (d base c : BitVec 9) (a b e : Src) (rec : DWord) (w : Who) (s : State) (x p z : DWord)
    (ws : List Word),
    let n := nm1.toNat + 1
    let va := x.toNat
    let stamp := pairWords w.t c.toNat
    let pair := pairWords w.t d.toNat
    let own := (List.range n).map (fun i => (w.t, base.toNat + i))
    let hd := loWord p
    let off := (hiWord p).toNat
    let loc := handleSlot s hd
    let slot := slotAt s loc.1 loc.2.1
    let uo : Use := { srcs := [(.b, b, 2)], named := [(base.toNat, 1), (c.toNat, 2)], dst := some (d.toNat, 2) }
    let uw : Use := { srcs := [(.a, a, 2), (.b, b, 2)], named := [(c.toNat, 2)], dst := some (d.toNat, 2) }
    let uao : Use := { srcs := [(.b, b, 2)], named := [(base.toNat, 1)], dst := some (d.toNat, 2), lists := fun _ _ => [(base.toNat, n)] }
    let uas : Use := { uao with srcs := [(.b, b, 2), (.c, e, 2)] }
    let uaw : Use := { srcs := [(.a, a, 2), (.b, b, 2)], dst := some (d.toNat, 2) }
    let pp := if h.nw = true then 0 else d.toNat
    let accepts (i : Instr) (claimed : List (Tid × Nat)) (len : Nat) (m : State) (P : CeReq → Prop) : Prop :=
      ∃ t k, exec i s = .next t ∧ Accepts w claimed pp len s m t k ∧ P k
    let stampIs (k : CeReq) : Prop := k.stamp = if c = 0 then .none else .pair w.t c.toNat
    let writes (k : CeReq) : Prop := k.kind = .awrite ∧ k.space = sp ∧ k.va = va ∧ k.items.length = n ∧
      ∀ i j, i < n → k.items[i]? = some j → j.src = [.bytes (bytesOf [ws.getD i 0])] ∧ j.dst = .mem [((va + 4 * i) % 2 ^ 64, 4)] ∧ j.done = false
    NoTake w s → NoProbe w s →
    (Issues h uo w s → Reads uo w s b 2 x → base.toNat + n ≤ w.k.regs → Apart pair stamp → Apart pair own → Apart stamp own →
      (va % 4 ≠ 0 → TrapsWith (.acopy h nm1 sp d (.own base) b c) 0x09 x 0 w s) ∧
      (va % 4 = 0 → CanAccept w (own ++ stamp) pp s →
        accepts (.acopy h nm1 sp d (.own base) b c) (own ++ stamp) 8 s (fun k => k.kind = .acopy ∧ k.space = sp ∧ k.va = va ∧ stampIs k ∧
          k.items.length = n ∧ ∀ i j, i < n → k.items[i]? = some j → j.src = [.mem ((va + 4 * i) % 2 ^ 64) 4] ∧
            j.dst = (if base.toNat + i = 0 then .drop else .claim w.t (base.toNat + i)) ∧ j.done = false))) ∧
    (Issues h uw w s → Reads uw w s a 2 p → Reads uw w s b 2 x →
      (∀ reason, windowCheck s w hd off n .write = some reason → TrapsWith (.acopy h nm1 sp d (.win a) b c) 0x08 (hd.setWidth 64) (windowInfo reason off) w s) ∧
      (windowCheck s w hd off n .write = none → Apart pair stamp → va % 4 = 0 → CanAccept w stamp pp s →
        accepts (.acopy h nm1 sp d (.win a) b c) stamp 8 s (fun k => k.kind = .acopy ∧ k.space = sp ∧ k.va = va ∧ stampIs k ∧
          k.items.length = n ∧ ∀ i j, i < n → k.items[i]? = some j → j.src = [.mem ((va + 4 * i) % 2 ^ 64) 4] ∧
            j.dst = .win hd slot.owner (slot.base + (off + i)) ∧ j.done = false))) ∧
    (Issues h uao w s → Reads uao w s b 2 x → base.toNat + n ≤ w.k.regs → ReadsList uao w s base.toNat n ws →
      (va % 4 ≠ 0 → TrapsWith (.awrite h nm1 sp d (.own base) b (.reg 0)) 0x09 x 0 w s) ∧
      (va % 4 = 0 → CanAccept w [] pp s →
        accepts (.awrite h nm1 sp d (.own base) b (.reg 0)) [] 8 s (fun k => writes k ∧ k.stamp = .none))) ∧
    (e ≠ .reg 0 → Issues h uas w s → Reads uas w s b 2 x → Reads uas w s e 2 z → base.toNat + n ≤ w.k.regs → ReadsList uas w s base.toNat n ws →
      va % 4 = 0 → z.toNat % 8 = 0 → ∀ pa m, translate (advance w uas s) w.ctx z.toNat .write (some .g) = .ok (pa, m) →
      CanAccept w [] pp s →
        accepts (.awrite h nm1 sp d (.own base) b e) [] 8 m (fun k => writes k ∧ k.stamp = .mem z.toNat)) ∧
    (Issues h uaw w s → Reads uaw w s a 2 p → Reads uaw w s b 2 x → windowCheck s w hd off n .read = none → va % 4 = 0 →
      (∀ j, j < n → (regGet s slot.owner (slot.base + off + j)).tag ≠ .pend ∧ (regGet s slot.owner (slot.base + off + j)).tag ≠ .poison ∧
        eccAt s slot.owner (slot.base + off + j) 1 = []) →
      ws = (List.range n).map (fun j => (regGet s slot.owner (slot.base + off + j)).val) → CanAccept w [] pp s →
        accepts (.awrite h nm1 sp d (.win a) b (.reg 0)) [] 8 s (fun k => writes k ∧ k.stamp = .none)) ∧
    (let g := regionOf w s (loWord p) (hiWord p)
     let rows := if g.handle = 0 then (List.range (w.k.width * g.len)).map (regionWord g) else []
     let ub : Use := { srcs := [(.a, a, 2)], named := [(base.toNat, 1), (c.toNat, 2)], dst := some (d.toNat, 2), len := 16, cycles := 2,
                       lists := fun _ _ => [(base.toNat, 10)] }
     let us : Use := { ub with named := [(base.toNat, 1)] }
     let fits : Prop := base.toNat + 10 ≤ w.k.regs ∧ (g.handle = 0 → g.base + g.len ≤ w.k.regs) ∧ bits (loWord p) 31 19 = 0 ∧ 0 < g.len ∧
       g.len ≤ 512
     rec.toNat % 64 = 0 → fits →
     (Issues h ub w s → Reads ub w s a 2 p → regionFault w s g .write = none → ReadsList ub w s base.toNat 10 ws → Apart pair stamp →
       Apart pair rows → Apart stamp rows → CanAccept w (rows ++ stamp) pp s →
       accepts (.bcopy h sp d a base c rec) (rows ++ stamp) 16 s (fun k => k.kind = .bcopy ∧ k.space = sp ∧ k.record = rec.toNat ∧
         k.args = ws ∧ k.region = some g ∧ stampIs k)) ∧
     (Issues h us w s → Reads us w s a 2 p → regionFault w s g .read = none → ReadsList us w s base.toNat 10 ws →
       CanAccept w [] pp s →
       accepts (.bstore h sp d a base (.reg 0) rec) [] 16 s (fun k => k.kind = .bstore ∧ k.space = sp ∧ k.record = rec.toNat ∧
         k.args = ws ∧ k.region = some g ∧ k.stamp = .none)))

/-- R348, R368, R369, R251: KVCOPY claims its rows, its stamp pair and its mask, TIERIN its pair, and WOPEN its stamp pair; each is
accepted. A record that is misaligned, or whose header is out of range, traps.
R235, R250: ACQ gives the stamp of an ended linked request, the ticket with reason 0x7D of one under way, whose promise it writes
anew, or reason 0x7F where the pair has no link; a faulted request traps unless .nt asks otherwise. R251: PUBLISH of a wings pair waits
for its exchange. -/
def Obligations.TierWingsAndAcquireRequests : Prop :=
  (∀ (h : Hdr) (nm1 : BitVec 4) (d a c : BitVec 9) (b : Src) (w : Who) (s m : State) (x : DWord) (k : KvHead) (idx : List Word) (l : Leaf),
    let n := nm1.toNat + 1
    let va := x.toNat
    let uk : Use := { srcs := [(.b, b, 2)], named := [(a.toNat, 1), (c.toNat, 1)], dst := some (d.toNat, 2), lists := fun _ _ => [(c.toNat, n)] }
    let ut : Use := { uk with named := [(c.toNat, 1)] }
    let pp := if h.nw = true then 0 else d.toNat
    let uo : Use := { srcs := [(.a, b, 2)], named := [(c.toNat, 2)], dst := some (d.toNat, 2) }
    let pair := pairWords w.t d.toNat
    let rows := (List.range n).flatMap (kvWords w.t w.k.width a.toNat k.roww)
    let words := rows ++ pair ++ [(w.t, d.toNat + 2)]
    NoTake w s →
    (Issues h uk w s → Reads uk w s b 2 x → c.toNat + n ≤ w.k.regs → d.toNat + 3 ≤ w.k.regs →
      (va % 64 ≠ 0 → (∀ ys, w.th.wait ≠ .header ys) → TrapsWith (.kvcopy h nm1 d a b c) 0x09 x 0 w s) ∧
      (headerOf w (advance w uk s) va = .ok (k, m) → a.toNat + k.roww * ((16 * n - 1) / w.k.width + 1) ≤ w.k.regs →
        listRead w m c.toNat n = .ok idx → CanAccept w words 0 s →
        ∃ t q, exec (.kvcopy h nm1 d a b c) s = .next t ∧ Accepts w words 0 8 s m t q ∧ q.kind = .kvcopy ∧ q.record = va ∧
          q.args.drop 6 = idx ∧ (at_ (t.thread w.t).latches (d.toNat % 8) {}).valid = false)) ∧
    (Issues h ut w s → Reads ut w s b 2 x → c.toNat + n ≤ w.k.regs →
      (w.k.regs < d.toNat + 2 → TrapsWith (.tierin h nm1 d b c) 0x06 0 0x20 w s) ∧ (d.toNat + 2 ≤ w.k.regs →
      (va % 64 ≠ 0 → (∀ ys, w.th.wait ≠ .header ys) → TrapsWith (.tierin h nm1 d b c) 0x09 x 0 w s) ∧
      (headerOf w (advance w ut s) va = .ok (k, m) → listRead w m c.toNat n = .ok idx → CanAccept w pair 0 s →
        ∃ t q, exec (.tierin h nm1 d b c) s = .next t ∧ Accepts w pair 0 8 s m t q ∧ q.kind = .tierin ∧ q.record = va ∧
          q.args.drop 6 = idx ∧ (at_ (t.thread w.t).latches (d.toNat % 8) {}).valid = false))) ∧
    (Issues h uo w s → Reads uo w s b 2 x → walk s w.ctx va = .ok l →
      let pa := frameOf l.e + va % leafSize l.lvl
      (place pa).space = some .g → inRanges (s.part w.k.part) pa = true →
      (inSecure (s.part w.k.part) pa = true → l.e.getLsbD 7 = false → TrapsWith (.wopen h d b c) 0x06 x 0x17 w s) ∧
      ((inSecure (s.part w.k.part) pa = true → l.e.getLsbD 7 = true) →
      (l.e.getLsbD 9 = false → TrapsWith (.wopen h d b c) 0x06 x 0x11 w s) ∧
      (l.e.getLsbD 9 = true → (l.e.getLsbD 3 = false ∨ l.e.getLsbD 7 ≠ w.k.world) → TrapsWith (.wopen h d b c) 0x06 x 0x12 w s) ∧
      (l.e.getLsbD 9 = true → l.e.getLsbD 3 = true → l.e.getLsbD 7 = w.k.world → Apart pair (pairWords w.t c.toNat) →
        CanAccept w (pairWords w.t c.toNat) pp s →
        ∃ t q, exec (.wopen h d b c) s = .next t ∧ Accepts w (pairWords w.t c.toNat) pp 8 s s t q ∧ q.kind = .wopen ∧
          q.record = va - va % leafSize l.lvl ∧ q.total = some (leafSize l.lvl))))) ∧
  (∀ (h : Hdr) (nt : Bool) (d p : BitVec 9) (b : Src) (w : Who) (s : State) (x : DWord) (l : Link) (r : CeReq) (f : Leaf),
    let a : Src := .reg p
    let u : Use := { srcs := [(.a, a, 2)], dst := some (d.toNat, 2) }
    let up : Use := { srcs := [(.a, b, 2)] }
    let ticket (fault : Bool) (reason cl seq : Nat) : DWord :=
      BitVec.ofNat 64 ((if fault then 2 ^ 63 else 0) + reason % 128 * 2 ^ 56 + cl % 64 * 2 ^ 44 + seq % 2 ^ 44)
    let linked : Prop := w.th.links.find? (fun y => y.pair = p.toNat) = some l ∧ findReq s l.cl l.seq = some r
    (CanWrite h u d 2 w s → Reads u w s a 2 x →
      ((∀ y ∈ w.th.links, y.pair ≠ p.toNat) → GivesNow (.acq h nt d a) h d 2 8 (ticket true 0x7F 0 0) w s) ∧
      (linked → r.st = .ended → (r.fault = false ∨ nt = true) → GivesNow (.acq h nt d a) h d 2 8 (ticket r.fault r.reason l.cl r.seq) w s) ∧
      (linked → r.st = .ended → r.fault = true → nt = false →
        TrapsWith (.acq h nt d a) 0x0C (BitVec.ofNat 64 (regAddr s w.t l.pair)) (BitVec.ofNat 32 (2 * 2 ^ 28 + r.first % 2 ^ 28)) w s) ∧
      (linked → (r.st = .accepted ∨ r.st = .running) → ∃ t, exec (.acq h nt d a) s = .next t ∧ Past w (nextPc w 8) t ∧ t.mem = s.mem ∧
        (h.nw = false → HoldsNow w d.toNat 2 (ticket false 0x7D l.cl r.seq) t) ∧
        ∀ q i, ¬(q = w.t ∧ (inDst p.toNat 2 i = true ∨ h.nw = false ∧ inDst d.toNat 2 i = true)) → regGet t q i = regGet s q i)) ∧
    (Issues h up w s → NoTake w s → Reads up w s b 2 x → walk s w.ctx x.toNat = .ok f → f.e.getLsbD 9 = true → f.e.getLsbD 3 = true →
      f.e.getLsbD 7 = w.k.world →
      (let pa := frameOf f.e + x.toNat % leafSize f.lvl
       (place pa).space = some .g ∧ inRanges (s.part w.k.part) pa = true ∧ (inSecure (s.part w.k.part) pa = true → w.k.world = true)) →
      ((∀ m i, w.th.wait ≠ .publish m i) → WaitsFor (.publish h b) (.publish s.nextId none) w s) ∧
      (∀ m i, w.th.wait = .publish m i → WaitsFor (.publish h b) (.publish m i) w s)))

/-- R315, R329, R343: QPUSH puts its entry behind those of at most its key, on chip or in the cellar by the push rules, unless the quota turns it
away; QPOP takes the first entry of the kernel, gives zeros where there is none, and waits for a refill where the cellar alone has one, and QPOP.h
makes the entry a holding too, with a claim record where its partition has room for one (log 95); QDEPTH counts the entries. QSTEAL takes the half that
would be handed out last from the first core that has any: they leave that queue, keep their keys, and enter the thief's by the push rules in the
victim's pop order. An entry's words must be ones that the thread's mode can name: 23 more in system mode (log 66).
The order of the cellar and the queue is the model's reading (log 35). -/
def Obligations.TaskQueueInstructions : Prop :=
  ∀ (h : Hdr) (d b : BitVec 9) (a : Src) (w : Who) (s : State) (x : DWord) (ws : List Word) (e : QEntry) (pre post : List QEntry),
    let c := s.core w.g.core
    let p := s.part w.k.part
    let up : Use := { srcs := [(.a, a, 1)], named := [(b.toNat, 1)], lists := fun _ _ => [(b.toNat, 8)] }
    let limit := if w.th.sys = true then w.k.regs + 23 else w.k.regs
    let uq : Use := { named := [(b.toNat, 1)], dst := some (d.toNat, 1) }
    let ud : Use := { dst := some (d.toNat, 1) }
    let key := bits x 15 0
    let mine (y : QEntry) : Bool := y.kernel = w.kn
    let outWords (i : Nat) : Bool := inDst d.toNat 1 i || inList b.toNat 8 i
    let depth (k : Nat) : Nat := (((s.core k).onchip ++ (s.core k).cellar).filter mine).length
    let popped (i : Instr) (st : Nat) (vs : List Word) (P : State → Prop) : Prop :=
      ∃ t, exec i s = .next t ∧ Goes w outWords { s with cores := t.cores, estate := t.estate, groups := t.groups, results := t.results, nextId := t.nextId, fresh := t.fresh } t ∧
        (∀ j, outWords j = true → (regGet t w.t j).tag = .pend) ∧
        (∃ id, t.results = s.results ++ [⟨id, w.t, (d.toNat, BitVec.ofNat 32 st) :: numbered b.toNat vs, 0, false⟩]) ∧
        (∀ k, k ≠ w.g.core → t.core k = s.core k) ∧ P t
    let poppedH (st : Nat) (vs : List Word) (P : State → Prop) : Prop :=
      ∃ t, exec (.qpopH h d b) s = .next t ∧ Goes w outWords { estateBase s t with cores := t.cores, parts := t.parts } t ∧
        (∀ j, outWords j = true → (regGet t w.t j).tag = .pend) ∧
        (∃ id, t.results = s.results ++ [⟨id, w.t, (d.toNat, BitVec.ofNat 32 st) :: numbered b.toNat vs, 0, false⟩]) ∧
        (∀ k, k ≠ w.g.core → t.core k = s.core k) ∧ P t
    let free : Prop := DstFree w s d.toNat 1 ∧ (∀ i, inList b.toNat 8 i = true → (regGet s w.t i).tag ≠ .pend) ∧ ownAccOn s w.t b.toNat 8 = false
    let took (t : State) : Prop :=
      t.core w.g.core = { c with onchip := pre ++ post, refill := (t.core w.g.core).refill, free := (t.core w.g.core).free }
    let claims (t : State) (y : Est) : Prop :=
      (y.addr = 0 → t.mem = s.mem ∧ t.parts = s.parts) ∧
      (y.addr ≠ 0 → NoCut s → (t.part w.k.part).pins = p.pins ++ [(y.addr, 64)] ∧ t.mem = (performBytes s y.addr (bytesOf (claimRecordWords e))).mem)
    let waits (i : Instr) : Prop := ∃ t, exec i s = .next t ∧ (t.thread w.t).st = .waiting ∧ (t.thread w.t).wait = .retry ∧ (t.thread w.t).pc = w.th.pc ∧
      t.core w.g.core = { c with refill := (t.core w.g.core).refill, free := (t.core w.g.core).free } ∧ some w.kn ∈ (t.core w.g.core).refill ∧
      t.mem = s.mem ∧ ∀ k, k ≠ w.g.core → t.core k = s.core k
    let new : QEntry := ⟨key, w.kn, ws, false⟩
    (Issues h up w s → limit < b.toNat + 8 → TrapsWith (.qpush h a b) 0x06 0 0x20 w s) ∧
    (Issues h up w s → Reads up w s a 1 x → b.toNat + 8 ≤ limit → ReadsList up w s b.toNat 8 ws → ownAccOn s w.t b.toNat 8 = false → Drained w s →
      ((qPush c new).cellar.length ≤ max c.cellar.length (bits p.qctl 23 0) →
        ∃ t, exec (.qpush h a b) s = .next t ∧ Goes w (fun _ => false) { s with cores := t.cores } t ∧
          t.core w.g.core = { qPush c new with free := (t.core w.g.core).free } ∧ (∀ k, k ≠ w.g.core → t.core k = s.core k) ∧
          (t.thread w.t).latches = w.th.latches) ∧
      (c.cellar = [] → c.onchip.length < 64 → c.onchip.Pairwise (fun y z => y.key ≤ z.key) →
        ∃ t, exec (.qpush h a b) s = .next t ∧ Goes w (fun _ => false) { s with cores := t.cores } t ∧
          (t.core w.g.core).onchip = c.onchip.filter (fun y => y.key ≤ key) ++ [⟨key, w.kn, ws, false⟩] ++ c.onchip.filter (fun y => key < y.key) ∧
          (t.core w.g.core).cellar = [] ∧ (∀ k, k ≠ w.g.core → t.core k = s.core k) ∧ (t.thread w.t).latches = w.th.latches) ∧
      (max c.cellar.length (bits p.qctl 23 0) < (qPush c new).cellar.length →
        TrapsWith (.qpush h a b) 0x0F 0 1 w s)) ∧
    (Issues h uq w s → NoTake w s → limit < b.toNat + 8 → TrapsWith (.qpop h d b) 0x06 0 0x20 w s ∧ TrapsWith (.qpopH h d b) 0x06 0 0x20 w s) ∧
    (Issues h uq w s → NoTake w s → b.toNat + 8 ≤ limit → free →
      (c.onchip = pre ++ e :: post → (∀ y ∈ pre, mine y = false) → mine e = true →
        popped (.qpop h d b) (if e.bereaved then 2 else 1) e.words (fun t => took t ∧ t.estate = s.estate) ∧
        (seqOk s w.t.vgid = true → estateFree s w (w.g.core / 288) = true →
          poppedH (if e.bereaved then 2 else 1) e.words (fun t => took t ∧
            ∃ y, claims t y ∧ t.estate = s.estate ++ [y] ∧ y.kind = .task ∧ y.holder = some w.t.vgid ∧ y.creator = w.t.vgid ∧ y.die = w.g.core / 288 ∧
              y.claim = some e ∧ y.seq = (s.group w.t.vgid).created ∧ (t.group w.t.vgid).created = (s.group w.t.vgid).created + 1))) ∧
      ((∀ y ∈ c.onchip ++ c.cellar, mine y = false) →
        popped (.qpop h d b) 0 (List.replicate 8 0) (fun t => t.core w.g.core = { c with free := (t.core w.g.core).free } ∧ t.estate = s.estate) ∧
        popped (.qpopH h d b) 0 (List.replicate 8 0) (fun t => t.core w.g.core = { c with free := (t.core w.g.core).free } ∧ t.estate = s.estate)) ∧
      ((∀ y ∈ c.onchip, mine y = false) → (∃ y ∈ c.cellar, mine y = true) → waits (.qpop h d b) ∧ waits (.qpopH h d b))) ∧
    (CanClaim h ud d 1 w s → GivesLater (.qdepth h d) d 1 8 (BitVec.ofNat 64 (depth w.g.core)) 0 false w s) ∧
    (let others := (List.range 23).map (fun i => 24 * (w.g.core / 24) + (w.g.core + (i + 1)) % 24)
     CanClaim h ud d 1 w s →
      ((∀ k ∈ others, depth k = 0) → GivesLater (.qsteal h d) d 1 8 0 0 false w s) ∧
      (∀ ks k rest, others = ks ++ k :: rest → (∀ y ∈ ks, depth y = 0) → 0 < depth k →
        let v := s.core k
        let all := (v.onchip ++ v.cellar).filter mine
        let moved := all.drop (depth k / 2)
        ∃ t, exec (.qsteal h d) s = .next t ∧ Goes w (inDst d.toNat 1) { s with cores := t.cores, results := t.results, nextId := t.nextId } t ∧
          Sends w d 1 (BitVec.ofNat 64 ((depth k + 1) / 2)) s t ∧ (∀ y, y ≠ k → y ≠ w.g.core → t.core y = s.core y) ∧
          t.core k = { v with onchip := (t.core k).onchip, cellar := (t.core k).cellar, refill := (t.core k).refill } ∧
          (t.core k).onchip.Sublist v.onchip ∧ (t.core k).cellar.Sublist v.cellar ∧
          ((t.core k).onchip ++ (t.core k).cellar).filter mine = all.take (depth k / 2) ∧
          (t.core k).onchip.filter (fun y => !mine y) = v.onchip.filter (fun y => !mine y) ∧
          (t.core k).cellar.filter (fun y => !mine y) = v.cellar.filter (fun y => !mine y) ∧
          t.core w.g.core = { moved.foldl qPush c with free := (t.core w.g.core).free } ∧
          (c.cellar = [] → c.onchip.length + moved.length ≤ 64 → c.onchip.Pairwise (fun y z => y.key ≤ z.key) →
            (t.core w.g.core).cellar = [] ∧ (t.core w.g.core).onchip.Pairwise (fun y z => y.key ≤ z.key) ∧
            ∀ n, (t.core w.g.core).onchip.filter (fun y => y.key = n) = c.onchip.filter (fun y => y.key = n) ++ moved.filter (fun y => y.key = n))))

/-- R344, R345: LAUNCH hands its record, with its own address and version words, to the device launch queue and claims its destination;
LWAIT gives the first word of a completion record whose STATE is 3, 4 or 5, and waits otherwise. R290: a granule that fails its check loses
the word. -/
def Obligations.LaunchAndLaunchWait : Prop :=
  ∀ (h : Hdr) (d b : BitVec 9) (a : Src) (entry x : DWord) (w : Who) (s m : State) (ws : List Word) (pa : Nat),
    let ul : Use := { named := [(b.toNat, 1)], dst := some (d.toNat, 1), len := 16, cycles := 2, lists := fun _ _ => [(b.toNat, 32)] }
    let uw : Use := { srcs := [(.a, a, 2)], dst := some (d.toNat, 1), cancel := .always }
    let done := pairOf (ws.getD 6 0) (ws.getD 7 0)
    let q := (m.part w.k.part).devq
    let word := read32 m pa
    (CanClaim h ul d 1 w s → NoTake w s → Drained w s → b.toNat + 32 ≤ w.k.regs → ReadsList ul w s b.toNat 32 ws →
      (bits entry 2 0 ≠ 0 → TrapsWith (.launch h d b entry) 0x09 entry 0 w s) ∧
      (bits entry 2 0 = 0 → bits done 5 0 ≠ 0 → TrapsWith (.launch h d b entry) 0x09 done 0 w s) ∧
      (bits entry 2 0 = 0 → bits done 5 0 = 0 → translate (advance w ul s) w.ctx done.toNat .write (some .g) = .ok (pa, m) →
        (256 ≤ q.length → WaitsFor (.launch h d b entry) .retry w s) ∧
        (q.length < 256 → ∃ t r, exec (.launch h d b entry) s = .next t ∧ Past w (nextPc w 16) t ∧
          Rest w (inDst d.toNat 1) { m with parts := t.parts, nextId := m.nextId + 1 } t ∧ Claimed w d.toNat 1 t ∧
          t.part w.k.part = { m.part w.k.part with devq := q ++ [r] } ∧ (∀ p, p ≠ w.k.part → t.part p = m.part p) ∧
          r.parent = .group w.t.vgid ∧ r.ret = some (w.t, d.toNat) ∧ r.fn = w.k.owner ∧
          ∀ i, i < 32 → r.words.getD i 0 = if i = 0 then loWord entry else if i = 1 then hiWord entry else if i = 13 then w.k.words.getD 13 0 else ws.getD i 0))) ∧
    (CanWrite h uw d 1 w s → NoTake w s → Reads uw w s a 2 x →
      (x.toNat % 64 ≠ 0 → TrapsWith (.lwait h d a) 0x09 x 0 w s) ∧
      (x.toNat % 64 = 0 → translate (advance w uw s) w.ctx x.toNat .read (some .g) = .ok (pa, m) → ownPending w m pa 4 = false →
        (badAt m pa 4 ≠ none → h.nw = false → d ≠ 0 → ∃ t, exec (.lwait h d a) s = .next t ∧ Past w (nextPc w 8) t ∧
          regGet t w.t d.toNat = ⟨0x10000000, .poison⟩) ∧
        (badAt m pa 4 = none → bits word 3 0 ∈ [3, 4, 5] → ∃ t, exec (.lwait h d a) s = .next t ∧
          WroteNow h d 1 (nextPc w 8) (word.setWidth 64) 0 w m t) ∧
        (badAt m pa 4 = none → bits word 3 0 ∉ [3, 4, 5] → WaitsFor (.lwait h d a) .retry w s)))

/-- R385, R402, R403, R404: HOLD of a free word makes the issuing group its holder, with a new entry, and gives status 0 and the handle;
a broken, an own and, for .try, a held word give status 2, 3 and 1; otherwise HOLD waits in the queue with an entry reserved. HFREE by the holder
frees the word and its entry: the oldest waiting HOLD takes the lock with the entry it reserved, and no other HOLD of its group waits on.
A word whose granule fails its check loses the result (R290, log 16).
Which free estate entry is taken is a free value (log 18); a waiting HOLD takes its place when it issues (log 37). -/
def Obligations.LockHoldAndFree : Prop :=
  ∀ (h : Hdr) (tr : Bool) (d : BitVec 9) (a : Src) (w : Who) (s m : State) (x : DWord) (pa : Nat) (e : Est),
    let uh : Use := { srcs := [(.a, a, 2)], dst := some (d.toNat, 2) }
    let uf : Use := { srcs := [(.a, a, 2)] }
    let word := read64 m pa
    let st := bits word 63 62
    let holder := bits word 61 40
    let die := dieOf (canon m pa)
    let ours (y : Est) : Prop := y.part = w.k.part ∧ y.vf = w.k.vf ∧ y.world = w.k.world ∧ y.kind = .lock ∧ stray m y = false
    let gives (code : Nat) (hd : Word) : Prop :=
      ∃ t, exec (.hold h tr d a) s = .next t ∧ Goes w (inDst d.toNat 2) { m with results := t.results, nextId := t.nextId } t ∧
        Sends w d 2 (pairOf (BitVec.ofNat 32 code) hd) s t
    let sound : Prop := badAt m pa 8 = none
    NoTake w s →
    (CanClaim h uh d 2 w s → Reads uh w s a 2 x → WordAt uh w s x.toNat .write pa m →
      (∀ y, estAt m pa = some y → stray m y = false → (y.part ≠ w.k.part ∨ y.vf ≠ w.k.vf ∨ y.world ≠ w.k.world) → TrapsWith (.hold h tr d a) 0x06 0 0x40 w s) ∧
      (∀ y, estAt m pa = some y → stray m y = false → y.part = w.k.part → y.vf = w.k.vf → y.world = w.k.world → y.kind ≠ .lock →
        TrapsWith (.hold h tr d a) 0x06 0 0x46 w s) ∧
      ((∀ y, estAt m pa = some y → ours y) → ¬ sound → h.nw = false →
        ∃ t, exec (.hold h tr d a) s = .next t ∧ Past w (nextPc w 8) t ∧ ∀ i, inDst d.toNat 2 i = true → regGet t w.t i = ⟨0x10000000, .poison⟩) ∧
      (estAt m pa = none → sound → st = 0 → NoCut s → seqOk m w.t.vgid = true → estateFree m w die = true →
        ∃ t y, exec (.hold h tr d a) s = .next t ∧ Goes w (inDst d.toNat 2) (estateBase s t) t ∧
          t.estate = s.estate ++ [y] ∧ y.kind = .lock ∧ y.holder = some w.t.vgid ∧ y.creator = w.t.vgid ∧ y.die = die ∧ y.addr = pa ∧
          y.bereaved = false ∧ y.seq = (s.group w.t.vgid).created ∧ (t.group w.t.vgid).created = (s.group w.t.vgid).created + 1 ∧
          Sends w d 2 (pairOf 0 (BitVec.ofNat 32 (die * 2 ^ 16 + y.idx))) s t ∧
          WroteAt m t pa 8 (2 ^ 62 + w.t.vgid * 2 ^ 40 + y.idx * 2 ^ 24 + (bits word 23 0 + 1) % 2 ^ 24)) ∧
      (estAt m pa = none → sound → st = 3 → gives 2 0) ∧
      (∀ y, estAt m pa = some y → ours y → sound → (st = 1 ∨ st = 2) →
        (holder = w.t.vgid → gives 3 (BitVec.ofNat 32 (die * 2 ^ 16 + bits word 39 24))) ∧
        (holder ≠ w.t.vgid → tr = true → gives 1 0) ∧
        (holder ≠ w.t.vgid → tr = false → seqOk m w.t.vgid = true → estateFree m w die = true →
          ∃ t q, exec (.hold h tr d a) s = .next t ∧ HeldFor w (.hold m.nextId) (inDst d.toNat 2) { m with holdq := m.holdq ++ [q], groups := t.groups, nextId := t.nextId } t ∧
            Claimed w d.toNat 2 t ∧ q.id = m.nextId ∧ q.tid = w.t ∧ q.addr = pa ∧ q.dst = d.toNat ∧ q.seq = (s.group w.t.vgid).created))) ∧
    (Issues h uf w s → Reads uf w s a 2 x → WordAt uf w s x.toNat .write pa m →
      (estAt m pa = none → TrapsWith (.hfree h a) 0x06 0 0x40 w s) ∧
      (HoldingAt w m pa .lock e → Drained w s → NoCut s → e.addr = pa →
        (∀ q q1 q2, s.holdq = q1 ++ q :: q2 → (∀ z ∈ q1, canon m z.addr ≠ canon m pa) → canon m q.addr = canon m pa →
          (∀ z ∈ s.holdq, z.tid ≠ w.t ∧ (s.group z.tid.vgid).saved = none) →
          ∃ t y, exec (.hfree h a) s = .next t ∧ Past w (nextPc w 8) t ∧
            t.holdq = (q1 ++ q2).filter (fun z => !(canon m z.addr = canon m pa && z.tid.vgid = q.tid.vgid)) ∧ y ∈ t.estate ∧ y.kind = .lock ∧
            y.holder = some q.tid.vgid ∧ y.seq = q.seq ∧ y.addr = q.addr ∧ y.idx = q.idx ∧
            WroteAt m t pa 8 (2 ^ 62 + q.tid.vgid * 2 ^ 40 + y.idx * 2 ^ 24 + (bits word 23 0 + 1) % 2 ^ 24)) ∧
        ((∀ q ∈ s.holdq, canon m q.addr ≠ canon m pa) → ∃ t, exec (.hfree h a) s = .next t ∧ Goes w (fun _ => false) (estateBase s t) t ∧ WroteAt m t pa 8 (bits word 23 0) ∧
          (∀ y, y ∈ t.estate ↔ y ∈ s.estate ∧ ¬(y.die = e.die ∧ y.idx = e.idx)) ∧ t.holdq = s.holdq)))

/-- R376, R386, R407, R408: PROM makes the issuing group the holder of an open promise with a new entry; KEEP by the holder writes the
value, bereaved or not, frees the entry and wakes the threads that wait; PWAIT gives a word that is no longer open, or the one that ended the
promise it waited for, and waits for one that is open; a word whose granule fails its check is lost (R290, log 16).
Which free estate entry is taken is a free value (log 18); a word whose entry is a stray is judged as log 47 says. -/
def Obligations.PromiseWords : Prop :=
  ∀ (h : Hdr) (ty : Ty) (d : BitVec 9) (a b : Src) (w : Who) (s m : State) (x v : DWord) (pa : Nat) (e : Est),
    let up : Use := { srcs := [(.a, a, 2)], dst := some (d.toNat, 1), cancel := .never }
    let uk : Use := { srcs := [(.a, a, 2), (.b, b, tyWords ty)], cancel := .never }
    let uw : Use := { srcs := [(.a, a, 2)], dst := some (d.toNat, 2), cancel := .always }
    let word := read64 m pa
    let die := dieOf (canon m pa)
    NoTake w s →
    (CanClaim h up d 1 w s → Reads up w s a 2 x → WordAt up w s x.toNat .write pa m →
      (∀ y, estAt m pa = some y → stray m y = false → TrapsWith (.prom h d a) 0x06 0 0x41 w s) ∧
      (estAt m pa = none → seqOk m w.t.vgid = false → TrapsWith (.prom h d a) 0x0E 0 0x21 w s) ∧
      (estAt m pa = none → seqOk m w.t.vgid = true → estateFree m w die = false → TrapsWith (.prom h d a) 0x0E 0 0x20 w s) ∧
      (estAt m pa = none → seqOk m w.t.vgid = true → estateFree m w die = true → NoCut s →
        ∃ t y, exec (.prom h d a) s = .next t ∧ Goes w (inDst d.toNat 1) (estateBase s t) t ∧ t.estate = s.estate ++ [y] ∧ y.kind = .promise ∧
          y.holder = some w.t.vgid ∧ y.die = die ∧ y.addr = pa ∧ y.seq = (s.group w.t.vgid).created ∧
          (t.group w.t.vgid).created = (s.group w.t.vgid).created + 1 ∧
          Sends w d 1 (BitVec.ofNat 64 ((die * 2 ^ 16 + y.idx) % 2 ^ 32)) s t ∧ WroteAt m t pa 8 (w.t.vgid * 2 ^ 40))) ∧
    (Issues h uk w s → Reads uk w s a 2 x → Reads uk w s b (tyWords ty) v → WordAt uk w s x.toNat .write pa m →
      (estAt m pa = none → TrapsWith (.keep h ty a b) 0x06 0 0x40 w s) ∧
      (HoldingAt w m pa .promise e → e.addr = pa → Drained w s → NoCut s →
        let y := (if e.bereaved then 3 else 1) * 2 ^ 62 + w.t.vgid * 2 ^ 40 + (if tyWords ty = 1 then v.toNat % 2 ^ 32 else v.toNat % 2 ^ 40)
        let kept (t : State) : Prop := (∀ z, z ∈ t.estate ↔ z ∈ s.estate ∧ ¬(z.die = e.die ∧ z.idx = e.idx)) ∧ WroteAt m t pa 8 y
        ((∀ q ∈ s.threads, q.2.wait ≠ .promise (canon m pa)) →
          ∃ t, exec (.keep h ty a b) s = .next t ∧ Goes w (fun _ => false) (estateBase s t) t ∧ kept t) ∧
        (∀ q th, look s.threads q = some th → th.st = .waiting → th.wait = .promise (canon m pa) → (s.group q.vgid).saved = none → q ≠ w.t →
          ∃ t, exec (.keep h ty a b) s = .next t ∧ Past w (nextPc w 8) t ∧ kept t ∧ (t.thread q).wait = .kept (BitVec.ofNat 64 y)))) ∧
    (∀ y, CanClaim h uw d 2 w s → w.th.wait = .kept y → GivesLater (.pwait h d a) d 2 8 y 0 false w s) ∧
    (CanClaim h uw d 2 w s → (∀ y, w.th.wait ≠ .kept y) → Reads uw w s a 2 x → WordAt uw w s x.toNat .read pa m → (∀ y, estAt m pa = some y → stray m y = false) →
      let near (y : Est) : Prop := y.part = w.k.part ∧ y.vf = w.k.vf ∧ y.world = w.k.world
      let ours : Prop := ∀ y, estAt m pa = some y → near y ∧ y.kind = .promise
      (∀ y, estAt m pa = some y → ¬ near y → TrapsWith (.pwait h d a) 0x06 0 0x40 w s) ∧
      (∀ y, estAt m pa = some y → near y → y.kind ≠ .promise → TrapsWith (.pwait h d a) 0x06 0 0x46 w s) ∧
      (ours → badAt m pa 8 ≠ none → h.nw = false →
        ∃ t, exec (.pwait h d a) s = .next t ∧ Past w (nextPc w 8) t ∧ ∀ i, inDst d.toNat 2 i = true → regGet t w.t i = ⟨0x10000000, .poison⟩) ∧
      (ours → badAt m pa 8 = none → bits word 63 62 ≠ 0 → ∃ t, exec (.pwait h d a) s = .next t ∧
        Goes w (inDst d.toNat 2) { m with results := t.results, nextId := t.nextId } t ∧ Sends w d 2 word s t) ∧
      (ours → badAt m pa 8 = none → bits word 63 62 = 0 → WaitsFor (.pwait h d a) (.promise (canon m pa)) w s))

/-- R401, R404 to R406, R409: a handle that names a holding of the issuing group frees a task, changes the heir, conveys the holding or
reads a task's claim; ESTQ gives a holding by its place in the order. -/
def Obligations.HoldingsByHandle : Prop :=
  ∀ (h : Hdr) (d : BitVec 9) (a b : Src) (w : Who) (s : State) (x k : DWord) (e : Est),
    let u (n : Nat) : Use := { srcs := [(.a, a, 1)], dst := some (d.toNat, n) }
    let u0 : Use := { srcs := [(.a, a, 1)] }
    let u2 : Use := { srcs := [(.a, a, 1), (.b, b, 1)] }
    let ud : Use := { dst := some (d.toNat, 1) }
    let hd := loWord x
    let named : Prop := findEst s (bits hd 17 16) (bits hd 13 0) = some e ∧ bits hd 31 18 = 0 ∧ bits hd 15 14 = 0
    let unnamed (i : Instr) : Prop := findEst s (bits hd 17 16) (bits hd 13 0) = none → TrapsWith i 0x06 0 0x45 w s
    let others (i : Instr) : Prop := named → e.mine w = false → TrapsWith i 0x06 0 0x40 w s
    let hk := bits k 31 30
    let v := bits k 21 0
    let hkern := s.kernel ((kernelOfGroup s v).getD 0)
    let heirLive : Prop := liveGroup s v = true ∧ hkern.part = w.k.part ∧ hkern.vf = w.k.vf ∧ hkern.world = w.k.world
    let self : Prop := stray s e = false ∧ (e.goesTo s none).1 = .group w.t.vgid
    let l := holdings s w.t.vgid
    NoTake w s →
    (Issues h u0 w s → Reads u0 w s a 1 x → unnamed (.hfreeTask h a) ∧ others (.hfreeTask h a) ∧
      (named → e.mine w = true → e.kind ≠ .task → TrapsWith (.hfreeTask h a) 0x06 0 0x46 w s) ∧
      (named → e.mine w = true → e.kind = .task → Drained w s →
        ∃ t, exec (.hfreeTask h a) s = .next t ∧ Goes w (fun _ => false) { s with estate := t.estate, parts := t.parts } t ∧
          t.parts = (if e.addr = 0 then s else pinDrop s e.part e.addr).parts ∧
          ∀ y, y ∈ t.estate ↔ y ∈ s.estate ∧ ¬(y.die = e.die ∧ y.idx = e.idx))) ∧
    (Issues h u2 w s → Reads u2 w s a 1 x → Reads u2 w s b 1 k → unnamed (.heir h a b) ∧ others (.heir h a b) ∧
      (named → e.mine w = true → (bits k 29 22 ≠ 0 ∨ hk = 1 ∧ ¬ heirLive) → TrapsWith (.heir h a b) 0x06 0 0x42 w s) ∧
      (named → e.mine w = true → bits k 29 22 = 0 → (hk = 1 → heirLive) →
        ∃ t y, exec (.heir h a b) s = .next t ∧ Goes w (fun _ => false) { s with estate := t.estate } t ∧
          findEst t e.die e.idx = some y ∧ (∀ z, z ∈ t.estate → z = y ∨ z ∈ s.estate) ∧
          y = { e with hkind := y.hkind, heir := y.heir } ∧ (hk = 0 → y.hkind = .none) ∧ (hk = 1 → y.hkind = .vgid ∧ y.heir = v) ∧
          (hk = 2 → y.hkind = .parent ∧ y.heir = (match w.k.parent with | .group p => p | .host => 0x3FFFFF)) ∧
          (hk = 3 → y.hkind = .host ∧ y.heir = 0x3FFFFF))) ∧
    (CanClaim h (u 1) d 1 w s → Reads (u 1) w s a 1 x → unnamed (.hconvey h d a) ∧ others (.hconvey h d a) ∧
      (named → e.mine w = true → Drained w s →
        (self → GivesLater (.hconvey h d a) d 1 8 2 0 false w s) ∧
        (¬ self → stray s e = false → NoCut s → ∀ g, (e.goesTo s none).1 = .group g →
          ∃ t y, exec (.hconvey h d a) s = .next t ∧ Past w (nextPc w 8) t ∧ Sends w d 1 0 s t ∧ findEst t e.die e.idx = some y ∧
            y = { e with holder := some g, arr := s.nextId, rsvd := none, links := (e.goesTo s none).2 }) ∧
        (¬ self → stray s e = false → NoCut s → (e.goesTo s none).1 = .host → e.kind ≠ .task →
          ∃ t y, exec (.hconvey h d a) s = .next t ∧ Past w (nextPc w 8) t ∧ Sends w d 1 0 s t ∧ findEst t e.die e.idx = some y ∧ y.holder = none) ∧
        (stray s e = false → NoCut s → (∀ q ∈ s.holdq, q.tid ≠ w.t) → (e.goesTo s none).1 = .heirless →
          ∃ t, exec (.hconvey h d a) s = .next t ∧ Past w (nextPc w 8) t ∧ Sends w d 1 1 s t ∧ findEst t e.die e.idx = none))) ∧
    (CanClaim h ud d 1 w s → Drained w s →
      ((∀ y ∈ l, stray s y = false ∧ (y.goesTo s none).1 = .group w.t.vgid) → GivesLater (.hconveyAll h d) d 1 8 0 0 false w s) ∧
      (NoCut s → ∀ y, l = [y] → stray s y = false → ∀ g, (y.goesTo s none).1 = .group g → g ≠ w.t.vgid →
        ∃ t z, exec (.hconveyAll h d) s = .next t ∧ Past w (nextPc w 8) t ∧ Sends w d 1 1 s t ∧ findEst t y.die y.idx = some z ∧ z.holder = some g)) ∧
    (CanClaimList h (u 1) d 4 w s → Reads (u 1) w s a 1 x →
      (w.k.regs < d.toNat + 4 → TrapsWith (.estq h d a) 0x06 0 0x20 w s) ∧
      (d.toNat + 4 ≤ w.k.regs →
        (l.length ≤ hd.toNat → GivesList (.estq h d a) d [0, 0, 0, BitVec.ofNat 32 l.length] 0 false w s) ∧
        (∀ y, l[hd.toNat]? = some y → GivesList (.estq h d a) d [BitVec.ofNat 32 (y.die * 2 ^ 16 + y.idx),
          BitVec.ofNat 32 (2 ^ 31 + (if y.bereaved then 2 ^ 30 else 0) + (match y.kind with | .lock => 0 | .promise => 1 | .task => 2) * 2 ^ 24 +
            (match y.hkind with | .none => 0 | .vgid => 1 | .parent => 2 | .host => 3) * 2 ^ 22 + y.heir % 2 ^ 22),
          y.seq, BitVec.ofNat 32 l.length] 0 false w s))) ∧
    (CanClaimList h (u 1) d 9 w s → Reads (u 1) w s a 1 x → d.toNat + 9 ≤ w.k.regs → unnamed (.estqRec h d a) ∧ others (.estqRec h d a) ∧
      (named → e.mine w = true → e.kind ≠ .task → TrapsWith (.estqRec h d a) 0x06 0 0x46 w s) ∧
      (named → e.mine w = true → e.kind = .task → ∀ q, e.claim = some q →
        (e.addr ≠ 0 → GivesList (.estqRec h d a) d (wordsOf (physRead s e.addr 32) ++ [BitVec.ofNat 32 (bits (read32 s (e.addr + 32)) 15 0)]) 0 false w s) ∧
        (e.addr = 0 → q.words.length = 8 → GivesList (.estqRec h d a) d (q.words ++ [BitVec.ofNat 32 q.key]) 0 false w s)))

/-- R394 to R396, R410, R411: a SIBPOST before the verdict counts the post in its hash's slot, opening one where there is room, and gives
status 0; the post that reaches the quorum sets the verdict and marks the siblings that have not posted for cancellation; one after the
verdict is late, and its signal is pending at its gang from then on. SIBQ and SIBACCT report the ballot; SIBWAIT gives the verdict of a closed ballot.
Which free ballot slot is taken is a free value (log 18). -/
def Obligations.SiblingBallot : Prop :=
  ∀ (h : Hdr) (d : BitVec 9) (a : Src) (w : Who) (s : State) (x : DWord) (b : Ballot),
    let up : Use := { srcs := [(.a, a, 2)], dst := some (d.toNat, 1), cancel := .always }
    let ud : Use := { dst := some (d.toNat, 1) }
    let uw : Use := { dst := some (d.toNat, 2), cancel := .always }
    let i := w.gang.idx
    let mine : Prop := w.k.sib = true ∧ ballotOf s w.kn = some b
    let posts (st : Nat) (P : Ballot → State → Prop) : Prop :=
      ∃ t y, exec (.sibpost h d a) s = .next t ∧
        Goes w (inDst d.toNat 1) { s with ballots := t.ballots, gangs := t.gangs, results := t.results, nextId := t.nextId } t ∧
        Sends w d 1 (BitVec.ofNat 64 st) s t ∧ ballotOf t w.kn = some y ∧ P y t
    let same (t : State) : Prop := ∀ g, t.gang g = { s.gang g with sib := (t.gang g).sib, cancel := (t.gang g).cancel }
    let slot := b.slots.find? (fun y => y.hash = x)
    let count := match slot with | some y => y.count + 1 | none => if b.slots.length < 8 then 1 else 0
    let slots := match slot with
      | some _ => b.slots.map (fun y => if y.hash = x then { y with count := y.count + 1 } else y)
      | none => if b.slots.length < 8 then b.slots ++ [⟨x, 1, i, min (s.hbt - b.baseTick) (2 ^ 32 - 1)⟩] else b.slots
    (Issues h up w s → w.k.sib = false → TrapsWith (.sibpost h d a) 0x06 0 0x44 w s) ∧
    (CanClaim h up d 1 w s → Reads up w s a 2 x → Drained w s → mine → i < 64 →
      (b.posted.getLsbD i = false → b.verdict = true → posts 1 (fun y t => y = { b with late := b.late + 1, posted := y.posted } ∧
        (∀ j, j < 64 → y.posted.getLsbD j = (b.posted.getLsbD j || decide (j = i))) ∧ same t ∧
        (w.gang.killed = none → (w.gk, w.gang) ∈ s.gangs → (t.gang w.gk).cancel = w.gang.signal))) ∧
      (b.posted.getLsbD i = false → b.verdict = false → count ≠ b.quorum → posts 0 (fun y t => y.slots = slots ∧ (y.vhash = b.vhash ∨ y.closed = true) ∧ same t ∧ ∀ g, (t.gang g).cancel = (s.gang g).cancel)) ∧
      (b.posted.getLsbD i = false → b.verdict = false → count = b.quorum →
        (∀ g ∈ s.gangs, g.2.kernel = w.kn → ¬(g.2.st = .pending ∧ g.2.groups = [])) → posts 0 (fun y _ => y.slots = slots ∧ y.verdict = true ∧ y.vhash = x ∧
        ∀ j, j < 64 → y.cancel.getLsbD j = (!b.posted.getLsbD j && decide (j ≠ i) && decide (j < b.sibn))))) ∧
    (CanClaimList h ud d 4 w s → d.toNat + 4 ≤ w.k.regs → mine →
      let f (c : Bool) (n : Nat) : Nat := if c then 2 ^ n else 0
      let q := f b.verdict 31 + f b.closed 30 + f b.noVerdict 29 + f (b.cancel.getLsbD i) 28 + f (b.posted.getLsbD i) 27 + b.slots.length * 2 ^ 10
      ∃ lead, GivesList (.sibq h d) d [BitVec.ofNat 32 q, BitVec.ofNat 32 lead, loWord b.vhash, hiWord b.vhash] 0 false w s ∧
        (∀ y ∈ b.slots, y.count ≤ lead) ∧ (b.slots ≠ [] → ∃ y ∈ b.slots, y.count = lead) ∧ (b.slots = [] → lead = 0)) ∧
    (CanClaim h uw d 2 w s → NoTake w s → mine →
      (b.closed = true → GivesLater (.sibwait h d) d 2 8 b.vhash 0 false w s) ∧ (b.closed = false → WaitsFor (.sibwait h d) .retry w s)) ∧
    (CanClaimList h ud d 8 w s → d.toNat + 8 ≤ w.k.regs → mine →
      let two (n : Nat) : List Word := [BitVec.ofNat 32 n, BitVec.ofNat 32 (n / 2 ^ 32)]
      GivesList (.sibacct h d) d ([BitVec.ofNat 32 b.cancelled, BitVec.ofNat 32 b.late] ++ two b.issue ++ two b.engine ++ two b.bytes) 0 false w s)

/-- R365, R371: PGALLOC takes the lowest page whose word is not allocated and counts it, or gives status 1 at the quota and 2 where the
pool has none; PGREF adds a reference, PGFREE drops one, and the last one frees the page; status 3 names no page, 4 a full count. A sibling's
record notes the page and stands in memory at its place (R393, log 53). -/
def Obligations.PagePool : Prop :=
  ∀ (h : Hdr) (tr : Bool) (d : BitVec 9) (a : Src) (w : Who) (s : State) (x : DWord),
    let ua : Use := { dst := some (d.toNat, 2) }
    let u1 : Use := { srcs := [(.a, a, 1)], dst := some (d.toNat, 1) }
    let p := s.part w.k.part
    let base := (p.kvpCnt.extractLsb' 6 46).toNat * 64
    let on : Prop := p.kvpCtl.getLsbD 31 = true
    let last := bits p.kvpCtl 19 0
    let cnt (k : Nat) : Word := read32 s (base + 4 * k)
    let f := s.fn w.k.owner
    let i := (loWord x).toNat
    let page (k : Nat) : Prop := on ∧ k ≤ last ∧ (cnt k).getLsbD 31 = true
    let full : Prop := w.k.pf = false ∧ f.kvqQuota ≤ f.kvqUsed
    let pageBase (t : State) : State := { s with mem := t.mem, gran := t.gran, host := t.host, fns := t.fns }
    let pages := w.gang.sib.pages
    let wrote (noted : Prop) (t : State) (pa n v : Nat) : Prop :=
      ((∀ b, noted → ballotOf s w.kn = some b → b.recBase = 0) → WroteAt s t pa n v) ∧
      (∀ b, noted → ballotOf s w.kn = some b → b.recBase ≠ 0 → ∃ (m : State) (r : SibRec), WroteAt s m pa n v ∧ r.pages = (t.gang w.gk).sib.pages ∧
        t.mem = (performBytes m (b.recBase + 1088 * w.gang.idx) (bytesOf (sibWords r))).mem)
    let adds : Prop := w.k.sib = true ∧ pages.length < 256
    let noted (t : State) (k : Nat) : Prop :=
      (adds → (t.gang w.gk).sib.pages = pages ++ [k]) ∧ (¬ adds → (t.gang w.gk).sib.pages = pages)
    let gives (j : Instr) (n : Nat) (v : DWord) (P : State → Prop) : Prop :=
      ∃ t, exec j s = .next t ∧ WroteNow h d n (nextPc w 8) v 0 w (pageBase t) t ∧ P t
    let status (j : Instr) (n st : Nat) : Prop :=
      (tr = false → gives j n (BitVec.ofNat 64 st) (fun t => t.mem = s.mem ∧ t.fns = s.fns)) ∧ (tr = true → TrapsWith j 0x13 0 (BitVec.ofNat 32 st) w s)
    NoTake w s → NoCut s → base + 4 * 2 ^ 20 ≤ devBytes → Memory.wf s.mem = true →
    (CanWrite h ua d 2 w s →
      (¬ on → status (.pgalloc h tr d) 2 2) ∧ (on → full → status (.pgalloc h tr d) 2 1) ∧
      (on → ¬ full → (∀ k, k ≤ last → page k) → status (.pgalloc h tr d) 2 2) ∧
      (on → ¬ full → ∀ k, k ≤ last → ¬ page k → (∀ j, j < k → page j) →
        gives (.pgalloc h tr d) 2 (pairOf 0 (BitVec.ofNat 32 k)) (fun t => noted t k ∧
          wrote adds t (base + 4 * k) 4 (2 ^ 31 + (if w.k.pf then 2 ^ 24 else w.k.vf * 2 ^ 25) + 1) ∧
          (t.fn w.k.owner).kvqUsed = (if w.k.pf then f.kvqUsed else f.kvqUsed + 1)))) ∧
    (CanWrite h u1 d 1 w s → Reads u1 w s a 1 x →
      (¬ page i → status (.pgref h tr d a) 1 3) ∧ (page i → bits (cnt i) 15 0 = 65535 → status (.pgref h tr d a) 1 4) ∧
      (page i → bits (cnt i) 15 0 ≠ 65535 → gives (.pgref h tr d a) 1 0 (fun t => noted t i ∧ wrote adds t (base + 4 * i) 4 ((cnt i).toNat + 1))) ∧
      (Drained w s →
        (¬ page i → status (.pgfree h tr d a) 1 3) ∧
        (page i → 1 < bits (cnt i) 15 0 → gives (.pgfree h tr d a) 1 0 (fun t => wrote (w.k.sib = true) t (base + 4 * i) 4 ((cnt i).toNat - 1) ∧ t.fns = s.fns ∧
          (w.k.sib = true → (t.gang w.gk).sib.pages = pages.erase i))) ∧
        (page i → bits (cnt i) 15 0 ≤ 1 → gives (.pgfree h tr d a) 1 0 (fun t =>
          wrote (w.k.sib = true) t (base + 4 * i) 4 (bits (cnt i) 30 0 - bits (cnt i) 15 0) ∧
          (w.k.sib = true → (t.gang w.gk).sib.pages = pages.erase i) ∧
          ((cnt i).getLsbD 24 = false → (t.fn (bits (cnt i) 30 25 + 1)).kvqUsed = (s.fn (bits (cnt i) 30 25 + 1)).kvqUsed - 1)))))

/-- R360, R370, R372, R373: TIERQ gives where an entry of a record stands; INVR of a range drops its cached translations and is
outstanding until the accesses that may have used them are done, and a ninth waits for the oldest; INVWAIT waits for the thread's own. -/
def Obligations.TierQueryAndInvalidation : Prop :=
  ∀ (h : Hdr) (d : BitVec 9) (a b c : Src) (w : Who) (s m : State) (x y z : DWord) (k : KvHead),
    let uq : Use := { srcs := [(.b, a, 2), (.c, b, 1)], dst := some (d.toNat, 1) }
    let ui : Use := { srcs := [(.a, a, 2), (.b, b, 2), (.c, c, 1)], sys := true }
    let va := x.toNat
    let len := y.toNat
    let asid := (loWord z).toNat
    let e := kvEntry m w.ctx w.k.owner va k.count (loWord y).toNat
    let gives (n : Nat) : Prop := ∃ t, exec (.tierq h d a b) s = .next t ∧
      Goes w (inDst d.toNat 1) { e.2 with results := t.results, nextId := t.nextId } t ∧ Sends w d 1 (BitVec.ofNat 64 n) s t
    (Issues h uq w s → NoTake w s → Reads uq w s a 2 x → w.k.regs < d.toNat + 1 → TrapsWith (.tierq h d a b) 0x06 0 0x20 w s) ∧
    (CanClaim h uq d 1 w s → NoTake w s → Reads uq w s a 2 x → Reads uq w s b 1 y → d.toNat < w.k.regs →
      (va % 64 ≠ 0 → (∀ ys, w.th.wait ≠ .header ys) → TrapsWith (.tierq h d a b) 0x09 x 0 w s) ∧
      (headerOf w (advance w uq s) va = .ok (k, m) → entryOwn w m va k.count (loWord y).toNat = false →
        (e.1 = none → gives 4) ∧ (∀ n, e.1 = some (false, n) → gives 0) ∧
        (∀ n, e.1 = some (true, n) → match (trackAt (e.2.part w.k.part) w.k.asid va (loWord y).toNat).map Tracker.st with
          | some .inflight => gives 2
          | some (.faulted r) => gives (3 + r * 256)
          | some .done => gives 1
          | none => gives 1))) ∧
    (Issues h ui w s → Reads ui w s a 2 x → Reads ui w s b 2 y → Reads ui w s c 1 z →
      ((asid / 2 ^ 16 ≠ 0 ∨ 2 ^ 54 ≤ va ∨ 2 ^ 54 < va + len) → TrapsWith (.invr h a b c) 0x06 0 0x19 w s) ∧
      (asid < 2 ^ 16 → va < 2 ^ 54 → va + len ≤ 2 ^ 54 →
        (w.k.pf = false → asid ≠ w.k.asid → TrapsWith (.invr h a b c) 0x06 0 0x1A w s) ∧
        ((w.k.pf = true ∨ asid = w.k.asid) →
          (len = 0 → GivesNothing (.invr h a b c) w s) ∧
          (0 < len → (∀ n, w.th.wait ≠ .invr n) → 8 ≤ w.th.invrs.length → ∀ n l, w.th.invrs = n :: l → WaitsFor (.invr h a b c) (.invr n) w s) ∧
          (0 < len → ∀ n, w.th.wait = .invr n → n ∈ w.th.invrs → WaitsFor (.invr h a b c) (.invr n) w s) ∧
          (0 < len → ((∀ n, w.th.wait ≠ .invr n) ∧ w.th.invrs.length < 8 ∨ ∃ n, w.th.wait = .invr n ∧ n ∉ w.th.invrs) → ∃ t q, exec (.invr h a b c) s = .next t ∧
            Goes w (fun _ => false) { s with tlbs := t.tlbs, invs := s.invs ++ [q], nextId := t.nextId } t ∧
            (t.thread w.t).invrs = w.th.invrs ++ [q.id] ∧ q.tid = some w.t ∧ q.part = w.k.part ∧ q.asid = asid ∧ q.lo = va ∧ q.hi = va + len - 1 ∧
            (∀ n, ∀ g ∈ at_ t.tlbs n [], g ∈ at_ s.tlbs n [] ∧ ¬(g.part = w.k.part ∧ g.asid = asid ∧ g.va ≤ va + len - 1 ∧ va < g.va + max 1 g.size)) ∧
            (∀ l ∈ s.loads, l.tid = w.t → l.asid = asid → l.va ≤ va + len - 1 → va < l.va + 16 → l.id ∈ q.after) ∧
            (∀ l ∈ s.loads, l.tid = w.t → l.asid = asid → ∀ n, ∀ g ∈ at_ s.tlbs n [], g ∉ at_ t.tlbs n [] → l.va < g.va + g.size → g.va < l.va + 16 →
              l.id ∈ q.after) ∧
            ∀ g ∈ s.pieces, g.part = w.k.part → g.asid = asid → 65536 * g.page ≤ va + len - 1 → va < 65536 * g.page + 65536 → g ∈ q.held)))) ∧
    (Issues h { sys := true, cancel := .always } w s →
      (w.th.invrs = [] → GivesNothing (.invwait h) w s) ∧ (w.th.invrs ≠ [] → WaitsFor (.invwait h) .retry w s))

/-- R75, R296, R301: an instruction of system mode traps in user mode with cause 0x02, and one of the physical function alone with
TRAP_INFO 1 in a kernel of a VF; it does nothing else. -/
def Obligations.PrivilegedInstructionsTrap : Prop :=
  ∀ (h : Hdr) (ty : Ty) (whole : Bool) (d : BitVec 9) (a b c : Src) (reg : SysReg) (log : LogReg) (w : Who) (s : State), s.who? = some w →
    let pfRegs : List SysReg := [.mgnCtl, .mgnStat, .mgnInj, .ckCtl, .ckStat]
    (w.th.sys = false → ∀ i ∈ [Instr.tret h, .srd h ty d reg, .srdLogPop h ty d log, .swr h ty reg b, .swrLogClear h ty log b, .swrMgnInj h ty b,
      .halt h b, .quar h a, .ckcut h d a, .csave h whole d a b c, .mfreeze h a, .mthaw h a, .mdrain h a b, .mfill h a b, .invr h a b c, .invwait h],
      TrapsWith i 0x02 0 0 w s) ∧
    (w.th.sys = true → w.k.pf = false →
      (∀ i ∈ [Instr.quar h a, .ckcut h d a, .csave h whole d a b c, .swrMgnInj h ty b, .srdLogPop h ty d .mgnLog, .swrLogClear h ty .mgnLog b],
        TrapsWith i 0x02 0 1 w s) ∧
      (reg ∈ pfRegs → TrapsWith (.srd h ty d reg) 0x02 0 1 w s ∧ TrapsWith (.swr h ty reg b) 0x02 0 1 w s))

/-- R301, R302, R303: SRD gives the register of the thread, its core, its partition or its group; a read of MGN_LOG or FLT_LOG takes the
oldest entry, and of an empty queue gives 0.
R258, R280, R282, R283, R301, R302, R303: SWR writes the register, a 32-bit write keeping the upper half; a read-only register, a value
with a reserved bit set or out of range, and a TRAP_BASE that is no multiple of 8 trap and write nothing; a write of a log empties it.
That a 32-bit register ignores the high half of a 64-bit write is the model's reading (log 59). -/
def Obligations.SystemRegisters : Prop :=
  (∀ (h : Hdr) (ty : Ty) (d : BitVec 9) (reg : SysReg) (w : Who) (s : State),
    let n := tyWords ty
    let u (pf : Bool) : Use := { dst := some (d.toNat, n), sys := true, pf := pf }
    let bank (i : Nat) : Word := bankGet s w.t i
    let pair (i : Nat) : DWord := pairOf (bank i) (bank (i + 1))
    let value : DWord := match reg with
      | .trapMask => (bank 23).setWidth 64
      | .trapBase => pair 24
      | .trapPc => pair 26
      | .trapAddr => pair 28
      | .trapInfo => (bank 30).setWidth 64
      | .trapCause => (bank 31).setWidth 64
      | .mgnCtl => (s.core w.g.core).mgnCtl
      | .mgnStat => mgnStat s (s.core w.g.core)
      | .mgnInj => (s.core w.g.core).mgnInj
      | .asid => BitVec.ofNat 64 w.k.asid
      | .world => if w.k.world then 1 else 0
      | .ckCtl => (s.part w.k.part).ckCtl
      | .ckStat => ckStat (s.part w.k.part)
      | .evBase => BitVec.ofNat 64 w.g.evBase
    let pops (r : LogReg) (l : List DWord) (P : State → Prop) : Prop :=
      ∃ t, exec (.srdLogPop h ty d r) s = .next t ∧ Goes w (inDst d.toNat n) { s with cores := t.cores, fns := t.fns, results := t.results, nextId := t.nextId } t ∧
        Sends w d n (l.headD 0) s t ∧ P t
    (CanClaim h (u (decide (reg ∈ [SysReg.mgnCtl, .mgnStat, .mgnInj, .ckCtl, .ckStat]))) d n w s →
      GivesLater (.srd h ty d reg) d n 8 value 0 false w s) ∧
    (CanClaim h (u true) d n w s → pops .mgnLog (s.core w.g.core).mgnLog (fun t => (t.core w.g.core).mgnLog = (s.core w.g.core).mgnLog.tail ∧ t.fns = s.fns)) ∧
    (CanClaim h (u false) d n w s → pops .fltLog (s.fn w.k.owner).fltLog (fun t => (t.fn w.k.owner).fltLog = (s.fn w.k.owner).fltLog.tail ∧
      (∀ f, f ≠ w.k.owner → t.fn f = s.fn f) ∧ ∀ k, (t.core k).mgnLog = (s.core k).mgnLog))) ∧
  (∀ (h : Hdr) (ty : Ty) (reg : SysReg) (b : Src) (w : Who) (s : State) (x : DWord),
    let n := tyWords ty
    let u (pf : Bool) : Use := { srcs := [(.b, b, n)], sys := true, pf := pf }
    let core := s.core w.g.core
    let ck := (s.part w.k.part).ckCtl
    let keep (old : DWord) : DWord := if n = 1 then pairOf (loWord x) (hiWord old) else x
    let goes (i : Instr) (mine : Nat → Bool) (P : State → Prop) : Prop :=
      ∃ t, exec i s = .next t ∧ Goes w mine { s with cores := t.cores, parts := t.parts, fns := t.fns } t ∧ (t.thread w.t).latches = w.th.latches ∧ P t
    let bank (r : SysReg) (i : Nat) : Prop := goes (.swr h ty r b) (fun j => j = w.k.regs + i) (fun t => bankGet t w.t i = loWord x)
    let pair (r : SysReg) (i : Nat) : Prop := goes (.swr h ty r b) (fun j => j = w.k.regs + i || j = w.k.regs + i + 1)
      (fun t => bankPair t w.t i = keep (bankPair s w.t i))
    let none_ : Nat → Bool := fun _ => false
    let inj (i : Instr) : Prop :=
      let y := keep core.mgnInj
      let bad : Prop := bits y 59 56 = 0 ∨ 2 < bits y 62 60 ∨ bits y 55 48 ≠ 0
      (bad → TrapsWith i 0x06 0 0x30 w s) ∧ (¬ bad → goes i none_ (fun t => (t.core w.g.core).mgnInj = y ∧ (t.core w.g.core).injLeft = bits y 59 56))
    (Issues h (u false) w s → Reads (u false) w s b n x → 1 ≤ w.k.regs →
      (reg ∈ [SysReg.asid, .world, .evBase] → TrapsWith (.swr h ty reg b) 0x06 0 0x31 w s) ∧
      (bits x 30 8 ≠ 0 → TrapsWith (.swr h ty .trapMask b) 0x06 0 0x30 w s) ∧ (bits x 30 8 = 0 → bank .trapMask 23) ∧
      (bits x 31 9 ≠ 0 → TrapsWith (.swr h ty .trapCause b) 0x06 0 0x30 w s) ∧ (bits x 31 9 = 0 → bank .trapCause 31) ∧
      bank .trapInfo 30 ∧ pair .trapPc 26 ∧ pair .trapAddr 28 ∧ (bits x 2 0 = 0 → pair .trapBase 24) ∧
      (bits x 2 0 ≠ 0 → TrapsWith (.swr h ty .trapBase b) 0x09 (keep (bankPair s w.t 24)) 0 w s) ∧
      goes (.swrLogClear h ty .fltLog b) none_ (fun t => (t.fn w.k.owner).fltLog = [] ∧ ∀ f, f ≠ w.k.owner → t.fn f = s.fn f)) ∧
    (Issues h (u true) w s → Reads (u true) w s b n x →
      TrapsWith (.swr h ty .ckStat b) 0x06 0 0x31 w s ∧ inj (.swr h ty .mgnInj b) ∧ inj (.swrMgnInj h ty b) ∧
      (let y := keep core.mgnCtl
       let bad : Prop := bits y 63 48 ≠ 0 ∨ bits y 46 40 ≠ 0 ∨ bits y 11 4 ≠ 0 ∨ bits y 15 12 = 0 ∨ bits y 23 16 = 0 ∨ bits y 33 30 = 0 ∨
         bits y 29 24 < 10 ∨ 40 < bits y 29 24 ∨ bits y 39 34 < 16 ∨ 40 < bits y 39 34
       (bad → TrapsWith (.swr h ty .mgnCtl b) 0x06 0 0x30 w s) ∧
       (¬ bad → goes (.swr h ty .mgnCtl b) none_ (fun t => (t.core w.g.core).mgnCtl = y ∧ (t.core w.g.core).step = min core.step (bits y 3 0)))) ∧
      (bits x 19 17 = 0 → bits x 14 4 = 0 → goes (.swr h ty .mgnStat b) none_ (fun t => (t.core w.g.core).rtotal = (hiWord (keep (mgnStat s core))).toNat)) ∧
      (let y := keep ck
       let bad : Prop := bits y 47 46 = 3 ∨ bits y 9 1 ≠ 0
       (bad → TrapsWith (.swr h ty .ckCtl b) 0x06 0 0x30 w s) ∧ (¬ bad → goes (.swr h ty .ckCtl b) none_ (fun t => (t.part w.k.part).ckCtl = y))) ∧
      goes (.swrLogClear h ty .mgnLog b) none_ (fun t => (t.core w.g.core).mgnLog = [] ∧ t.fns = s.fns)))

/-- R265, R276, R286, R304, R305, R306: HALT ends every thread of the kernel and gives its status to the completion record; QUAR
quarantines a core and stops its groups; CSAVE closes the named cores to placement and stops the groups of those in service, waits until
each is saved or gone, and gives the number saved, or all ones where the area is too small.
Where the area of CSAVE lies outside the partition is log 63. -/
def Obligations.HaltQuarantineAndSave : Prop :=
  ∀ (h : Hdr) (whole : Bool) (d : BitVec 9) (a b c : Src) (w : Who) (s : State) (x y z : DWord) (vs : List Nat),
    let ub : Use := { srcs := [(.b, b, 1)], sys := true }
    let ua : Use := { srcs := [(.a, a, 1)], sys := true, pf := true }
    let us : Use := { srcs := [(.a, a, 2), (.b, b, 1), (.c, c, 1)], dst := some (d.toNat, 1), sys := true, pf := true }
    let part := s.part w.k.part
    (Issues h ub w s → Reads ub w s b 1 x → ∃ t, exec (.halt h b) s = .next t ∧
      (t.kernel w.kn).halted = true ∧ (t.kernel w.kn).hstatus = loWord x ∧
      (t.kernel w.kn).kill = (s.kernel w.kn).kill.or (some ⟨0, w.th.pc, 0, 0⟩) ∧
      ∀ gk, (look s.gangs gk).isSome → (s.gang gk).kernel = w.kn → (s.gang gk).st ≠ .ended → ∀ q, q.vgid ∈ (s.gang gk).groups →
        (look s.groups q.vgid).isSome → (look s.threads q).isSome → (t.thread q).st = .exited) ∧
    (Issues h ua w s → Reads ua w s a 1 x →
      let cl := bits x 10 5
      let k := bits x 4 0
      let bad : Prop := bits x 31 11 ≠ 0 ∨ 23 < k ∨ 47 < cl ∨ part.clu.getLsbD cl = false
      let core := 24 * cl + k
      (bad → TrapsWith (.quar h a) 0x06 0 0x35 w s) ∧
      (¬ bad → (s.core core).quar = true → GivesNothing (.quar h a) w s) ∧
      (¬ bad → (s.core core).quar = false → ∃ t, exec (.quar h a) s = .next t ∧ Past w (nextPc w 8) t ∧ (t.core core).quar = true ∧
        (∀ v g, (v, g) ∈ s.groups → g.core = core → g.saved = none → (t.group v).stop.isSome) ∧
        (∀ v ∈ s.mgmt.quarRing, v ∈ t.mgmt.quarRing) ∧ ∀ q i, q.vgid = w.t.vgid → regGet t q i = regGet s q i)) ∧
    (CanWrite h us d 1 w s → (∀ n l, w.th.wait ≠ .csave n l) → Reads us w s a 2 x → Reads us w s b 1 y → Reads us w s c 1 z →
      let cl := bits y 29 24
      let base := x.toNat
      let cores := ((List.range 24).filter (fun k => y.getLsbD k)).map (fun k => 24 * cl + k)
      let all := (cores.filter (fun k => !(s.core k).quar)).flatMap (residents s)
      let need := all.foldl (fun n v => n + ((areaShape s v).size + 63) / 64 * 64) 0
      let reach : Prop := cl ≤ 47 ∧ part.clu.getLsbD cl = true
      let held (t : State) : Prop := (t.cluster cl).hold = (s.cluster cl).hold ||| BitVec.ofNat 24 (bits y 23 0) ∧ ∀ k, k ≠ cl → t.cluster k = s.cluster k
      (¬ reach → TrapsWith (.csave h whole d a b c) 0x06 0 0x23 w s) ∧
      (reach → w.g.core ∈ cores → TrapsWith (.csave h whole d a b c) 0x06 0 0x32 w s) ∧
      (reach → w.g.core ∉ cores →
        (base % 64 ≠ 0 → TrapsWith (.csave h whole d a b c) 0x09 x 0 w s) ∧
        (base % 64 = 0 → (loWord z).toNat < need → GivesNow (.csave h whole d a b c) h d 1 8 0xFFFFFFFF w s) ∧
        (base % 64 = 0 → need ≤ (loWord z).toNat → all = [] →
          ∃ t, exec (.csave h whole d a b c) s = .next t ∧ WroteNow h d 1 (nextPc w 8) 0 0 w { s with clusters := t.clusters } t ∧ held t) ∧
        (base % 64 = 0 → need ≤ (loWord z).toNat → all ≠ [] → inRanges part base = true → inRanges part (base + need - 1) = true →
          ∃ t, exec (.csave h whole d a b c) s = .next t ∧ HeldFor w (.csave 0 all) (fun _ => false) { s with clusters := t.clusters, groups := t.groups } t ∧
            held t ∧ ∀ v ∈ all, (t.group v).stop.isSome ∧ ∃ r, (t.group v).area = some r ∧ r.whole = whole ∧ base ≤ r.base))) ∧
    (CanWrite h us d 1 w s → ∀ n, w.th.wait = .csave n vs →
      ((∀ v ∈ vs, look s.groups v = none) → GivesNow (.csave h whole d a b c) h d 1 8 (BitVec.ofNat 64 n) w s) ∧
      ((∃ v ∈ vs, (look s.groups v).isSome = true) → Holds (.csave h whole d a b c) (.csave n vs) w s))

/-- R307, R308, R309, R312: CKCUT adds a cut to those the partition has accepted, unless one is being copied; CKWAIT gives the outcome of
the latest cut, 2 where its tick is another, and waits for it to end. EVPOP takes the entry at HEAD of the group's inbox; EVWAIT ends where
one is there, or where one was posted while it waited.
That accepted cuts begin in the order of their ticks is the model's reading (log 46). -/
def Obligations.CutsAndTheEventInbox : Prop :=
  ∀ (h : Hdr) (d : BitVec 9) (a b : Src) (w : Who) (s : State) (x : DWord),
    let uc : Use := { srcs := [(.a, a, 2)], dst := some (d.toNat, 2), sys := true, pf := true }
    let uw : Use := { srcs := [(.a, a, 2)], dst := some (d.toNat, 1), cancel := .always }
    let ue : Use := { dst := some (d.toNat, 1) }
    let uv : Use := { srcs := [(.b, b, 1)], dst := some (d.toNat, 1), cancel := .always }
    let p := s.part w.k.part
    let base := w.g.evPhys
    let head := read32 s base
    let count := read32 s (base + 4)
    let dropped := read32 s (base + 8)
    let slot := base + 32 * head.toNat
    let n := (loWord x).toNat
    (CanClaim h uc d 2 w s → Reads uc w s a 2 x →
      (p.ckActive = true → GivesLater (.ckcut h d a) d 2 8 0x8000000000000000 0 false w s) ∧
      (p.ckActive = false → ∃ t q, exec (.ckcut h d a) s = .next t ∧
        Goes w (inDst d.toNat 2) { s with parts := t.parts, results := t.results, nextId := t.nextId } t ∧
        Sends w d 2 (BitVec.ofNat 64 (max x.toNat (s.hbt + 1))) s t ∧
        (let u := t.part w.k.part
         let cuts (y : Part) : List Cut := y.cut.toList ++ y.later
         u = { p with cut := u.cut, later := u.later, latest := some (q.tick, q.no), lastCut := none } ∧ (cuts u).Perm (q :: cuts p) ∧ (cuts u).Pairwise (fun a b => a.tick ≤ b.tick)) ∧
        (∀ k, k ≠ w.k.part → t.part k = s.part k) ∧ q.tick = max x.toNat (s.hbt + 1) ∧ q.ticked = false ∧ q.asidsel = bits p.ckCtl 63 48 ∧
        q.sel = bits p.ckCtl 47 46 ∧ q.no = s.nextId ∧
        q.dest = bits p.ckCtl 45 10 * 65536 ∧ q.regs = p.ckCtl.getLsbD 0)) ∧
    (CanWrite h uw d 1 w s → Reads uw w s a 2 x →
      ((∀ k, p.latest ≠ some (x.toNat, k)) → GivesNow (.ckwait h d a) h d 1 8 2 w s) ∧
      (∀ k, p.latest = some (x.toNat, k) →
        (∀ f, p.lastCut = some f → GivesNow (.ckwait h d a) h d 1 8 (if f then 1 else 0) w s) ∧
        (p.lastCut = none → WaitsFor (.ckwait h d a) .retry w s))) ∧
    (CanClaimList h ue d 8 w s → NoTake w s → d.toNat + 8 ≤ (if w.th.sys then w.k.regs + 23 else w.k.regs) → ownPendingW w s base 2048 = false →
      ((head.toNat = 0 ∨ 63 < head.toNat ∨ 63 < count.toNat) → TrapsWith (.evpop h d) 0x06 0 0x34 w s) ∧
      (0 < head.toNat → head.toNat ≤ 63 → count.toNat ≤ 63 →
        (count = 0 → GivesList (.evpop h d) d (List.replicate 8 0) 0 false w s) ∧
        (count ≠ 0 → (count ≠ 1 ∨ dropped = 0) → badAt s slot 32 = none → NoCut s → base + 2048 ≤ devBytes → Memory.wf s.mem = true →
          ∃ t, exec (.evpop h d) s = .next t ∧
            Goes w (inList d.toNat 8) { s with mem := t.mem, gran := t.gran, host := t.host, results := t.results, nextId := t.nextId } t ∧
            SendsList w d ((List.range 8).map (fun i => read32 s (slot + 4 * i))) s t ∧
            (∀ j, j < 32 → memGet t.mem (slot + j) = 0) ∧ read32 t base = BitVec.ofNat 32 (head.toNat % 63 + 1) ∧
            read32 t (base + 4) = BitVec.ofNat 32 (count.toNat - 1) ∧
            ∀ k, ¬(slot ≤ k ∧ k < slot + 32) → ¬(base ≤ k ∧ k < base + 8) → memGet t.mem k = memGet s.mem k))) ∧
    (CanWrite h uv d 1 w s → Reads uv w s b 1 x → (∀ k j, w.th.wait ≠ .evwait k j) →
      let waiting := bits count 5 0
      (w.th.wait = .posted → GivesNow (.evwait h d b) h d 1 8 1 w s) ∧
      (0 < waiting → GivesNow (.evwait h d b) h d 1 8 1 w s) ∧
      (w.th.wait ≠ .posted → waiting = 0 → n = 0 → GivesNow (.evwait h d b) h d 1 8 0 w s) ∧
      (w.th.wait ≠ .posted → waiting = 0 → n ≠ 0 → WaitsFor (.evwait h d b) (.evwait (s.cyc + n) d.toNat) w s))

/-- R71 to R74: a pair word reads the operands of both halves whose guard is true before either writes, and then writes each half's
result to its destination, which is its first operand; a half whose guard is false does nothing; no latch changes. -/
def Obligations.PairWordResults : Prop :=
  ∀ (op : PairOp) (mk : Half → PairHalf → Instr) (a : Half) (b : PairHalf) (w : Who) (s : State) (xa ya xb yb : Word),
    (op, mk) ∈ ([(.mov, .pairMov), (.iadd, .pairIadd), (.isub, .pairIsub), (.imul, .pairImul), (.imin, .pairImin), (.imax, .pairImax), (.and,
      .pairAnd), (.or, .pairOr), (.xor, .pairXor), (.shl, .pairShl), (.shr, .pairShr), (.sar, .pairSar), (.rot, .pairRot), (.fadd,
      .pairFadd), (.fsub, .pairFsub), (.fmul, .pairFmul), (.fmin, .pairFmin), (.fmax, .pairFmax), (.movi, .pairMovi), (.iaddImm,
      .pairIaddImm), (.andImm, .pairAndImm), (.shlImm, .pairShlImm), (.shrImm, .pairShrImm), (.sarImm, .pairSarImm), (.rotImm,
      .pairRotImm)] : List (PairOp × (Half → PairHalf → Instr))) →
    let imm (o : PairOp) : Bool := o ∈ [PairOp.movi, .iaddImm, .andImm, .shlImm, .shrImm, .sarImm, .rotImm]
    let names (o : PairOp) (q : Half) : List (Nat × Nat) := (q.dst.toNat, 1) :: (if imm o then [] else [(q.src.toNat, 1)])
    let act (q : Half) : Bool := w.th.preds.getLsbD q.pidx.toNat
    let val (i : BitVec 9) : Word := if i = 0 then 0 else (regGet s w.t i.toNat).val
    let clean (i : BitVec 9) : Prop := i ≠ 0 → (regGet s w.t i.toNat).tag ≠ .pend ∧ (regGet s w.t i.toNat).tag ≠ .poison
    let ready (o : PairOp) (q : Half) (x y : Word) : Prop := act q = true →
      (q.dst ≠ 0 → busy s w.t q.dst.toNat 1 = false) ∧ (imm o = false → q.src ≠ 0 → busy s w.t q.src.toNat 1 = false) ∧ (o ≠ .mov → o ≠ .movi → clean q.dst ∧ x = val q.dst) ∧
      (imm o = true → y = q.src.signExtend 32) ∧ (imm o = false → clean q.src ∧ y = val q.src)
    let pend (i : BitVec 9) : Prop := i ≠ 0 ∧ busy s w.t i.toNat 1 = true
    let blocked (o : PairOp) (q : Half) : Prop := act q = true ∧ (pend q.dst ∨ imm o = false ∧ pend q.src)
    let typed (o : PairOp) (ty : Ty) : Prop := ty ∈ (match o with
      | .mov => [Ty.s32, .z32, .f32, .bf16]
      | .fadd | .fsub | .fmul | .fmin | .fmax => [Ty.f32, .bf16]
      | .shl | .shr | .rot | .shlImm | .shrImm | .rotImm => [Ty.z32]
      | .sar | .sarImm => [Ty.s32]
      | _ => [Ty.s32, .z32])
    let ra := halfResult op a.ty w.th xa ya
    let rb := halfResult b.op b.half.ty w.th xb yb
    let reads (v : Who) : List (Nat × Nat) := (activeHalves [⟨op, a⟩, b] v.th).flatMap halfReads
    Issues ⟨7, false, false, .none⟩ { named := names op a ++ names b.op b.half, lists := fun v _ => reads v } w s →
    ((blocked op a ∨ blocked b.op b.half) → WaitsFor (mk a b) .retry w s) ∧
    (ready op a xa ya → ready b.op b.half xb yb → a.dst.toNat % 4 ≠ b.half.dst.toNat % 4 →
      typed op a.ty → typed b.op b.half.ty →
      ∃ t, exec (mk a b) s = .next t ∧ Past w (nextPc w 8) t ∧ (t.thread w.t).preds = w.th.preds ∧ (t.thread w.t).latches = w.th.latches ∧
        (act a = true → HoldsNow w a.dst.toNat 1 (ra.1.setWidth 64) t) ∧ (act b.half = true → HoldsNow w b.half.dst.toNat 1 (rb.1.setWidth 64) t) ∧
        (t.thread w.t).fcw = w.th.fcw ||| (if act a then ra.2.setWidth 32 else 0) ||| (if act b.half then rb.2.setWidth 32 else 0) ∧
        Rest w (fun i => act a && inDst a.dst.toNat 1 i || act b.half && inDst b.half.dst.toNat 1 i) s t)

/-- R122, R123: a load's next piece takes each byte from the youngest of its thread's own earlier stores to it, else from memory; with
the last piece its claimed words arrive, .i8 sign-extended and 16-bit ones zero-extended (`loadWords`). R290: from the first word with
a byte of a bad granule on they are lost, with origin 1. R124, R125: a store's next piece is performed in one step, and no other byte
changes; its entry leaves the queue with its last piece. R291: a store whose own data has an uncorrectable error writes no byte, and its gang is
killed with code 5.
A load that a later one of its thread overtakes is the model's form of R122 and R151 (log 5, log 86); which word a loss names first is log
49. -/
def Obligations.LoadsArriveAndStoresPerform : Prop :=
  (∀ (s : State) (id a n : Nat) (l : Load) (r : List (Nat × Nat)) (bs : List Byte),
    let x := l.tid
    let all := l.got ++ bs
    let ws := loadWords l.ty all
    s.loads.find? (fun y => y.id = id) = some l → l.pieces = (a, n) :: r → (s.group x.vgid).saved = none → l.lost = none → bs.length = n →
    (∀ j, j < n → bs[j]? = some ((ownByte s x id (a + j)).getD (memGet s.mem (canon s (a + j))))) →
    (loadHeld s l a n = true → exec (.loadArrival id) s = .next s) ∧
    (loadHeld s l a n = false →
      ((∀ j, j < n → granBad s (a + j) = none) →
        ∃ t, exec (.loadArrival id) s = .next t ∧
          t = { s with loads := t.loads, atomics := t.atomics, accs := t.accs, gangs := t.gangs, threads := t.threads } ∧
          OnlyPassed { s with loads := if r = [] then s.loads.filter (fun y => y.id ≠ id)
                                       else s.loads.map (fun y => if y.id = id then { y with pieces := r, got := all, lost := none } else y) } t ∧
          (∀ v, t.gang v = { s.gang v with sib := (t.gang v).sib }) ∧ KeepsThreads (· = x) s t ∧
          KeepsRegs (fun y i => y = x && inDst l.dst (if r = [] then ws.length else 0) i) s t ∧
          (r = [] → (l.dst ≠ 0 → ∀ j v, ws[j]? = some v → Arrived s t x (l.dst + j) v))) ∧
      (∀ j, j < n → (∀ i, i < n → ownByte s x id (a + i) = none) → granBad s (a + j) ≠ none → (∀ i, i < j → granBad s (a + i) = none) →
        r = [] → l.dst ≠ 0 →
        let k := (l.got.length + j) / 4
        ∃ t, exec (.loadArrival id) s = .next t ∧ t.mem = s.mem ∧
          (∀ i v, i < k → ws[i]? = some v → Arrived s t x (l.dst + i) v) ∧
          ∀ i, k ≤ i → i < ws.length → Lost s t x (l.dst + i) (BitVec.ofNat 32 (2 ^ 28 + k % 2 ^ 28))))) ∧
  (∀ (s : State) (v a : Nat) (g : Group) (e : StoreEntry) (bs : List Byte) (r : List (Nat × List Byte)),
    look s.groups v = some g → g.queue.head? = some e → e.red = none → e.pieces = (a, bs) :: r →
    (storeHeld s e a bs.length = true → exec (.storePerformed v) s = .next s) ∧
    (storeHeld s e a bs.length = false → e.bad = true →
      ∃ m, m = { s with groups := m.groups } ∧ m.group v = { g with queue := g.queue.drop 1 } ∧ (∀ u, u ≠ v → m.group u = s.group u) ∧
        exec (.storePerformed v) s = .next (killIntegrity m v (s.thread e.tid).pc (BitVec.ofNat 64 e.va) 5)) ∧
    (storeHeld s e a bs.length = false → e.bad = false → NoCut s → bs.length ≤ 16 →
      ∃ t, exec (.storePerformed v) s = .next t ∧ WroteAt s t a bs.length (ofBytes bs) ∧
        t = { s with
              mem := t.mem, gran := t.gran, host := t.host, threads := t.threads, groups := t.groups, loads := t.loads,
              atomics := t.atomics, accs := t.accs } ∧
        OnlyPassed s t ∧ KeepsThreads (fun _ => false) s t ∧ (∀ u, u ≠ v → t.group u = s.group u) ∧
        t.group v = { g with queue := (if r = [] then [] else [{ e with pieces := r }]) ++ g.queue.drop 1 }))

/-- R42, R174: a result on its way arrives in its claimed words, with the flags it sets. R337, R338: an SE applies an atomic in one step:
memory has the new value, the claimed words the old one, and a float operation's flags are set. R339, R340: a reduction at the head of
the store queue is accepted; accepted, it is applied in one step, or its translation faults and the kernel keeps the first fault.
R292: a scrubber's find counts for the physical function, and a bad granule stays marked. R361: data of the far tier and of the host can fail the
CRC, or come as data poison, where it enters the device; that a scrub event stands for it is the model's choice (log 16). -/
def Obligations.ResultsAtomicsAndReductionsApply : Prop :=
  (∀ (s : State) (id : Nat) (r : Result), s.results.find? (fun x => x.id = id) = some r → (s.group r.tid.vgid).saved = none →
    (r.writes.map (·.1)).Nodup →
    ∃ t, exec (.resultArrival id) s = .next t ∧ t = { s with results := s.results.filter (fun x => x.id ≠ id), threads := t.threads } ∧
      (∀ p ∈ r.writes, Arrived s t r.tid p.1 p.2) ∧ (t.thread r.tid).fcw = (s.thread r.tid).fcw ||| r.flags.setWidth 32 ∧
      (t.thread r.tid).pc = (s.thread r.tid).pc ∧ (t.thread r.tid).st = (s.thread r.tid).st ∧ KeepsThreads (· = r.tid) s t ∧
      KeepsRegs (fun y i => y = r.tid && (r.writes.map (·.1)).contains i) s t) ∧
  (∀ (s : State) (id : Nat) (a : Atomic), s.atomics.find? (fun x => x.id = id) = some a →
    let n := 4 * tyWords a.ty
    let old := ofBytes (physRead s a.addr n)
    let new := atomValue a.ty a.op old a.b.toNat a.c.toNat
    atomicHeld s a = false → a.got = none → NoCut s → a.live = true → (∀ i k o, a.kind ≠ .vatom i k o) → badAt s a.addr n = none →
    (s.group a.tid.vgid).saved = none →
    ∃ t, exec (.seAtomicApply id) s = .next t ∧ WroteAt s t a.addr n new.1 ∧ (∀ x ∈ t.atomics, x.id ≠ id) ∧
      (∀ i, inDst a.dst (tyWords a.ty) i = true → Arrived s t a.tid i (wordOf (BitVec.ofNat 64 old) (i - a.dst))) ∧
      (t.thread a.tid).fcw = (s.thread a.tid).fcw ||| new.2.setWidth 32 ∧ (t.thread a.tid).pc = (s.thread a.tid).pc ∧
      t = { s with
            mem := t.mem, gran := t.gran, host := t.host, threads := t.threads, loads := t.loads, atomics := t.atomics, accs := t.accs,
            groups := t.groups } ∧
      OnlyPassed { s with atomics := s.atomics.filter (fun x => x.id ≠ id) } t ∧
      (∀ v, t.group v = { s.group v with queue := (t.group v).queue } ∧ (t.group v).queue.map (fun e => { e with overtaken := false }) =
        (s.group v).queue.map (fun e => { e with overtaken := false })) ∧
      KeepsThreads (· = a.tid) s t ∧ KeepsRegs (fun y i => y = a.tid && inDst a.dst (tyWords a.ty) i) s t) ∧
  (∀ (s : State) (v : Nat) (g : Group) (e : StoreEntry) (r : RedOp), look s.groups v = some g → g.queue.head? = some e → e.red = some r →
    releaseHeld s e = false → coreBefore s e.tid e.after = false →
    let w := s.who e.tid
    ∃ t, exec (.redAccept v) s = .next t ∧ t = { s with groups := t.groups, reds := s.reds ++ [⟨e.id, e.tid, w.kn, e.va, e.asid, w.k.part, w.k.world, r, e.rel, e.after⟩] } ∧
      t.group v = { g with queue := g.queue.drop 1 } ∧ ∀ u, u ≠ v → t.group u = s.group u) ∧
  (∀ (s m : State) (r : Red) (q : List Red) (pa : Nat) (x : TErr), s.reds = r :: q → (∀ y ∈ q, y.id ≠ r.id) → s.loads = [] → s.atomics = [] →
    othersOvertaken s r.tid = false → mayPass s r.tid r.id = true → NoCut s →
    let unit := 1200 + (match redPhys s r.part r.asid r.va r.world with | some a => dieOf (canon s a) | none => 0)
    let got := translate { overtake s r.tid r.id with reds := q } { unit := unit, part := r.part, asid := r.asid, world := r.world, house := 0 } r.va .atomic (some .g)
    let n := 4 * tyWords r.r.ty
    (got = .ok (pa, m) → badAt m pa n = none →
      ∃ t, exec (.redApply r.id) s = .next t ∧ t.reds = q ∧
        WroteAt m t pa n (atomValue r.r.ty r.r.op (ofBytes (physRead m pa n)) r.r.val.toNat 0).1 ∧ KeepsThreads (fun _ => false) s t) ∧
    (got = .error x → ∃ t, exec (.redApply r.id) s = .next t ∧ t = { s with reds := q, accs := t.accs, kernels := t.kernels, fns := t.fns } ∧
      OnlyPassed s t ∧
      t.fns = (walkCharge s (s.kernel r.kernel).owner x).fns ∧
      (∀ k, k ≠ r.kernel → t.kernel k = s.kernel k) ∧
      t.kernel r.kernel = { s.kernel r.kernel with
        rfault := (s.kernel r.kernel).rfault.or (some (BitVec.ofNat 64 r.va, BitVec.ofNat 32 (x.cause + 256 * (x.info.toNat % 256)))) })) ∧
  (∀ (s : State) (addr a bad : Nat), s.where_ addr = .dev a →
    let i := if bad = 1 then 8 else 10
    ∃ t, exec (.memoryScrub addr bad) s = .next t ∧ t = { s with gran := t.gran, mgmt := t.mgmt, fns := t.fns } ∧
      (∀ g, g ≠ a / 64 ∨ bad = 0 → look t.gran g = look s.gran g) ∧ (∀ f, f ≠ 0 → t.fn f = s.fn f) ∧
      (bad ≠ 0 → look t.gran (a / 64) = some (if bad = 1 then .badCrc else .uncorrectable) ∧
        at_ (t.fn 0).counts i 0 = min (at_ (s.fn 0).counts i 0 + 1) (2 ^ 64 - 1))) ∧
  (∀ (s : State) (addr a bad : Nat), (s.where_ addr = .far a ∨ s.where_ addr = .host a) → bad ≠ 0 →
    exec (.memoryScrub addr bad) s = .next { s with gran := put s.gran (canon s addr / 64) (if bad = 1 then .badCrc else .poisoned) })

/-- R4, R137: a heartbeat tick comes 128 cycles after the last, and the threads whose tick has come go on; none comes before the compute dies have left
reset (R436). R106, R107, R139, R312: a sleep, an MWAIT and an EVWAIT end at their limit, the last two issuing again, and so does a SLEEP.P, of which it
is settled there whether its request has ended. R54: a WREV ends when no access names its window.
R266: a handler that pre-emption has waited 2^20 cycles for is stopped. R325: a pending gang's priority rises one level each 2^24
cycles, up to 3. An event whose time has not been reached moves time on to it (log 1), and a displacement comes 1,024 cycles after its key entered
the list. R24: a key that has waited 1,024 cycles
displaces the youngest entry of a core's PC table, the highest index among equals, which enters the overflow list at its tail.
R329: a refill of a core's queue returns cellar entries until the chip holds 64 or none is left, or, for a pop that waits, until the
cellar holds none of its kernel. R331: at the next boundary of 1,024 cycles at which its cluster has not exchanged its depths yet a core whose depth exceeds a ring neighbour's by more than
THRESH moves half of the difference there, of the entries whose kernel has a group on the receiving core, as far as it has them; no entry
is lost.
The order in which cores compare depths is the model's reading (log 52). -/
def Obligations.TimedEvents : Prop :=
  (∀ (s : State), let due (x : Tid) : Prop := ∃ n, waiting s x = some (.hbt n) ∧ n ≤ s.hbt + 1
    (s.mgmt.up = false → exec .heartbeatTick s = .next s) ∧
    (s.mgmt.up = true → ∃ t, exec .heartbeatTick s = .next t ∧ t = { s with hbt := s.hbt + 1, cyc := 128 * (s.hbt + 1), threads := t.threads } ∧
      (∀ x, due x → GoesOn s t x) ∧ ∀ x, ¬ due x → t.thread x = s.thread x)) ∧
  (∀ (s : State) (x : Tid) (c d : Nat),
    let at_ : State := s.setCyc (max s.cyc c)
    let retried (i : Instr) : Prop := ∃ t, exec i s = .next t ∧ t = { at_ with threads := t.threads } ∧
      t.thread x = { s.thread x with st := .ready, ready := max s.cyc c } ∧ ∀ y, y ≠ x → t.thread y = s.thread y
    (waiting s x = some (.sleep c) →
      ∃ t, exec (.sleepWake x) s = .next t ∧ t = { at_ with threads := t.threads } ∧ GoesOn s t x ∧ ∀ y, y ≠ x → t.thread y = s.thread y) ∧
    (∀ th p, look s.threads x = some th → th.st = .waiting → th.wait = .promised c p →
      let late := ((linkOf s x p).bind (liveReq s)).isSome
      ∃ t, exec (.sleepWake x) s = .next t ∧ t = { at_ with threads := t.threads } ∧ (∀ y, y ≠ x → t.thread y = s.thread y) ∧
        t.thread x = (if (s.group x.vgid).saved = none then { th with st := .ready, ready := max s.cyc c, wait := .slept c late }
                      else { th with wait := .slept c late })) ∧
    (waiting s x = some (.mwait c d) → retried (.mwaitTimeout x)) ∧ (waiting s x = some (.evwait c d) → retried (.evwaitTimeout x)) ∧
    (waiting s x = some (.wrev c d) →
      (inflight s c d ≠ 0 → exec (.wrevDrainEnd x) s = .next s) ∧
      (inflight s c d = 0 → ∃ t, exec (.wrevDrainEnd x) s = .next t ∧ t = { s with threads := t.threads } ∧ GoesOn s t x ∧
        ∀ y, y ≠ x → t.thread y = s.thread y)) ∧
    (∀ g, look s.groups x.vgid = some g → g.stop = some c → (s.thread x).st ≠ .exited → entryBit s x = true → (s.thread x).stopped = false →
      ∃ t, exec (.preemptHandlerTimeout x) s = .next t ∧ t = { s.setCyc (max s.cyc (c + 2 ^ 20)) with threads := t.threads } ∧
        t.thread x = { s.thread x with stopped := true } ∧ ∀ y, y ≠ x → t.thread y = s.thread y)) ∧
  (∀ (s : State) (k : Nat) (g : Gang), look s.gangs k = some g → g.st = .pending →
    (g.boost < 3 → ∃ t, exec (.priorityAging k) s = .next t ∧
      t = { s.setCyc (max s.cyc (g.since + 2 ^ 24 * (g.boost + 1))) with gangs := t.gangs } ∧ t.gang k = { g with boost := g.boost + 1 } ∧
      ∀ j, j ≠ k → t.gang j = s.gang j) ∧
    (3 ≤ g.boost → exec (.priorityAging k) s = .next s)) ∧
  (∀ (s : State) (c since : Nat) (k : PcKey) (r : List (PcKey × Nat)), (s.core c).waitKeys = (k, since) :: r →
    let co := s.core c
    let age := keyAge (tableMembers s c)
    let cyc := max s.cyc (since + 1024)
    ((co.table.map (·.1)).Nodup → ∀ i old, (i, old) ∈ co.table →
      (∀ e ∈ co.table, age e.2 < age old ∨ age e.2 = age old ∧ e.1 ≤ i) →
      ∃ t, exec (.pcHashDisplace c) s = .next t ∧ t = { s.setCyc cyc with cores := t.cores } ∧
        t.core c = { co with table := (t.core c).table, waitKeys := r ++ [(old, cyc)] } ∧ look (t.core c).table i = some k ∧
        (∀ j, j ≠ i → look (t.core c).table j = look co.table j) ∧ ∀ j, j ≠ c → t.core j = s.core j)) ∧
  (∀ (s : State) (c : Nat) (want : Option Nat) (r : List (Option Nat)), (s.core c).refill = want :: r →
    let depth (x : Core) : Nat := x.onchip.length + x.cellar.length
    ∃ t, exec (.cellarRefill c) s = .next t ∧ t = { s with cores := t.cores } ∧ (∀ j, j ≠ c → t.core j = s.core j) ∧
      t.core c = { s.core c with refill := r, onchip := (t.core c).onchip, cellar := (t.core c).cellar } ∧
      depth (t.core c) = depth (s.core c) ∧ (s.core c).onchip.length ≤ (t.core c).onchip.length ∧
      (want = none → (t.core c).cellar = [] ∨ 64 ≤ (t.core c).onchip.length) ∧
      ∀ k, want = some k → (∀ e ∈ (t.core c).cellar, e.kernel ≠ k) ∨
        64 ≤ (t.core c).onchip.length ∧ ∃ l, (t.core c).onchip.getLast? = some l ∧ l.kernel = k) ∧
  (∀ (s : State) (a b n : Nat) (p : QEntry → Bool), a ≠ b →
    let all (s : State) (c : Nat) : List QEntry := (s.core c).onchip ++ (s.core c).cellar
    let m := qMove s a b p n
    m.2 = min n ((all s a).filter p).length ∧ (all m.1 a).length + m.2 = (all s a).length ∧ (all m.1 b).length = (all s b).length + m.2 ∧
      (∀ e ∈ all m.1 b, e ∈ all s b ∨ e ∈ all s a ∧ p e = true) ∧ (∀ e ∈ all m.1 a, e ∈ all s a) ∧
      m.1 = { s with cores := m.1.cores } ∧ ∀ c, c ≠ a → c ≠ b → m.1.core c = s.core c) ∧
  (∀ (s : State) (cl : Nat),
    let n := max ((s.cluster cl).xchg + 1) ((s.cyc + 1023) / 1024)
    let s1 := (s.setCyc (n * 1024)).updCluster cl (fun c => { c with xchg := n })
    let q := match clusterPart s cl with
      | some p => bits (s.part p).qctl 31 24
      | none => 8
    let d (i : Nat) : Nat := (s.core (24 * cl + i)).onchip.length + (s.core (24 * cl + i)).cellar.length
    let moves (i j : Nat) : Prop := i < 24 ∧ j < 24 ∧ (j = (i + 1) % 24 ∨ j = (i + 23) % 24) ∧ d j + q < d i
    ((∀ i j, ¬ moves i j) → exec (.queueDepthExchange cl) s = .next s1) ∧
    (∀ i j, moves i j → (∀ k l, moves k l → k = i ∧ l = j) →
      exec (.queueDepthExchange cl) s = .next (qMove s1 (24 * cl + i) (24 * cl + j) (fun e =>
        s.groups.any (fun g => g.2.core = 24 * cl + j && g.2.saved.isNone && (s.gang g.2.gang).kernel = e.kernel)) ((d i - d j) / 2)).1))

/-- R40, R118, R119: a window or lane access is performed at its word: a read waits while the word is PEND and else takes its value, a
write waits while it is PEND, a WTAKE waits for FULL and leaves EMPTY, a WGIVE waits for EMPTY; a held writer's thread then goes on. R150, R152: an
access stays behind an earlier one of its thread to the same words, and behind what `accHeld` says (log 86). R54: one that would wait in a window that
has been revoked ends. R288: a read of a word whose check bits disagree corrects it first, or kills
the gang that owns it. A window word that an instruction waits for is watched in the same way (log 4).
R342: ATOMW's word has the new value and its destination the old one. R120: a multicast whose deliveries are over writes its count,
and then traps where a delivery timed out or its window was revoked (log 73).
R46: a read whose bound expires loses its destination with reason 0x09, and a held writer traps with it. -/
def Obligations.WindowAccessesComplete : Prop :=
  (∀ (s : State) (id : Nat) (a : WinAcc), s.accs.find? (fun x => x.id = id) = some a → a.ended = none →
    (s.group a.tid.vgid).saved = none → (s.group a.owner.vgid).saved = none → a.reg ≠ 0 → (a.n = 1 ∨ a.n = 2) →
    ((∃ op sg, a.kind = .atomw op sg) ∨ a.vals.length ≤ a.n) →
    (∀ i, a.owner = a.tid → inDst a.reg a.n i = true → inDst a.dst a.n i = false) →
    let word (j : Nat) : RegWord := regGet s a.owner (a.reg + j)
    let every (p : RegWord → Prop) : Prop := ∀ j, j < a.n → p (word j)
    let gone (t : State) : State :=
      { s with loads := t.loads, atomics := t.atomics, accs := t.accs, mcasts := t.mcasts, threads := t.threads }
    let dropped : State := { s with accs := s.accs.filter (fun x => x.id ≠ id) }
    let clean : Prop := every (fun w => w.tag = .full ∨ w.tag = .empty)
    let reads (t : State) : Prop := ∀ j, j < a.n → Arrived s t a.tid (a.dst + j) (word j).val
    let dsts (x : Tid) (i : Nat) : Bool := x = a.tid && inDst a.dst a.n i
    let owns (x : Tid) (i : Nat) : Bool := x = a.owner && inDst a.reg a.n i
    let does (mine : Tid → Nat → Bool) (P : State → Prop) : Prop := ∃ t, exec (.windowAccessComplete id) s = .next t ∧ t = gone t ∧
      OnlyPassed dropped t ∧ KeepsRegs mine s t ∧ (∀ x, x ≠ a.tid → (t.thread x).pc = (s.thread x).pc ∧ (t.thread x).st = (s.thread x).st) ∧ P t
    let written (t : State) : Prop := ∀ j v, a.vals[j]? = some v → regGet t a.owner (a.reg + j) = ⟨v, .full⟩
    let goesOn (t : State) : Prop := (s.thread a.tid).st = .waiting → GoesOn s t a.tid
    let ready : Prop := accHeld s a = false ∧ (a.reads = true → eccAt s a.owner a.reg a.n = [])
    let lost (t : State) (reason : Nat) : Prop := ∀ j, j < a.n → Lost s t a.tid (a.dst + j) (BitVec.ofNat 32 (5 * 2 ^ 28 + (reason + a.off % 512 * 256)))
    let waits : Prop :=
      (a.closed s = false → ∃ t, exec (.windowAccessComplete id) s = .next t ∧ t = { s with accs := t.accs } ∧
        ∃ b, t.accs.find? (fun x => x.id = id) = some b ∧ b.waiting = true ∧ b = { a with waiting := true, overtaken := false, since := b.since } ∧
          (a.kind ≠ .lnrd → a.kind ≠ .lnwr → (∃ j, j < a.n ∧ (word j).tag = .pend) → b.since = a.since.or (some s.cyc))) ∧
      (a.closed s = true → a.reads = true → a.dst ≠ 0 → ∃ t, exec (.windowAccessComplete id) s = .next t ∧ t = { dropped with threads := t.threads } ∧
        KeepsRegs dsts s t ∧ lost t 0x0A) ∧
      (a.closed s = true → a.reads = false → ∃ t, exec (.windowAccessComplete id) s = .next t ∧ t = { s with accs := t.accs } ∧
        t.accs.find? (fun x => x.id = id) = some { a with ended := some (0x08, a.handle.toNat, BitVec.ofNat 32 (0x0A + a.off % 512 * 256)) })
    (accHeld s a = true → exec (.windowAccessComplete id) s = .next s) ∧
    (accHeld s a = false → a.reads = true → eccAt s a.owner a.reg a.n ≠ [] →
      exec (.windowAccessComplete id) s = .next (eccRead s (s.who a.tid).k.owner a.tid a.owner (eccAt s a.owner a.reg a.n))) ∧
    ((a.kind = .wld ∨ a.kind = .lnrd) → ready →
      (a.dst ≠ 0 → clean → does dsts reads) ∧ ((∃ j, j < a.n ∧ (word j).tag = .pend) → waits)) ∧
    ((a.kind = .wst ∨ a.kind = .lnwr) → ready →
      (every (fun w => w.tag ≠ .pend) → does owns (fun t => written t ∧ goesOn t)) ∧ ((∃ j, j < a.n ∧ (word j).tag = .pend) → waits)) ∧
    (a.kind = .wtake → ready →
      (a.dst ≠ 0 → every (fun w => w.tag = .full) → does (fun x i => dsts x i || owns x i) (fun t => reads t ∧
        ∀ j, j < a.n → regGet t a.owner (a.reg + j) = ⟨(word j).val, .empty⟩)) ∧
      (every (fun w => w.tag ≠ .poison) → (∃ j, j < a.n ∧ (word j).tag ≠ .full) → waits)) ∧
    (a.kind = .wgive → ready →
      (every (fun w => w.tag = .empty) → does owns (fun t => written t ∧ goesOn t)) ∧
      (every (fun w => w.tag ≠ .poison) → (∃ j, j < a.n ∧ (word j).tag ≠ .empty) → waits)) ∧
    (∀ op sg b c, a.kind = .atomw op sg → a.n = 1 → a.vals = [b, c] → a.dst ≠ 0 → ready →
      (clean → does (fun x i => dsts x i || owns x i) (fun t => reads t ∧
        regGet t a.owner a.reg = ⟨BitVec.ofNat 32 (atomApply op sg 32 (word 0).val.toNat b.toNat c.toNat), .full⟩)) ∧
      ((word 0).tag = .pend → waits)) ∧
    (a.kind = .probe → ready → (every (fun w => w.tag ≠ .pend) → exec (.windowAccessComplete id) s = .next dropped) ∧
      ((∃ j, j < a.n ∧ (word j).tag = .pend) → waits)) ∧
    (∀ c, a.since = some c → (∃ j, j < a.n ∧ (word j).tag = .pend) → every (fun w => w.tag ≠ .poison) →
      let s1 : State := { s.setCyc (max s.cyc (c + 65536)) with accs := s.accs.filter (fun x => x.id ≠ id) }
      ((a.kind = .wld ∨ a.kind = .wtake) → a.dst ≠ 0 → ∃ t, exec (.windowWaitTimeout id) s = .next t ∧ t = { s1 with threads := t.threads } ∧
        KeepsRegs dsts s t ∧ lost t 9) ∧
      ((a.kind = .wst ∨ a.kind = .wgive) → (s.thread a.tid).st = .waiting → (s.thread a.tid).wait = .access id →
        exec (.windowWaitTimeout id) s =
          .next (takeTrap s1 a.tid 0x08 (s.thread a.tid).pc (a.handle.setWidth 64) (BitVec.ofNat 32 (9 + a.off % 512 * 256)))) ∧
      (a.kind = .probe → (s.thread a.tid).st = .waiting → (s.thread a.tid).wait = .window →
        exec (.windowWaitTimeout id) s =
          .next (takeTrap { s1 with accs := s1.accs.filter (fun x => !(x.kind = .probe && x.tid = a.tid)) } a.tid 0x08 (s.thread a.tid).pc
            (a.handle.setWidth 64) (BitVec.ofNat 32 (9 + a.off % 512 * 256)))))) ∧
  (∀ (s : State) (id : Nat) (m : Mcast), s.accs.find? (fun x => x.id = id) = none → s.mcasts.find? (fun x => x.id = id) = some m →
    (s.group m.tid.vgid).saved = none →
    (m.left ≠ 0 → exec (.windowAccessComplete id) s = .next s) ∧
    (m.left = 0 → m.timedOut = none → (s.thread m.tid).st = .waiting → (s.thread m.tid).wait = .access id →
      ∃ t, exec (.windowAccessComplete id) s = .next t ∧ t = { s with mcasts := s.mcasts.filter (fun x => x.id ≠ id), threads := t.threads } ∧
        Arrived s t m.tid m.dst (BitVec.ofNat 32 m.n) ∧ GoesOn s t m.tid) ∧
    (∀ r, m.left = 0 → m.timedOut = some r → (s.thread m.tid).st = .waiting → (s.thread m.tid).wait = .access id →
      ∃ n, n = { s with mcasts := s.mcasts.filter (fun x => x.id ≠ id), threads := n.threads } ∧ Arrived s n m.tid m.dst (BitVec.ofNat 32 m.n) ∧
        exec (.windowAccessComplete id) s =
          .next (takeTrap n m.tid 0x08 m.next (m.handle.setWidth 64) (BitVec.ofNat 32 (r + m.off % 512 * 256)))))

/-- R281, R283, R284: a late transition replays an issue group that none of its threads has issued: it issues again 7 cycles later; the
replay that reaches LIMIT or WINC steps the core back to STEP - 1, TARGET too, for 512 cycles, and at STEP 0 the core is quarantined
instead (R286). R285: with TRP set its threads take the replay as a trap, and its instruction keeps its count. R287: one in the dispatch path of a guarded instruction is a dispatch
fault, before or after the effect. R82, R288, R289: a first mismatch of an integer check or of the FP shadow replays the group and is counted, a
second kills the gang. A register word can lose a bit or become uncorrectable, and a queued store its data. A single-bit error is corrected in its
word at a read, and counted. R280: STEP rises by one towards TARGET, and a step change settles. R283: the counts of the replay and
escalation windows restart at each boundary.
That late transitions, mismatches and errors of words are events is the model's choice (log 14), and what the step back does to the
count of the instruction its reading (log 61). -/
def Obligations.MarginEvents : Prop :=
  (∀ (s : State) (c : Nat),
    let co := s.core c
    let cyc := max s.cyc (max co.free co.settle)
    let now := s.setCyc cyc
    let rep := co.nrep + 1
    let win := winCount now co + 1
    let ready : Prop := co.slot ≠ [] ∧ co.slot.length = co.last.length ∧ co.doom = false
    let quiet : Prop := co.mgnInj.getLsbD 63 = false ∧ co.injLeft = 0
    let replays (P : Core → Prop) : Prop := ∃ t, exec (.instructionReplay c true 0) s = .next t ∧ P (t.core c) ∧
      (t.core c).rtotal = min (co.rtotal + 1) (2 ^ 32 - 1) ∧ (t.core c).injSeen = co.injSeen + 1 ∧ (∀ j, j ≠ c → t.core j = s.core j) ∧ t = { now with
        cores := t.cores, mgmt := t.mgmt, fns := t.fns, mem := t.mem, gran := t.gran, host := t.host, groups := t.groups, threads := t.threads }
    (¬ ready → ∀ n, exec (.instructionReplay c true n) s = .next s) ∧
    (ready → quiet → co.mgnCtl.getLsbD 47 = true → rep < mgnLimit co.mgnCtl → win < mgnWinc co.mgnCtl → ∀ x, co.slot = [x] → (s.thread x).st = .ready →
      ∃ m, exec (.instructionReplay c true 0) s = .next ((takeTrap m x 0x10 (s.thread x).pc 0 (BitVec.ofNat 32 (0x200 + co.step))).updThread x
          (fun th => { th with replays := some ((s.thread x).pc, rep) })) ∧
        (m.core c).slot = [] ∧ (m.core c).nrep = 0 ∧ m.threads = s.threads ∧ m.groups = s.groups) ∧
    (ready → quiet → co.mgnCtl.getLsbD 47 = false → NoCut s →
      (rep < mgnLimit co.mgnCtl → win < mgnWinc co.mgnCtl → replays (fun x => x.nrep = rep ∧ winCount now x = win ∧ x.free = cyc + 7 ∧
        x.calm = cyc ∧ x.step = co.step ∧ x.mgnCtl = co.mgnCtl ∧ x.slot = co.slot ∧ x.quar = co.quar)) ∧
      ((mgnLimit co.mgnCtl ≤ rep ∨ mgnWinc co.mgnCtl ≤ win) → co.step ≠ 0 → co.step ≤ mgnTarget co.mgnCtl →
        backCount now co + 1 < mgnEscn co.mgnCtl →
        replays (fun x => x.step = co.step - 1 ∧ mgnTarget x.mgnCtl = co.step - 1 ∧ (x.mgnCtl ^^^ co.mgnCtl) &&& ~~~0xF = 0 ∧
          x.nrep = (if mgnLimit co.mgnCtl ≤ rep then 0 else rep) ∧ winCount now x = (if mgnWinc co.mgnCtl ≤ win then 0 else win) ∧
          backCount now x = backCount now co + 1 ∧ x.settle = cyc + 513 ∧ x.free = cyc + 513 ∧ x.quar = co.quar)) ∧
      ((mgnLimit co.mgnCtl ≤ rep ∨ mgnWinc co.mgnCtl ≤ win) → co.step = 0 → co.quar = false →
        replays (fun x => x.step = 0 ∧ x.quar = true ∧ x.slot = []))) ∧
    (∀ n, n ≠ 0 →
      (groupGuarded now c = false → exec (.instructionReplay c true n) s = .next s) ∧
      (ready → groupGuarded now c = true →
        let m : State := { now.updCore c (fun x => { x with injSeen := x.injSeen + 1 }) with fresh := s.fresh + 1 }
        exec (.instructionReplay c true n) s = .next (if (Config.freeValue s.fresh).getLsbD 0 then m.updCore c (fun x => { x with doom := true })
          else dispatchFault m c))) ∧
    (∀ n x, co.last[n / 8 % 64]? = some x → (look s.threads x).isSome = true →
      let f := (s.who x).k.owner
      let code := n % 8
      let i := n / 512
      let counted (t : State) (i : Nat) : Prop := at_ (t.fn f).counts i 0 = min (at_ (s.fn f).counts i 0 + 1) (2 ^ 64 - 1)
      let alone (t : State) (q : Thread) : Prop := t = { s with threads := t.threads } ∧ t.thread x = q ∧ ∀ y, y ≠ x → t.thread y = s.thread y
      (code < 2 → (¬ ready ∨ checkedBy now c code = false) → exec (.instructionReplay c false n) s = .next s) ∧
      (code < 2 → ready → checkedBy now c code = true → quiet →
        (co.mismatch = false → ∃ t, exec (.instructionReplay c false n) s = .next t ∧ t = { now with fns := t.fns, cores := t.cores } ∧
          counted t (if code = 0 then 2 else 4) ∧ t.core c = { co with mismatch := true, free := cyc + 7, injSeen := co.injSeen + 1 }) ∧
        (co.mismatch = true → ∃ m, m = { now with fns := m.fns, cores := m.cores } ∧ counted m (if code = 0 then 3 else 5) ∧
          exec (.instructionReplay c false n) s = .next (killIntegrity m x.vgid (s.thread x).pc 0 (if code = 0 then 1 else 2)))) ∧
      ((code = 2 ∨ code = 3) → 0 < i → i < (s.who x).k.nw → ∃ t, exec (.instructionReplay c false n) s = .next t ∧
        alone t { s.thread x with ecc := (t.thread x).ecc } ∧ look (t.thread x).ecc i = some (decide (code = 3)) ∧
        ∀ j, j ≠ i → look (t.thread x).ecc j = look (s.thread x).ecc j) ∧
      (code = 4 → ∀ g, look s.groups x.vgid = some g → (∀ e ∈ g.queue, e.tid ≠ x) → exec (.instructionReplay c false n) s = .next s) ∧
      (code = 4 → ∀ g e, look s.groups x.vgid = some g → g.queue.getLast? = some e → e.tid = x → e.red = none →
        (e.pieces.map (·.2.length)).sum = e.size → (∀ y ∈ g.queue.dropLast, y.id ≠ e.id) →
        ∃ t, exec (.instructionReplay c false n) s = .next t ∧ t = { s with groups := t.groups } ∧
          t.group x.vgid = { g with queue := g.queue.dropLast ++ [{ e with bad := true }] } ∧ ∀ v, v ≠ x.vgid → t.group v = s.group v))) ∧
  (∀ (s : State) (f i : Nat) (x u : Tid) (th : Thread), look s.threads x = some th →
    let c := if f = (s.who x).k.owner then f else 0
    let t := eccRead s f u x [(i, false)]
    t = { s with threads := t.threads, fns := t.fns, mgmt := t.mgmt } ∧ t.thread x = { th with ecc := th.ecc.filter (fun e => e.1 ≠ i) } ∧
      (∀ y, y ≠ x → t.thread y = s.thread y) ∧ at_ (t.fn c).counts 0 0 = min (at_ (s.fn c).counts 0 0 + 1) (2 ^ 64 - 1)) ∧
  (∀ (s : State) (c : Nat),
    let co := s.core c
    let rise := max s.cyc (co.calm + 2 ^ 16)
    let only (i : Instr) (cyc : Nat) (P : Core → Prop) : Prop := ∃ t, exec i s = .next t ∧ t = { s.setCyc cyc with cores := t.cores } ∧
      (∀ j, j ≠ c → t.core j = s.core j) ∧ P (t.core c)
    (s.mgmt.up = false → ∀ i ∈ [Instr.marginStepRise c, .marginSettleEnd c, .replayWindowEnd c, .escalationWindowEnd c], exec i s = .next s) ∧
    (s.mgmt.up = true → (co.quar = false → co.step < mgnTarget co.mgnCtl →
      only (.marginStepRise c) rise (fun x => x = { co with step := co.step + 1, calm := rise, rise := rise + 4096 })) ∧
    ((co.quar = true ∨ mgnTarget co.mgnCtl ≤ co.step) → exec (.marginStepRise c) s = .next s) ∧
    only (.marginSettleEnd c) (max s.cyc (max co.settle co.rise)) (fun x => x = { co with settle := 0, rise := 0 }) ∧
    (let w := 2 ^ mgnWinw co.mgnCtl
     let cyc := (s.cyc / w + 1) * w
     only (.replayWindowEnd c) cyc (fun x => x = { co with wincnt := 0, winNo := x.winNo } ∧ winCount (s.setCyc cyc) x = 0)) ∧
    (let w := 2 ^ mgnEscw co.mgnCtl
     let hbt := (s.hbt / w + 1) * w
     only (.escalationWindowEnd c) (hbt * 128) (fun x => x = { co with backcnt := 0, escNo := x.escNo } ∧ backCount (s.setCyc (hbt * 128)) x = 0))))

/-- R34, R35: a group whose threads have exited and whose queues are empty ends its windows and settles its requests; once no request
reads its registers, no atomic of its own is still to be applied, and, where it has holdings to convey, no reduction either (log 70), it retires: its threads, its VGID and its barrier entries are gone,
and with its last group the gang has ended. R276, R277: a gang killed for a relaunch is pending again, by the retained record: what has reached its
groups is conveyed first (R390), their creation counters (R382) and inboxes (R309) are kept, and a cancellation under way stays so (R397). R323: a completion
record is written from word 1 on and then word 0 (`recordWrite`), and the kernel has ended. R30, R32: when every gang of the instance has arrived at
this phase's WBAR the next phase starts: latches are invalid and threads go on (log 71). R397: a cancellation signal that reaches its gang is
pending, and a wait that is a cancellation point is tried again, but not in a handler; an access that still waits for its word goes. -/
def Obligations.GroupsGangsAndKernelsEnd : Prop :=
  (∀ (s : State) (v : Nat) (g : Group), look s.groups v = some g →
    let k := (s.who ⟨v, 0, 0⟩).k
    let m := settleGroup s v
    let drained : Prop := (∀ u ∈ tidsOf k v, (s.thread u).st = .exited) ∧ g.queue = [] ∧ (s.gang g.gang).killed ≠ some false
    (¬ drained → exec (.groupRetire v) s = .next s) ∧
    (drained → (readsPending m v = true ∨ atomicsPending m v = true) →
      exec (.groupRetire v) s = .next m ∧ ∀ c k, (slotAt s c k).owner.vgid = v → (slotAt m c k).opened = false) ∧
    (drained → readsPending m v = false → atomicsPending m v = false →
      ∃ t, exec (.groupRetire v) s = .next t ∧ look t.groups v = none ∧ (∀ p ∈ t.threads, p.1.vgid ≠ v) ∧
        (∀ b ∈ t.barriers, b.owner.vgid ≠ v) ∧ (look t.retired v).isSome = true ∧
        (openSlots s v = [] → (∀ e ∈ s.estate, e.holder ≠ some v) → (k.sib = false → t.mem = s.mem) ∧
          ((∀ u ∈ (s.gang g.gang).groups, u ≠ v → look s.groups u = none) → (t.gang g.gang).st = .ended)))) ∧
  (∀ (s : State) (k : Nat) (g : Gang), look s.gangs k = some g → g.st = .placed → g.killed = some false →
    let drained (v : Nat) : Prop := readsPending s v = false ∧ (holdings s v = [] ∨ redsPending s v = false)
    ((∃ v ∈ g.groups, ¬ drained v) → exec (.gangRelaunch k) s = .next s) ∧
    ((∀ v ∈ g.groups, drained v) → ∃ t, exec (.gangRelaunch k) s = .next t ∧ (t.gang k).st = .pending ∧ (t.gang k).killed = none ∧
      ∀ v ∈ g.groups, look t.groups v = none) ∧
    ((∀ v ∈ g.groups, drained v ∧ holdings s v = []) →
      ∃ t, exec (.gangRelaunch k) s = .next t ∧ t.mem = s.mem ∧
        t.gang k = { g with
          st := .pending, killed := none, since := s.cyc, boost := 0, relaunches := g.relaunches + 1, signal := g.signal.or g.cancel,
          cancel := none, slotCores := [], room := false, created := (t.gang k).created, inbox := (t.gang k).inbox } ∧
        (g.groups.Nodup → ∀ v ∈ g.groups, ∀ x, look s.groups v = some x → x.gang = k →
          look (t.gang k).created v = some x.created ∧ look (t.gang k).inbox v = some (x.evBase, x.evPhys)) ∧
        t.kernel g.kernel = { s.kernel g.kernel with
          relaunches := (s.kernel g.kernel).relaunches + 1, words := retainedRecord s (s.kernel g.kernel) } ∧
        ∀ v ∈ g.groups, look t.groups v = none ∧ ((look s.groups v).isSome = true → ∀ p ∈ t.threads, p.1.vgid ≠ v))) ∧
  (∀ (s m : State) (k : Kernel) (i pa : Nat) (ws : List Word), ws.length ≤ 16 → NoCut s →
    translate s (homeCtx k) (k.done.toNat + 4 * i) .write (some .g) = .ok (pa, m) →
    WroteAt m (recordWrite s k i ws) pa (4 * ws.length) (ofBytes (bytesOf ws))) ∧
  (∀ (s : State) (n : Nat) (k : Kernel), look s.kernels n = some k → k.st ≠ .ended →
    (kernelDone s n = false → exec (.kernelComplete n) s = .next s) ∧
    (kernelDone s n = true →
      let x := k.kill.getD ⟨0, 0, 0, 0⟩
      let r := k.rfault.getD (0, 0)
      let two (n : Nat) : List Word := [BitVec.ofNat 32 n, BitVec.ofNat 32 (n / 2 ^ 32)]
      let w0 : Word := BitVec.ofNat 32 (x.cause * 2 ^ 16 + (if k.kill.isSome || k.halted then 4 else 3))
      let w1 : Word := BitVec.ofNat 32 ((if k.rfault.isSome then 16 else 0) + min 15 k.relaunches)
      let ws : List Word := [w1, loWord x.pc, hiWord x.pc, loWord x.addr, hiWord x.addr, x.info, k.hstatus, loWord r.1, hiWord r.1, r.2, 0]
        ++ two k.cycStart ++ two s.cyc
      ∃ t, exec (.kernelComplete n) s = .next t ∧ t.kernel n = { k with st := .ended } ∧
        t.mem = (recordWrite (recordWrite s k 1 ws) k 0 [w0]).mem ∧
        ∀ d i, k.ballot = some (d, i) → ∀ b ∈ t.ballots, ¬(b.die = d ∧ b.idx = i))) ∧
  (∀ (s : State) (k others : Nat) (g : Gang) (sc : Scope), look s.gangs k = some g → (s.gangs.map (·.1)).Nodup → g.st = .placed →
    look (s.kernel g.kernel).scopes g.phase = some sc →
    let inst (x : Gang) : Prop := x.kernel = g.kernel ∧ (sc ≠ .troupe ∨ x.die = g.die)
    let starts (x : Gang) : Prop := inst x ∧ x.st = .placed ∧ x.phase = g.phase
    ((∃ p ∈ s.gangs, inst p.2 ∧ (gangArrived s g.phase p.2 = false ∨ cutHolds s p.2 = true)) → exec (.phaseStart k others) s = .next s) ∧
    ((∀ p ∈ s.gangs, inst p.2 → gangArrived s g.phase p.2 = true ∧ cutHolds s p.2 = false) →
      (sc = .house → (s.kernel g.kernel).hcount ≤ others + 1) →
      ∃ t, exec (.phaseStart k others) s = .next t ∧
        ((∀ p ∈ s.gangs, starts p.2 → ∀ v ∈ p.2.groups, (s.group v).saved = none) → t = { s with gangs := t.gangs, threads := t.threads }) ∧
        (∀ p ∈ s.gangs, ¬ starts p.2 → t.gang p.1 = p.2) ∧
        ∀ p ∈ s.gangs, starts p.2 → t.gang p.1 = { p.2 with phase := p.2.phase + 1, room := false } ∧
          ∀ v ∈ p.2.groups, ∀ u ∈ tidsOf (s.kernel p.2.kernel) v, (∀ j, (at_ (t.thread u).latches j {}).valid = false) ∧
            ∀ z, (s.thread u).st = .waiting → (s.thread u).wait = .phase z → GoesOn s t u)) ∧
  (∀ (s : State) (v i : Nat) (g : Group) (q : Gang), look s.groups v = some g → look s.gangs g.gang = some q → q.signal = some i →
    q.killed = none → (s.threads.map (·.1)).Nodup → s.holdq = [] → (∀ u ∈ q.groups, (s.group u).saved = none) →
    let ends (x : Wait) : Bool := match x with
      | .access n => s.accs.any (fun a => a.id = n && a.waiting && a.ended.isNone)
      | .wrev _ _ | .fence _ _ | .fencesc _ _ _ | .vatom _ | .csave _ _ | .counted _ | .ballot _ | .publish _ (some _) => false
      | _ => true
    let handling (x : Tid) : Prop := entryBit s x = true ∧ (s.thread x).noticed = false
    let woken (x : Tid) : Prop := (s.group x.vgid).gang = g.gang ∧ (s.thread x).st = .waiting ∧ ends (s.thread x).wait = true ∧ ¬ handling x
    ∃ t, exec (.cancelSignal v) s = .next t ∧ t = { s with gangs := t.gangs, threads := t.threads, accs := t.accs } ∧
      (∀ a, a ∈ t.accs ↔ a ∈ s.accs ∧ ∀ x, woken x → (s.thread x).wait ≠ .access a.id) ∧
      t.gang g.gang = { q with cancel := some i, signal := none } ∧ (∀ k, k ≠ g.gang → t.gang k = s.gang k) ∧
      (∀ x, woken x → t.thread x = { s.thread x with wait := .retry }) ∧ ∀ x, ¬ woken x → t.thread x = s.thread x)

/-- R241, R265: a request to vacate cores stops the groups resident there, those for which the core has remap entries. R266, R267: a
stopped group whose queues are empty is saved to the area that was planned for it, section by section (`areaWords`), and its words leave the lane
banks; each layer takes a remap entry (R240), and a CSAVE that named the group counts it (R306). R241, R269: a group that returns has on its new
core every register word and tag that its area held, but those that fail their check, which are lost (R290, log 16); it waits while another
group of its gang there still stops (R51).
Areas that the save pool does not give lie elsewhere in the partition's memory (log 33); which groups a request stops is log 62. -/
def Obligations.GroupsStopSaveAndReturn : Prop :=
  (∀ (s : State) (cl mask : Nat), (s.groups.map (·.1)).Nodup → ∃ t, exec (.preemptRequest cl mask) s = .next t ∧ t = { s with groups := t.groups } ∧
    let named (g : Group) : Prop := g.saved = none ∧ ∃ k, k < 24 ∧ mask.testBit k = true ∧ g.core = 24 * cl + k
    (∀ v g, look s.groups v = some g → named g →
      (t.group v = { g with stop := some (g.stop.getD s.cyc) } ∨ t.group v = g ∧ remapRoom t g.core < layersOf s v) ∧
      (remapFits s g.core = true → t.group v = { g with stop := some (g.stop.getD s.cyc) })) ∧
    ∀ v, (∀ g, (v, g) ∈ s.groups → ¬ named g) → t.group v = s.group v) ∧
  (∀ (s : State) (v : Nat) (g : Group) (x : SavedAt), look s.groups v = some g → g.saved = none → g.stop.isSome = true → g.area = some x →
    x.whole = false → (s.gang g.gang).killed = none → (s.gang g.gang).cancel = none →
    let k := (s.who ⟨v, 0, 0⟩).k
    let a := areaShape s v
    let counted (w : Wait) : Wait := match w with
      | .csave n vs => if v ∈ vs then .csave (n + 1) (vs.filter (· ≠ v)) else w
      | _ => w
    let ready : Prop := allStopped s v = true ∧ g.queue = [] ∧ remapUsed s g.core + k.depth ≤ 64
    (¬ ready → exec (.contextSave v) s = .next s) ∧
    let m := areaWrite s x.base (areaWords s v a false)
    (ready → ∃ t, exec (.contextSave v) s = .next t ∧ (k.sib = false → t.mem = m.mem) ∧
      (k.sib = true → NoCut s → t.mem = (sibStore m g.gang).mem) ∧
      t.group v = { g with saved := some { x with regOff := a.regOff, tagOff := a.tagOff, cyc := s.cyc }, area := none, stop := none } ∧
      (∀ u, u ≠ v → t.group u = s.group u) ∧ (t.core g.core).remap.length = remapUsed s g.core + k.depth ∧
      (∀ u, u.vgid ≠ v → t.thread u = { s.thread u with monitor := (t.thread u).monitor, wait := counted (s.thread u).wait }) ∧
      ∀ u, u.vgid = v → t.thread u = { s.thread u with
        regs := [], ecc := [], latches := dropLatches (s.thread u).latches, retained := none, stopped := false,
        wait := counted (savedWait (s.thread u).wait), monitor := (t.thread u).monitor })) ∧
  (∀ (s : State) (v core : Nat) (g : Group) (x : SavedAt), look s.groups v = some g → g.saved = some x → x.whole = false →
    saveUnit s v = [v] → (s.gang g.gang).room = false → (∀ y n, (s.thread y).wait = .hbt n → s.hbt < n) →
    let k := (s.who ⟨v, 0, 0⟩).k
    (∀ u ∈ tidsOf k v, (look s.threads u).isSome = true ∧ ∀ z c, (s.thread u).wait ≠ .coll z c) →
    (mateStops s v = true ∨ restoreCore s [v] (s.gang g.gang).cl ≠ some core → exec (.contextRestore v core) s = .next s) ∧
    (mateStops s v = false → restoreCore s [v] (s.gang g.gang).cl = some core →
      ∃ t, exec (.contextRestore v core) s = .next t ∧ t.mem = s.mem ∧ (t.group v).core = core ∧ (t.group v).saved = none ∧
        (t.group v).stop = none ∧ (t.group v).queue = g.queue ∧ (t.group v).lane0 + k.width ≤ 64 ∧
        (∀ u, u ≠ v → t.group u = s.group u) ∧ (∀ y, y.vgid ≠ v → t.thread y = s.thread y) ∧
        ∀ u ∈ tidsOf k v, t.thread u = { s.thread u with regs := (t.thread u).regs, ready := s.cyc, moved := s.nextId } ∧
          ∀ i, 0 < i → i < k.nw → regGet t u i = imageWord s u i))

/-- R325, R22 to R24: a gang that may be placed is placed whole, each thread at ENTRY with the registers R11 gives it, and with the first gang
its kernel runs; its groups reserve their window slots (R324). R327, R328: groups that make room get a save area from the pool each, or none does
(`planSaves`); a gang that no cluster can place makes room only of gangs of lower priority in its partition, on the cluster of its die that needs
the fewest cores vacated (log 69). R328: a gang at WBAR stops where a phase of its own kernel, or of another whose gangs wait too, needs a pending gang
that has no room where it is nor here, and returns in its next phase. R332: a cluster without pending gangs takes half of those of the next cluster that has any, the ones that one would place last. R334: a
cluster out of service leaves the routing. R320, R321, R323, R344: a TAIL write too far ahead stops its queue; the queues of all functions are visited
in rotation, and the next record of one is taken, and accepted, rejected, or skipped with ERR. R326: a waiting record is rejected with its predecessor, and
proceeds when all have completed.
A record whose slot lies outside the partition is skipped (log 27); placement keeps to clusters of the kernel's world (log 26). -/
def Obligations.SchedulingAndLaunchEvents : Prop :=
  (∀ (s m : State) (n : Nat) (g : Gang) (vs : List Nat), look s.gangs n = some g → g.st = .pending →
    let k := s.kernel g.kernel
    (mayPlace s n = false ∨ trySeat s n = none → exec (.gangPlace n) s = .next s) ∧
    (mayPlace s n = true → trySeat s n = some (m, vs) → (∀ v ∈ vs, ∀ p ∈ s.threads, p.1.vgid ≠ v) →
      ∃ t, exec (.gangPlace n) s = .next t ∧ t.gang n = { g with st := .placed, groups := vs, since := s.cyc, inbox := [], slotCores := (t.gang n).slotCores } ∧
        (k.fr = false → vs.Nodup → (t.gang n).slotCores = g.slotCores ++ vs.map (fun v => (t.group v).core)) ∧
        (∀ v ∈ vs, (t.group v).gang = n ∧ (t.group v).saved = none ∧ (t.group v).evPhys ≠ 0) ∧
        t.kernel g.kernel = (if k.st = .pending then { k with st := .running, cycStart := s.cyc } else k) ∧
        ∀ v ∈ vs, ∀ u ∈ tidsOf k v, t.thread u = { pc := k.entry, regs := freshRegs k, ready := s.cyc + 1 })) ∧
  (∀ (s t : State) (vs : List Nat), planSaves s vs = some t → t = { s with groups := t.groups, parts := t.parts } ∧
    (∀ v ∈ vs, (t.group v).stop.isSome = true ∧ ∃ a, (t.group v).area = some a ∧ a.pool = true) ∧ ∀ v, v ∉ vs → t.group v = s.group v) ∧
  (∀ (s : State) (n : Nat) (g : Gang) (cs : List Nat), look s.gangs n = some g → g.st = .pending →
    let k := s.kernel g.kernel
    let s1 := s.setCyc (max s.cyc (g.since + 65536))
    let fits (c : Nat) : Prop := c < 48 ∧ (s.part k.part).clu.getLsbD c = true ∧
      (trySeat (s.updGang n (fun g => { g with cl := c })) n).isSome = true
    ((∃ c, fits c) → exec (.schedPreempt n) s = .next s) ∧
    let near (c : Nat) : Prop := c = g.cl ∨ 12 * g.die ≤ c ∧ c < 12 * g.die + 12
    ((∀ c, ¬ fits c) → vacate s n = none → exec (.schedPreempt n) s = .next s) ∧
    (∀ cl, (∀ c, ¬ fits c) → vacate s n = some (cl, cs) →
      near cl ∧ (trySeat (asVacated (toCluster s n cl) cs) n).isSome = true ∧ (∀ c l, near c → enough s n c = some l → cs.length ≤ l.length) ∧
      (∀ l, l.Sublist (victims s cl k.part k.prio) → l ≠ [] → (trySeat (asVacated (toCluster s n cl) l) n).isSome = true → cs.length ≤ l.length) ∧
      (∀ c ∈ cs, ∀ v ∈ residents s c, (s.who ⟨v, 0, 0⟩).k.part = k.part ∧ (s.who ⟨v, 0, 0⟩).k.prio < k.prio) ∧
      (let saves := planSaves s1 ((cs.flatMap (residents s1)).filter (fun v => (s1.group v).stop.isNone))
       (saves = none → exec (.schedPreempt n) s = .next s) ∧ ∀ t, saves = some t → exec (.schedPreempt n) s = .next (toCluster t n cl)))) ∧
  (∀ (s : State) (n : Nat) (g : Gang), look s.gangs n = some g → gangAtWbar s g = true →
    let part := (s.kernel g.kernel).part
    let needed (x : Gang) : Prop := (x.kernel = g.kernel → x.phase ≤ g.phase) ∧
      (x.kernel ≠ g.kernel → ∃ y ∈ s.gangs, y.2.kernel = x.kernel ∧ gangAtWbar s y.2 = true)
    let stuck : Prop := ∃ p ∈ s.gangs, p.2.st = .pending ∧ (s.kernel p.2.kernel).part = part ∧ clusterOk s (s.kernel p.2.kernel) g.cl = true ∧
      needed p.2 ∧ trySeat s p.1 = none ∧ trySeat (toCluster s p.1 g.cl) p.1 = none
    let vs := g.groups.filter (fun v => (look s.groups v).isSome && (s.group v).saved.isNone && (s.group v).stop.isNone)
    (¬ stuck → exec (.wbarRoomSave n) s = .next s) ∧
    (stuck → ∃ t, exec (.wbarRoomSave n) s = .next t ∧ t = { s with groups := t.groups, parts := t.parts, gangs := t.gangs } ∧
      t.gang n = { g with room := true } ∧ (∀ j, j ≠ n → t.gang j = s.gang j) ∧
      ((planSaves s vs).isSome = true → ∀ v ∈ vs, (t.group v).stop.isSome = true ∧ ∃ a, (t.group v).area = some a ∧ a.pool = true) ∧
      (planSaves s vs = none → ∀ v ∈ vs, (t.group v).stop.isSome = true ∨ remapRoom t (s.group v).core < layersOf s v))) ∧
  (∀ (s : State) (cl i : Nat), 1 ≤ i → i ≤ 47 →
    let victim := (cl + i) % 48
    let has (c : Nat) : Prop := clusterPart s cl = clusterPart s c ∧ pendingOn s (fun g => g.cl = c) ≠ []
    let l := pendingOrder s victim
    let take := l.drop (l.length / 2)
    let moved (x : Gang) : Gang := { x with cl := cl, die := clusterDie cl }
    (clusterPart s cl).isSome = true → pendingOn s (fun g => g.cl = cl) = [] → has victim → (∀ j, 1 ≤ j → j < i → ¬ has ((cl + j) % 48)) →
    (∃ p ∈ take, (trySeat (s.updGang p.1 moved) p.1).isSome = true) →
    ∃ t, exec (.gangSteal cl victim) s = .next t ∧ t = { s with gangs := t.gangs } ∧ (∀ p ∈ take, t.gang p.1 = moved (s.gang p.1)) ∧
      ∀ n, (∀ p ∈ take, p.1 ≠ n) → t.gang n = s.gang n) ∧
  (∀ (s : State) (die : Nat), ∃ t, exec (.meshRouteRecompute die) s = .next t ∧ t = { s with routes := t.routes } ∧
    let harvested (c : Nat) : Prop := ∃ i, s.mgmt.active = some i ∧ i.harvest.getLsbD c = true
    ∀ c, c < 48 → (t.routes.getLsbD c = true ↔ s.routes.getLsbD c = true ∨
      c / 12 = die ∧ (harvested c ∨ ∀ j, j < 24 → (s.core (24 * c + j)).quar = true))) ∧
  (∀ (s : State) (f q : Nat) (v : DWord),
    let l := (s.fn f).queue q
    let tooFar := decide (2 ^ l.log2n < (loWord v - l.head).toNat)
    let heard : Prop := s.mgmt.powered = true ∧ (s.mgmt.noImage = false ∨ f = 0)
    (3 < q ∨ ¬ heard → exec (.lqTailWrite f q v) s = .next s) ∧
    (q ≤ 3 → heard → ∃ t, exec (.lqTailWrite f q v) s = .next t ∧ t = { s with fns := t.fns } ∧
      (t.fn f).queue q = { l with
        tail := loWord v, err := l.err || tooFar, errcode := if tooFar then 1 else l.errcode, stuck := l.stuck || tooFar } ∧
      (∀ j, j ≠ q → (t.fn f).queue j = (s.fn f).queue j) ∧ ∀ j, j ≠ f → t.fn j = s.fn j)) ∧
  (∀ (s : State) (f q : Nat),
    let x := s.fn f
    let l := x.queue q
    let slot := l.base + 128 * (l.head.toNat % 2 ^ l.log2n)
    let k : Kernel := { words := hostRecord s f l, parent := .host, fn := f, irq := l.irq }
    let ready (f q : Nat) : Prop :=
      let x := s.fn f
      let l := x.queue q
      s.mgmt.up = true ∧ x.en = true ∧ (x.tdisp = 0 ∨ x.tdisp = 2) ∧ l.en = true ∧ l.stuck = false ∧ l.head ≠ l.tail ∧ (s.part x.part).waits.length < 256
    let turn (f q : Nat) : Nat := (4 * f + q + 260 - s.rot % 260) % 260
    let takes : Prop := f ≤ 64 ∧ q ≤ 3 ∧ ready f q ∧ ∀ g j, g ≤ 64 → j ≤ 3 → ready g j → turn f q ≤ turn g j
    let taken (P : State → Prop) : Prop := ∃ t, exec (.launchRecordTake false f q) s = .next t ∧ P t ∧ t.rot = (4 * f + q + 1) % 260 ∧ (∀ j, j ≠ q → (t.fn f).queue j = x.queue j)
    (¬ takes → exec (.launchRecordTake false f q) s = .next s) ∧
    (takes → doneBad s k slot = true → taken (fun t => (t.fn f).queue q = { l with head := l.head + 1, err := true, errcode := 2 } ∧
      t.kernels = s.kernels ∧ t.mem = s.mem)) ∧
    (takes → doneBad s k slot = false → preds k = [] →
      ((recReason s k).isSome = true → taken (fun t => (t.fn f).queue q = { l with head := l.head + 1 } ∧ t.kernels = s.kernels ∧ t.gangs = s.gangs)) ∧
      (recReason s k = none → k.sib = false → taken (fun t => (t.fn f).queue q = { l with head := l.head + 1 } ∧
        t.kernel (s.nextId + 1) = { k with order := s.nextId + 1, code := s.mem, record := (t.kernel (s.nextId + 1)).record } ∧
        ∀ i, i < k.ngang → ∃ p ∈ t.gangs, p.2.kernel = s.nextId + 1 ∧ p.2.idx = i ∧ p.2.st = .pending)))) ∧
  (∀ (s : State) (p d : Nat) (x : Tid) (q : LaunchReq) (r : List LaunchReq), (s.part p).devq = q :: r → (s.part p).waits.length < 256 →
    ((s.fn q.fn).tdisp = 0 ∨ (s.fn q.fn).tdisp = 2) → q.ret = some (x, d) → (s.group x.vgid).saved = none →
    let k := q.kernel
    preds k = [] → recReason s k = none → k.sib = false →
    ∃ t, exec (.launchRecordTake true p 0) s = .next t ∧ (t.part p).devq = r ∧ Arrived s t x d 0 ∧
      t.kernel s.nextId = { k with order := s.nextId, code := (t.kernel s.nextId).code, record := (t.kernel s.nextId).record } ∧
      ∀ i, i < k.ngang → ∃ y ∈ t.gangs, y.2.kernel = s.nextId ∧ y.2.idx = i ∧ y.2.st = .pending) ∧
  (∀ (s : State) (p n : Nat) (q : LaunchReq), (s.part p).waits[n]? = some q → ((s.fn q.fn).tdisp = 0 ∨ (s.fn q.fn).tdisp = 2) →
    let k := q.kernel
    let sts := predStates s k
    let out := s.updPart p (fun x => { x with waits := x.waits.take n ++ x.waits.drop (n + 1) })
    let killed : Prop := some 4 ∈ sts ∨ some 5 ∈ sts
    (killed → exec (.waitListCheck p n) s = .next (recordIrq (recordEnd out k 5 8) k)) ∧
    (¬ killed → none ∈ sts → exec (.waitListCheck p n) s = .next (recordIrq (recordEnd out k 5 9) k)) ∧
    (¬ killed → none ∉ sts → (∃ x ∈ sts, x ≠ some 3 ∧ x ≠ some 0) → exec (.waitListCheck p n) s = .next s) ∧
    ((∀ x ∈ sts, x = some 3 ∨ x = some 0) → k.sib = false →
      ∃ t, exec (.waitListCheck p n) s = .next t ∧ (t.part p).waits = (out.part p).waits ∧ t.kernel s.nextId = { k with order := s.nextId, code := (t.kernel s.nextId).code, record := (t.kernel s.nextId).record } ∧
        ∀ i, i < k.ngang → ∃ y ∈ t.gangs, y.2.kernel = s.nextId ∧ y.2.idx = i ∧ y.2.st = .pending))

/-- R228, R231: an accepted request starts; a bulk copy reads its record once, and one that fails a check ends with every claimed word lost.
R247 to R249, R40: a word of an inbound copy arrives where it was claimed, a word of an outbound copy is performed in memory, and a word
through a window is written unless it is PEND; the request ends with its last word, and a stamp, a release, waits for its issuer's earlier
accesses (R144, R149). R232, R237: a word waits for one before it that can still fail or that writes one of its bytes; what can still fail is
read and translated first (`itemsReady`, log 75). R234: of a stream longer than its region the words that fit are copied. R237: the first word that cannot be performed, or whose
window wait has reached its bound, is lost with every later one. R251: WOPEN copies 64 bytes at a time. R239: PUBLISH exchanges the frames of
its entry pair in one step, once what it waits for is done (`publishHeld`), drops every cached translation of the pair, and then waits for its invalidation; R360, R373: an invalidation acknowledged is over. R349, R363: a page-in writes
its block, clears FAR and is done, or faults. R359: a cached translation may go at any time.
A page-in is one step (log 17), and the stamp is written through the frame in front (log 43). -/
def Obligations.CopyEngineEvents : Prop :=
  (∀ (s : State) (cl seq : Nat) (r : CeReq), findReq s cl seq = some r →
    let c := ceCtx cl r
    let ends (t : State) (reason : Nat) : Prop := ∃ q, findReq t cl seq = some q ∧ q.st = .ended ∧ q.fault = true ∧ q.reason = reason ∧ q.first = 0
    let stampFree : Prop := r.stamp = .none ∨ (∀ va, r.stamp ≠ .mem va) ∧ outBefore s r.tid r.order = false
    (r.st ≠ .accepted → exec (.ceRequestStart cl seq) s = .next s) ∧
    (r.st = .accepted → (r.kind = .acopy ∨ r.kind = .awrite ∨ r.kind = .wopen) →
      ∃ t, exec (.ceRequestStart cl seq) s = .next t ∧ t = { s with clusters := t.clusters } ∧
        findReq t cl seq = some { r with st := .running } ∧ ∀ z, z ≠ cl → t.cluster z = s.cluster z) ∧
    (r.st = .accepted → r.kind = .tierin → trackRoom s r.part r.idx.length = false → exec (.ceRequestStart cl seq) s = .next s) ∧
    (r.st = .accepted → (r.kind = .bcopy ∨ r.kind = .bstore) → r.fault = false → r.items = [] → stampFree →
      (∀ e, engRead s c r.record 64 .g = .error e → ∃ t, exec (.ceRequestStart cl seq) s = .next t ∧ ends t 0x07 ∧
        ∀ x ∈ r.rest, (s.group x.1.vgid).saved = none → Lost s t x.1 x.2.1 0x20000000) ∧
      (∀ bs m, engRead s c r.record 64 .g = .ok (bs, m) →
        let ws := wordsOf bs
        let l := layoutOf ws
        let bad := layoutBad l (ws.getD 2 0) (r.kind = .bstore) (r.args.headD 0).toInt (r.args.getD 5 0).toNat
        (∀ reason, bad = some reason → ∃ t, exec (.ceRequestStart cl seq) s = .next t ∧ ends t reason ∧
          ∀ x ∈ r.rest, (s.group x.1.vgid).saved = none → Lost s t x.1 x.2.1 0x20000000) ∧
        (∀ g, bad = none → r.region = some g → r.rest = [] →
          let b := boxOf l r.args
          let width := groupWidth s g.vgid
          let room := width * g.len
          let n := min (streamWords l b) room
          let items := if r.kind = .bstore then storeItems l b g width n else fillItems l b g width n
          0 < n → ∃ t q, exec (.ceRequestStart cl seq) s = .next t ∧ t = { m with clusters := t.clusters } ∧
            findReq t cl seq = some q ∧ q = { r with
              st := .running, items := items, total := q.total, short := if room < streamWords l b then some room else none })))) ∧
  (∀ (s : State) (cl seq j : Nat) (r : CeReq) (x : CeItem), openItem s cl seq j = some (r, x) → lowerFault s cl r j = false → r.barriers = [] →
    let c := pieceCtx cl r j
    let stampFree : Prop := r.stamp = .none ∨ (∀ va, r.stamp ≠ .mem va) ∧ outBefore s r.tid r.order = false
    let done (t : State) : Prop := ∃ q, findReq t cl seq = some q ∧ q.items.length = r.items.length ∧
      (∀ i y, r.items[i]? = some y → q.items[i]? = some (if i = j then { y with done := true } else y)) ∧
      (stampFree → (∀ i y, i ≠ j → r.items[i]? = some y → y.done = true) → q.st = .ended) ∧
      ((∃ i y, i ≠ j ∧ r.items[i]? = some y ∧ y.done = false) → q.st = .running)
    let performs (P : State → Prop) : Prop := ∃ t, exec (.ceWordArrival cl seq j) s = .next t ∧ P t ∧ done t
    (∀ va n u i bs m, x.src = [.mem va n] → x.dst = .claim u i → engRead s c va n r.space = .ok (bs, m) → (s.group u.vgid).saved = none →
      performs (fun t => Arrived s t u i (BitVec.ofNat 32 (ofBytes bs)))) ∧
    (∀ va pa bs m, x.src = [.bytes bs] → bs.length = 4 → x.dst = .mem [(va, 4)] → dstPhys s c r.space [(va, 4)] = ([(pa, 4)], none, m) →
      (itemBehind m cl r j [(pa, 4)] = true ∨ dstBlocked m r.order [(pa, 4)] = true → exec (.ceWordArrival cl seq j) s = .next (itemsReady s cl r j)) ∧
      (itemBehind m cl r j [(pa, 4)] = false → dstBlocked m r.order [(pa, 4)] = false → NoCut s → r.stamp = .none →
        performs (fun t => WroteAt m t pa 4 (ofBytes bs)))) ∧
    (∀ hd u i bs, x.src = [.bytes bs] → x.dst = .win hd u i → handleLive s hd = true → (s.group u.vgid).saved = none → i ≠ 0 →
      ((regGet s u i).tag ≠ .pend → performs (fun t => regGet t u i = ⟨BitVec.ofNat 32 (ofBytes bs), .full⟩)) ∧
      ((regGet s u i).tag = .pend → ∃ t, exec (.ceWordArrival cl seq j) s = .next t ∧ t = { s with clusters := t.clusters } ∧
        ∃ q, findReq t cl seq = some q ∧ q.st = .running ∧ q.items[j]? = some { x with since := x.since.or (some s.cyc) })) ∧
    (∀ reason u i, itemTry s cl r j x = .fault reason → x.dst = .claim u i → r.fault = false →
      exec (.ceWordArrival cl seq j) s = .next s ∧
      ∃ t q, exec (.ceLoss cl seq j) s = .next t ∧ findReq t cl seq = some q ∧ q.fault = true ∧ q.reason = reason ∧ q.first = j ∧
        (∀ i y, j ≤ i → i < r.payload → q.items[i]? = some y → y.done = true) ∧ (∀ i, i < j ∨ r.payload ≤ i → q.items[i]? = r.items[i]?) ∧
        ∀ k y v i, j ≤ k → k < r.payload → r.items[k]? = some y → y.done = false → y.dst = .claim v i → (s.group v.vgid).saved = none →
          Lost s t v i (BitVec.ofNat 32 (2 * 2 ^ 28 + j % 2 ^ 28))) ∧
    (∀ k y, itemTry s cl r j x = .pend (some y) → x.since = some k → r.fault = false →
      ∃ t q, exec (.ceLoss cl seq j) s = .next t ∧ t.cyc = max s.cyc (k + 65536) ∧ findReq t cl seq = some q ∧ q.fault = true ∧ q.reason = 9 ∧ q.first = j)) ∧
  (∀ (s m n : State) (cl seq j pa : Nat) (r : CeReq) (bs : List Byte), findReq s cl seq = some r → r.st = .running → r.kind = .wopen →
    r.items = [] → r.barriers = [] → r.stamp = .none → NoCut s → r.counted = 64 * j → engRead s (pieceCtx cl r 0) (r.record + 64 * j) 64 .g = .ok (bs, m) → bs.length = 64 →
    dstPhys m (pieceCtx cl r 0) .g [(r.record + 64 * j, 64)] = ([(pa, 64)], none, n) →
    (dstBlocked n r.order [(pa, 64)] = true → exec (.wopenGranuleCopy cl seq j) s = .next s) ∧
    (dstBlocked n r.order [(pa, 64)] = false → ∃ t q, exec (.wopenGranuleCopy cl seq j) s = .next t ∧ WroteAt n t pa 64 (ofBytes bs) ∧
      findReq t cl seq = some q ∧ q.counted = 64 * (j + 1) ∧ q.st = if r.total = some (64 * (j + 1)) then .ended else .running)) ∧
  (∀ (s : State) (x : Tid) (w : Who) (va m : Nat) (l : Leaf), publishOf s x = some (w, va, m) → wingsLeaf w s va = .ok l → NoCut s →
    let a := read64 s l.at_
    let b := read64 s (l.at_ + 8)
    let frame : DWord := 0x0000FFFFFFFFF000
    let p := (a &&& ~~~frame) ||| (b &&& frame)
    let q := (b &&& ~~~frame) ||| (a &&& frame)
    (publishHeld s w l m = true → exec (.publishExchange x) s = .next s) ∧
    (publishHeld s w l m = false → ∃ t i, exec (.publishExchange x) s = .next t ∧ WroteAt s t l.at_ 16 (p.toNat + 2 ^ 64 * q.toNat) ∧
      t.invs = s.invs ++ [i] ∧ (t.thread x).wait = .publish m (some i.id) ∧ (t.thread x).st = .waiting ∧
      i.part = w.k.part ∧ i.asid = w.k.asid ∧ i.lo = va - va % leafSize l.lvl ∧ i.hi = i.lo + 2 * leafSize l.lvl - 1 ∧
      ∀ u, ∀ e ∈ at_ t.tlbs u [], e ∈ at_ s.tlbs u [] ∧ e.src ≠ l.at_ ∧ e.src ≠ l.at_ + 8)) ∧
  (∀ (s : State) (id : Nat) (i : Inv), s.invs.find? (fun x => x.id = id) = some i →
    (invReady s i = false → exec (.invrAck id) s = .next s) ∧
    (invReady s i = true → ∃ t, exec (.invrAck id) s = .next t ∧
      t = { s with invs := s.invs.filter (fun x => x.id ≠ id), threads := t.threads } ∧
      (∀ u, (t.thread u).invrs = (s.thread u).invrs.filter (fun k => k ≠ id)) ∧
      ∀ u m, look s.threads u = some (s.thread u) → (s.thread u).st = .waiting → (s.thread u).wait = .publish m (some id) → GoesOn s t u)) ∧
  (∀ (s : State) (id p : Nat) (x : Tracker),
    s.parts.findSome? (fun p => (p.2.tracker.find? (fun t => t.id = id && t.st = .inflight)).map (fun t => (p.1, t))) = some (p, x) →
    look s.parts p = some (s.part p) → x ∈ (s.part p).tracker →
    let c : Ctx := { unit := 1152 + x.cl, part := p, asid := x.asid, world := x.world, house := 0 }
    let got := engRead s c x.src x.bytes .f
    let state (t : State) (st : TierSt) : Prop := { x with st := st, posts := [] } ∈ (t.part p).tracker
    (∀ reason, got = .error reason → ∃ t, exec (.pageIn id) s = .next t ∧ t = { s with parts := t.parts, fns := t.fns } ∧ state t (.faulted reason)) ∧
    (∀ bs m n o ps fb y pa, got = .ok (bs, m) → dstPhys m c .g [(x.dst, x.bytes)] = (ps, none, n) →
      (dstBlocked n x.ord ps = true → exec (.pageIn id) s = .next s) ∧
      (dstBlocked n x.ord ps = false → NoCut s → x.posts = [] →
      let b := performPieces n ps bs
      engRead b c x.flag 4 .g = .ok (fb, y) → translate b c x.flag .write (some .g) = .ok (pa, o) →
      ∃ t, exec (.pageIn id) s = .next t ∧ WroteAt o t pa 4 (ofBytes fb % 2 ^ 31) ∧ state t .done))) ∧
  (∀ (s : State) (unit n : Nat), ∃ t, exec (.translationCacheEviction unit n) s = .next t ∧ t = { s with tlbs := t.tlbs } ∧
    at_ t.tlbs unit [] = (at_ s.tlbs unit []).eraseIdx n ∧ ∀ u, u ≠ unit → at_ t.tlbs u [] = at_ s.tlbs u [])

/-- R184, R190, R191, R192, R200, R439: a record becomes READY when no earlier request conflicts with it, and goes ahead after 4,096 cycles; it
is dispatched to the lowest-numbered free engine, unless the power limit holds, writes its promise, and is filled. R180: with its last k group
each element of an FP32 or FP64 product is a chain of fused multiply-adds in increasing k, each rounded once. R197, R198: a checksum
that passes starts the write-back, one that fails replays the task, with the index list and codebook that MTASK gave (R221), and a second failure
ends it. R196: C's words arrive, and the stamp
follows. R184, R188: a task that ends leaves its stamp, its engine is free, and a fault loses its C words with origin 3. R288: the check bits of the
words it read are corrected and counted (`taskChecks`).
That a checksum is upset by an event is the model's choice (log 14); what the rules leave of a task's operands is log 42. -/
def Obligations.MatrixEvents : Prop :=
  (∀ (s : State) (cl seq : Nat) (t : MtTask), queued s cl seq = some t →
    let becomes (i : Instr) (cyc : Nat) (u : MtTask) : Prop := ∃ m, exec i s = .next m ∧ m = { s.setCyc cyc with clusters := m.clusters } ∧
      queued m cl seq = some u
    (t.st = .queued → s.hbt = s.cyc / 128 → conflicts s t = false → becomes (.mtTaskReady cl seq) s.cyc { t with st := .ready, ready := s.cyc }) ∧
    (t.st = .queued → conflicts s t = true → exec (.mtTaskReady cl seq) s = .next s) ∧
    (t.st = .ready → t.aged = false → becomes (.mtReadyAging cl seq) (max s.cyc (t.ready + 4096)) { t with aged := true }) ∧
    (∀ e, dispatchNext s cl = some t → freeEngine s cl = some e →
      let u := { t with st := .running }
      (s.mgmt.holding = true → exec (.mtDispatch cl seq) s = .next s) ∧
      (s.mgmt.holding = false → t.record.kind / 2 ≠ 1 → (∀ p ∈ s.threads, p.2.ecc = []) → ∀ f, fillRead s u = .ok f →
        ∃ m, exec (.mtDispatch cl seq) s = .next m ∧ m = { s with clusters := m.clusters } ∧ queued m cl seq = some { f with since := none } ∧
          f.st = .running ∧ at_ (m.cluster cl).engines e {} = { frozen := false, task := some (cl, seq) }) ∧
      (s.mgmt.holding = false → t.record.kind / 2 = 1 → (s.group t.tid.vgid).saved = none →
        let p := BitVec.ofNat 64 (taskPromise t)
        ∃ m, exec (.mtDispatch cl seq) s = .next m ∧ Arrived s m t.tid t.record.ppair (loWord p) ∧
          Arrived s m t.tid (t.record.ppair + 1) (hiWord p))) ∧
    (dispatchNext s cl = none ∨ freeEngine s cl = none → exec (.mtDispatch cl seq) s = .next s)) ∧
  (∀ (s : State) (t : MtTask) (reason : Nat) (e : Nat × Engine),
    let r := t.record
    let c := t.region 2
    let v := ticketVal (decide (reason ≠ 0)) reason t.flags.toNat t.home t.seq
    let m := taskEnd s t reason
    (s.group t.tid.vgid).saved = none →
    (∀ z ∈ m.clusters, ∀ y ∈ z.2.mt, ¬(y.home = t.home ∧ y.seq = t.seq)) ∧
    look (m.cluster t.home).stamps t.seq = some (if reason = 0 then .done else .faulted, v) ∧
    (∀ z, look (s.cluster z).engines e.1 = some e.2 → e.2.task = some (t.home, t.seq) →
      at_ (m.cluster z).engines e.1 {} = { frozen := e.2.frozen || t.freeze, task := none }) ∧
    (reason ≠ 0 → c.handle = 0 → ∀ p ∈ tileAt r c, (s.group p.1.vgid).saved = none → Lost s m p.1 p.2 0x30000000) ∧
    (r.kind % 2 = 1 → ((t.tid, r.spair) ∉ tileAt r c ∧ (t.tid, r.spair + 1) ∉ tileAt r c) →
      Arrived s m t.tid r.spair (loWord v) ∧ Arrived s m t.tid (r.spair + 1) (hiWord v))) ∧
  (∀ (s : State) (cl eng : Nat) (t v : MtTask), onEngine s cl eng .running = some t →
    let r := t.record
    let computed (z : State) : ItemOut MtTask := (if t.filled then .ok t else fillRead z t).bind (fun u =>
      (advanceTask z u u.record.k).map (fun y => { y with st := .checking }))
    let c := taskChecks s t computed
    let found (m : State) (u : MtTask) : Prop := (findTask m t.home t.seq).map (·.2) = some u
    ((∀ p ∈ s.threads, p.2.ecc = []) → c = s) ∧
    (computed s = .ok v →
      ∃ m, exec (.mtComputeEnd cl eng) s = .next m ∧ m = { c with clusters := m.clusters } ∧ found m { v with since := none }) ∧
    (∀ reason, computed s = .fault reason → exec (.mtComputeEnd cl eng) s = .next (taskEnd c t reason)) ∧
    (t.filled = true → t.knext = 0 → (r.at_ = .f32 ∨ r.at_ = .f64) → advanceTask s t r.k = .ok v →
      ∀ i j a b, i < r.m → j < r.n → aRow s t i = .ok a → bColumn s t j = .ok b →
        v.acc[i * r.n + j]? = some (BitVec.ofNat 64 ((((a.map (·.1)).take r.k).zip ((b.map (·.1)).take r.k)).foldl
          (fun acc p => (sumStep (fmtOfTy r.ct) [p] acc).1) (t.acc.getD (i * r.n + j) 0).toNat)))) ∧
  (∀ (s : State) (cl eng : Nat) (t : MtTask) (upset : Bool), onEngine s cl eng .checking = some t →
    let f := (s.kernel t.kernel).owner
    let found (m : State) (u : MtTask) : Prop := (findTask m t.home t.seq).map (·.2) = some u
    (upset = false → t.bad = false → ∃ m, exec (.mtChecksum cl eng upset) s = .next m ∧ m = { s with clusters := m.clusters } ∧
      found m { t with st := .writing, wrote := 0 }) ∧
    (upset = true ∨ t.bad = true →
      (t.replayed = false → ∃ m, exec (.mtChecksum cl eng upset) s = .next m ∧ m = { s with clusters := m.clusters, fns := m.fns } ∧
        at_ (m.fn f).counts 6 0 = min (at_ (s.fn f).counts 6 0 + 1) (2 ^ 64 - 1) ∧
        found m { t with
          st := .running, replayed := true, acc := t.c0, knext := 0, shadow := [], bad := false,
          rows := (t.kept.map (·.1)).getD t.rows, cb := (t.kept.map (·.2)).getD t.cb, kept := none }) ∧
      (t.replayed = true → exec (.mtChecksum cl eng upset) s = .next (taskEnd s t 0x24)))) ∧
  (∀ (s : State) (cl eng : Nat) (t : MtTask), onEngine s cl eng .writing = some t → (t.region 2).handle = 0 →
    let ws := (accWords t).zip (tileAt t.record (t.region 2))
    (∀ x ∈ ws, (s.group x.2.1.vgid).saved = none) →
    ∃ m n, exec (.mtWritebackEnd cl eng) s = .next m ∧ m = taskEnd n t 0 ∧ n = { s with threads := n.threads } ∧
      KeepsRegs (fun x i => ws.any (fun y => y.2 = (x, i))) s n ∧ ((ws.map (·.2)).Nodup → ∀ x ∈ ws, Arrived s n x.2.1 x.2.2 x.1))

/-- R415: a host write is performed in memory, and dropped in a secure range unless a TDI in RUN carries it, which the event does not say (a free
value, log 28); a host read gives the bytes, or data poison there and at a bad granule. R416: the host frees a lock it holds with a write of 0. R414: a snoop is answered. R419: a VF's
configuration changes while EN is 0 and it is unlocked; R423: a write while it is locked or runs sends it to ERROR. R421: an entry of the
partition table, whichever of its registers, changes while the partition is idle and the table stays consistent. R330: CLHOLD bits clear. R417, R418: a register's write
reaches what lies at its offset; the physical function's offsets ignore a VF's writes. R437: a mailbox command starts, or is refused. R425:
another package reaches memory that its key opens. R436: a package without a valid image serves no memory and has no VF. R417, R418: what a read gives is `registerValue`: the
counters, MB_STAT (R437) and FN_CFG among it, zero at an offset that is not listed and, of a VF, at the physical function's.
Host accesses to a secure range, the registers of the physical function and values out of range are log 28 and log 29. -/
def Obligations.HostAndHouseAccesses : Prop :=
  (∀ (s : State) (addr n : Nat) (data : List Byte),
    let k := data.length
    let mine (e : Est) : Bool := e.holder.isNone && e.kind ≠ .task && meets s addr k e.addr 8
    let closed (n : Nat) : Prop := secureClosed s addr n = true
    let bare (n : Nat) : Prop := secureRange s addr n = true ∧ (Config.freeValue s.fresh).getLsbD 0 = false
    (s.mgmt.up = false → exec (.hostMemWrite addr data) s = .next s ∧ exec (.hostMemRead addr n) s = .next s) ∧
    (s.mgmt.up = true → 0 < k → addr + k ≤ devBytes →
      (closed k → exec (.hostMemWrite addr data) s = .next s) ∧
      (¬ closed k → bare k → exec (.hostMemWrite addr data) s = .next { s with fresh := s.fresh + 1 }) ∧
      (¬ closed k → ¬ bare k → NoCut s → (∀ e ∈ s.estate, mine e = false) →
        ∃ t, exec (.hostMemWrite addr data) s = .next t ∧ WroteAt s t addr k (ofBytes data) ∧
          t = { s with mem := t.mem, gran := t.gran, host := t.host, threads := t.threads, fresh := t.fresh } ∧ KeepsThreads (fun _ => false) s t) ∧
      (¬ closed k → ¬ bare k → NoCut s →
        ∀ e, s.estate.filter mine = [e] → e.kind = .lock → k = 8 → addr = e.addr → (∀ b ∈ data, b = 0) → stray s e = false →
        ∃ m, m = { s with fresh := m.fresh } ∧ exec (.hostMemWrite addr data) s = .next (lockFree m e))) ∧
    (s.mgmt.up = true → 0 < n → addr + n ≤ devBytes →
      ∃ t, exec (.hostMemRead addr n) s = .next t ∧ t = { s with host := t.host, fns := t.fns, fresh := t.fresh } ∧
      (∀ g, g ∈ t.host.lines ↔ g ∈ s.host.lines ∨ addr / 64 ≤ g ∧ g ≤ (addr + n - 1) / 64) ∧
      ((closed n ∨ bare n ∨ badAt s addr n ≠ none) → t.host.reply = none) ∧
      (¬ closed n → ¬ bare n → badAt s addr n = none → t.fns = s.fns ∧ ∃ bs, t.host.reply = some bs ∧ bs.length = n ∧
        ∀ j, j < n → bs[j]? = some (memGet s.mem (addr + j)))) ∧
    exec (.hostSnoop addr) s = .next { s with host := { s.host with snooped := true } }) ∧
  (∀ (s : State) (v : Nat) (x : DWord), v < 64 →
    let f := s.fn (v + 1)
    let only (t : State) : Prop := t = { s with fns := t.fns } ∧ ∀ j, j ≠ v + 1 → t.fn j = s.fn j
    (s.mgmt.up = false → exec (.vfCfgWrite v x) s = .next s) ∧
    (s.mgmt.up = true → f.tdisp = 0 → f.en = false → ∃ t, exec (.vfCfgWrite v x) s = .next t ∧ only t ∧
      t.fn (v + 1) = { f with en := x.getLsbD 31, world := x.getLsbD 27, part := bits x 26 22, asid := bits x 15 0 }) ∧
    (f.tdisp = 0 → f.en = true → exec (.vfCfgWrite v x) s = .next s) ∧
    (s.mgmt.up = true → (f.tdisp = 1 ∨ f.tdisp = 2) → (∀ g ∈ s.gangs, g.2.st = .ended ∨ (s.kernel g.2.kernel).owner ≠ v + 1) →
      ∃ t, exec (.vfCfgWrite v x) s = .next t ∧ only t ∧ t.fn (v + 1) = { f with tdisp := 3 })) ∧
  (∀ (s : State) (p off : Nat) (x : DWord), p < 20 → (∀ f ∈ s.fns, f.2.part = p → (s.fn f.1).tdisp = 0 ∨ (s.fn f.1).tdisp = 3) →
    off ∈ [0x20, 0x28, 0x30, 0x38, 0x40, 0x48, 0x50, 0x58] →
    (partBusy s p = true → exec (.partitionTableWrite p off x) s = .next s) ∧
    (partBusy s p = false → exec (.partitionTableWrite p off x) s = .next (s.updPart p (fun q => wideReg q off x)))) ∧
  (∀ (s : State) (p off : Nat) (x : DWord) (q : Part), p < 20 → (∀ f ∈ s.fns, f.2.part = p → (s.fn f.1).tdisp = 0 ∨ (s.fn f.1).tdisp = 3) →
    tableReg (s.part p) off x = some q →
    (partBusy s p = true ∨ partOk s p q = false → ∃ t, exec (.partitionTableWrite p off x) s = .next t ∧ t.parts = s.parts) ∧
    (partBusy s p = false → partOk s p q = true →
      ∃ t, exec (.partitionTableWrite p off x) s = .next t ∧ t.part p = q ∧ (∀ j, j ≠ p → t.part j = s.part j) ∧ t.mem = s.mem)) ∧
  (∀ (s : State) (cl : Nat) (x : DWord), cl < 48 → ∃ t, exec (.clholdClear cl x) s = .next t ∧ t = { s with clusters := t.clusters } ∧
    (∀ j, j ≠ cl → t.cluster j = s.cluster j) ∧ t.cluster cl = { s.cluster cl with hold := (t.cluster cl).hold } ∧
    ∀ i, i < 24 → (t.cluster cl).hold.getLsbD i = ((s.cluster cl).hold.getLsbD i && !x.getLsbD i)) ∧
  (∀ (s : State) (f q off i : Nat) (x : DWord), f ≤ 64 → q < 4 →
    let l := (s.fn f).queue q
    let free : Prop := (s.fn f).tdisp ≠ 1 ∧ (s.fn f).tdisp ≠ 2
    let same (a b : Instr) : Prop := exec a s = exec b s
    let value (n : Nat) (y : DWord) : Prop := s.mgmt.up = true → registerValue s f n = y
    value (0x200 + 8 * q) (BitVec.ofNat 64 (at_ (s.fn f).counts q 0)) ∧ value (0x20 * q + 0x10) (BitVec.ofNat 64 l.head.toNat) ∧
    (f ≠ 0 → 0x1000 ≤ off → registerValue s f off = 0) ∧ (s.mgmt.noImage = true → f ≠ 0 → registerValue s f off = 0) ∧
    (f = 0 → value 0x3008 (BitVec.ofNat 64 (s.mgmt.err * 2 ^ 16 + if s.mgmt.busy then 1 else 0))) ∧
    (s.mgmt.noImage = true → f ≠ 0 → exec (.registerWrite f off x) s = .next s ∧ exec (.functionReset f) s = .next s) ∧
    (s.mgmt.powered = true → (s.mgmt.noImage = false ∨ f = 0) → ∃ t, exec (.functionReset f) s = .next t ∧ t = { s with fns := t.fns } ∧ (∀ j, j ≠ f → t.fn j = s.fn j) ∧
      t.fn f = { s.fn f with counts := [], cIssue := 0, cEngine := 0, cBytes := 0 }) ∧
    (s.mgmt.up = true → same (.registerWrite f (0x20 * q + 0x18) x) (.lqTailWrite f q x) ∧
    (i < 64 → same (.registerWrite 0 (0x2000 + 8 * i) x) (.vfCfgWrite i x)) ∧
    (i < 48 → same (.registerWrite 0 (0x1400 + 8 * i) x) (.clholdClear i x)) ∧
    (i < 20 → off < 32 → same (.registerWrite 0 (0x4000 + 0x100 * i + 8 * off) x) (.partitionTableWrite i (8 * off) x)) ∧
    (f ≠ 0 → 0x1000 ≤ off → exec (.registerWrite f off x) s = .next s) ∧
    (free → ∃ t, exec (.registerWrite f (0x20 * q) x) s = .next t ∧ t = { s with fns := t.fns } ∧ (t.fn f).queue q = { l with
      en := x.getLsbD 31, err := l.err && !x.getLsbD 30, irq := x.getLsbD 23, stuck := l.stuck && x.getLsbD 31,
      log2n := if l.en = false ∧ 4 ≤ bits x 4 0 ∧ bits x 4 0 ≤ 16 then bits x 4 0 else l.log2n }) ∧
    (free → ∃ t, exec (.registerWrite f (0x20 * q + 8) x) s = .next t ∧ t = { s with fns := t.fns } ∧
      (t.fn f).queue q = (if l.en then l else { l with base := bits x 51 7 * 128 })) ∧
    (i < 64 → ∃ t, exec (.registerWrite 0 (0x3100 + 4 * i) x) s = .next t ∧ t = { s with mgmt := t.mgmt } ∧ at_ t.mgmt.arg i 0 = loWord x) ∧
    (s.mgmt.busy = true → exec (.registerWrite 0 0x3000 x) s = .next { s with mgmt := { s.mgmt with err := 3 } }) ∧
    (s.mgmt.busy = false → bits x 7 0 ∈ [1, 2, 3, 4, 5, 6, 0x10, 0x11] →
      exec (.registerWrite 0 0x3000 x) s = .next { s with mgmt := { s.mgmt with cmd := loWord x &&& 0xFF, busy := true, err := 0 } }) ∧
    (s.mgmt.busy = false → bits x 7 0 ∉ [1, 2, 3, 4, 5, 6, 0x10, 0x11] → ∃ t, exec (.registerWrite 0 0x3000 x) s = .next t ∧
      t.mgmt.busy = false ∧ t.mgmt.ended = true ∧ t.mgmt.err = 1 ∧ (t.fn 0).msix = (s.fn 0).msix ++ [2]))) ∧
  (∀ (s : State) (key addr n : Nat) (data : List Byte),
    let opened (n : Nat) : Prop := ∀ j, j < n → houseOpen s key (addr + j) = true
    (s.mgmt.up = true → data ≠ [] → opened data.length → NoCut s → ∃ t, exec (.remoteHouseAccess key addr data.length (some data)) s = .next t ∧
      WroteAt s t addr data.length (ofBytes data)) ∧
    (s.mgmt.up = true → 0 < n → opened n → badAt s addr n = none → ∃ t bs, exec (.remoteHouseAccess key addr n none) s = .next t ∧ t = { s with house := t.house } ∧
      t.house.reply = some bs ∧ bs.length = n ∧ ∀ j, j < n → bs[j]? = some (memGet s.mem (addr + j))) ∧
    (¬ opened n → exec (.remoteHouseAccess key addr n none) s = .next s) ∧
    (¬ opened data.length → exec (.remoteHouseAccess key addr n (some data)) s = .next s))

/-- R423: GET_VERSION begins a connection, and the requests of one are answered in their order, each with a response that is a free value; a
session opens with KEY_EXCHANGE, is complete with FINISH and ends with END_SESSION. LOCK, START and STOP move an interface between its
states, where R423 allows; STOP zeroes its launch queues. A failure of IDE sends a locked or running interface to ERROR, and kills its
kernels. The order of the SPDM requests is the model's reading (log 13). -/
def Obligations.AttestationAndInterfaces : Prop :=
  (∀ (s : State) (id n m : Nat),
    let p := s.spdm
    let answers (i : Instr) (q : Spdm) : Prop := exec i s = .next { s with spdm := { q with reply := some (Config.freeValue s.fresh), refused := false }, fresh := s.fresh + 1 }
    let refuses (i : Instr) : Prop := exec i s = .next { s with spdm := { p with reply := none, refused := true } }
    let goes (ok : Prop) (i : Instr) (q : Spdm) : Prop := (ok → answers i q) ∧ (¬ ok → refuses i)
    answers .getVersion { version := true } ∧ goes (p.version = true) .getCapabilities { p with caps := true } ∧
    goes (p.caps = true ∧ n ≠ 0) (.negotiateAlgorithms n) { p with algs := true } ∧
    goes (p.algs = true) .getDigests p ∧ goes (p.algs = true) (.getCertificate n m) p ∧ goes (p.algs = true) (.challenge n) p ∧
    goes (p.algs = true) (.getMeasurements n) p ∧
    goes (p.algs = true ∧ look p.sessions id = none) (.keyExchange id) { p with sessions := put p.sessions id false } ∧
    goes (look p.sessions id = some false) (.finish id true) { p with sessions := put p.sessions id true } ∧ refuses (.finish id false) ∧
    goes (look p.sessions id = some true) (.endSession id) { p with sessions := del p.sessions id }) ∧
  (∀ (s : State) (v nonce : Nat),
    let f := s.fn (v + 1)
    let busy : Prop := ∃ k ∈ s.kernels, k.2.st ≠ .ended ∧ k.2.owner = v + 1
    let refuses (i : Instr) : Prop := exec i s = .next { s with spdm := { s.spdm with refused := true } }
    let enters (i : Instr) (st : Nat) : Prop := ∃ t, exec i s = .next t ∧ t = { s with fns := t.fns, spdm := { s.spdm with refused := false } } ∧
      t.fn (v + 1) = { f with tdisp := st } ∧ ∀ j, j ≠ v + 1 → t.fn j = s.fn j
    (64 ≤ v → refuses (.lockInterfaceRequest v) ∧ refuses (.startInterfaceRequest v nonce) ∧ refuses (.stopInterfaceRequest v) ∧
      exec (.ideFailure v) s = .next s) ∧
    (v < 64 →
      (f.tdisp = 0 → ¬ busy → enters (.lockInterfaceRequest v) 1) ∧ ((f.tdisp ≠ 0 ∨ busy) → refuses (.lockInterfaceRequest v)) ∧
      (f.tdisp = 1 → enters (.startInterfaceRequest v nonce) 2) ∧ (f.tdisp ≠ 1 → refuses (.startInterfaceRequest v nonce)) ∧
      ((∀ g ∈ s.gangs, g.2.st = .ended ∨ (s.kernel g.2.kernel).owner ≠ v + 1) →
        (∀ g ∈ s.groups, (s.kernel (s.gang g.2.gang).kernel).owner ≠ v + 1) → (s.part f.part).kvpCtl.getLsbD 31 = false →
        ∃ t, exec (.stopInterfaceRequest v) s = .next t ∧ t = { s with fns := t.fns, spdm := { s.spdm with refused := false } } ∧
          t.fn (v + 1) = { f with tdisp := 0, lq := (t.fn (v + 1)).lq } ∧ ∀ q, q < 4 → (t.fn (v + 1)).queue q = { log2n := 0 }) ∧
      ((f.tdisp = 1 ∨ f.tdisp = 2) → ∃ t, exec (.ideFailure v) s = .next t ∧ (t.fn (v + 1)).tdisp = 3 ∧
        ∀ g, look s.gangs g.1 = some g.2 → g ∈ s.gangs → g.2.st ≠ .ended → (s.kernel g.2.kernel).owner = v + 1 → (t.gang g.1).killed = some true) ∧
      (f.tdisp ≠ 1 → f.tdisp ≠ 2 → exec (.ideFailure v) s = .next s)))

/-- R426, R427: the collective engine takes the next VALID slot and clears VALID; a slot that fails a check or carries another attempt ends at
once with a stamp, an abort raises the attempt and sends a token, another collective runs. R427: a token of the next attempt is adopted, any
other ignored, and what ran at the old attempt ends. R428: a running collective ends by writing DST and then its stamp. R429, R431, R432: at a
cut's tick every selected leaf with D receives K, and the cut header is written; a cut whose tick comes while another is copied has faulted (log 46);
granules are copied in their order, each as a record, and with the last granule of
a page K and D are cleared.
A collective's sizes, what an abort leaves, and D under a cut are log 30, log 31 and log 25. -/
def Obligations.CollectivesAndCuts : Prop :=
  (∀ (s : State) (f : Nat),
    let forms : List (Nat × Instr) := [(1, .collAllReduce f), (2, .collReduceScatter f), (3, .collAllGather f), (4, .collBroadcast f), (5, .collBarrier f), (0xF, .collAbort f)]
    (nextSlot s f = none → ∀ p ∈ forms, exec p.2 s = .next s) ∧
    (∀ a ws, nextSlot s f = some (a, ws) → NoCut s →
      let x := s.fn f
      let c := collOf ws x.collSeq
      let good : Prop := collBad s f ws c = false ∧ c.attempt = curOf s f c.comm
      let v := (c.attempt + 1) % 65536
      let taken (m t : State) : Prop := WroteAt s m (a + 60) 4 (ws.getD 15 0 &&& 0x7FFFFFFF).toNat ∧ (t.fn f).collSeq = x.collSeq + 1
      let runs (m t : State) : Prop := taken m t ∧ t.mem = m.mem ∧ (t.fn f).colls = x.colls ++ [c]
      let stamped (fault : Bool) (reason : Nat) (m t : State) : Prop :=
        (collRange s f c.stamp 8 = true → WroteAt m t c.stamp 8 (ticketVal fault reason 0 0 c.seq).toNat) ∧ (collRange s f c.stamp 8 = false → t.mem = m.mem)
      (good → c.op = 1 → ∃ t m, exec (.collAllReduce f) s = .next t ∧ runs m t) ∧
      (good → c.op = 2 → ∃ t m, exec (.collReduceScatter f) s = .next t ∧ runs m t) ∧
      (good → c.op = 3 → ∃ t m, exec (.collAllGather f) s = .next t ∧ runs m t) ∧
      (good → c.op = 4 → ∃ t m, exec (.collBroadcast f) s = .next t ∧ runs m t) ∧
      (good → c.op = 5 → ∃ t m, exec (.collBarrier f) s = .next t ∧ runs m t) ∧
      (good → c.op = 0xF → (∀ y ∈ x.colls, y.comm ≠ c.comm) → ∃ t m, exec (.collAbort f) s = .next t ∧ taken m t ∧ stamped false 0 m t ∧
        curOf t f c.comm = v ∧ t.house.tokens = s.house.tokens ++ [(f, c.comm, v)] ∧ (t.fn f).colls = x.colls) ∧
      (∀ p ∈ forms,
        (c.op ≠ p.1 → c.op ∈ forms.map (·.1) → exec p.2 s = .next s) ∧
        ((c.op = p.1 ∨ c.op ∉ forms.map (·.1)) →
          (collBad s f ws c = true → ∃ t m, exec p.2 s = .next t ∧ taken m t ∧ stamped true 0x7A m t ∧ (t.fn f).colls = x.colls) ∧
          (collBad s f ws c = false → c.attempt ≠ curOf s f c.comm →
            ∃ t m, exec p.2 s = .next t ∧ taken m t ∧ stamped true 0x7C m t ∧ (t.fn f).colls = x.colls))))) ∧
  (∀ (s : State) (f c v : Nat),
    let old (y : Coll) : Bool := y.comm = c && y.attempt ≠ v
    (v ≠ (curOf s f c + 1) % 65536 → exec (.abortToken f c v) s = .next s) ∧
    (v = (curOf s f c + 1) % 65536 → ∃ t, exec (.abortToken f c v) s = .next t ∧ curOf t f c = v ∧
      (∀ j, j ≠ c → curOf t f j = curOf s f j) ∧ (t.fn f).colls = (s.fn f).colls.filter (fun y => !old y) ∧
      (∀ y, (s.fn f).colls.filter old = [y] → collRange s f y.stamp 8 = true → NoCut s → WroteAt s t y.stamp 8 (ticketVal true 0x7B 0 0 y.seq).toNat))) ∧
  (∀ (s : State) (f : Nat) (ins : List (List Byte)) (c : Coll) (r : List Coll), (s.fn f).colls = c :: r → NoCut s →
    let n := (commOf s f c.comm).2.1
    let rank := (commOf s f c.comm).2.2
    let rd := (collBytes c.op c.count c.esize n).1
    let out := collResult c rank (ins.set rank (physRead s c.src rd))
    collRange s f c.stamp 8 = true → collRange s f c.dst out.length = true →
    (ins.length ≠ n ∨ (∃ b ∈ ins, b.length ≠ rd) → exec (.collComplete f ins) s = .next s) ∧
    (ins.length = n → (∀ b ∈ ins, b.length = rd) →
      (badAt s c.src rd = none → ∃ t m, exec (.collComplete f ins) s = .next t ∧ WroteAt s m c.dst out.length (ofBytes out) ∧
        WroteAt m t c.stamp 8 (ticketVal false 0 0 0 c.seq).toNat ∧ (t.fn f).colls = r ∧
        (c.op = 4 → rank ≠ c.root → ∀ b, ins[c.root]? = some b → out = b)) ∧
      (∀ k g, badAt s c.src rd = some (k, g) → ∃ t, exec (.collComplete f ins) s = .next t ∧
        WroteAt s t c.stamp 8 (ticketVal true (granReason g) 0 0 c.seq).toNat ∧ (t.fn f).colls = r))) ∧
  (∀ (s : State) (p : Nat), ((s.part p).cut = none → exec (.cutTick p) s = .next s) ∧
    let outcome (d : Cut) (fault : Bool) : Option Bool :=
      if (s.part p).latest.any (fun x => x.2 = d.no) then some fault else (s.part p).lastCut
    ∀ c, (s.part p).cut = some c →
      (c.ticked = true → (s.part p).later = [] → exec (.cutTick p) s = .next s) ∧
      (∀ d r, c.ticked = true → (s.part p).later = d :: r → ∃ t, exec (.cutTick p) s = .next t ∧ t = { s.setCyc (max s.cyc (d.tick * 128)) with parts := t.parts } ∧
        t.part p = { s.part p with later := r, lastCut := outcome d true } ∧ ∀ q, q ≠ p → t.part q = s.part q) ∧
      (c.ticked = false →
        let m := tickWakes (s.setCyc (max s.cyc (c.tick * 128)))
        let leaves := (cutAsids m (m.part p) c.asidsel).flatMap (fun x => (dirtyLeaves m (m.part p) (bits x.2 51 18 * 2 ^ 18) 0 0 4).map (fun l => (x.1, l)))
        let no := ((m.part p).ckNo + 1) % 2 ^ 24
        (cutDestOk (m.part p) c.sel c.dest 64 = false → ∃ t, exec (.cutTick p) s = .next t ∧ t.cyc = max s.cyc (c.tick * 128) ∧
          (t.part p).cut = (s.part p).later.head? ∧ (t.part p).later = (s.part p).later.drop 1 ∧ (t.part p).ckActive = false ∧ (t.part p).ckFault = true ∧ (t.part p).lastCut = outcome c true) ∧
        (cutDestOk (m.part p) c.sel c.dest 64 = true → leaves ≠ [] → ∃ t k, exec (.cutTick p) s = .next t ∧ t.cyc = max s.cyc (c.tick * 128) ∧
          (Memory.wf s.mem = true → ∀ x ∈ leaves, read64 k x.2.1 = x.2.2.2.2 ||| 0x400) ∧ WroteAt k t c.dest 64 (ofBytes (cutHeader c no)) ∧
          (t.part p).ckNo = no ∧ (t.part p).ckActive = true ∧ (t.part p).cut = some { c with
            ticked := true, at_ := 64, seqno := 0, items := leaves.flatMap (fun x => leafItems x.1 x.2),
            saves := if c.regs then cutGroups m p else [] }))) ∧
  (∀ (s : State) (p addr : Nat) (c : Cut) (i : CutItem), (s.part p).cut = some c → c.ticked = true → c.saves = [] →
    c.items.find? (fun x => !x.done) = some i →
    (canon s i.phys ≠ canon s (addr - addr % 65536) → exec (.cutGranuleCopy p addr) s = .next s) ∧
    (canon s i.phys = canon s (addr - addr % 65536) → cutBarred s (s.part p) i.phys = false →
    cutDestOk (s.part p) c.sel (c.dest + c.at_) 65600 = true → i.leafAt % 8 = 0 →
    let items := c.items.map (fun x => if x.va = i.va && x.asid = i.asid then { x with done := true } else x)
    let bs := recordBytes (if cutEncrypts s p i.asid then some (sessionKey s) else none) (c.seqno + 1) 1 i.asid (BitVec.ofNat 64 i.va) (physRead s i.phys 65536)
    (∃ x ∈ items, x.done = false) → ∃ t m, exec (.cutGranuleCopy p addr) s = .next t ∧ WroteAt s m (c.dest + c.at_) 65600 (ofBytes bs) ∧
      ((∃ x ∈ items, x.leafAt = i.leafAt ∧ x.done = false) → t.mem = m.mem) ∧
      ((∀ x ∈ items, x.leafAt = i.leafAt → x.done = true) → WroteAt m t i.leafAt 8 (read64 m i.leafAt &&& ~~~(0x420 : DWord)).toNat) ∧
      (t.part p).cut = some { c with at_ := c.at_ + 65600, seqno := c.seqno + 1, items := items }))

/-- R436, R440: power-on and a reset zero device memory and bring every core to step 0 at the image's TARGET; flash and the lifetime records
stay, and a power loss takes the rest, and spoils the copy it falls upon (whether it does is a free value, log 6). R437, R438: a mailbox command ends with its error, READY and vector 2, and does what its line says.
R439: a power sample is taken, and a thermal trip resets. R293, R440: the hour's record goes to the older copy. R433: an export waits for what
is under way, and an import that passes every check puts the VF into RUN. The bytes of the lifetime region, whether an image's signature checks and
whether flash fails (ERR 4) are open values of Config (log 13), and the power of each die is one (log 15); how state records are laid out is the model's choice (log 32). -/
def Obligations.ManagementEvents : Prop :=
  let afresh (s t : State) (m : Mgmt) : Prop :=
    (∀ a, a < devBytes → memGet t.mem a = 0) ∧ (∀ a, devBytes ≤ a → memGet t.mem a = memGet s.mem a) ∧
    t.cyc = 0 ∧ t.hbt = 0 ∧ t.kernels = [] ∧ t.gangs = [] ∧ t.groups = [] ∧ t.threads = [] ∧ t.clusters = [] ∧ t.estate = [] ∧ t.ballots = [] ∧
    t.parts = [] ∧ t.fns = [] ∧ t.tlbs = [] ∧ t.results = [] ∧ t.loads = [] ∧ t.atomics = [] ∧ t.reds = [] ∧
    (∀ c, c < 1152 → (t.core c).step = 0 ∧ (t.core c).quar = false) ∧
    t.mgmt.slotA = m.slotA ∧ t.mgmt.slotB = m.slotB ∧ t.mgmt.bins = m.bins ∧ t.mgmt.lifeA = m.lifeA ∧ t.mgmt.lifeB = m.lifeB ∧
    t.mgmt.quarRing = m.quarRing ∧ t.mgmt.busy = false
  let boots (s : State) (i : Instr) (m : Mgmt) : Prop := ∃ t, exec i s = .next t ∧ afresh s t m ∧ t.mgmt.powered = true ∧ t.mgmt.active = (imagePick m).1 ∧
    t.mgmt.noImage = t.mgmt.active.isNone ∧ (t.mgmt.active = none → t.mgmt.plimit = 3200) ∧
    ∀ x, t.mgmt.active = some x → t.mgmt.plimit = x.plimit ∧ ∀ c, c < 1152 → bits (t.core c).mgnCtl 3 0 = x.mtarget % 16
  (∀ (s : State), let m := s.mgmt
    (m.powered = true → exec .powerOn s = .next s) ∧
    (m.powered = false → boots s .powerOn { m with bins := newestBins m }) ∧
    (m.lifeA.good = true → m.lifeB.good = false → newestBins m = m.lifeA.bins) ∧ (m.lifeA.good = false → m.lifeB.good = true → newestBins m = m.lifeB.bins) ∧
    let torn : Lifetime := ⟨max m.lifeA.seq m.lifeB.seq + 1, m.bins, false⟩
    let falls : Prop := m.powered = true ∧ (Config.freeValue s.fresh).getLsbD 0 = true
    (∃ t, exec .powerLoss s = .next t ∧ t.mgmt.powered = false ∧ (¬ falls → afresh s t { m with bins := [] }) ∧
      (falls → m.lifeA.seq ≤ m.lifeB.seq → afresh s t { m with bins := [], lifeA := torn }) ∧
      (falls → ¬ m.lifeA.seq ≤ m.lifeB.seq → afresh s t { m with bins := [], lifeB := torn })) ∧
    (∀ a b, m.slotA = some a → m.slotB = some b → a.valid = true → b.valid = true → (imagePick m).1 = some (if a.version < b.version then b else a)) ∧
    (∀ watts temps,
      (m.powered = false → exec (.powerSample watts temps) s = .next s) ∧
      (m.powered = true → (∃ x ∈ temps, 1150 ≤ x) → boots s (.powerSample watts temps) m) ∧
      (m.powered = true → (∀ x ∈ temps, x < 1150) → ∃ t, exec (.powerSample watts temps) s = .next t ∧
        t = { s with mgmt := t.mgmt, fresh := t.fresh } ∧ t.mgmt.watts = watts ∧ (∀ d x, d < 4 → temps[d]? = some x → at_ t.mgmt.temps d 0 = x) ∧
        t.mgmt.holding = decide (m.plimit < watts) ∧ t.mgmt.heldMs = m.heldMs + (if m.holding then 1 else 0))) ∧
    (m.powered = true → ∃ t, exec .lifetimeWrite s = .next t ∧ t = { s with mgmt := t.mgmt } ∧
      let c : Lifetime := ⟨max m.lifeA.seq m.lifeB.seq + 1, t.mgmt.bins, true⟩
      (m.lifeA.seq ≤ m.lifeB.seq → t.mgmt.lifeA = c ∧ t.mgmt.lifeB = m.lifeB) ∧ (¬ m.lifeA.seq ≤ m.lifeB.seq → t.mgmt.lifeB = c ∧ t.mgmt.lifeA = m.lifeA) ∧
      ∀ d x, m.temps = [(d, x)] → let key := 0x10000 + 8 * d + min 7 ((x - 300) / 100)
        at_ t.mgmt.bins key 0 = min (at_ m.bins key 0 + 1) (2 ^ 64 - 1) ∧ ∀ j, j ≠ key → at_ t.mgmt.bins j 0 = at_ m.bins j 0)) ∧
  (∀ (s : State), let m := s.mgmt
    let arg (i : Nat) : Word := at_ m.arg i 0
    let runs (c : Nat) : Prop := m.busy = true ∧ m.cmd.toNat = c ∧ m.powered = true
    let ends (i : Instr) (err : Nat) (P : State → Prop) : Prop := ∃ t, exec i s = .next t ∧ P t ∧ t.mgmt.busy = false ∧ t.mgmt.err = err ∧
      (t.fn 0).msix = (s.fn 0).msix ++ [2]
    let same (t : State) : Prop := t.mem = s.mem ∧ t.cores = s.cores ∧ t.mgmt.plimit = m.plimit ∧ t.mgmt.slotA = m.slotA ∧ t.mgmt.slotB = m.slotB ∧
      t.kernels = s.kernels ∧ ∀ f, (t.fn f).tdisp = (s.fn f).tdisp
    (∀ x ∈ [(1, Instr.telemetry), (2, .powerSet), (3, .coreReset), (4, .history), (5, .imageWrite), (6, .packageReset), (0x10, .stateExport),
      (0x11, .stateImport)], ¬ runs x.1 → exec x.2 s = .next s) ∧
    (runs 1 → ends .telemetry 0 (fun t => same t ∧ at_ t.mgmt.arg 0 0 = BitVec.ofNat 32 m.watts ∧ at_ t.mgmt.arg 1 0 = BitVec.ofNat 32 m.plimit ∧
      (∀ d, d < 4 → at_ t.mgmt.arg (2 + d) 0 = BitVec.ofNat 32 (at_ m.dieWatts d 0) ∧ at_ t.mgmt.arg (6 + d) 0 = BitVec.ofNat 32 (at_ m.temps d 0)) ∧
      at_ t.mgmt.arg 10 0 = BitVec.ofNat 32 m.heldMs)) ∧
    (runs 2 → let w := (arg 0).toNat
      (800 ≤ w ∧ w ≤ 3200 → ends .powerSet 0 (fun t => t.mgmt.plimit = w)) ∧ (¬ (800 ≤ w ∧ w ≤ 3200) → ends .powerSet 2 same)) ∧
    (runs 3 → let core := 24 * bits (arg 0) 10 5 + bits (arg 0) 4 0
      let ok : Prop := bits (arg 0) 10 5 ≤ 47 ∧ bits (arg 0) 4 0 ≤ 23 ∧ (s.core core).quar = true
      (ok → ends .coreReset 0 (fun t => t.core core = { s.core core with quar := false, step := 0 } ∧ ∀ j, j ≠ core → t.core j = s.core j)) ∧
      (¬ ok → ends .coreReset 2 same)) ∧
    let flashFails : Prop := (Config.freeValue s.fresh).getLsbD 0 = true
    (runs 4 → let a := (arg 0).toNat + 2 ^ 32 * (arg 1).toNat
      let n := (arg 2).toNat
      (hostRange a n = true → n ≤ 0x40000 → flashFails → ends .history 4 same) ∧
      (hostRange a n = true → n ≤ 0x40000 → ¬ flashFails → NoCut s → Memory.wf s.mem = true →
        ends .history 0 (fun t => ∀ j, j < n → memGet t.mem (a + j) = lifeByte m.lifeA m.lifeB j)) ∧
      (hostRange a n = false ∨ 0x40000 < n → ends .history 2 same)) ∧
    (runs 5 → let a := (arg 0).toNat + 2 ^ 32 * (arg 1).toNat
      let n := imageSize s a
      let img := imageHeader (physRead s a n)
      (img.valid = true → Config.signed (physRead s a n) = true) ∧
      (hostRange a n = true → img.valid = true → flashFails → ends .imageWrite 4 same) ∧
      (hostRange a n = true → img.valid = true → ¬ flashFails → ends .imageWrite 0 (fun t =>
        if m.inUseB then t.mgmt.slotA = some img ∧ t.mgmt.slotB = m.slotB else t.mgmt.slotB = some img ∧ t.mgmt.slotA = m.slotA)) ∧
      (hostRange a n = false ∨ img.valid = false → ends .imageWrite 2 same)) ∧
    (runs 6 → boots s .packageReset m) ∧
    (runs 0x10 → let v := (arg 0).toNat
      let a := (arg 1).toNat + 2 ^ 32 * (arg 2).toNat
      let x := vfImage s v
      let ps := imagePayloads s x
      let bs := imageBytes s v ps
      let here : Prop := v < 64 ∧ place a ≠ .nowhere
      let vacated : Prop := ∀ g ∈ fnGroups s (v + 1), g.2.saved.isSome = true
      (¬ here → ends .stateExport 2 same) ∧ (here → ¬ vacated → ends .stateExport 5 same) ∧
      (here → vacated → fnBusy s (v + 1) = true → exec .stateExport s = .next s) ∧
      (here → vacated → fnBusy s (v + 1) = false → NoCut s → a + bs.length ≤ devBytes → ends .stateExport 0 (fun t =>
        WroteAt s t a bs.length (ofBytes bs) ∧ t.house.images = s.house.images ++ [(ps.flatMap (·.2), x)]))) ∧
    (runs 0x11 → let f := (arg 0).toNat + 1
      let a := (arg 1).toNat + 2 ^ 32 * (arg 2).toNat
      let x := s.fn f
      (64 < f → ends .stateImport 2 same) ∧ (f ≤ 64 → x.tdisp ≠ 1 → ends .stateImport 5 same) ∧
      (f ≤ 64 → x.tdisp = 1 →
        let loaded := loadCuts s { unit := 1204, part := x.part, asid := x.asid, world := x.world, house := 0 } (2 ^ 24) a
        (∀ q, loaded = .error q → ends .stateImport 0 (fun t => same t ∧ at_ t.mgmt.arg 0 0 = BitVec.ofNat 32 q)) ∧
        (∀ b s1 q, loaded = .ok (b, s1) → checkRecords s1 (2 ^ 24) 1 b = .error q →
          ∃ t, exec .stateImport s = .next t ∧ t.mgmt.busy = false ∧ at_ t.mgmt.arg 0 0 = BitVec.ofNat 32 q ∧ t.kernels = s.kernels) ∧
        (∀ b s1 bs, loaded = .ok (b, s1) → checkRecords s1 (2 ^ 24) 1 b = .ok bs →
          (recordsHold s1 bs = none ∨ ∃ img, recordsHold s1 bs = some img ∧ importTaken s1 (s1.part x.part) img = true) →
          ∃ t, exec .stateImport s = .next t ∧ t.mgmt.busy = false ∧ at_ t.mgmt.arg 0 0 = 1 ∧ t.kernels = s.kernels) ∧
        (∀ b s1 s2 bs img, loaded = .ok (b, s1) → checkRecords s1 (2 ^ 24) 1 b = .ok bs → recordsHold s1 bs = some img →
          importTaken s1 (s1.part x.part) img = false → importState s1 f img = some s2 →
          ∃ t, exec .stateImport s = .next t ∧ t.mgmt.busy = false ∧ at_ t.mgmt.arg 0 0 = 0 ∧ (t.fn f).tdisp = 2 ∧
            ∀ e ∈ img.estate, ∃ y ∈ t.estate, y.die = e.die ∧ y.idx = e.idx ∧ y.kind = e.kind))))

/-- R57 to R72: decoding the bytes of a well-formed instruction's words gives that instruction and the bytes that follow. -/
def Obligations.DecodingInvertsEncoding : Prop :=
  ∀ (i : Instr) (rest : List Byte), i.wf = true → encode i ≠ [] → decode (bytesOfWords (encode i) ++ rest) = .ok (i, rest)

/-- R59 ("so that no encoding has two spellings"), R75: what decodes is a well-formed instruction, and its words are the bytes read. -/
def Obligations.DecodedWordsAreCanonical : Prop :=
  ∀ (i : Instr) (bs rest : List Byte), decode bs = .ok (i, rest) → i.wf = true ∧ encode i ≠ [] ∧ bytesOfWords (encode i) ++ rest = bs

/-- The worked encodings of the spec's chapters on instruction words and on integer and control instructions. -/
def Obligations.WorkedEncodingsDecode : Prop :=
  let g : Hdr := ⟨7, false, false, .none⟩
  let word (w : Nat) : Option Instr := decodeTableWord 64 w
  word 0x0800C02001900E01 = some (.iadd g .s32 false 3 (.reg 2) (.imm 100)) ∧
  word 0x1982002018202EA0 = some (.ffma ⟨7, false, false, .a⟩ .f32 .dflt false 8 (.reg 2) (.reg 3) (.reg 8)) ∧
  word 0x1904202018000EA0 = some (.fmul ⟨7, false, true, .none⟩ .f32 .dflt false 16 (.reg 2) (.reg 3)) ∧
  word 0x1804400020020EA0 = some (.fadd g .f32 .dflt false 17 (.latch 0) (.reg 4)) ∧
  word 0x1300402000000E00 = some (.icmp g .s32 .eq 1 (.reg 2) (.reg 0)) ∧
  word 0x160300A010000E64 = some (.lea g .z64 2 12 (.reg 10) (.reg 2)) ∧
  word 0x1400801000000E00 = some (.vote g (.any 2) 1) ∧
  word 0x1582810000000E60 = some (.sreg g .z64 10 .karg) ∧
  word 0x0300000000001200 = some (.exit ⟨1, true, false, .none⟩) ∧
  word 0x00FFFFFFC0000600 = some (.bra ⟨3, false, false, .none⟩ (BitVec.ofInt 28 (-8))) ∧
  word 0x8102027824050575 = some (.pairIadd ⟨4, 9, 7, .s32⟩ ⟨.fmul, ⟨5, 10, 7, .f32⟩⟩) ∧
  word 0xA102017824050575 = some (.pairIaddImm ⟨4, 5, 7, .s32⟩ ⟨.fmul, ⟨5, 10, 7, .f32⟩⟩) ∧
  word 0x0000000000000E00 = some (.nop g)

/-- R57, R66, R75: a core's turn issues the head of its issue group: the word at its PC is fetched through the page tables with execute
permission, and the instruction it decodes to is executed, the thread the issuer; a word that cannot be fetched, or that a decode check
refuses, traps: 0x03 and 0x04 where the page is absent or not executable, else with the cause of the walk or the check (R352, R357, log 93). R76: where memory's word is no longer the one that stood there when the kernel was accepted, a fetch gives either, and which
is a free value (log 6). The first thread of a group issues no earlier than the core's issue stage is free (R25, R285); a dispatch fault that an
injection has chosen strikes after the last (R287), and a thread that issues keeps no replay count (R284). That a step issues one thread, and that a
timed event whose cycle the turn would pass comes first, is the model's choice (log 1); so is that a core issues first whose thread would starve
(R27, log 2). -/
def Obligations.StepRunsTheDecodedInstruction : Prop :=
  ∀ (s s1 m : State) (c pa : Nat) (t : Tid) (th : Thread) (r : List Tid) (ts : List Turn),
    let co := s.core c
    s.turns = .issue c :: ts → co.slot = t :: r → overdue s (s.cyc + 1) = none →
    (unstarted co = false → s1 = { s with turns := ts }.updCore c (fun x => { x with slot := r })) →
    let begun : State := dropReplays ({ s with turns := ts }.setCyc (max s.cyc (max co.free co.settle))) co.slot
    let busy (x : Core) : Core := { x with slot := r, free := max s.cyc (max co.free co.settle) + 1 }
    (unstarted co = true → co.doom = true → s1 = begun.updCore c busy) →
    (unstarted co = true → co.doom = false → co.mgnInj.getLsbD 63 = false ∧ co.injLeft = 0 ∧
      s1 = begun.updCore c (fun x => { busy x with injSeen := x.injSeen + 1, nrep := 0, mismatch := false })) →
    look s.threads t = some th → th.st = .ready → (s.group t.vgid).saved = none → (s.group t.vgid).stop = none →
    let ctx := (s1.who t).ctx
    let ends (x : State) : Prop :=
      let y := if (x.core c).doom ∧ (x.core c).slot = [] then dispatchFault x c else x
      let starving := starved s (((waited s y.cyc).map (·.1)).getD y.cyc)
      (∀ d, starving = some d → step s = issueCore s d) ∧
      (starving = none → (waited s y.cyc = none → step s = .next y) ∧ ∀ e, waited s y.cyc = some e → step s = doTimed s e)
    let runs (i : Instr) (x : State) : Prop := ∀ y, exec i { x with cur := some t } = .next y → ends { y with cur := none }
    let word (x : State) (pa : Nat) (bs : List Byte) (y : State) : Prop :=
      let old := physRead { x with mem := (s1.who t).k.code } pa 8
      (y = x ∧ bs = physRead x pa 8 ∧ bs = old) ∨
      (y = { x with fresh := x.fresh + 1 } ∧ physRead x pa 8 ≠ old ∧ bs = if (Config.freeValue x.fresh).getLsbD 0 then old else physRead x pa 8)
    let barred (x : State) (cause : Nat) (addr : DWord) (e : TErr) : State :=
      if e.absent then takeTrap x t cause th.pc addr 0 else takeTrap x t e.cause th.pc addr e.info
    (∀ e, translate s1 ctx th.pc.toNat .fetch none = .error e → ends (barred s1 0x03 th.pc e)) ∧
    (∀ lo m0, translate s1 ctx th.pc.toNat .fetch none = .ok (pa, m0) → word m0 pa lo m →
      (isX (BitVec.ofNat 64 (ofBytes lo)) = false →
        (∀ i, decode lo = .ok (i, []) → runs i m) ∧ (∀ e, decode lo = .error e → ends (takeTrap m t 0x01 th.pc 0 e.info))) ∧
      (isX (BitVec.ofNat 64 (ofBytes lo)) = true →
        (∀ e, translate m ctx (th.pc.toNat + 8) .fetch none = .error e → ends (barred m 0x04 (th.pc + 8) e)) ∧
        ∀ pb hi n0 n, translate m ctx (th.pc.toNat + 8) .fetch none = .ok (pb, n0) → word n0 pb hi n →
          (∀ i, decode (lo ++ hi) = .ok (i, []) → runs i n) ∧
          (∀ e, decode (lo ++ hi) = .error e → ends (takeTrap n t 0x01 th.pc 0 e.info))))

/-- R4, R6: memory keeps its canonical form, and HBT counts the whole 128 cycles of CYC, over every step from every state. -/
def Obligations.EveryStepKeepsTheInvariant : Prop := ∀ s t : State, s.Inv → step s = .next t → t.Inv

/-- R436, R423, R319: right after reset device memory is zero and in its canonical form, CYC and HBT are 0, every core is at step 0 and in
service, every function in CONFIG_UNLOCKED, no launch queue is enabled, and no kernel, gang, group or thread exists. -/
def Obligations.ResetState : Prop :=
  let s := State.reset
  s.Inv ∧ (∀ a, a < devBytes → memGet s.mem a = 0) ∧ s.cyc = 0 ∧ s.hbt = 0 ∧
  (∀ c, c < 1152 → (s.core c).step = 0 ∧ (s.core c).quar = false) ∧ (∀ f, f ≤ 64 → (s.fn f).tdisp = 0 ∧ ∀ q, q < 4 → ((s.fn f).queue q).en = false) ∧
  s.kernels = [] ∧ s.gangs = [] ∧ s.groups = [] ∧ s.threads = []
end

