-- ==== Sys2Proof/Laws/Tab.lean ====
section
/-!
SUPPORT. Tables and memory cells: what a read gives after a write, and that every write keeps memory in canonical form.
-/
namespace Sys2Proof.Machine

section
variable {κ α : Type} [DecidableEq κ]

@[simp] theorem look_put_self (t : List (κ × α)) (k : κ) (a : α) : look (put t k a) k = some a := by
  induction t with
  | nil => simp [put, look]
  | cons p r ih => by_cases h : p.1 = k <;> simp [put, look, h, ih]

theorem look_put_ne (t : List (κ × α)) {k x : κ} (a : α) (h : x ≠ k) : look (put t k a) x = look t x := by
  induction t with
  | nil => simp [put, look, h.symm]
  | cons p r ih =>
    by_cases e : p.1 = k
    · simp [put, look, e, h.symm]
    · simp [put, look, e, ih]

theorem look_put (t : List (κ × α)) (k x : κ) (a : α) : look (put t k a) x = if x = k then some a else look t x := by
  by_cases h : x = k
  · simp [h]
  · simp [h, look_put_ne]

@[simp] theorem at_put_self (t : List (κ × α)) (k : κ) (a d : α) : at_ (put t k a) k d = a := by simp [at_]

theorem at_put_ne (t : List (κ × α)) {k x : κ} (a d : α) (h : x ≠ k) : at_ (put t k a) x d = at_ t x d := by
  simp [at_, look_put_ne t a h]

theorem at_put (t : List (κ × α)) (k x : κ) (a d : α) : at_ (put t k a) x d = if x = k then a else at_ t x d := by
  by_cases h : x = k
  · simp [h]
  · simp [h, at_put_ne]

/-- A change of every value by its key leaves a look-up the changed value. -/
theorem look_map (t : List (κ × α)) (f : κ → α → α) (x : κ) :
    look (t.map (fun p => (p.1, f p.1 p.2))) x = (look t x).map (f x) := by
  induction t with
  | nil => rfl
  | cons p r ih =>
    simp only [List.map_cons, look]
    split
    · rename_i e; simp [e]
    · exact ih
end

theorem memGet_memSet_self (m : List Host.Cell) (a : Nat) (v : Byte) (h : memWfFrom 0 m = true) : memGet (memSet m a v) a = v := by
  suffices ∀ lo, memWfFrom lo m = true → memGet (memSet m a v) a = v from this 0 h
  clear h
  induction m with
  | nil => intro lo _; by_cases e : v = unlisted <;> simp [memSet, memGet, e]
  | cons p r ih =>
    obtain ⟨b, c⟩ := p
    intro lo h
    simp only [memWfFrom, Bool.and_eq_true, decide_eq_true_eq] at h
    have none_below : ∀ (r : List Host.Cell) lo x, x < lo → memWfFrom lo r = true → memGet r x = unlisted := by
      intro r
      induction r with
      | nil => intros; rfl
      | cons q t iht =>
        intro lo x hx hw
        obtain ⟨b', c'⟩ := q
        simp only [memWfFrom, Bool.and_eq_true, decide_eq_true_eq] at hw
        have : b' ≠ x := by omega
        simp only [memGet, this, if_false]
        exact iht (b' + 1) x (by omega) hw.2
    simp only [memSet]
    split
    · rename_i hl
      split
      · rename_i e
        have : b ≠ a := by omega
        simp only [memGet, this, if_false, e]
        exact none_below r (b + 1) a (by omega) h.2
      · simp [memGet]
    · split
      · rename_i hl e
        subst e
        split
        · rename_i e2
          rw [e2]
          exact none_below r (a + 1) a (by omega) h.2
        · simp [memGet]
      · rename_i hl e
        have : b ≠ a := fun x => e x.symm
        simp only [memGet, this, if_false]
        exact ih (b + 1) h.2

theorem memGet_memSet_ne (m : List Host.Cell) {a x : Nat} (v : Byte) (h : x ≠ a) : memGet (memSet m a v) x = memGet m x := by
  induction m with
  | nil => by_cases e : v = unlisted <;> simp [memSet, memGet, e, h.symm]
  | cons p r ih =>
    obtain ⟨b, c⟩ := p
    simp only [memSet]
    split
    · split <;> simp [memGet, h.symm]
    · split
      · rename_i e
        subst e
        split <;> simp [memGet, h.symm]
      · simp only [memGet]; split <;> simp [ih]

theorem memSet_wfFrom (m : List Host.Cell) (a : Nat) (v : Byte) (lo : Nat) (hl : lo ≤ a) (h : memWfFrom lo m = true) :
    memWfFrom lo (memSet m a v) = true := by
  induction m generalizing lo with
  | nil => by_cases e : v = unlisted <;> simp [memSet, memWfFrom, e, hl]
  | cons p r ih =>
    obtain ⟨b, c⟩ := p
    simp only [memWfFrom, Bool.and_eq_true, decide_eq_true_eq] at h
    have weaken : ∀ (r : List Host.Cell) x y, x ≤ y → memWfFrom y r = true → memWfFrom x r = true := by
      intro r x y hxy hw
      cases r with
      | nil => rfl
      | cons q t =>
        simp only [memWfFrom, Bool.and_eq_true, decide_eq_true_eq] at hw ⊢
        exact ⟨⟨by omega, hw.1.2⟩, hw.2⟩
    simp only [memSet]
    split
    · rename_i hlt
      split
      · simp [memWfFrom, h]
      · rename_i e
        simp only [memWfFrom, Bool.and_eq_true, decide_eq_true_eq]
        exact ⟨⟨hl, e⟩, ⟨by omega, h.1.2⟩, h.2⟩
    · split
      · rename_i hn e
        subst e
        split
        · exact weaken r lo (a + 1) (by omega) h.2
        · rename_i e2
          simp only [memWfFrom, Bool.and_eq_true, decide_eq_true_eq]
          exact ⟨⟨hl, e2⟩, h.2⟩
      · rename_i hn e
        simp only [memWfFrom, Bool.and_eq_true, decide_eq_true_eq]
        exact ⟨h.1, ih (b + 1) (by omega) h.2⟩

/-- Setting one byte keeps the canonical form. -/
theorem memSet_wf (m : List Host.Cell) (a : Nat) (v : Byte) (h : Memory.wf m = true) : Memory.wf (memSet m a v) = true :=
  memSet_wfFrom m a v 0 (Nat.zero_le a) h

theorem memWrite_wf (m : List Host.Cell) (a : Nat) (bs : List Byte) (h : Memory.wf m = true) : Memory.wf (memWrite m a bs) = true := by
  induction bs generalizing m a with
  | nil => exact h
  | cons b bs ih => exact ih _ _ (memSet_wf m a b h)

/-- Dropping entries keeps the canonical form. -/
theorem filter_wf (m : List Host.Cell) (p : Host.Cell → Bool) (h : Memory.wf m = true) : Memory.wf (m.filter p) = true := by
  have weaken : ∀ (r : List Host.Cell) x y, x ≤ y → memWfFrom y r = true → memWfFrom x r = true := by
    intro r x y hxy hw
    cases r with
    | nil => rfl
    | cons q t =>
      simp only [memWfFrom, Bool.and_eq_true, decide_eq_true_eq] at hw ⊢
      exact ⟨⟨by omega, hw.1.2⟩, hw.2⟩
  suffices ∀ lo, memWfFrom lo m = true → memWfFrom lo (m.filter p) = true from this 0 h
  clear h
  induction m with
  | nil => intro lo _; rfl
  | cons q r ih =>
    obtain ⟨b, c⟩ := q
    intro lo h
    simp only [memWfFrom, Bool.and_eq_true, decide_eq_true_eq] at h
    simp only [List.filter_cons]
    split
    · simp only [memWfFrom, Bool.and_eq_true, decide_eq_true_eq]
      exact ⟨h.1, ih _ h.2⟩
    · exact weaken _ lo (b + 1) (by omega) (ih _ h.2)

end Sys2Proof.Machine
end

