-- ==== Sys2Proof/Laws/State.lean ====
section
/-!
SUPPORT. State: every field after every update, and every accessor after every update.
-/
namespace Sys2Proof.Machine.State

@[simp] theorem setThread_cyc (s : State) (t : Tid) (x : Thread) : (s.setThread t x).cyc = s.cyc := rfl
@[simp] theorem setThread_hbt (s : State) (t : Tid) (x : Thread) : (s.setThread t x).hbt = s.hbt := rfl
@[simp] theorem setThread_mem (s : State) (t : Tid) (x : Thread) : (s.setThread t x).mem = s.mem := rfl
@[simp] theorem setThread_gran (s : State) (t : Tid) (x : Thread) : (s.setThread t x).gran = s.gran := rfl
@[simp] theorem setThread_threads (s : State) (t : Tid) (x : Thread) : (s.setThread t x).threads = put s.threads t x := rfl
@[simp] theorem setThread_groups (s : State) (t : Tid) (x : Thread) : (s.setThread t x).groups = s.groups := rfl
@[simp] theorem setThread_gangs (s : State) (t : Tid) (x : Thread) : (s.setThread t x).gangs = s.gangs := rfl
@[simp] theorem setThread_kernels (s : State) (t : Tid) (x : Thread) : (s.setThread t x).kernels = s.kernels := rfl
@[simp] theorem setThread_cores (s : State) (t : Tid) (x : Thread) : (s.setThread t x).cores = s.cores := rfl
@[simp] theorem setThread_clusters (s : State) (t : Tid) (x : Thread) : (s.setThread t x).clusters = s.clusters := rfl
@[simp] theorem setThread_tlbs (s : State) (t : Tid) (x : Thread) : (s.setThread t x).tlbs = s.tlbs := rfl
@[simp] theorem setThread_loads (s : State) (t : Tid) (x : Thread) : (s.setThread t x).loads = s.loads := rfl
@[simp] theorem setThread_results (s : State) (t : Tid) (x : Thread) : (s.setThread t x).results = s.results := rfl
@[simp] theorem setThread_accs (s : State) (t : Tid) (x : Thread) : (s.setThread t x).accs = s.accs := rfl
@[simp] theorem setThread_mcasts (s : State) (t : Tid) (x : Thread) : (s.setThread t x).mcasts = s.mcasts := rfl
@[simp] theorem setThread_atomics (s : State) (t : Tid) (x : Thread) : (s.setThread t x).atomics = s.atomics := rfl
@[simp] theorem setThread_reds (s : State) (t : Tid) (x : Thread) : (s.setThread t x).reds = s.reds := rfl
@[simp] theorem setThread_holdq (s : State) (t : Tid) (x : Thread) : (s.setThread t x).holdq = s.holdq := rfl
@[simp] theorem setThread_fwd (s : State) (t : Tid) (x : Thread) : (s.setThread t x).fwd = s.fwd := rfl
@[simp] theorem setThread_invs (s : State) (t : Tid) (x : Thread) : (s.setThread t x).invs = s.invs := rfl
@[simp] theorem setThread_pieces (s : State) (t : Tid) (x : Thread) : (s.setThread t x).pieces = s.pieces := rfl
@[simp] theorem setThread_barriers (s : State) (t : Tid) (x : Thread) : (s.setThread t x).barriers = s.barriers := rfl
@[simp] theorem setThread_estate (s : State) (t : Tid) (x : Thread) : (s.setThread t x).estate = s.estate := rfl
@[simp] theorem setThread_ballots (s : State) (t : Tid) (x : Thread) : (s.setThread t x).ballots = s.ballots := rfl
@[simp] theorem setThread_fns (s : State) (t : Tid) (x : Thread) : (s.setThread t x).fns = s.fns := rfl
@[simp] theorem setThread_parts (s : State) (t : Tid) (x : Thread) : (s.setThread t x).parts = s.parts := rfl
@[simp] theorem setThread_retired (s : State) (t : Tid) (x : Thread) : (s.setThread t x).retired = s.retired := rfl
@[simp] theorem setThread_mgmt (s : State) (t : Tid) (x : Thread) : (s.setThread t x).mgmt = s.mgmt := rfl
@[simp] theorem setThread_spdm (s : State) (t : Tid) (x : Thread) : (s.setThread t x).spdm = s.spdm := rfl
@[simp] theorem setThread_house (s : State) (t : Tid) (x : Thread) : (s.setThread t x).house = s.house := rfl
@[simp] theorem setThread_host (s : State) (t : Tid) (x : Thread) : (s.setThread t x).host = s.host := rfl
@[simp] theorem setThread_routes (s : State) (t : Tid) (x : Thread) : (s.setThread t x).routes = s.routes := rfl
@[simp] theorem setThread_turns (s : State) (t : Tid) (x : Thread) : (s.setThread t x).turns = s.turns := rfl
@[simp] theorem setThread_cur (s : State) (t : Tid) (x : Thread) : (s.setThread t x).cur = s.cur := rfl
@[simp] theorem setThread_fresh (s : State) (t : Tid) (x : Thread) : (s.setThread t x).fresh = s.fresh := rfl
@[simp] theorem setThread_nextId (s : State) (t : Tid) (x : Thread) : (s.setThread t x).nextId = s.nextId := rfl
@[simp] theorem setThread_rr (s : State) (t : Tid) (x : Thread) : (s.setThread t x).rr = s.rr := rfl
@[simp] theorem setThread_rot (s : State) (t : Tid) (x : Thread) : (s.setThread t x).rot = s.rot := rfl
@[simp] theorem setThread_due (s : State) (t : Tid) (x : Thread) : (s.setThread t x).due = s.due := rfl
@[simp] theorem setThread_epoch (s : State) (t : Tid) (x : Thread) : (s.setThread t x).epoch = s.epoch := rfl
theorem setThread_at_thread (s : State) (t : Tid) (x : Thread) (z : Tid) : (s.setThread t x).thread z = if z = t then x else s.thread z :=
  at_put _ _ _ _ _
@[simp] theorem setThread_at_thread_self (s : State) (t : Tid) (x : Thread) : (s.setThread t x).thread t = x := at_put_self _ _ _ _
@[simp] theorem setThread_at_group (s : State) (t : Tid) (x : Thread) (z : Nat) : (s.setThread t x).group z = s.group z := rfl
@[simp] theorem setThread_at_gang (s : State) (t : Tid) (x : Thread) (z : Nat) : (s.setThread t x).gang z = s.gang z := rfl
@[simp] theorem setThread_at_kernel (s : State) (t : Tid) (x : Thread) (z : Nat) : (s.setThread t x).kernel z = s.kernel z := rfl
@[simp] theorem setThread_at_core (s : State) (t : Tid) (x : Thread) (z : Nat) : (s.setThread t x).core z = s.core z := rfl
@[simp] theorem setThread_at_cluster (s : State) (t : Tid) (x : Thread) (z : Nat) : (s.setThread t x).cluster z = s.cluster z := rfl
@[simp] theorem setThread_at_fn (s : State) (t : Tid) (x : Thread) (z : Nat) : (s.setThread t x).fn z = s.fn z := rfl
@[simp] theorem setThread_at_part (s : State) (t : Tid) (x : Thread) (z : Nat) : (s.setThread t x).part z = s.part z := rfl

@[simp] theorem updThread_cyc (s : State) (t : Tid) (f : Thread → Thread) : (s.updThread t f).cyc = s.cyc := rfl
@[simp] theorem updThread_hbt (s : State) (t : Tid) (f : Thread → Thread) : (s.updThread t f).hbt = s.hbt := rfl
@[simp] theorem updThread_mem (s : State) (t : Tid) (f : Thread → Thread) : (s.updThread t f).mem = s.mem := rfl
@[simp] theorem updThread_gran (s : State) (t : Tid) (f : Thread → Thread) : (s.updThread t f).gran = s.gran := rfl
@[simp] theorem updThread_threads (s : State) (t : Tid) (f : Thread → Thread) : (s.updThread t f).threads = put s.threads t (f (s.thread t)) := rfl
@[simp] theorem updThread_groups (s : State) (t : Tid) (f : Thread → Thread) : (s.updThread t f).groups = s.groups := rfl
@[simp] theorem updThread_gangs (s : State) (t : Tid) (f : Thread → Thread) : (s.updThread t f).gangs = s.gangs := rfl
@[simp] theorem updThread_kernels (s : State) (t : Tid) (f : Thread → Thread) : (s.updThread t f).kernels = s.kernels := rfl
@[simp] theorem updThread_cores (s : State) (t : Tid) (f : Thread → Thread) : (s.updThread t f).cores = s.cores := rfl
@[simp] theorem updThread_clusters (s : State) (t : Tid) (f : Thread → Thread) : (s.updThread t f).clusters = s.clusters := rfl
@[simp] theorem updThread_tlbs (s : State) (t : Tid) (f : Thread → Thread) : (s.updThread t f).tlbs = s.tlbs := rfl
@[simp] theorem updThread_loads (s : State) (t : Tid) (f : Thread → Thread) : (s.updThread t f).loads = s.loads := rfl
@[simp] theorem updThread_results (s : State) (t : Tid) (f : Thread → Thread) : (s.updThread t f).results = s.results := rfl
@[simp] theorem updThread_accs (s : State) (t : Tid) (f : Thread → Thread) : (s.updThread t f).accs = s.accs := rfl
@[simp] theorem updThread_mcasts (s : State) (t : Tid) (f : Thread → Thread) : (s.updThread t f).mcasts = s.mcasts := rfl
@[simp] theorem updThread_atomics (s : State) (t : Tid) (f : Thread → Thread) : (s.updThread t f).atomics = s.atomics := rfl
@[simp] theorem updThread_reds (s : State) (t : Tid) (f : Thread → Thread) : (s.updThread t f).reds = s.reds := rfl
@[simp] theorem updThread_holdq (s : State) (t : Tid) (f : Thread → Thread) : (s.updThread t f).holdq = s.holdq := rfl
@[simp] theorem updThread_fwd (s : State) (t : Tid) (f : Thread → Thread) : (s.updThread t f).fwd = s.fwd := rfl
@[simp] theorem updThread_invs (s : State) (t : Tid) (f : Thread → Thread) : (s.updThread t f).invs = s.invs := rfl
@[simp] theorem updThread_pieces (s : State) (t : Tid) (f : Thread → Thread) : (s.updThread t f).pieces = s.pieces := rfl
@[simp] theorem updThread_barriers (s : State) (t : Tid) (f : Thread → Thread) : (s.updThread t f).barriers = s.barriers := rfl
@[simp] theorem updThread_estate (s : State) (t : Tid) (f : Thread → Thread) : (s.updThread t f).estate = s.estate := rfl
@[simp] theorem updThread_ballots (s : State) (t : Tid) (f : Thread → Thread) : (s.updThread t f).ballots = s.ballots := rfl
@[simp] theorem updThread_fns (s : State) (t : Tid) (f : Thread → Thread) : (s.updThread t f).fns = s.fns := rfl
@[simp] theorem updThread_parts (s : State) (t : Tid) (f : Thread → Thread) : (s.updThread t f).parts = s.parts := rfl
@[simp] theorem updThread_retired (s : State) (t : Tid) (f : Thread → Thread) : (s.updThread t f).retired = s.retired := rfl
@[simp] theorem updThread_mgmt (s : State) (t : Tid) (f : Thread → Thread) : (s.updThread t f).mgmt = s.mgmt := rfl
@[simp] theorem updThread_spdm (s : State) (t : Tid) (f : Thread → Thread) : (s.updThread t f).spdm = s.spdm := rfl
@[simp] theorem updThread_house (s : State) (t : Tid) (f : Thread → Thread) : (s.updThread t f).house = s.house := rfl
@[simp] theorem updThread_host (s : State) (t : Tid) (f : Thread → Thread) : (s.updThread t f).host = s.host := rfl
@[simp] theorem updThread_routes (s : State) (t : Tid) (f : Thread → Thread) : (s.updThread t f).routes = s.routes := rfl
@[simp] theorem updThread_turns (s : State) (t : Tid) (f : Thread → Thread) : (s.updThread t f).turns = s.turns := rfl
@[simp] theorem updThread_cur (s : State) (t : Tid) (f : Thread → Thread) : (s.updThread t f).cur = s.cur := rfl
@[simp] theorem updThread_fresh (s : State) (t : Tid) (f : Thread → Thread) : (s.updThread t f).fresh = s.fresh := rfl
@[simp] theorem updThread_nextId (s : State) (t : Tid) (f : Thread → Thread) : (s.updThread t f).nextId = s.nextId := rfl
@[simp] theorem updThread_rr (s : State) (t : Tid) (f : Thread → Thread) : (s.updThread t f).rr = s.rr := rfl
@[simp] theorem updThread_rot (s : State) (t : Tid) (f : Thread → Thread) : (s.updThread t f).rot = s.rot := rfl
@[simp] theorem updThread_due (s : State) (t : Tid) (f : Thread → Thread) : (s.updThread t f).due = s.due := rfl
@[simp] theorem updThread_epoch (s : State) (t : Tid) (f : Thread → Thread) : (s.updThread t f).epoch = s.epoch := rfl
theorem updThread_at_thread (s : State) (t : Tid) (f : Thread → Thread) (z : Tid) : (s.updThread t f).thread z = if z = t then f (s.thread t) else s.thread z :=
  at_put _ _ _ _ _
@[simp] theorem updThread_at_thread_self (s : State) (t : Tid) (f : Thread → Thread) : (s.updThread t f).thread t = f (s.thread t) := at_put_self _ _ _ _
@[simp] theorem updThread_at_group (s : State) (t : Tid) (f : Thread → Thread) (z : Nat) : (s.updThread t f).group z = s.group z := rfl
@[simp] theorem updThread_at_gang (s : State) (t : Tid) (f : Thread → Thread) (z : Nat) : (s.updThread t f).gang z = s.gang z := rfl
@[simp] theorem updThread_at_kernel (s : State) (t : Tid) (f : Thread → Thread) (z : Nat) : (s.updThread t f).kernel z = s.kernel z := rfl
@[simp] theorem updThread_at_core (s : State) (t : Tid) (f : Thread → Thread) (z : Nat) : (s.updThread t f).core z = s.core z := rfl
@[simp] theorem updThread_at_cluster (s : State) (t : Tid) (f : Thread → Thread) (z : Nat) : (s.updThread t f).cluster z = s.cluster z := rfl
@[simp] theorem updThread_at_fn (s : State) (t : Tid) (f : Thread → Thread) (z : Nat) : (s.updThread t f).fn z = s.fn z := rfl
@[simp] theorem updThread_at_part (s : State) (t : Tid) (f : Thread → Thread) (z : Nat) : (s.updThread t f).part z = s.part z := rfl

@[simp] theorem mapGroup_cyc (s : State) (v : Nat) (f : Tid → Thread → Thread) : (s.mapGroup v f).cyc = s.cyc := rfl
@[simp] theorem mapGroup_hbt (s : State) (v : Nat) (f : Tid → Thread → Thread) : (s.mapGroup v f).hbt = s.hbt := rfl
@[simp] theorem mapGroup_mem (s : State) (v : Nat) (f : Tid → Thread → Thread) : (s.mapGroup v f).mem = s.mem := rfl
@[simp] theorem mapGroup_gran (s : State) (v : Nat) (f : Tid → Thread → Thread) : (s.mapGroup v f).gran = s.gran := rfl
@[simp] theorem mapGroup_groups (s : State) (v : Nat) (f : Tid → Thread → Thread) : (s.mapGroup v f).groups = s.groups := rfl
@[simp] theorem mapGroup_gangs (s : State) (v : Nat) (f : Tid → Thread → Thread) : (s.mapGroup v f).gangs = s.gangs := rfl
@[simp] theorem mapGroup_kernels (s : State) (v : Nat) (f : Tid → Thread → Thread) : (s.mapGroup v f).kernels = s.kernels := rfl
@[simp] theorem mapGroup_cores (s : State) (v : Nat) (f : Tid → Thread → Thread) : (s.mapGroup v f).cores = s.cores := rfl
@[simp] theorem mapGroup_clusters (s : State) (v : Nat) (f : Tid → Thread → Thread) : (s.mapGroup v f).clusters = s.clusters := rfl
@[simp] theorem mapGroup_tlbs (s : State) (v : Nat) (f : Tid → Thread → Thread) : (s.mapGroup v f).tlbs = s.tlbs := rfl
@[simp] theorem mapGroup_loads (s : State) (v : Nat) (f : Tid → Thread → Thread) : (s.mapGroup v f).loads = s.loads := rfl
@[simp] theorem mapGroup_results (s : State) (v : Nat) (f : Tid → Thread → Thread) : (s.mapGroup v f).results = s.results := rfl
@[simp] theorem mapGroup_accs (s : State) (v : Nat) (f : Tid → Thread → Thread) : (s.mapGroup v f).accs = s.accs := rfl
@[simp] theorem mapGroup_mcasts (s : State) (v : Nat) (f : Tid → Thread → Thread) : (s.mapGroup v f).mcasts = s.mcasts := rfl
@[simp] theorem mapGroup_atomics (s : State) (v : Nat) (f : Tid → Thread → Thread) : (s.mapGroup v f).atomics = s.atomics := rfl
@[simp] theorem mapGroup_reds (s : State) (v : Nat) (f : Tid → Thread → Thread) : (s.mapGroup v f).reds = s.reds := rfl
@[simp] theorem mapGroup_holdq (s : State) (v : Nat) (f : Tid → Thread → Thread) : (s.mapGroup v f).holdq = s.holdq := rfl
@[simp] theorem mapGroup_fwd (s : State) (v : Nat) (f : Tid → Thread → Thread) : (s.mapGroup v f).fwd = s.fwd := rfl
@[simp] theorem mapGroup_invs (s : State) (v : Nat) (f : Tid → Thread → Thread) : (s.mapGroup v f).invs = s.invs := rfl
@[simp] theorem mapGroup_pieces (s : State) (v : Nat) (f : Tid → Thread → Thread) : (s.mapGroup v f).pieces = s.pieces := rfl
@[simp] theorem mapGroup_barriers (s : State) (v : Nat) (f : Tid → Thread → Thread) : (s.mapGroup v f).barriers = s.barriers := rfl
@[simp] theorem mapGroup_estate (s : State) (v : Nat) (f : Tid → Thread → Thread) : (s.mapGroup v f).estate = s.estate := rfl
@[simp] theorem mapGroup_ballots (s : State) (v : Nat) (f : Tid → Thread → Thread) : (s.mapGroup v f).ballots = s.ballots := rfl
@[simp] theorem mapGroup_fns (s : State) (v : Nat) (f : Tid → Thread → Thread) : (s.mapGroup v f).fns = s.fns := rfl
@[simp] theorem mapGroup_parts (s : State) (v : Nat) (f : Tid → Thread → Thread) : (s.mapGroup v f).parts = s.parts := rfl
@[simp] theorem mapGroup_retired (s : State) (v : Nat) (f : Tid → Thread → Thread) : (s.mapGroup v f).retired = s.retired := rfl
@[simp] theorem mapGroup_mgmt (s : State) (v : Nat) (f : Tid → Thread → Thread) : (s.mapGroup v f).mgmt = s.mgmt := rfl
@[simp] theorem mapGroup_spdm (s : State) (v : Nat) (f : Tid → Thread → Thread) : (s.mapGroup v f).spdm = s.spdm := rfl
@[simp] theorem mapGroup_house (s : State) (v : Nat) (f : Tid → Thread → Thread) : (s.mapGroup v f).house = s.house := rfl
@[simp] theorem mapGroup_host (s : State) (v : Nat) (f : Tid → Thread → Thread) : (s.mapGroup v f).host = s.host := rfl
@[simp] theorem mapGroup_routes (s : State) (v : Nat) (f : Tid → Thread → Thread) : (s.mapGroup v f).routes = s.routes := rfl
@[simp] theorem mapGroup_turns (s : State) (v : Nat) (f : Tid → Thread → Thread) : (s.mapGroup v f).turns = s.turns := rfl
@[simp] theorem mapGroup_cur (s : State) (v : Nat) (f : Tid → Thread → Thread) : (s.mapGroup v f).cur = s.cur := rfl
@[simp] theorem mapGroup_fresh (s : State) (v : Nat) (f : Tid → Thread → Thread) : (s.mapGroup v f).fresh = s.fresh := rfl
@[simp] theorem mapGroup_nextId (s : State) (v : Nat) (f : Tid → Thread → Thread) : (s.mapGroup v f).nextId = s.nextId := rfl
@[simp] theorem mapGroup_rr (s : State) (v : Nat) (f : Tid → Thread → Thread) : (s.mapGroup v f).rr = s.rr := rfl
@[simp] theorem mapGroup_rot (s : State) (v : Nat) (f : Tid → Thread → Thread) : (s.mapGroup v f).rot = s.rot := rfl
@[simp] theorem mapGroup_due (s : State) (v : Nat) (f : Tid → Thread → Thread) : (s.mapGroup v f).due = s.due := rfl
@[simp] theorem mapGroup_epoch (s : State) (v : Nat) (f : Tid → Thread → Thread) : (s.mapGroup v f).epoch = s.epoch := rfl
@[simp] theorem mapGroup_at_group (s : State) (v : Nat) (f : Tid → Thread → Thread) (z : Nat) : (s.mapGroup v f).group z = s.group z := rfl
@[simp] theorem mapGroup_at_gang (s : State) (v : Nat) (f : Tid → Thread → Thread) (z : Nat) : (s.mapGroup v f).gang z = s.gang z := rfl
@[simp] theorem mapGroup_at_kernel (s : State) (v : Nat) (f : Tid → Thread → Thread) (z : Nat) : (s.mapGroup v f).kernel z = s.kernel z := rfl
@[simp] theorem mapGroup_at_core (s : State) (v : Nat) (f : Tid → Thread → Thread) (z : Nat) : (s.mapGroup v f).core z = s.core z := rfl
@[simp] theorem mapGroup_at_cluster (s : State) (v : Nat) (f : Tid → Thread → Thread) (z : Nat) : (s.mapGroup v f).cluster z = s.cluster z := rfl
@[simp] theorem mapGroup_at_fn (s : State) (v : Nat) (f : Tid → Thread → Thread) (z : Nat) : (s.mapGroup v f).fn z = s.fn z := rfl
@[simp] theorem mapGroup_at_part (s : State) (v : Nat) (f : Tid → Thread → Thread) (z : Nat) : (s.mapGroup v f).part z = s.part z := rfl

@[simp] theorem updGroup_cyc (s : State) (v : Nat) (f : Group → Group) : (s.updGroup v f).cyc = s.cyc := rfl
@[simp] theorem updGroup_hbt (s : State) (v : Nat) (f : Group → Group) : (s.updGroup v f).hbt = s.hbt := rfl
@[simp] theorem updGroup_mem (s : State) (v : Nat) (f : Group → Group) : (s.updGroup v f).mem = s.mem := rfl
@[simp] theorem updGroup_gran (s : State) (v : Nat) (f : Group → Group) : (s.updGroup v f).gran = s.gran := rfl
@[simp] theorem updGroup_threads (s : State) (v : Nat) (f : Group → Group) : (s.updGroup v f).threads = s.threads := rfl
@[simp] theorem updGroup_groups (s : State) (v : Nat) (f : Group → Group) : (s.updGroup v f).groups = put s.groups v (f (s.group v)) := rfl
@[simp] theorem updGroup_gangs (s : State) (v : Nat) (f : Group → Group) : (s.updGroup v f).gangs = s.gangs := rfl
@[simp] theorem updGroup_kernels (s : State) (v : Nat) (f : Group → Group) : (s.updGroup v f).kernels = s.kernels := rfl
@[simp] theorem updGroup_cores (s : State) (v : Nat) (f : Group → Group) : (s.updGroup v f).cores = s.cores := rfl
@[simp] theorem updGroup_clusters (s : State) (v : Nat) (f : Group → Group) : (s.updGroup v f).clusters = s.clusters := rfl
@[simp] theorem updGroup_tlbs (s : State) (v : Nat) (f : Group → Group) : (s.updGroup v f).tlbs = s.tlbs := rfl
@[simp] theorem updGroup_loads (s : State) (v : Nat) (f : Group → Group) : (s.updGroup v f).loads = s.loads := rfl
@[simp] theorem updGroup_results (s : State) (v : Nat) (f : Group → Group) : (s.updGroup v f).results = s.results := rfl
@[simp] theorem updGroup_accs (s : State) (v : Nat) (f : Group → Group) : (s.updGroup v f).accs = s.accs := rfl
@[simp] theorem updGroup_mcasts (s : State) (v : Nat) (f : Group → Group) : (s.updGroup v f).mcasts = s.mcasts := rfl
@[simp] theorem updGroup_atomics (s : State) (v : Nat) (f : Group → Group) : (s.updGroup v f).atomics = s.atomics := rfl
@[simp] theorem updGroup_reds (s : State) (v : Nat) (f : Group → Group) : (s.updGroup v f).reds = s.reds := rfl
@[simp] theorem updGroup_holdq (s : State) (v : Nat) (f : Group → Group) : (s.updGroup v f).holdq = s.holdq := rfl
@[simp] theorem updGroup_fwd (s : State) (v : Nat) (f : Group → Group) : (s.updGroup v f).fwd = s.fwd := rfl
@[simp] theorem updGroup_invs (s : State) (v : Nat) (f : Group → Group) : (s.updGroup v f).invs = s.invs := rfl
@[simp] theorem updGroup_pieces (s : State) (v : Nat) (f : Group → Group) : (s.updGroup v f).pieces = s.pieces := rfl
@[simp] theorem updGroup_barriers (s : State) (v : Nat) (f : Group → Group) : (s.updGroup v f).barriers = s.barriers := rfl
@[simp] theorem updGroup_estate (s : State) (v : Nat) (f : Group → Group) : (s.updGroup v f).estate = s.estate := rfl
@[simp] theorem updGroup_ballots (s : State) (v : Nat) (f : Group → Group) : (s.updGroup v f).ballots = s.ballots := rfl
@[simp] theorem updGroup_fns (s : State) (v : Nat) (f : Group → Group) : (s.updGroup v f).fns = s.fns := rfl
@[simp] theorem updGroup_parts (s : State) (v : Nat) (f : Group → Group) : (s.updGroup v f).parts = s.parts := rfl
@[simp] theorem updGroup_retired (s : State) (v : Nat) (f : Group → Group) : (s.updGroup v f).retired = s.retired := rfl
@[simp] theorem updGroup_mgmt (s : State) (v : Nat) (f : Group → Group) : (s.updGroup v f).mgmt = s.mgmt := rfl
@[simp] theorem updGroup_spdm (s : State) (v : Nat) (f : Group → Group) : (s.updGroup v f).spdm = s.spdm := rfl
@[simp] theorem updGroup_house (s : State) (v : Nat) (f : Group → Group) : (s.updGroup v f).house = s.house := rfl
@[simp] theorem updGroup_host (s : State) (v : Nat) (f : Group → Group) : (s.updGroup v f).host = s.host := rfl
@[simp] theorem updGroup_routes (s : State) (v : Nat) (f : Group → Group) : (s.updGroup v f).routes = s.routes := rfl
@[simp] theorem updGroup_turns (s : State) (v : Nat) (f : Group → Group) : (s.updGroup v f).turns = s.turns := rfl
@[simp] theorem updGroup_cur (s : State) (v : Nat) (f : Group → Group) : (s.updGroup v f).cur = s.cur := rfl
@[simp] theorem updGroup_fresh (s : State) (v : Nat) (f : Group → Group) : (s.updGroup v f).fresh = s.fresh := rfl
@[simp] theorem updGroup_nextId (s : State) (v : Nat) (f : Group → Group) : (s.updGroup v f).nextId = s.nextId := rfl
@[simp] theorem updGroup_rr (s : State) (v : Nat) (f : Group → Group) : (s.updGroup v f).rr = s.rr := rfl
@[simp] theorem updGroup_rot (s : State) (v : Nat) (f : Group → Group) : (s.updGroup v f).rot = s.rot := rfl
@[simp] theorem updGroup_due (s : State) (v : Nat) (f : Group → Group) : (s.updGroup v f).due = s.due := rfl
@[simp] theorem updGroup_epoch (s : State) (v : Nat) (f : Group → Group) : (s.updGroup v f).epoch = s.epoch := rfl
@[simp] theorem updGroup_at_thread (s : State) (v : Nat) (f : Group → Group) (z : Tid) : (s.updGroup v f).thread z = s.thread z := rfl
theorem updGroup_at_group (s : State) (v : Nat) (f : Group → Group) (z : Nat) : (s.updGroup v f).group z = if z = v then f (s.group v) else s.group z :=
  at_put _ _ _ _ _
@[simp] theorem updGroup_at_group_self (s : State) (v : Nat) (f : Group → Group) : (s.updGroup v f).group v = f (s.group v) := at_put_self _ _ _ _
@[simp] theorem updGroup_at_gang (s : State) (v : Nat) (f : Group → Group) (z : Nat) : (s.updGroup v f).gang z = s.gang z := rfl
@[simp] theorem updGroup_at_kernel (s : State) (v : Nat) (f : Group → Group) (z : Nat) : (s.updGroup v f).kernel z = s.kernel z := rfl
@[simp] theorem updGroup_at_core (s : State) (v : Nat) (f : Group → Group) (z : Nat) : (s.updGroup v f).core z = s.core z := rfl
@[simp] theorem updGroup_at_cluster (s : State) (v : Nat) (f : Group → Group) (z : Nat) : (s.updGroup v f).cluster z = s.cluster z := rfl
@[simp] theorem updGroup_at_fn (s : State) (v : Nat) (f : Group → Group) (z : Nat) : (s.updGroup v f).fn z = s.fn z := rfl
@[simp] theorem updGroup_at_part (s : State) (v : Nat) (f : Group → Group) (z : Nat) : (s.updGroup v f).part z = s.part z := rfl

@[simp] theorem updGang_cyc (s : State) (g : Nat) (f : Gang → Gang) : (s.updGang g f).cyc = s.cyc := rfl
@[simp] theorem updGang_hbt (s : State) (g : Nat) (f : Gang → Gang) : (s.updGang g f).hbt = s.hbt := rfl
@[simp] theorem updGang_mem (s : State) (g : Nat) (f : Gang → Gang) : (s.updGang g f).mem = s.mem := rfl
@[simp] theorem updGang_gran (s : State) (g : Nat) (f : Gang → Gang) : (s.updGang g f).gran = s.gran := rfl
@[simp] theorem updGang_threads (s : State) (g : Nat) (f : Gang → Gang) : (s.updGang g f).threads = s.threads := rfl
@[simp] theorem updGang_groups (s : State) (g : Nat) (f : Gang → Gang) : (s.updGang g f).groups = s.groups := rfl
@[simp] theorem updGang_gangs (s : State) (g : Nat) (f : Gang → Gang) : (s.updGang g f).gangs = put s.gangs g (f (s.gang g)) := rfl
@[simp] theorem updGang_kernels (s : State) (g : Nat) (f : Gang → Gang) : (s.updGang g f).kernels = s.kernels := rfl
@[simp] theorem updGang_cores (s : State) (g : Nat) (f : Gang → Gang) : (s.updGang g f).cores = s.cores := rfl
@[simp] theorem updGang_clusters (s : State) (g : Nat) (f : Gang → Gang) : (s.updGang g f).clusters = s.clusters := rfl
@[simp] theorem updGang_tlbs (s : State) (g : Nat) (f : Gang → Gang) : (s.updGang g f).tlbs = s.tlbs := rfl
@[simp] theorem updGang_loads (s : State) (g : Nat) (f : Gang → Gang) : (s.updGang g f).loads = s.loads := rfl
@[simp] theorem updGang_results (s : State) (g : Nat) (f : Gang → Gang) : (s.updGang g f).results = s.results := rfl
@[simp] theorem updGang_accs (s : State) (g : Nat) (f : Gang → Gang) : (s.updGang g f).accs = s.accs := rfl
@[simp] theorem updGang_mcasts (s : State) (g : Nat) (f : Gang → Gang) : (s.updGang g f).mcasts = s.mcasts := rfl
@[simp] theorem updGang_atomics (s : State) (g : Nat) (f : Gang → Gang) : (s.updGang g f).atomics = s.atomics := rfl
@[simp] theorem updGang_reds (s : State) (g : Nat) (f : Gang → Gang) : (s.updGang g f).reds = s.reds := rfl
@[simp] theorem updGang_holdq (s : State) (g : Nat) (f : Gang → Gang) : (s.updGang g f).holdq = s.holdq := rfl
@[simp] theorem updGang_fwd (s : State) (g : Nat) (f : Gang → Gang) : (s.updGang g f).fwd = s.fwd := rfl
@[simp] theorem updGang_invs (s : State) (g : Nat) (f : Gang → Gang) : (s.updGang g f).invs = s.invs := rfl
@[simp] theorem updGang_pieces (s : State) (g : Nat) (f : Gang → Gang) : (s.updGang g f).pieces = s.pieces := rfl
@[simp] theorem updGang_barriers (s : State) (g : Nat) (f : Gang → Gang) : (s.updGang g f).barriers = s.barriers := rfl
@[simp] theorem updGang_estate (s : State) (g : Nat) (f : Gang → Gang) : (s.updGang g f).estate = s.estate := rfl
@[simp] theorem updGang_ballots (s : State) (g : Nat) (f : Gang → Gang) : (s.updGang g f).ballots = s.ballots := rfl
@[simp] theorem updGang_fns (s : State) (g : Nat) (f : Gang → Gang) : (s.updGang g f).fns = s.fns := rfl
@[simp] theorem updGang_parts (s : State) (g : Nat) (f : Gang → Gang) : (s.updGang g f).parts = s.parts := rfl
@[simp] theorem updGang_retired (s : State) (g : Nat) (f : Gang → Gang) : (s.updGang g f).retired = s.retired := rfl
@[simp] theorem updGang_mgmt (s : State) (g : Nat) (f : Gang → Gang) : (s.updGang g f).mgmt = s.mgmt := rfl
@[simp] theorem updGang_spdm (s : State) (g : Nat) (f : Gang → Gang) : (s.updGang g f).spdm = s.spdm := rfl
@[simp] theorem updGang_house (s : State) (g : Nat) (f : Gang → Gang) : (s.updGang g f).house = s.house := rfl
@[simp] theorem updGang_host (s : State) (g : Nat) (f : Gang → Gang) : (s.updGang g f).host = s.host := rfl
@[simp] theorem updGang_routes (s : State) (g : Nat) (f : Gang → Gang) : (s.updGang g f).routes = s.routes := rfl
@[simp] theorem updGang_turns (s : State) (g : Nat) (f : Gang → Gang) : (s.updGang g f).turns = s.turns := rfl
@[simp] theorem updGang_cur (s : State) (g : Nat) (f : Gang → Gang) : (s.updGang g f).cur = s.cur := rfl
@[simp] theorem updGang_fresh (s : State) (g : Nat) (f : Gang → Gang) : (s.updGang g f).fresh = s.fresh := rfl
@[simp] theorem updGang_nextId (s : State) (g : Nat) (f : Gang → Gang) : (s.updGang g f).nextId = s.nextId := rfl
@[simp] theorem updGang_rr (s : State) (g : Nat) (f : Gang → Gang) : (s.updGang g f).rr = s.rr := rfl
@[simp] theorem updGang_rot (s : State) (g : Nat) (f : Gang → Gang) : (s.updGang g f).rot = s.rot := rfl
@[simp] theorem updGang_due (s : State) (g : Nat) (f : Gang → Gang) : (s.updGang g f).due = s.due := rfl
@[simp] theorem updGang_epoch (s : State) (g : Nat) (f : Gang → Gang) : (s.updGang g f).epoch = s.epoch := rfl
@[simp] theorem updGang_at_thread (s : State) (g : Nat) (f : Gang → Gang) (z : Tid) : (s.updGang g f).thread z = s.thread z := rfl
@[simp] theorem updGang_at_group (s : State) (g : Nat) (f : Gang → Gang) (z : Nat) : (s.updGang g f).group z = s.group z := rfl
theorem updGang_at_gang (s : State) (g : Nat) (f : Gang → Gang) (z : Nat) : (s.updGang g f).gang z = if z = g then f (s.gang g) else s.gang z :=
  at_put _ _ _ _ _
@[simp] theorem updGang_at_gang_self (s : State) (g : Nat) (f : Gang → Gang) : (s.updGang g f).gang g = f (s.gang g) := at_put_self _ _ _ _
@[simp] theorem updGang_at_kernel (s : State) (g : Nat) (f : Gang → Gang) (z : Nat) : (s.updGang g f).kernel z = s.kernel z := rfl
@[simp] theorem updGang_at_core (s : State) (g : Nat) (f : Gang → Gang) (z : Nat) : (s.updGang g f).core z = s.core z := rfl
@[simp] theorem updGang_at_cluster (s : State) (g : Nat) (f : Gang → Gang) (z : Nat) : (s.updGang g f).cluster z = s.cluster z := rfl
@[simp] theorem updGang_at_fn (s : State) (g : Nat) (f : Gang → Gang) (z : Nat) : (s.updGang g f).fn z = s.fn z := rfl
@[simp] theorem updGang_at_part (s : State) (g : Nat) (f : Gang → Gang) (z : Nat) : (s.updGang g f).part z = s.part z := rfl

@[simp] theorem updKernel_cyc (s : State) (k : Nat) (f : Kernel → Kernel) : (s.updKernel k f).cyc = s.cyc := rfl
@[simp] theorem updKernel_hbt (s : State) (k : Nat) (f : Kernel → Kernel) : (s.updKernel k f).hbt = s.hbt := rfl
@[simp] theorem updKernel_mem (s : State) (k : Nat) (f : Kernel → Kernel) : (s.updKernel k f).mem = s.mem := rfl
@[simp] theorem updKernel_gran (s : State) (k : Nat) (f : Kernel → Kernel) : (s.updKernel k f).gran = s.gran := rfl
@[simp] theorem updKernel_threads (s : State) (k : Nat) (f : Kernel → Kernel) : (s.updKernel k f).threads = s.threads := rfl
@[simp] theorem updKernel_groups (s : State) (k : Nat) (f : Kernel → Kernel) : (s.updKernel k f).groups = s.groups := rfl
@[simp] theorem updKernel_gangs (s : State) (k : Nat) (f : Kernel → Kernel) : (s.updKernel k f).gangs = s.gangs := rfl
@[simp] theorem updKernel_kernels (s : State) (k : Nat) (f : Kernel → Kernel) : (s.updKernel k f).kernels = put s.kernels k (f (s.kernel k)) := rfl
@[simp] theorem updKernel_cores (s : State) (k : Nat) (f : Kernel → Kernel) : (s.updKernel k f).cores = s.cores := rfl
@[simp] theorem updKernel_clusters (s : State) (k : Nat) (f : Kernel → Kernel) : (s.updKernel k f).clusters = s.clusters := rfl
@[simp] theorem updKernel_tlbs (s : State) (k : Nat) (f : Kernel → Kernel) : (s.updKernel k f).tlbs = s.tlbs := rfl
@[simp] theorem updKernel_loads (s : State) (k : Nat) (f : Kernel → Kernel) : (s.updKernel k f).loads = s.loads := rfl
@[simp] theorem updKernel_results (s : State) (k : Nat) (f : Kernel → Kernel) : (s.updKernel k f).results = s.results := rfl
@[simp] theorem updKernel_accs (s : State) (k : Nat) (f : Kernel → Kernel) : (s.updKernel k f).accs = s.accs := rfl
@[simp] theorem updKernel_mcasts (s : State) (k : Nat) (f : Kernel → Kernel) : (s.updKernel k f).mcasts = s.mcasts := rfl
@[simp] theorem updKernel_atomics (s : State) (k : Nat) (f : Kernel → Kernel) : (s.updKernel k f).atomics = s.atomics := rfl
@[simp] theorem updKernel_reds (s : State) (k : Nat) (f : Kernel → Kernel) : (s.updKernel k f).reds = s.reds := rfl
@[simp] theorem updKernel_holdq (s : State) (k : Nat) (f : Kernel → Kernel) : (s.updKernel k f).holdq = s.holdq := rfl
@[simp] theorem updKernel_fwd (s : State) (k : Nat) (f : Kernel → Kernel) : (s.updKernel k f).fwd = s.fwd := rfl
@[simp] theorem updKernel_invs (s : State) (k : Nat) (f : Kernel → Kernel) : (s.updKernel k f).invs = s.invs := rfl
@[simp] theorem updKernel_pieces (s : State) (k : Nat) (f : Kernel → Kernel) : (s.updKernel k f).pieces = s.pieces := rfl
@[simp] theorem updKernel_barriers (s : State) (k : Nat) (f : Kernel → Kernel) : (s.updKernel k f).barriers = s.barriers := rfl
@[simp] theorem updKernel_estate (s : State) (k : Nat) (f : Kernel → Kernel) : (s.updKernel k f).estate = s.estate := rfl
@[simp] theorem updKernel_ballots (s : State) (k : Nat) (f : Kernel → Kernel) : (s.updKernel k f).ballots = s.ballots := rfl
@[simp] theorem updKernel_fns (s : State) (k : Nat) (f : Kernel → Kernel) : (s.updKernel k f).fns = s.fns := rfl
@[simp] theorem updKernel_parts (s : State) (k : Nat) (f : Kernel → Kernel) : (s.updKernel k f).parts = s.parts := rfl
@[simp] theorem updKernel_retired (s : State) (k : Nat) (f : Kernel → Kernel) : (s.updKernel k f).retired = s.retired := rfl
@[simp] theorem updKernel_mgmt (s : State) (k : Nat) (f : Kernel → Kernel) : (s.updKernel k f).mgmt = s.mgmt := rfl
@[simp] theorem updKernel_spdm (s : State) (k : Nat) (f : Kernel → Kernel) : (s.updKernel k f).spdm = s.spdm := rfl
@[simp] theorem updKernel_house (s : State) (k : Nat) (f : Kernel → Kernel) : (s.updKernel k f).house = s.house := rfl
@[simp] theorem updKernel_host (s : State) (k : Nat) (f : Kernel → Kernel) : (s.updKernel k f).host = s.host := rfl
@[simp] theorem updKernel_routes (s : State) (k : Nat) (f : Kernel → Kernel) : (s.updKernel k f).routes = s.routes := rfl
@[simp] theorem updKernel_turns (s : State) (k : Nat) (f : Kernel → Kernel) : (s.updKernel k f).turns = s.turns := rfl
@[simp] theorem updKernel_cur (s : State) (k : Nat) (f : Kernel → Kernel) : (s.updKernel k f).cur = s.cur := rfl
@[simp] theorem updKernel_fresh (s : State) (k : Nat) (f : Kernel → Kernel) : (s.updKernel k f).fresh = s.fresh := rfl
@[simp] theorem updKernel_nextId (s : State) (k : Nat) (f : Kernel → Kernel) : (s.updKernel k f).nextId = s.nextId := rfl
@[simp] theorem updKernel_rr (s : State) (k : Nat) (f : Kernel → Kernel) : (s.updKernel k f).rr = s.rr := rfl
@[simp] theorem updKernel_rot (s : State) (k : Nat) (f : Kernel → Kernel) : (s.updKernel k f).rot = s.rot := rfl
@[simp] theorem updKernel_due (s : State) (k : Nat) (f : Kernel → Kernel) : (s.updKernel k f).due = s.due := rfl
@[simp] theorem updKernel_epoch (s : State) (k : Nat) (f : Kernel → Kernel) : (s.updKernel k f).epoch = s.epoch := rfl
@[simp] theorem updKernel_at_thread (s : State) (k : Nat) (f : Kernel → Kernel) (z : Tid) : (s.updKernel k f).thread z = s.thread z := rfl
@[simp] theorem updKernel_at_group (s : State) (k : Nat) (f : Kernel → Kernel) (z : Nat) : (s.updKernel k f).group z = s.group z := rfl
@[simp] theorem updKernel_at_gang (s : State) (k : Nat) (f : Kernel → Kernel) (z : Nat) : (s.updKernel k f).gang z = s.gang z := rfl
theorem updKernel_at_kernel (s : State) (k : Nat) (f : Kernel → Kernel) (z : Nat) : (s.updKernel k f).kernel z = if z = k then f (s.kernel k) else s.kernel z :=
  at_put _ _ _ _ _
@[simp] theorem updKernel_at_kernel_self (s : State) (k : Nat) (f : Kernel → Kernel) : (s.updKernel k f).kernel k = f (s.kernel k) := at_put_self _ _ _ _
@[simp] theorem updKernel_at_core (s : State) (k : Nat) (f : Kernel → Kernel) (z : Nat) : (s.updKernel k f).core z = s.core z := rfl
@[simp] theorem updKernel_at_cluster (s : State) (k : Nat) (f : Kernel → Kernel) (z : Nat) : (s.updKernel k f).cluster z = s.cluster z := rfl
@[simp] theorem updKernel_at_fn (s : State) (k : Nat) (f : Kernel → Kernel) (z : Nat) : (s.updKernel k f).fn z = s.fn z := rfl
@[simp] theorem updKernel_at_part (s : State) (k : Nat) (f : Kernel → Kernel) (z : Nat) : (s.updKernel k f).part z = s.part z := rfl

@[simp] theorem updCore_cyc (s : State) (c : Nat) (f : Core → Core) : (s.updCore c f).cyc = s.cyc := rfl
@[simp] theorem updCore_hbt (s : State) (c : Nat) (f : Core → Core) : (s.updCore c f).hbt = s.hbt := rfl
@[simp] theorem updCore_mem (s : State) (c : Nat) (f : Core → Core) : (s.updCore c f).mem = s.mem := rfl
@[simp] theorem updCore_gran (s : State) (c : Nat) (f : Core → Core) : (s.updCore c f).gran = s.gran := rfl
@[simp] theorem updCore_threads (s : State) (c : Nat) (f : Core → Core) : (s.updCore c f).threads = s.threads := rfl
@[simp] theorem updCore_groups (s : State) (c : Nat) (f : Core → Core) : (s.updCore c f).groups = s.groups := rfl
@[simp] theorem updCore_gangs (s : State) (c : Nat) (f : Core → Core) : (s.updCore c f).gangs = s.gangs := rfl
@[simp] theorem updCore_kernels (s : State) (c : Nat) (f : Core → Core) : (s.updCore c f).kernels = s.kernels := rfl
@[simp] theorem updCore_cores (s : State) (c : Nat) (f : Core → Core) : (s.updCore c f).cores = put s.cores c (f (s.core c)) := rfl
@[simp] theorem updCore_clusters (s : State) (c : Nat) (f : Core → Core) : (s.updCore c f).clusters = s.clusters := rfl
@[simp] theorem updCore_tlbs (s : State) (c : Nat) (f : Core → Core) : (s.updCore c f).tlbs = s.tlbs := rfl
@[simp] theorem updCore_loads (s : State) (c : Nat) (f : Core → Core) : (s.updCore c f).loads = s.loads := rfl
@[simp] theorem updCore_results (s : State) (c : Nat) (f : Core → Core) : (s.updCore c f).results = s.results := rfl
@[simp] theorem updCore_accs (s : State) (c : Nat) (f : Core → Core) : (s.updCore c f).accs = s.accs := rfl
@[simp] theorem updCore_mcasts (s : State) (c : Nat) (f : Core → Core) : (s.updCore c f).mcasts = s.mcasts := rfl
@[simp] theorem updCore_atomics (s : State) (c : Nat) (f : Core → Core) : (s.updCore c f).atomics = s.atomics := rfl
@[simp] theorem updCore_reds (s : State) (c : Nat) (f : Core → Core) : (s.updCore c f).reds = s.reds := rfl
@[simp] theorem updCore_holdq (s : State) (c : Nat) (f : Core → Core) : (s.updCore c f).holdq = s.holdq := rfl
@[simp] theorem updCore_fwd (s : State) (c : Nat) (f : Core → Core) : (s.updCore c f).fwd = s.fwd := rfl
@[simp] theorem updCore_invs (s : State) (c : Nat) (f : Core → Core) : (s.updCore c f).invs = s.invs := rfl
@[simp] theorem updCore_pieces (s : State) (c : Nat) (f : Core → Core) : (s.updCore c f).pieces = s.pieces := rfl
@[simp] theorem updCore_barriers (s : State) (c : Nat) (f : Core → Core) : (s.updCore c f).barriers = s.barriers := rfl
@[simp] theorem updCore_estate (s : State) (c : Nat) (f : Core → Core) : (s.updCore c f).estate = s.estate := rfl
@[simp] theorem updCore_ballots (s : State) (c : Nat) (f : Core → Core) : (s.updCore c f).ballots = s.ballots := rfl
@[simp] theorem updCore_fns (s : State) (c : Nat) (f : Core → Core) : (s.updCore c f).fns = s.fns := rfl
@[simp] theorem updCore_parts (s : State) (c : Nat) (f : Core → Core) : (s.updCore c f).parts = s.parts := rfl
@[simp] theorem updCore_retired (s : State) (c : Nat) (f : Core → Core) : (s.updCore c f).retired = s.retired := rfl
@[simp] theorem updCore_mgmt (s : State) (c : Nat) (f : Core → Core) : (s.updCore c f).mgmt = s.mgmt := rfl
@[simp] theorem updCore_spdm (s : State) (c : Nat) (f : Core → Core) : (s.updCore c f).spdm = s.spdm := rfl
@[simp] theorem updCore_house (s : State) (c : Nat) (f : Core → Core) : (s.updCore c f).house = s.house := rfl
@[simp] theorem updCore_host (s : State) (c : Nat) (f : Core → Core) : (s.updCore c f).host = s.host := rfl
@[simp] theorem updCore_routes (s : State) (c : Nat) (f : Core → Core) : (s.updCore c f).routes = s.routes := rfl
@[simp] theorem updCore_turns (s : State) (c : Nat) (f : Core → Core) : (s.updCore c f).turns = s.turns := rfl
@[simp] theorem updCore_cur (s : State) (c : Nat) (f : Core → Core) : (s.updCore c f).cur = s.cur := rfl
@[simp] theorem updCore_fresh (s : State) (c : Nat) (f : Core → Core) : (s.updCore c f).fresh = s.fresh := rfl
@[simp] theorem updCore_nextId (s : State) (c : Nat) (f : Core → Core) : (s.updCore c f).nextId = s.nextId := rfl
@[simp] theorem updCore_rr (s : State) (c : Nat) (f : Core → Core) : (s.updCore c f).rr = s.rr := rfl
@[simp] theorem updCore_rot (s : State) (c : Nat) (f : Core → Core) : (s.updCore c f).rot = s.rot := rfl
@[simp] theorem updCore_due (s : State) (c : Nat) (f : Core → Core) : (s.updCore c f).due = s.due := rfl
@[simp] theorem updCore_epoch (s : State) (c : Nat) (f : Core → Core) : (s.updCore c f).epoch = s.epoch := rfl
@[simp] theorem updCore_at_thread (s : State) (c : Nat) (f : Core → Core) (z : Tid) : (s.updCore c f).thread z = s.thread z := rfl
@[simp] theorem updCore_at_group (s : State) (c : Nat) (f : Core → Core) (z : Nat) : (s.updCore c f).group z = s.group z := rfl
@[simp] theorem updCore_at_gang (s : State) (c : Nat) (f : Core → Core) (z : Nat) : (s.updCore c f).gang z = s.gang z := rfl
@[simp] theorem updCore_at_kernel (s : State) (c : Nat) (f : Core → Core) (z : Nat) : (s.updCore c f).kernel z = s.kernel z := rfl
theorem updCore_at_core (s : State) (c : Nat) (f : Core → Core) (z : Nat) : (s.updCore c f).core z = if z = c then f (s.core c) else s.core z :=
  at_put _ _ _ _ _
@[simp] theorem updCore_at_core_self (s : State) (c : Nat) (f : Core → Core) : (s.updCore c f).core c = f (s.core c) := at_put_self _ _ _ _
@[simp] theorem updCore_at_cluster (s : State) (c : Nat) (f : Core → Core) (z : Nat) : (s.updCore c f).cluster z = s.cluster z := rfl
@[simp] theorem updCore_at_fn (s : State) (c : Nat) (f : Core → Core) (z : Nat) : (s.updCore c f).fn z = s.fn z := rfl
@[simp] theorem updCore_at_part (s : State) (c : Nat) (f : Core → Core) (z : Nat) : (s.updCore c f).part z = s.part z := rfl

@[simp] theorem updCluster_cyc (s : State) (c : Nat) (f : Cluster → Cluster) : (s.updCluster c f).cyc = s.cyc := rfl
@[simp] theorem updCluster_hbt (s : State) (c : Nat) (f : Cluster → Cluster) : (s.updCluster c f).hbt = s.hbt := rfl
@[simp] theorem updCluster_mem (s : State) (c : Nat) (f : Cluster → Cluster) : (s.updCluster c f).mem = s.mem := rfl
@[simp] theorem updCluster_gran (s : State) (c : Nat) (f : Cluster → Cluster) : (s.updCluster c f).gran = s.gran := rfl
@[simp] theorem updCluster_threads (s : State) (c : Nat) (f : Cluster → Cluster) : (s.updCluster c f).threads = s.threads := rfl
@[simp] theorem updCluster_groups (s : State) (c : Nat) (f : Cluster → Cluster) : (s.updCluster c f).groups = s.groups := rfl
@[simp] theorem updCluster_gangs (s : State) (c : Nat) (f : Cluster → Cluster) : (s.updCluster c f).gangs = s.gangs := rfl
@[simp] theorem updCluster_kernels (s : State) (c : Nat) (f : Cluster → Cluster) : (s.updCluster c f).kernels = s.kernels := rfl
@[simp] theorem updCluster_cores (s : State) (c : Nat) (f : Cluster → Cluster) : (s.updCluster c f).cores = s.cores := rfl
@[simp] theorem updCluster_clusters (s : State) (c : Nat) (f : Cluster → Cluster) : (s.updCluster c f).clusters = put s.clusters c (f (s.cluster c)) := rfl
@[simp] theorem updCluster_tlbs (s : State) (c : Nat) (f : Cluster → Cluster) : (s.updCluster c f).tlbs = s.tlbs := rfl
@[simp] theorem updCluster_loads (s : State) (c : Nat) (f : Cluster → Cluster) : (s.updCluster c f).loads = s.loads := rfl
@[simp] theorem updCluster_results (s : State) (c : Nat) (f : Cluster → Cluster) : (s.updCluster c f).results = s.results := rfl
@[simp] theorem updCluster_accs (s : State) (c : Nat) (f : Cluster → Cluster) : (s.updCluster c f).accs = s.accs := rfl
@[simp] theorem updCluster_mcasts (s : State) (c : Nat) (f : Cluster → Cluster) : (s.updCluster c f).mcasts = s.mcasts := rfl
@[simp] theorem updCluster_atomics (s : State) (c : Nat) (f : Cluster → Cluster) : (s.updCluster c f).atomics = s.atomics := rfl
@[simp] theorem updCluster_reds (s : State) (c : Nat) (f : Cluster → Cluster) : (s.updCluster c f).reds = s.reds := rfl
@[simp] theorem updCluster_holdq (s : State) (c : Nat) (f : Cluster → Cluster) : (s.updCluster c f).holdq = s.holdq := rfl
@[simp] theorem updCluster_fwd (s : State) (c : Nat) (f : Cluster → Cluster) : (s.updCluster c f).fwd = s.fwd := rfl
@[simp] theorem updCluster_invs (s : State) (c : Nat) (f : Cluster → Cluster) : (s.updCluster c f).invs = s.invs := rfl
@[simp] theorem updCluster_pieces (s : State) (c : Nat) (f : Cluster → Cluster) : (s.updCluster c f).pieces = s.pieces := rfl
@[simp] theorem updCluster_barriers (s : State) (c : Nat) (f : Cluster → Cluster) : (s.updCluster c f).barriers = s.barriers := rfl
@[simp] theorem updCluster_estate (s : State) (c : Nat) (f : Cluster → Cluster) : (s.updCluster c f).estate = s.estate := rfl
@[simp] theorem updCluster_ballots (s : State) (c : Nat) (f : Cluster → Cluster) : (s.updCluster c f).ballots = s.ballots := rfl
@[simp] theorem updCluster_fns (s : State) (c : Nat) (f : Cluster → Cluster) : (s.updCluster c f).fns = s.fns := rfl
@[simp] theorem updCluster_parts (s : State) (c : Nat) (f : Cluster → Cluster) : (s.updCluster c f).parts = s.parts := rfl
@[simp] theorem updCluster_retired (s : State) (c : Nat) (f : Cluster → Cluster) : (s.updCluster c f).retired = s.retired := rfl
@[simp] theorem updCluster_mgmt (s : State) (c : Nat) (f : Cluster → Cluster) : (s.updCluster c f).mgmt = s.mgmt := rfl
@[simp] theorem updCluster_spdm (s : State) (c : Nat) (f : Cluster → Cluster) : (s.updCluster c f).spdm = s.spdm := rfl
@[simp] theorem updCluster_house (s : State) (c : Nat) (f : Cluster → Cluster) : (s.updCluster c f).house = s.house := rfl
@[simp] theorem updCluster_host (s : State) (c : Nat) (f : Cluster → Cluster) : (s.updCluster c f).host = s.host := rfl
@[simp] theorem updCluster_routes (s : State) (c : Nat) (f : Cluster → Cluster) : (s.updCluster c f).routes = s.routes := rfl
@[simp] theorem updCluster_turns (s : State) (c : Nat) (f : Cluster → Cluster) : (s.updCluster c f).turns = s.turns := rfl
@[simp] theorem updCluster_cur (s : State) (c : Nat) (f : Cluster → Cluster) : (s.updCluster c f).cur = s.cur := rfl
@[simp] theorem updCluster_fresh (s : State) (c : Nat) (f : Cluster → Cluster) : (s.updCluster c f).fresh = s.fresh := rfl
@[simp] theorem updCluster_nextId (s : State) (c : Nat) (f : Cluster → Cluster) : (s.updCluster c f).nextId = s.nextId := rfl
@[simp] theorem updCluster_rr (s : State) (c : Nat) (f : Cluster → Cluster) : (s.updCluster c f).rr = s.rr := rfl
@[simp] theorem updCluster_rot (s : State) (c : Nat) (f : Cluster → Cluster) : (s.updCluster c f).rot = s.rot := rfl
@[simp] theorem updCluster_due (s : State) (c : Nat) (f : Cluster → Cluster) : (s.updCluster c f).due = s.due := rfl
@[simp] theorem updCluster_epoch (s : State) (c : Nat) (f : Cluster → Cluster) : (s.updCluster c f).epoch = s.epoch := rfl
@[simp] theorem updCluster_at_thread (s : State) (c : Nat) (f : Cluster → Cluster) (z : Tid) : (s.updCluster c f).thread z = s.thread z := rfl
@[simp] theorem updCluster_at_group (s : State) (c : Nat) (f : Cluster → Cluster) (z : Nat) : (s.updCluster c f).group z = s.group z := rfl
@[simp] theorem updCluster_at_gang (s : State) (c : Nat) (f : Cluster → Cluster) (z : Nat) : (s.updCluster c f).gang z = s.gang z := rfl
@[simp] theorem updCluster_at_kernel (s : State) (c : Nat) (f : Cluster → Cluster) (z : Nat) : (s.updCluster c f).kernel z = s.kernel z := rfl
@[simp] theorem updCluster_at_core (s : State) (c : Nat) (f : Cluster → Cluster) (z : Nat) : (s.updCluster c f).core z = s.core z := rfl
theorem updCluster_at_cluster (s : State) (c : Nat) (f : Cluster → Cluster) (z : Nat) : (s.updCluster c f).cluster z = if z = c then f (s.cluster c) else s.cluster z :=
  at_put _ _ _ _ _
@[simp] theorem updCluster_at_cluster_self (s : State) (c : Nat) (f : Cluster → Cluster) : (s.updCluster c f).cluster c = f (s.cluster c) := at_put_self _ _ _ _
@[simp] theorem updCluster_at_fn (s : State) (c : Nat) (f : Cluster → Cluster) (z : Nat) : (s.updCluster c f).fn z = s.fn z := rfl
@[simp] theorem updCluster_at_part (s : State) (c : Nat) (f : Cluster → Cluster) (z : Nat) : (s.updCluster c f).part z = s.part z := rfl

@[simp] theorem updFn_cyc (s : State) (k : Nat) (f : Fn → Fn) : (s.updFn k f).cyc = s.cyc := rfl
@[simp] theorem updFn_hbt (s : State) (k : Nat) (f : Fn → Fn) : (s.updFn k f).hbt = s.hbt := rfl
@[simp] theorem updFn_mem (s : State) (k : Nat) (f : Fn → Fn) : (s.updFn k f).mem = s.mem := rfl
@[simp] theorem updFn_gran (s : State) (k : Nat) (f : Fn → Fn) : (s.updFn k f).gran = s.gran := rfl
@[simp] theorem updFn_threads (s : State) (k : Nat) (f : Fn → Fn) : (s.updFn k f).threads = s.threads := rfl
@[simp] theorem updFn_groups (s : State) (k : Nat) (f : Fn → Fn) : (s.updFn k f).groups = s.groups := rfl
@[simp] theorem updFn_gangs (s : State) (k : Nat) (f : Fn → Fn) : (s.updFn k f).gangs = s.gangs := rfl
@[simp] theorem updFn_kernels (s : State) (k : Nat) (f : Fn → Fn) : (s.updFn k f).kernels = s.kernels := rfl
@[simp] theorem updFn_cores (s : State) (k : Nat) (f : Fn → Fn) : (s.updFn k f).cores = s.cores := rfl
@[simp] theorem updFn_clusters (s : State) (k : Nat) (f : Fn → Fn) : (s.updFn k f).clusters = s.clusters := rfl
@[simp] theorem updFn_tlbs (s : State) (k : Nat) (f : Fn → Fn) : (s.updFn k f).tlbs = s.tlbs := rfl
@[simp] theorem updFn_loads (s : State) (k : Nat) (f : Fn → Fn) : (s.updFn k f).loads = s.loads := rfl
@[simp] theorem updFn_results (s : State) (k : Nat) (f : Fn → Fn) : (s.updFn k f).results = s.results := rfl
@[simp] theorem updFn_accs (s : State) (k : Nat) (f : Fn → Fn) : (s.updFn k f).accs = s.accs := rfl
@[simp] theorem updFn_mcasts (s : State) (k : Nat) (f : Fn → Fn) : (s.updFn k f).mcasts = s.mcasts := rfl
@[simp] theorem updFn_atomics (s : State) (k : Nat) (f : Fn → Fn) : (s.updFn k f).atomics = s.atomics := rfl
@[simp] theorem updFn_reds (s : State) (k : Nat) (f : Fn → Fn) : (s.updFn k f).reds = s.reds := rfl
@[simp] theorem updFn_holdq (s : State) (k : Nat) (f : Fn → Fn) : (s.updFn k f).holdq = s.holdq := rfl
@[simp] theorem updFn_fwd (s : State) (k : Nat) (f : Fn → Fn) : (s.updFn k f).fwd = s.fwd := rfl
@[simp] theorem updFn_invs (s : State) (k : Nat) (f : Fn → Fn) : (s.updFn k f).invs = s.invs := rfl
@[simp] theorem updFn_pieces (s : State) (k : Nat) (f : Fn → Fn) : (s.updFn k f).pieces = s.pieces := rfl
@[simp] theorem updFn_barriers (s : State) (k : Nat) (f : Fn → Fn) : (s.updFn k f).barriers = s.barriers := rfl
@[simp] theorem updFn_estate (s : State) (k : Nat) (f : Fn → Fn) : (s.updFn k f).estate = s.estate := rfl
@[simp] theorem updFn_ballots (s : State) (k : Nat) (f : Fn → Fn) : (s.updFn k f).ballots = s.ballots := rfl
@[simp] theorem updFn_fns (s : State) (k : Nat) (f : Fn → Fn) : (s.updFn k f).fns = put s.fns k (f (s.fn k)) := rfl
@[simp] theorem updFn_parts (s : State) (k : Nat) (f : Fn → Fn) : (s.updFn k f).parts = s.parts := rfl
@[simp] theorem updFn_retired (s : State) (k : Nat) (f : Fn → Fn) : (s.updFn k f).retired = s.retired := rfl
@[simp] theorem updFn_mgmt (s : State) (k : Nat) (f : Fn → Fn) : (s.updFn k f).mgmt = s.mgmt := rfl
@[simp] theorem updFn_spdm (s : State) (k : Nat) (f : Fn → Fn) : (s.updFn k f).spdm = s.spdm := rfl
@[simp] theorem updFn_house (s : State) (k : Nat) (f : Fn → Fn) : (s.updFn k f).house = s.house := rfl
@[simp] theorem updFn_host (s : State) (k : Nat) (f : Fn → Fn) : (s.updFn k f).host = s.host := rfl
@[simp] theorem updFn_routes (s : State) (k : Nat) (f : Fn → Fn) : (s.updFn k f).routes = s.routes := rfl
@[simp] theorem updFn_turns (s : State) (k : Nat) (f : Fn → Fn) : (s.updFn k f).turns = s.turns := rfl
@[simp] theorem updFn_cur (s : State) (k : Nat) (f : Fn → Fn) : (s.updFn k f).cur = s.cur := rfl
@[simp] theorem updFn_fresh (s : State) (k : Nat) (f : Fn → Fn) : (s.updFn k f).fresh = s.fresh := rfl
@[simp] theorem updFn_nextId (s : State) (k : Nat) (f : Fn → Fn) : (s.updFn k f).nextId = s.nextId := rfl
@[simp] theorem updFn_rr (s : State) (k : Nat) (f : Fn → Fn) : (s.updFn k f).rr = s.rr := rfl
@[simp] theorem updFn_rot (s : State) (k : Nat) (f : Fn → Fn) : (s.updFn k f).rot = s.rot := rfl
@[simp] theorem updFn_due (s : State) (k : Nat) (f : Fn → Fn) : (s.updFn k f).due = s.due := rfl
@[simp] theorem updFn_epoch (s : State) (k : Nat) (f : Fn → Fn) : (s.updFn k f).epoch = s.epoch := rfl
@[simp] theorem updFn_at_thread (s : State) (k : Nat) (f : Fn → Fn) (z : Tid) : (s.updFn k f).thread z = s.thread z := rfl
@[simp] theorem updFn_at_group (s : State) (k : Nat) (f : Fn → Fn) (z : Nat) : (s.updFn k f).group z = s.group z := rfl
@[simp] theorem updFn_at_gang (s : State) (k : Nat) (f : Fn → Fn) (z : Nat) : (s.updFn k f).gang z = s.gang z := rfl
@[simp] theorem updFn_at_kernel (s : State) (k : Nat) (f : Fn → Fn) (z : Nat) : (s.updFn k f).kernel z = s.kernel z := rfl
@[simp] theorem updFn_at_core (s : State) (k : Nat) (f : Fn → Fn) (z : Nat) : (s.updFn k f).core z = s.core z := rfl
@[simp] theorem updFn_at_cluster (s : State) (k : Nat) (f : Fn → Fn) (z : Nat) : (s.updFn k f).cluster z = s.cluster z := rfl
theorem updFn_at_fn (s : State) (k : Nat) (f : Fn → Fn) (z : Nat) : (s.updFn k f).fn z = if z = k then f (s.fn k) else s.fn z :=
  at_put _ _ _ _ _
@[simp] theorem updFn_at_fn_self (s : State) (k : Nat) (f : Fn → Fn) : (s.updFn k f).fn k = f (s.fn k) := at_put_self _ _ _ _
@[simp] theorem updFn_at_part (s : State) (k : Nat) (f : Fn → Fn) (z : Nat) : (s.updFn k f).part z = s.part z := rfl

@[simp] theorem updPart_cyc (s : State) (p : Nat) (f : Part → Part) : (s.updPart p f).cyc = s.cyc := rfl
@[simp] theorem updPart_hbt (s : State) (p : Nat) (f : Part → Part) : (s.updPart p f).hbt = s.hbt := rfl
@[simp] theorem updPart_mem (s : State) (p : Nat) (f : Part → Part) : (s.updPart p f).mem = s.mem := rfl
@[simp] theorem updPart_gran (s : State) (p : Nat) (f : Part → Part) : (s.updPart p f).gran = s.gran := rfl
@[simp] theorem updPart_threads (s : State) (p : Nat) (f : Part → Part) : (s.updPart p f).threads = s.threads := rfl
@[simp] theorem updPart_groups (s : State) (p : Nat) (f : Part → Part) : (s.updPart p f).groups = s.groups := rfl
@[simp] theorem updPart_gangs (s : State) (p : Nat) (f : Part → Part) : (s.updPart p f).gangs = s.gangs := rfl
@[simp] theorem updPart_kernels (s : State) (p : Nat) (f : Part → Part) : (s.updPart p f).kernels = s.kernels := rfl
@[simp] theorem updPart_cores (s : State) (p : Nat) (f : Part → Part) : (s.updPart p f).cores = s.cores := rfl
@[simp] theorem updPart_clusters (s : State) (p : Nat) (f : Part → Part) : (s.updPart p f).clusters = s.clusters := rfl
@[simp] theorem updPart_tlbs (s : State) (p : Nat) (f : Part → Part) : (s.updPart p f).tlbs = s.tlbs := rfl
@[simp] theorem updPart_loads (s : State) (p : Nat) (f : Part → Part) : (s.updPart p f).loads = s.loads := rfl
@[simp] theorem updPart_results (s : State) (p : Nat) (f : Part → Part) : (s.updPart p f).results = s.results := rfl
@[simp] theorem updPart_accs (s : State) (p : Nat) (f : Part → Part) : (s.updPart p f).accs = s.accs := rfl
@[simp] theorem updPart_mcasts (s : State) (p : Nat) (f : Part → Part) : (s.updPart p f).mcasts = s.mcasts := rfl
@[simp] theorem updPart_atomics (s : State) (p : Nat) (f : Part → Part) : (s.updPart p f).atomics = s.atomics := rfl
@[simp] theorem updPart_reds (s : State) (p : Nat) (f : Part → Part) : (s.updPart p f).reds = s.reds := rfl
@[simp] theorem updPart_holdq (s : State) (p : Nat) (f : Part → Part) : (s.updPart p f).holdq = s.holdq := rfl
@[simp] theorem updPart_fwd (s : State) (p : Nat) (f : Part → Part) : (s.updPart p f).fwd = s.fwd := rfl
@[simp] theorem updPart_invs (s : State) (p : Nat) (f : Part → Part) : (s.updPart p f).invs = s.invs := rfl
@[simp] theorem updPart_pieces (s : State) (p : Nat) (f : Part → Part) : (s.updPart p f).pieces = s.pieces := rfl
@[simp] theorem updPart_barriers (s : State) (p : Nat) (f : Part → Part) : (s.updPart p f).barriers = s.barriers := rfl
@[simp] theorem updPart_estate (s : State) (p : Nat) (f : Part → Part) : (s.updPart p f).estate = s.estate := rfl
@[simp] theorem updPart_ballots (s : State) (p : Nat) (f : Part → Part) : (s.updPart p f).ballots = s.ballots := rfl
@[simp] theorem updPart_fns (s : State) (p : Nat) (f : Part → Part) : (s.updPart p f).fns = s.fns := rfl
@[simp] theorem updPart_parts (s : State) (p : Nat) (f : Part → Part) : (s.updPart p f).parts = put s.parts p (f (s.part p)) := rfl
@[simp] theorem updPart_retired (s : State) (p : Nat) (f : Part → Part) : (s.updPart p f).retired = s.retired := rfl
@[simp] theorem updPart_mgmt (s : State) (p : Nat) (f : Part → Part) : (s.updPart p f).mgmt = s.mgmt := rfl
@[simp] theorem updPart_spdm (s : State) (p : Nat) (f : Part → Part) : (s.updPart p f).spdm = s.spdm := rfl
@[simp] theorem updPart_house (s : State) (p : Nat) (f : Part → Part) : (s.updPart p f).house = s.house := rfl
@[simp] theorem updPart_host (s : State) (p : Nat) (f : Part → Part) : (s.updPart p f).host = s.host := rfl
@[simp] theorem updPart_routes (s : State) (p : Nat) (f : Part → Part) : (s.updPart p f).routes = s.routes := rfl
@[simp] theorem updPart_turns (s : State) (p : Nat) (f : Part → Part) : (s.updPart p f).turns = s.turns := rfl
@[simp] theorem updPart_cur (s : State) (p : Nat) (f : Part → Part) : (s.updPart p f).cur = s.cur := rfl
@[simp] theorem updPart_fresh (s : State) (p : Nat) (f : Part → Part) : (s.updPart p f).fresh = s.fresh := rfl
@[simp] theorem updPart_nextId (s : State) (p : Nat) (f : Part → Part) : (s.updPart p f).nextId = s.nextId := rfl
@[simp] theorem updPart_rr (s : State) (p : Nat) (f : Part → Part) : (s.updPart p f).rr = s.rr := rfl
@[simp] theorem updPart_rot (s : State) (p : Nat) (f : Part → Part) : (s.updPart p f).rot = s.rot := rfl
@[simp] theorem updPart_due (s : State) (p : Nat) (f : Part → Part) : (s.updPart p f).due = s.due := rfl
@[simp] theorem updPart_epoch (s : State) (p : Nat) (f : Part → Part) : (s.updPart p f).epoch = s.epoch := rfl
@[simp] theorem updPart_at_thread (s : State) (p : Nat) (f : Part → Part) (z : Tid) : (s.updPart p f).thread z = s.thread z := rfl
@[simp] theorem updPart_at_group (s : State) (p : Nat) (f : Part → Part) (z : Nat) : (s.updPart p f).group z = s.group z := rfl
@[simp] theorem updPart_at_gang (s : State) (p : Nat) (f : Part → Part) (z : Nat) : (s.updPart p f).gang z = s.gang z := rfl
@[simp] theorem updPart_at_kernel (s : State) (p : Nat) (f : Part → Part) (z : Nat) : (s.updPart p f).kernel z = s.kernel z := rfl
@[simp] theorem updPart_at_core (s : State) (p : Nat) (f : Part → Part) (z : Nat) : (s.updPart p f).core z = s.core z := rfl
@[simp] theorem updPart_at_cluster (s : State) (p : Nat) (f : Part → Part) (z : Nat) : (s.updPart p f).cluster z = s.cluster z := rfl
@[simp] theorem updPart_at_fn (s : State) (p : Nat) (f : Part → Part) (z : Nat) : (s.updPart p f).fn z = s.fn z := rfl
theorem updPart_at_part (s : State) (p : Nat) (f : Part → Part) (z : Nat) : (s.updPart p f).part z = if z = p then f (s.part p) else s.part z :=
  at_put _ _ _ _ _
@[simp] theorem updPart_at_part_self (s : State) (p : Nat) (f : Part → Part) : (s.updPart p f).part p = f (s.part p) := at_put_self _ _ _ _

@[simp] theorem setCyc_cyc (s : State) (c : Nat) : (s.setCyc c).cyc = c := rfl
@[simp] theorem setCyc_hbt (s : State) (c : Nat) : (s.setCyc c).hbt = c / 128 := rfl
@[simp] theorem setCyc_mem (s : State) (c : Nat) : (s.setCyc c).mem = s.mem := rfl
@[simp] theorem setCyc_gran (s : State) (c : Nat) : (s.setCyc c).gran = s.gran := rfl
@[simp] theorem setCyc_threads (s : State) (c : Nat) : (s.setCyc c).threads = s.threads := rfl
@[simp] theorem setCyc_groups (s : State) (c : Nat) : (s.setCyc c).groups = s.groups := rfl
@[simp] theorem setCyc_gangs (s : State) (c : Nat) : (s.setCyc c).gangs = s.gangs := rfl
@[simp] theorem setCyc_kernels (s : State) (c : Nat) : (s.setCyc c).kernels = s.kernels := rfl
@[simp] theorem setCyc_cores (s : State) (c : Nat) : (s.setCyc c).cores = s.cores := rfl
@[simp] theorem setCyc_clusters (s : State) (c : Nat) : (s.setCyc c).clusters = s.clusters := rfl
@[simp] theorem setCyc_tlbs (s : State) (c : Nat) : (s.setCyc c).tlbs = s.tlbs := rfl
@[simp] theorem setCyc_loads (s : State) (c : Nat) : (s.setCyc c).loads = s.loads := rfl
@[simp] theorem setCyc_results (s : State) (c : Nat) : (s.setCyc c).results = s.results := rfl
@[simp] theorem setCyc_accs (s : State) (c : Nat) : (s.setCyc c).accs = s.accs := rfl
@[simp] theorem setCyc_mcasts (s : State) (c : Nat) : (s.setCyc c).mcasts = s.mcasts := rfl
@[simp] theorem setCyc_atomics (s : State) (c : Nat) : (s.setCyc c).atomics = s.atomics := rfl
@[simp] theorem setCyc_reds (s : State) (c : Nat) : (s.setCyc c).reds = s.reds := rfl
@[simp] theorem setCyc_holdq (s : State) (c : Nat) : (s.setCyc c).holdq = s.holdq := rfl
@[simp] theorem setCyc_fwd (s : State) (c : Nat) : (s.setCyc c).fwd = s.fwd := rfl
@[simp] theorem setCyc_invs (s : State) (c : Nat) : (s.setCyc c).invs = s.invs := rfl
@[simp] theorem setCyc_pieces (s : State) (c : Nat) : (s.setCyc c).pieces = s.pieces := rfl
@[simp] theorem setCyc_barriers (s : State) (c : Nat) : (s.setCyc c).barriers = s.barriers := rfl
@[simp] theorem setCyc_estate (s : State) (c : Nat) : (s.setCyc c).estate = s.estate := rfl
@[simp] theorem setCyc_ballots (s : State) (c : Nat) : (s.setCyc c).ballots = s.ballots := rfl
@[simp] theorem setCyc_fns (s : State) (c : Nat) : (s.setCyc c).fns = s.fns := rfl
@[simp] theorem setCyc_parts (s : State) (c : Nat) : (s.setCyc c).parts = s.parts := rfl
@[simp] theorem setCyc_retired (s : State) (c : Nat) : (s.setCyc c).retired = s.retired := rfl
@[simp] theorem setCyc_mgmt (s : State) (c : Nat) : (s.setCyc c).mgmt = s.mgmt := rfl
@[simp] theorem setCyc_spdm (s : State) (c : Nat) : (s.setCyc c).spdm = s.spdm := rfl
@[simp] theorem setCyc_house (s : State) (c : Nat) : (s.setCyc c).house = s.house := rfl
@[simp] theorem setCyc_host (s : State) (c : Nat) : (s.setCyc c).host = s.host := rfl
@[simp] theorem setCyc_routes (s : State) (c : Nat) : (s.setCyc c).routes = s.routes := rfl
@[simp] theorem setCyc_turns (s : State) (c : Nat) : (s.setCyc c).turns = s.turns := rfl
@[simp] theorem setCyc_cur (s : State) (c : Nat) : (s.setCyc c).cur = s.cur := rfl
@[simp] theorem setCyc_fresh (s : State) (c : Nat) : (s.setCyc c).fresh = s.fresh := rfl
@[simp] theorem setCyc_nextId (s : State) (c : Nat) : (s.setCyc c).nextId = s.nextId := rfl
@[simp] theorem setCyc_rr (s : State) (c : Nat) : (s.setCyc c).rr = s.rr := rfl
@[simp] theorem setCyc_rot (s : State) (c : Nat) : (s.setCyc c).rot = s.rot := rfl
@[simp] theorem setCyc_due (s : State) (c : Nat) : (s.setCyc c).due = s.due := rfl
@[simp] theorem setCyc_epoch (s : State) (c : Nat) : (s.setCyc c).epoch = s.epoch := rfl
@[simp] theorem setCyc_at_thread (s : State) (c : Nat) (z : Tid) : (s.setCyc c).thread z = s.thread z := rfl
@[simp] theorem setCyc_at_group (s : State) (c : Nat) (z : Nat) : (s.setCyc c).group z = s.group z := rfl
@[simp] theorem setCyc_at_gang (s : State) (c : Nat) (z : Nat) : (s.setCyc c).gang z = s.gang z := rfl
@[simp] theorem setCyc_at_kernel (s : State) (c : Nat) (z : Nat) : (s.setCyc c).kernel z = s.kernel z := rfl
@[simp] theorem setCyc_at_core (s : State) (c : Nat) (z : Nat) : (s.setCyc c).core z = s.core z := rfl
@[simp] theorem setCyc_at_cluster (s : State) (c : Nat) (z : Nat) : (s.setCyc c).cluster z = s.cluster z := rfl
@[simp] theorem setCyc_at_fn (s : State) (c : Nat) (z : Nat) : (s.setCyc c).fn z = s.fn z := rfl
@[simp] theorem setCyc_at_part (s : State) (c : Nat) (z : Nat) : (s.setCyc c).part z = s.part z := rfl

end Sys2Proof.Machine.State
end

