-- ==== Sys2Proof/Laws/Regs.lean ====
section
/-!
SUPPORT. Register words: what a write, a tag change and a claim of the words of a resident thread do, and that they do nothing
else.
-/
namespace Sys2Proof.Machine

/-- From `s` to `s'` only register words of `t` that `mine` names have changed, with their check bits, links of `t` and monitors of any thread. -/
structure OnlyRegs (t : Tid) (mine : Nat → Bool) (s s' : State) : Prop where
  machine : s' = { s with threads := s'.threads }
  regs : ∀ x i, ¬(x = t ∧ mine i = true) → regGet s' x i = regGet s x i
  others : ∀ x, x ≠ t → s'.thread x = { s.thread x with monitor := (s'.thread x).monitor }
  own : s'.thread t = { s.thread t with
    monitor := (s'.thread t).monitor, regs := (s'.thread t).regs, links := (s'.thread t).links, ecc := (s'.thread t).ecc }

namespace OnlyRegs

theorem refl (t : Tid) (mine : Nat → Bool) (s : State) : OnlyRegs t mine s s := ⟨rfl, fun _ _ _ => rfl, fun _ _ => rfl, rfl⟩

theorem trans {t : Tid} {m : Nat → Bool} {a b c : State} (h : OnlyRegs t m a b) (g : OnlyRegs t m b c) : OnlyRegs t m a c where
  machine := by rw [g.machine, h.machine]
  regs x i hx := (g.regs x i hx).trans (h.regs x i hx)
  others x hx := by rw [g.others x hx, h.others x hx]
  own := by rw [g.own, h.own]

theorem mono {t : Tid} {m n : Nat → Bool} {a b : State} (h : OnlyRegs t m a b) (hm : ∀ i, m i = true → n i = true) :
    OnlyRegs t n a b where
  machine := h.machine
  regs x i hx := h.regs x i (fun e => hx ⟨e.1, hm i e.2⟩)
  others := h.others
  own := h.own

variable {t : Tid} {m : Nat → Bool} {s s' : State} (h : OnlyRegs t m s s')
include h
theorem group (v : Nat) : s'.group v = s.group v := by rw [h.machine]; rfl
theorem core (v : Nat) : s'.core v = s.core v := by rw [h.machine]; rfl
theorem gang (v : Nat) : s'.gang v = s.gang v := by rw [h.machine]; rfl
theorem kernel (v : Nat) : s'.kernel v = s.kernel v := by rw [h.machine]; rfl
theorem mem : s'.mem = s.mem := by rw [h.machine]
theorem cyc : s'.cyc = s.cyc := by rw [h.machine]
end OnlyRegs

/-- A read of a register of a resident thread. -/
theorem regGet_resident {s : State} {t : Tid} (i : Nat) (h : (s.group t.vgid).saved = none) :
    regGet s t i = if i = 0 then ⟨0, .full⟩ else at_ (s.thread t).regs i {} := by
  simp [regGet, h]

/-- A read depends on the thread's own registers, and, for a saved group, on its image. -/
theorem regGet_congr {s s' : State} {t : Tid} (i : Nat) (hg : s'.group t.vgid = s.group t.vgid)
    (hk : (s'.who t).k = (s.who t).k) (hm : s'.mem = s.mem) (hc : s'.mgmt = s.mgmt)
    (hr : (s'.thread t).regs = (s.thread t).regs) : regGet s' t i = regGet s t i := by
  have hcan : ∀ a, canon s' a = canon s a := by
    intro a
    have hh : s'.houseIndex = s.houseIndex := by simp only [State.houseIndex, hc]
    simp only [canon, State.where_, hh]
  simp only [regGet, hg, hr, hk, imageRead, hm, hcan]

/-- Firing monitors changes nothing else. -/
theorem thread_fire {s : State} (f : Thread → Option Monitor) (x : Tid) :
    (State.thread { s with threads := s.threads.map (fun p => (p.1, { p.2 with monitor := f p.2 })) } x) =
      { s.thread x with monitor := (State.thread { s with threads := s.threads.map (fun p => (p.1, { p.2 with monitor := f p.2 })) } x).monitor } := by
  have := look_map s.threads (fun _ th => { th with monitor := f th }) x
  simp only [State.thread, at_, this]
  cases look s.threads x <;> rfl

/-- The monitor of a thread after a change of a word. -/
def firedBy (t : Tid) (i : Nat) (th : Thread) : Option Monitor :=
  match th.monitor with
  | some m => if m.window && m.owner = t && m.reg = i then some { m with fired := true } else some m
  | none => none

theorem fireWord_eq (s : State) (t : Tid) (i : Nat) :
    fireWord s t i = { s with threads := s.threads.map (fun p => (p.1, { p.2 with monitor := firedBy t i p.2 })) } := by
  simp only [fireWord]
  congr 1
  apply List.map_congr_left
  intro p _
  obtain ⟨a, b⟩ := p
  obtain ⟨st, wait, pc, sys, preds, fcw, la, re, iseq, ready, regs, links, mon, iv, rs, vd, sp, nt⟩ := b
  cases mon with
  | none => rfl
  | some m => simp only [firedBy]; split <;> rfl

theorem fireWord_thread (s : State) (t : Tid) (i : Nat) (x : Tid) :
    (fireWord s t i).thread x = { s.thread x with monitor := ((fireWord s t i).thread x).monitor } := by
  rw [fireWord_eq]; exact thread_fire _ x

theorem fireWord_regGet (s : State) (t : Tid) (i : Nat) (x : Tid) (j : Nat) : regGet (fireWord s t i) x j = regGet s x j := by
  refine regGet_congr j rfl rfl rfl rfl ?_
  rw [fireWord_thread]

theorem onlyRegs_fireWord (s : State) (t : Tid) (i : Nat) (m : Nat → Bool) : OnlyRegs t m s (fireWord s t i) where
  machine := rfl
  regs x j _ := fireWord_regGet s t i x j
  others x _ := fireWord_thread s t i x
  own := by rw [fireWord_thread]

theorem regPut_resident {s : State} {t : Tid} {i : Nat} (w : RegWord) (hi : i ≠ 0) (h : (s.group t.vgid).saved = none) :
    regPut s t i w = s.updThread t (fun th => { th with regs := put th.regs i w, ecc := th.ecc.filter (fun e => e.1 ≠ i) }) := by
  simp [regPut, hi, h]

/-- A changed register file of one resident thread. -/
theorem regGet_updThread {s : State} {t : Tid} (f : Thread → Thread) (x : Tid) (j : Nat) (h : (s.group t.vgid).saved = none)
    (hf : ∀ j, j ≠ 0 → at_ (f (s.thread t)).regs j {} = at_ (s.thread t).regs j {}) :
    regGet (s.updThread t f) x j = regGet s x j := by
  by_cases e : x = t
  · subst e
    rw [regGet_resident j h, regGet_resident j (by simpa using h)]
    by_cases hj : j = 0
    · simp [hj]
    · simpa [hj] using hf j hj
  · refine regGet_congr j rfl rfl rfl rfl ?_
    rw [State.updThread_at_thread]; simp [e]

theorem onlyRegs_regPut {s : State} {t : Tid} {i : Nat} (w : RegWord) (h : (s.group t.vgid).saved = none) :
    OnlyRegs t (fun j => j = i) s (regPut s t i w) := by
  by_cases hi : i = 0
  · subst hi; simp only [regPut]; exact OnlyRegs.refl _ _ _
  · rw [regPut_resident w hi h]
    refine ⟨rfl, ?_, ?_, ?_⟩
    · intro x j hx
      by_cases e : x = t
      · subst e
        have hj : j ≠ i := by intro e; exact hx ⟨rfl, by simp [e]⟩
        rw [regGet_resident j h, regGet_resident j (by simpa using h)]
        simp [at_put_ne _ _ _ hj]
      · refine regGet_congr j rfl rfl rfl rfl ?_
        rw [State.updThread_at_thread]; simp [e]
    · intro x hx
      rw [State.updThread_at_thread]; simp [hx]
    · simp

theorem regGet_regPut_self {s : State} {t : Tid} {i : Nat} (w : RegWord) (hi : i ≠ 0) (h : (s.group t.vgid).saved = none) :
    regGet (regPut s t i w) t i = w := by
  rw [regPut_resident w hi h, regGet_resident i (by simpa using h)]
  simp [hi]

theorem onlyRegs_unlink {s : State} (t : Tid) (i : Nat) (m : Nat → Bool) (h : (s.group t.vgid).saved = none) :
    OnlyRegs t m s (unlink s t i) where
  machine := rfl
  regs x j _ := regGet_updThread _ x j h (fun _ _ => rfl)
  others x hx := by simp only [unlink]; rw [State.updThread_at_thread]; simp [hx]
  own := by simp [unlink]

theorem unlink_regGet {s : State} (t : Tid) (i : Nat) (x : Tid) (j : Nat) (h : (s.group t.vgid).saved = none) :
    regGet (unlink s t i) x j = regGet s x j := regGet_updThread _ x j h (fun _ _ => rfl)

/-- A write of one word (R40): it is FULL with the value, and nothing else changes but links and monitors. -/
theorem onlyRegs_writeWord {s : State} {t : Tid} (i : Nat) (v : Word) (h : (s.group t.vgid).saved = none) :
    OnlyRegs t (fun j => j = i) s (writeWord s t i v) := by
  simp only [writeWord]
  split
  · exact OnlyRegs.refl _ _ _
  · have h1 := onlyRegs_regPut (i := i) ⟨v, .full⟩ h
    have h2 := onlyRegs_unlink (s := regPut s t i ⟨v, .full⟩) t i (fun j => j = i) (by rw [h1.group]; exact h)
    exact (h1.trans h2).trans (onlyRegs_fireWord _ _ _ _)

theorem regGet_writeWord_self {s : State} {t : Tid} {i : Nat} (v : Word) (hi : i ≠ 0) (h : (s.group t.vgid).saved = none) :
    regGet (writeWord s t i v) t i = ⟨v, .full⟩ := by
  have h1 := onlyRegs_regPut (i := i) ⟨v, .full⟩ h
  simp only [writeWord, hi, if_false]
  rw [fireWord_regGet, unlink_regGet _ _ _ _ (by rw [h1.group]; exact h), regGet_regPut_self _ hi h]

theorem onlyRegs_setTag {s : State} {t : Tid} (i : Nat) (g : Tag) (h : (s.group t.vgid).saved = none) :
    OnlyRegs t (fun j => j = i) s (setTag s t i g) := by
  simp only [setTag]
  split
  · exact OnlyRegs.refl _ _ _
  · exact (onlyRegs_regPut (i := i) _ h).trans (onlyRegs_fireWord _ _ _ _)

theorem regGet_setTag_self {s : State} {t : Tid} {i : Nat} (g : Tag) (hi : i ≠ 0) (h : (s.group t.vgid).saved = none) :
    regGet (setTag s t i g) t i = ⟨(regGet s t i).val, g⟩ := by
  simp only [setTag, hi, if_false]
  rw [fireWord_regGet, regGet_regPut_self _ hi h]

/-- A write of consecutive words. -/
theorem onlyRegs_writeWords {s : State} {t : Tid} (i : Nat) (vs : List Word) (h : (s.group t.vgid).saved = none) :
    OnlyRegs t (fun j => decide (i ≤ j) && decide (j < i + vs.length)) s (writeWords s t i vs) := by
  induction vs generalizing s i with
  | nil => exact OnlyRegs.refl _ _ _
  | cons v vs ih =>
    have h1 := onlyRegs_writeWord (s := s) (t := t) i v h
    have h2 := ih (s := writeWord s t i v) (i + 1) (by rw [h1.group]; exact h)
    simp only [writeWords]
    refine (h1.mono ?_).trans (h2.mono ?_) <;> intro j hj <;> simp at hj ⊢ <;> omega

theorem regGet_writeWords {s : State} {t : Tid} (i : Nat) (vs : List Word) (h : (s.group t.vgid).saved = none)
    (j : Nat) (h0 : j ≠ 0) (hj : i ≤ j) (hk : j < i + vs.length) :
    regGet (writeWords s t i vs) t j = ⟨vs.getD (j - i) 0, .full⟩ := by
  induction vs generalizing s i with
  | nil => simp at hk; omega
  | cons v vs ih =>
    have h1 := onlyRegs_writeWord (s := s) (t := t) i v h
    have hs : ((writeWord s t i v).group t.vgid).saved = none := by rw [h1.group]; exact h
    simp only [writeWords]
    by_cases e : j = i
    · subst e
      have h2 := onlyRegs_writeWords (s := writeWord s t j v) (t := t) (j + 1) vs hs
      rw [h2.regs t j (by rw [decide_eq_false (show ¬ j + 1 ≤ j by omega)]; exact fun h => nomatch h.2), regGet_writeWord_self v h0 h]
      simp
    · rw [ih (i + 1) hs (by omega) (by simp at hk; omega)]
      have : j - i = (j - (i + 1)) + 1 := by omega
      simp [this]

/-- A claim of consecutive words (R42). -/
theorem onlyRegs_claimWords {s : State} {t : Tid} (i n : Nat) (h : (s.group t.vgid).saved = none) :
    OnlyRegs t (fun j => decide (i ≤ j) && decide (j < i + n)) s (claimWords s t i n) := by
  induction n generalizing s i with
  | zero => exact OnlyRegs.refl _ _ _
  | succ n ih =>
    have h1 := onlyRegs_setTag (s := s) (t := t) i .pend h
    have h2 := ih (s := setTag s t i .pend) (i + 1) (by rw [h1.group]; exact h)
    simp only [claimWords]
    refine (h1.mono ?_).trans (h2.mono ?_) <;> intro j hj <;> simp at hj ⊢ <;> omega

theorem regGet_claimWords {s : State} {t : Tid} (i n : Nat) (h : (s.group t.vgid).saved = none)
    (j : Nat) (h0 : j ≠ 0) (hj : i ≤ j) (hk : j < i + n) :
    regGet (claimWords s t i n) t j = ⟨(regGet s t j).val, .pend⟩ := by
  induction n generalizing s i with
  | zero => omega
  | succ n ih =>
    have h1 := onlyRegs_setTag (s := s) (t := t) i .pend h
    have hs : ((setTag s t i .pend).group t.vgid).saved = none := by rw [h1.group]; exact h
    simp only [claimWords]
    by_cases e : j = i
    · subst e
      have h2 := onlyRegs_claimWords (s := setTag s t j .pend) (t := t) (j + 1) n hs
      rw [h2.regs t j (by rw [decide_eq_false (show ¬ j + 1 ≤ j by omega)]; exact fun h => nomatch h.2), regGet_setTag_self _ h0 h]
    · rw [ih (i + 1) hs (by omega) (by omega), h1.regs t j (by simp [e])]

/-- A write of an operand (R41, R79). -/
theorem onlyRegs_operandWrite {s : State} {t : Tid} (i : Nat) (vs : List Word) (h : (s.group t.vgid).saved = none) :
    OnlyRegs t (fun j => decide (i ≠ 0) && decide (i ≤ j) && decide (j < i + vs.length)) s (operandWrite s t i vs) := by
  simp only [operandWrite]
  split
  · exact OnlyRegs.refl _ _ _
  · rename_i hi
    exact (onlyRegs_writeWords i vs h).mono (by intro j; simp [hi])

theorem onlyRegs_operandClaim {s : State} {t : Tid} (i n : Nat) (h : (s.group t.vgid).saved = none) :
    OnlyRegs t (fun j => decide (i ≠ 0) && decide (i ≤ j) && decide (j < i + n)) s (operandClaim s t i n) := by
  simp only [operandClaim]
  split
  · exact OnlyRegs.refl _ _ _
  · rename_i hi
    exact (onlyRegs_claimWords i n h).mono (by intro j; simp [hi])

end Sys2Proof.Machine
end

