-- ==== Sys2Proof/Laws/Issue.lean ====
section
/-!
SUPPORT. The issue of an instruction that nothing turns away, and the two ways it gives its result: written at issue, or
claimed and on its way.
-/
namespace Sys2Proof.Machine

theorem takeCancel_none {s : State} {w : Who} (h : w.gang.cancel = none) (b : Bool) : takeCancel s w b = none := by
  simp [takeCancel, h]

theorem cancelPoint_ok {s : State} {w : Who} (h : w.gang.cancel = none) : cancelPoint w s = .ok () := by
  simp [cancelPoint, takeCancel_none h]

/-- The issuer is resident, and what an instruction knows of it is what the state holds. -/
theorem who?_spec {s : State} {w : Who} (h : s.who? = some w) :
    w = s.who w.t ∧ (s.group w.t.vgid).saved = none ∧ s.cur = some w.t := by
  simp only [State.who?] at h
  split at h
  · simp at h
  · rename_i t ht
    split at h
    · simp at h
    · split at h
      · simp at h
      · rename_i hs
        simp only [Option.some.injEq] at h
        subst h
        refine ⟨rfl, ?_, ht⟩
        simp only [Bool.or_eq_true, decide_eq_true_eq, not_or, Bool.not_eq_true] at hs
        have hn : (s.group t.vgid).saved = none := by simpa using hs.2
        exact hn

/-- The end of an instruction: the retained entry, and the account of a sibling. -/
def endIssue (h : Hdr) (u : Use) (w : Who) (s s1 : State) : State :=
  countIssue w (s1.updThread w.t (fun th => { th with retained := retainOf h u w s s1 }))

/-- The issue of an instruction whose body completes (R57, R67, R70). -/
theorem runInstr_ok {h : Hdr} {u : Use} {body : Who → State → Res State} {w : Who} {s s1 : State} (hi : Issues h u w s)
    (hb : body w (advance w u s) = .ok s1) :
    runInstr h u body s = .next (endIssue h u w s s1) := by
  have hc : (if u.cancel = Cancel.always then takeCancel s w false else none) = none := by
    split <;> simp [takeCancel_none hi.noCancel]
  simp only [runInstr, hi.who, issue, hi.checks, hi.guard, hc, hi.free, hi.latches, hi.sound, perform, hb]
  simp [endIssue]

/-- The issue of an instruction whose body stops. -/
theorem runInstr_stop {h : Hdr} {u : Use} {body : Who → State → Res State} {w : Who} {s : State} {x : Stop} (hi : Issues h u w s)
    (hb : body w (advance w u s) = .error x) : runInstr h u body s = .next (stopped h u w s x) := by
  have hc : (if u.cancel = Cancel.always then takeCancel s w false else none) = none := by
    split <;> simp [takeCancel_none hi.noCancel]
  simp only [runInstr, hi.who, issue, hi.checks, hi.guard, hc, hi.free, hi.latches, hi.sound, perform, hb]
  simp

theorem advance_thread (w : Who) (u : Use) (s : State) : (advance w u s).thread w.t = pastThread u s.cyc (s.thread w.t) :=
  at_put_self _ _ _ _

theorem advance_other (w : Who) (u : Use) (s : State) {x : Tid} (h : x ≠ w.t) : (advance w u s).thread x = s.thread x :=
  at_put_ne _ _ _ h

theorem advance_core (w : Who) (u : Use) (s : State) (c : Nat) :
    (advance w u s).core c = { s.core c with free := ((advance w u s).core c).free } := by
  by_cases h : c = w.g.core
  · subst h
    simp only [State.core, advance, at_put_self, holdIssue]
    split <;> rfl
  · simp only [State.core, advance, at_put_ne _ _ _ h]

theorem advance_group (w : Who) (u : Use) (s : State) (v : Nat) : (advance w u s).group v = s.group v := rfl
theorem advance_kernel (w : Who) (u : Use) (s : State) (v : Nat) : (advance w u s).kernel v = s.kernel v := rfl
theorem advance_gang (w : Who) (u : Use) (s : State) (v : Nat) : (advance w u s).gang v = s.gang v := rfl

/-- No register word changes when an instruction issues. -/
theorem advance_regGet (w : Who) (u : Use) (s : State) (x : Tid) (i : Nat) : regGet (advance w u s) x i = regGet s x i := by
  refine regGet_congr i rfl rfl rfl rfl ?_
  by_cases h : x = w.t
  · subst h; rw [advance_thread]; rfl
  · rw [advance_other w u s h]

/-- What a direct access waits for does not change when an instruction issues. -/
theorem advance_ownAccOn (w : Who) (u : Use) (s : State) (x : Tid) (i n : Nat) : ownAccOn (advance w u s) x i n = ownAccOn s x i n := by
  have h : ((advance w u s).thread x).seen = (s.thread x).seen := by
    by_cases e : x = w.t
    · subst e; rw [advance_thread]; rfl
    · rw [advance_other w u s e]
  simp only [ownAccOn, h]
  rfl

theorem endIssue_thread (h : Hdr) (u : Use) (w : Who) (s s1 : State) :
    (endIssue h u w s s1).thread w.t = { s1.thread w.t with retained := retainOf h u w s s1 } := by
  have h0 : ∀ k f, (updSib (s1.updThread w.t (fun th => { th with retained := retainOf h u w s s1 })) k f).thread w.t =
      (s1.updThread w.t (fun th => { th with retained := retainOf h u w s s1 })).thread w.t := fun _ _ => rfl
  simp only [endIssue, countIssue]
  split <;> simp only [h0, State.updThread_at_thread_self]

theorem endIssue_other (h : Hdr) (u : Use) (w : Who) (s s1 : State) {x : Tid} (hx : x ≠ w.t) :
    (endIssue h u w s s1).thread x = s1.thread x := by
  have h0 : ∀ k f, (updSib (s1.updThread w.t (fun th => { th with retained := retainOf h u w s s1 })) k f).thread x =
      (s1.updThread w.t (fun th => { th with retained := retainOf h u w s s1 })).thread x := fun _ _ => rfl
  simp only [endIssue, countIssue]
  split <;> simp [h0, State.updThread_at_thread, hx]

theorem endIssue_gang (h : Hdr) (u : Use) (w : Who) (s s1 : State) (k : Nat) :
    (endIssue h u w s s1).gang k = { s1.gang k with sib := ((endIssue h u w s s1).gang k).sib } := by
  simp only [endIssue, countIssue]
  split
  · simp only [updSib]
    rw [State.updGang_at_gang]
    split
    · rename_i e; rw [e]; rfl
    · rfl
  · rfl

theorem endIssue_group (h : Hdr) (u : Use) (w : Who) (s s1 : State) (v : Nat) : (endIssue h u w s s1).group v = s1.group v := by
  simp only [endIssue, countIssue]
  split <;> rfl

theorem endIssue_core (h : Hdr) (u : Use) (w : Who) (s s1 : State) (c : Nat) : (endIssue h u w s s1).core c = s1.core c := by
  simp only [endIssue, countIssue]
  split <;> rfl

theorem endIssue_machine (h : Hdr) (u : Use) (w : Who) (s s1 : State) :
    endIssue h u w s s1 = { s1 with threads := (endIssue h u w s s1).threads, gangs := (endIssue h u w s s1).gangs } := by
  simp only [endIssue, countIssue]
  split <;> rfl

theorem endIssue_regGet (h : Hdr) (u : Use) (w : Who) (s s1 : State) (x : Tid) (i : Nat) :
    regGet (endIssue h u w s s1) x i = regGet s1 x i := by
  have hg := endIssue_group h u w s s1 x.vgid
  have hm := endIssue_machine h u w s s1
  have hr : ((endIssue h u w s s1).thread x).regs = (s1.thread x).regs := by
    by_cases e : x = w.t
    · subst e; rw [endIssue_thread]
    · rw [endIssue_other h u w s s1 e]
  have hs : ((endIssue h u w s s1).group x.vgid).saved = (s1.group x.vgid).saved := by rw [hg]
  have hk : ((endIssue h u w s s1).who x).k = (s1.who x).k := by
    have hq := endIssue_gang h u w s s1 (s1.group x.vgid).gang
    have h2 : ((endIssue h u w s s1).gang (s1.group x.vgid).gang).kernel = (s1.gang (s1.group x.vgid).gang).kernel := by rw [hq]
    simp only [State.who, hg, h2]
    rw [hm]; rfl
  have hmm : (endIssue h u w s s1).mgmt = s1.mgmt := by rw [hm]
  have hmem : (endIssue h u w s s1).mem = s1.mem := by rw [hm]
  have hcan : ∀ a, canon (endIssue h u w s s1) a = canon s1 a := by
    intro a
    have hh : (endIssue h u w s s1).houseIndex = s1.houseIndex := by simp only [State.houseIndex, hmm]
    simp only [canon, State.where_, hh]
  simp only [regGet, hs, hr, hk, imageRead, hmem, hcan]

/-- The whole of an issue whose own effect on the advanced state is a change of the issuer's registers that `mine` names, of its
latches, its predicates or its control word. -/
theorem rest_of_only {h : Hdr} {u : Use} {w : Who} {s s1 s2 : State} {mine : Nat → Bool}
    (ho : OnlyRegs w.t mine (advance w u s) s1)
    (hm : s2 = { s1 with threads := s2.threads }) (hx : ∀ x, x ≠ w.t → s2.thread x = s1.thread x)
    (hr : (s2.thread w.t).regs = (s1.thread w.t).regs) : Rest w mine s (endIssue h u w s s2) where
  machine := by
    rw [endIssue_machine]
    rw [hm, ho.machine]; rfl
  gangs g := by
    have h2 : s2.gang g = s.gang g := by rw [hm, ho.machine]; rfl
    rw [endIssue_gang, h2]
  cores c := by
    have h2 : s2.core c = (advance w u s).core c := by rw [hm, ho.machine]; rfl
    rw [endIssue_core, h2, advance_core]
  regs x i hxi := by
    rw [endIssue_regGet]
    have h2 : regGet s2 x i = regGet s1 x i := by
      refine regGet_congr i ?_ ?_ ?_ ?_ ?_
      · rw [hm]; rfl
      · rw [hm]; rfl
      · rw [hm]
      · rw [hm]
      · by_cases e : x = w.t
        · rw [e, hr]
        · rw [hx x e]
    rw [h2, ho.regs x i hxi, advance_regGet]
  others x hxx := by
    rw [endIssue_other _ _ _ _ _ hxx, hx x hxx, ho.others x hxx, advance_other w u s hxx]

/-- A latch write touches the issuer's latches alone. -/
theorem setLatch_thread (w : Who) (s : State) (d : Nat) (v : DWord) (b : Bool) :
    (setLatch w s d v b).thread w.t = { s.thread w.t with
      latches := put (s.thread w.t).latches (d % 8)
        ⟨if b then v else (at_ (s.thread w.t).latches (d % 8) {}).val, b, some (w.th.pc, w.th.iseq)⟩ } := by
  simp [setLatch]

theorem setLatch_other (w : Who) (s : State) (d : Nat) (v : DWord) (b : Bool) {x : Tid} (h : x ≠ w.t) :
    (setLatch w s d v b).thread x = s.thread x := by
  simp [setLatch, State.updThread_at_thread, h]

theorem wordsN_length {n : Nat} (v : DWord) (h : n ≤ 2) : (wordsN n v).length = n := by
  simp [wordsN]; omega

theorem wordsN_getD {n j : Nat} (v : DWord) (h : n ≤ 2) (hj : j < n) : (wordsN n v).getD j 0 = wordOf v j := by
  rcases n with _ | _ | _ | n
  · omega
  · obtain rfl : j = 0 := by omega
    rfl
  · rcases j with _ | _ | j
    · rfl
    · rfl
    · omega
  · omega

theorem anyPend_false {s : State} {t : Tid} {i n : Nat} (h : ∀ j, i ≤ j → j < i + n → (regGet s t j).tag ≠ .pend) :
    anyPend (regGets s t i n) = false := by
  have : ∀ (n i : Nat), (∀ j, i ≤ j → j < i + n → (regGet s t j).tag ≠ .pend) → ((upto i n).map (regGet s t)).any (fun w => w.tag == .pend) = false := by
    intro n
    induction n with
    | zero => intros; rfl
    | succ n ih =>
      intro i h
      have h0 : ((regGet s t i).tag == Tag.pend) = false := by simpa using h i (Nat.le_refl _) (by omega)
      simp only [upto, List.map_cons, List.any_cons, h0, Bool.false_or]
      exact ih (i + 1) (fun j hj hk => h j (by omega) (by omega))
  exact this n i h

/-- The destination of an instruction that can be written. -/
theorem writeReg_ok {w : Who} {u : Use} {s : State} {d n : Nat} (v : DWord) (h : DstFree w s d n) :
    writeReg w (advance w u s) d n v = .ok (operandWrite (advance w u s) w.t d (wordsN n v)) := by
  simp only [writeReg]
  by_cases hd : d = 0
  · simp [hd]
  · have : anyPend (regGets (advance w u s) w.t d n) = false := by
      apply anyPend_false
      intro j h1 h2
      rw [advance_regGet]
      exact h.1 j (by simp [inDst, hd, h1, h2])
    have acc : ownAccOn (advance w u s) w.t d n = false := (advance_ownAccOn ..).trans (h.2 hd)
    simp [busy, this, acc]

theorem claim_ok {w : Who} {u : Use} {s : State} {d n : Nat} (h : DstFree w s d n) :
    claim w (advance w u s) d n = .ok (setLatch w (operandClaim (advance w u s) w.t d n) d 0 false) := by
  simp only [claim]
  by_cases hd : d = 0
  · simp [hd]
  · have : anyPend (regGets (advance w u s) w.t d n) = false := by
      apply anyPend_false
      intro j h1 h2
      rw [advance_regGet]
      exact h.1 j (by simp [inDst, hd, h1, h2])
    have acc : ownAccOn (advance w u s) w.t d n = false := (advance_ownAccOn ..).trans (h.2 hd)
    simp [busy, this, acc]

theorem loWord_pairOf (a b : Word) : loWord (pairOf a b) = a := by
  apply BitVec.eq_of_getLsbD_eq
  intro i hi
  have : (b ++ a).getLsbD i = a.getLsbD i := by rw [BitVec.getLsbD_append]; simp [hi]
  simp [loWord, pairOf, hi, this]

/-- An instruction whose body ends in `res` with the value `v` gives it at issue. -/
theorem wroteNow_of_res {h : Hdr} {u : Use} {body : Who → State → Res State} {w : Who} {s : State} {d : BitVec 9} {n : Nat}
    {v : DWord} (hi : Issues h u w s) (hn : n = 1 ∨ n = 2) (hd : h.nw = true ∨ DstFree w s d.toNat n)
    (hb : body w (advance w u s) = res w h (advance w u s) d n v) :
    ∃ t, runInstr h u body s = .next t ∧ WroteNow h d n (nextPc w u.len) v 0 w s t := by
  obtain ⟨hw, hg, -⟩ := who?_spec hi.who
  have hth : s.thread w.t = w.th := (congrArg Who.th hw).symm
  have hga : ((advance w u s).group w.t.vgid).saved = none := hg
  have hn2 : n ≤ 2 := by omega
  -- the state after the register write
  let s1 := if h.nw then advance w u s else operandWrite (advance w u s) w.t d.toNat (wordsN n v)
  have hres : res w h (advance w u s) d n v = .ok (setLatch w s1 d.toNat (if n = 1 then pairOf (loWord v) 0 else v) true) := by
    simp only [res, s1]
    by_cases hnw : h.nw = true
    · simp [hnw, Except.map]
    · have hf : DstFree w s d.toNat n := hd.resolve_left hnw
      simp [hnw, writeReg_ok v hf, Except.map]
  have ho : OnlyRegs w.t (fun i => !h.nw && inDst d.toNat n i) (advance w u s) s1 := by
    simp only [s1]
    split
    · exact OnlyRegs.refl _ _ _
    · rename_i hnw
      refine (onlyRegs_operandWrite d.toNat (wordsN n v) hga).mono ?_
      intro i
      rw [wordsN_length v hn2]
      simp [inDst, hnw]
  refine ⟨_, runInstr_ok hi (hb.trans hres), ?_⟩
  have hown : (s1.thread w.t) = { pastThread u s.cyc w.th with
      monitor := (s1.thread w.t).monitor, regs := (s1.thread w.t).regs, links := (s1.thread w.t).links,
      ecc := (s1.thread w.t).ecc } := by
    have := ho.own
    rw [advance_thread, hth] at this
    exact this
  constructor
  · constructor <;> rw [endIssue_thread, setLatch_thread, hown] <;> rfl
  · intro hnw i hin
    rw [endIssue_regGet]
    have h1 : regGet (setLatch w s1 d.toNat (if n = 1 then pairOf (loWord v) 0 else v) true) w.t i = regGet s1 w.t i := by
      refine regGet_congr i rfl rfl rfl rfl ?_
      rw [setLatch_thread]
    rw [h1]
    simp only [inDst, Bool.and_eq_true, decide_eq_true_eq] at hin
    have hd0 : d.toNat ≠ 0 := hin.1.1
    have hlen := wordsN_length v hn2
    simp only [s1, hnw, operandWrite, hd0]
    rw [← wordsN_getD v hn2 (show i - d.toNat < n by omega)]
    exact regGet_writeWords d.toNat (wordsN n v) hga i (by omega) (by omega) (by omega)
  · rw [endIssue_thread, setLatch_thread]; simp
  · rw [endIssue_thread, setLatch_thread]
    simp only [at_put_self, if_true]
    split
    · exact loWord_pairOf _ _
    · rfl
  · intro h2
    rw [endIssue_thread, setLatch_thread]
    simp [h2]
  · rw [endIssue_thread, setLatch_thread, hown]; rfl
  · rw [endIssue_thread, setLatch_thread, hown]; simp [pastThread]
  · refine rest_of_only ho rfl ?_ ?_
    · intro x hx; exact setLatch_other _ _ _ _ _ hx
    · rw [setLatch_thread]

/-- An instruction whose body claims its destination and leaves the result `v` on its way gives it later. -/
theorem willWrite_of_claim {h : Hdr} {u : Use} {body : Who → State → Res State} {w : Who} {s : State} {d : BitVec 9} {n : Nat}
    {v : DWord} {f : Flags} {fl : Bool} (hi : Issues h u w s) (hd : DstFree w s d.toNat n)
    (hb : body w (advance w u s) = (claim w (advance w u s) d.toNat n).map (fun s1 =>
      pushResult s1 w.t (if d = 0 then [] else numbered d.toNat (wordsN n v)) f fl)) :
    ∃ t, runInstr h u body s = .next t ∧ WillWrite d n u.len v f fl w s t := by
  obtain ⟨hw, hg, -⟩ := who?_spec hi.who
  have hth : s.thread w.t = w.th := (congrArg Who.th hw).symm
  have hga : ((advance w u s).group w.t.vgid).saved = none := hg
  let s1 := operandClaim (advance w u s) w.t d.toNat n
  have ho : OnlyRegs w.t (inDst d.toNat n) (advance w u s) s1 :=
    (onlyRegs_operandClaim d.toNat n hga).mono (fun i h => h)
  have hown : (s1.thread w.t) = { pastThread u s.cyc w.th with
      monitor := (s1.thread w.t).monitor, regs := (s1.thread w.t).regs, links := (s1.thread w.t).links,
      ecc := (s1.thread w.t).ecc } := by
    have := ho.own
    rw [advance_thread, hth] at this
    exact this
  have hres : s1.results = s.results ∧ s1.nextId = s.nextId := by rw [ho.machine]; exact ⟨rfl, rfl⟩
  rw [claim_ok hd] at hb
  refine ⟨_, runInstr_ok hi hb, ?_⟩
  let s2 := setLatch w s1 d.toNat 0 false
  let ws := if d = 0 then [] else numbered d.toNat (wordsN n v)
  have hthr : ∀ x, (pushResult s2 w.t ws f fl).thread x = s2.thread x := fun _ => rfl
  constructor
  · constructor <;> rw [endIssue_thread, hthr, setLatch_thread, hown] <;> rfl
  · intro i hin
    rw [endIssue_regGet]
    have h1 : regGet (pushResult s2 w.t ws f fl) w.t i = regGet s1 w.t i := by
      refine regGet_congr i rfl rfl rfl rfl ?_
      rw [hthr, setLatch_thread]
    rw [h1]
    simp only [inDst, Bool.and_eq_true, decide_eq_true_eq] at hin
    have hd0 : d.toNat ≠ 0 := hin.1.1
    simp only [s1, operandClaim, hd0, if_false]
    rw [regGet_claimWords d.toNat n hga i (by omega) (by omega) (by omega)]
  · rw [endIssue_machine]
    show s1.results ++ [⟨s1.nextId, w.t, ws, f, fl⟩] = _
    rw [hres.1, hres.2]
  · rw [endIssue_thread, hthr, setLatch_thread]; simp
  · rw [endIssue_thread, hthr, setLatch_thread, hown]; rfl
  · rw [endIssue_thread, hthr, setLatch_thread, hown]; rfl
  · have hr : Rest w (inDst d.toNat n) s (endIssue h u w s s2) := by
      refine rest_of_only ho rfl ?_ ?_
      · intro x hx; exact setLatch_other _ _ _ _ _ hx
      · rw [setLatch_thread]
    have he : endIssue h u w s (pushResult s2 w.t ws f fl) = { endIssue h u w s s2 with
        results := (endIssue h u w s (pushResult s2 w.t ws f fl)).results, nextId := s.nextId + 1 } := by
      have e1 : s2.nextId = s.nextId := hres.2
      simp only [endIssue, countIssue, pushResult, State.newId]
      split <;> simp only [e1] <;> rfl
    constructor
    · rw [he]
      conv => lhs; rw [hr.machine]
    · intro v; rw [he]; exact hr.gangs v
    · intro c; rw [he]; exact hr.cores c
    · intro x i hx
      have e1 : regGet (endIssue h u w s (pushResult s2 w.t ws f fl)) x i = regGet (endIssue h u w s s2) x i := by
        rw [he]; exact regGet_congr i rfl rfl rfl rfl rfl
      have e2 : regGet { s with results := (endIssue h u w s (pushResult s2 w.t ws f fl)).results, nextId := s.nextId + 1 } x i = regGet s x i :=
        regGet_congr i rfl rfl rfl rfl rfl
      rw [e1, e2]
      exact hr.regs x i hx
    · intro x hx; rw [he]; exact hr.others x hx

end Sys2Proof.Machine
end

