-- ==== Sys2Proof/Laws/Mem.lean ====
section
/-!
SUPPORT. Every operation that writes memory keeps its canonical form, and changes no part of the machine but those it names.
-/
namespace Sys2Proof.Machine

/-- Memory is in its canonical form. -/
abbrev State.MemOk (s : State) : Prop := Memory.wf s.mem = true

theorem physWriteRaw_machine (s : State) (pa : Nat) (bs : List Byte) : physWriteRaw s pa bs = { s with mem := (physWriteRaw s pa bs).mem } := by
  induction bs generalizing s pa with
  | nil => rfl
  | cons b r ih => rw [physWriteRaw, ih]

theorem physWriteRaw_memOk {s : State} (pa : Nat) (bs : List Byte) (h : s.MemOk) : (physWriteRaw s pa bs).MemOk := by
  induction bs generalizing s pa with
  | nil => exact h
  | cons b r ih => exact ih _ (memSet_wf _ _ _ h)

/-- A write of raw bytes leaves every byte outside them alone. -/
theorem physWriteRaw_frame {s : State} (pa : Nat) (bs : List Byte) {a : Nat} (h : ∀ j, j < bs.length → a ≠ canon s (pa + j)) :
    memGet (physWriteRaw s pa bs).mem a = memGet s.mem a := by
  induction bs generalizing s pa with
  | nil => rfl
  | cons b r ih =>
    rw [physWriteRaw, ih]
    · exact memGet_memSet_ne _ _ (h 0 (by simp))
    · intro j hj
      have := h (j + 1) (by simpa using hj)
      rw [show pa + (j + 1) = pa + 1 + j by omega] at this
      exact this

theorem performPiece_machine (s : State) (pa : Nat) (bs : List Byte) :
    performPiece s pa bs = { s with
      mem := (performPiece s pa bs).mem, gran := (performPiece s pa bs).gran, host := (performPiece s pa bs).host,
      threads := (performPiece s pa bs).threads } := by
  simp only [performPiece, fireGranule, mergeGran]
  rw [physWriteRaw_machine]
  split
  · rfl
  · split <;> rfl

theorem performPiece_memOk {s : State} (pa : Nat) (bs : List Byte) (h : s.MemOk) : (performPiece s pa bs).MemOk := by
  have hr : (physWriteRaw (dropLine s (canon s pa / 64)) pa bs).MemOk := physWriteRaw_memOk _ _ h
  unfold performPiece fireGranule mergeGran
  simp only
  split
  · exact hr
  · split <;> exact hr

theorem performWrite_memOk {s : State} (pa : Nat) (bs : List Byte) (n : Nat) (h : s.MemOk) : (performWrite s pa bs n).MemOk := by
  induction n generalizing s pa bs with
  | zero => exact h
  | succ k ih =>
    unfold performWrite
    split
    · exact h
    · exact ih _ _ (performPiece_memOk _ _ h)

theorem cutClear_memOk {s : State} (a : Nat) (d : Bool) (h : s.MemOk) : (cutClear s a d).MemOk :=
  performWrite_memOk _ _ _ h

theorem cutEnd_memOk {s : State} (p : Nat) (c : Cut) (f : Bool) (h : s.MemOk) : (cutEnd s p c f).MemOk := by
  have hf : ∀ (l : List CutItem) (s : State), s.MemOk → (l.foldl (fun s i => cutClear s i.leafAt false) s).MemOk := by
    intro l
    induction l with
    | nil => exact fun _ h => h
    | cons x r ih => exact fun s hs => ih _ (cutClear_memOk _ _ hs)
  have h1 : (if cutDestOk (s.part p) c.sel (c.dest + c.at_) 64 then performWrite s (c.dest + c.at_) (cutTrailer c f) 3 else s).MemOk := by
    split
    · exact performWrite_memOk _ _ _ h
    · exact h
  unfold cutEnd
  simp only [State.MemOk, State.updPart]
  split
  · exact hf _ _ h1
  · exact h1

theorem poisonGrans_memOk {s : State} (base : Nat) (offs : List Nat) (h : s.MemOk) : (poisonGrans s base offs).MemOk := by
  unfold poisonGrans
  induction offs generalizing s with
  | nil => exact h
  | cons x r ih => exact ih h

/-- Appending a record, done or failed, keeps memory's form. -/
theorem cutAppend_memOk {s : State} (p : Nat) (c : Cut) (k a : Nat) (x : DWord) (bs : List Byte) (h : s.MemOk) :
    (match cutAppend s p c k a x bs with
      | .ok y => y.2
      | .error s1 => s1).MemOk := by
  unfold cutAppend
  simp only
  by_cases hc : cutDestOk (s.part p) c.sel (c.dest + c.at_)
      (recordBytes (if cutEncrypts s p a = true then some (sessionKey s) else none) (c.seqno + 1) k a x bs).length = true
  · rw [if_pos hc]; exact performWrite_memOk _ _ _ h
  · rw [if_neg hc]; exact cutEnd_memOk _ _ _ h

theorem cutCopy_memOk {s : State} (p : Nat) (i : CutItem) (h : s.MemOk) : (cutCopy s p i).MemOk := by
  unfold cutCopy
  split
  · exact h
  · rename_i c _
    split
    · exact cutEnd_memOk _ _ _ h
    · have ha := cutAppend_memOk p c 1 i.asid (BitVec.ofNat 64 i.va) (physRead s i.phys 65536) h
      split
      · rename_i hx
        rw [hx] at ha
        exact ha
      · rename_i hx
        rw [hx] at ha
        have hw : ∀ b l, (poisonGrans _ b l).MemOk := fun b l => poisonGrans_memOk b l ha
        dsimp only
        split
        · apply cutEnd_memOk
          split
          · exact cutClear_memOk _ _ (hw _ _)
          · exact hw _ _
        · simp only [State.MemOk, State.updPart]
          split
          · exact cutClear_memOk _ _ (hw _ _)
          · exact hw _ _

/-- Performing a write, whatever a cut still owes, keeps memory's form. -/
theorem performBytes_memOk {s : State} (pa : Nat) (bs : List Byte) (h : s.MemOk) : (performBytes s pa bs).MemOk := by
  have hf : ∀ (l : List (Nat × CutItem)) (s : State), s.MemOk → (l.foldl (fun s x => cutCopy s x.1 x.2) s).MemOk := by
    intro l
    induction l with
    | nil => exact fun _ h => h
    | cons x r ih => exact fun s hs => ih _ (cutCopy_memOk _ _ hs)
  exact performWrite_memOk _ _ _ (hf _ _ h)

/-- A register word written or retagged keeps memory's form: a saved group's words stand in its save area. -/
theorem regPut_memOk {s : State} (t : Tid) (i : Nat) (w : RegWord) (h : s.MemOk) : (regPut s t i w).MemOk := by
  unfold regPut
  split
  · exact h
  · split
    · exact h
    · exact performBytes_memOk _ _ (performBytes_memOk _ _ h)

/-- Memory right after reset. -/
theorem reset_memOk : State.reset.MemOk := rfl

end Sys2Proof.Machine
end

