-- ==== Sys2Proof/Laws/Place.lean ====
section
/-!
SUPPORT. Laws of placement: a sorted list holds what the list held, a group of one layer fits on a core that has a free base word on
its lowest lanes, and a cluster with such a core seats a gang of one group.
-/
namespace Sys2Proof.Laws
open Sys2Proof Sys2Proof.Machine

theorem mem_insertBy {α : Type} (le : α → α → Bool) (x y : α) : ∀ l : List α, y ∈ insertBy le x l ↔ y = x ∨ y ∈ l
  | [] => by simp [insertBy]
  | z :: r => by
    unfold insertBy
    split
    · simp
    · simp only [List.mem_cons, mem_insertBy le x y r]
      constructor
      · rintro (h | h | h) <;> simp [h]
      · rintro (h | h | h) <;> simp [h]

theorem mem_sortBy {α : Type} (le : α → α → Bool) (y : α) : ∀ l : List α, y ∈ sortBy le l ↔ y ∈ l
  | [] => by simp [sortBy]
  | x :: r => by simp [sortBy, mem_insertBy, mem_sortBy le y r]

/-- The base words a layer of a group may take on the lowest lanes. -/
def freeBases (s : State) (core : Nat) (k : Kernel) : List Nat := basesFree (spans s core) 0 k.width k.nw

theorem fitOn_isSome {s : State} {core : Nat} {k : Kernel} (hd : k.depth = 1) (hw : k.width ≤ 64) (hp : 0 < k.width) (h : freeBases s core k ≠ []) :
    (fitOn s core k).isSome = true := by
  have h1 : 0 < 64 / k.width := Nat.div_pos hw hp
  unfold fitOn
  rw [List.findSome?_isSome_iff]
  refine ⟨0, ?_, ?_⟩
  · obtain ⟨n, hn⟩ := Nat.exists_eq_succ_of_ne_zero (Nat.ne_of_gt h1)
    rw [hn]; simp [upto]
  · rw [hd]
    simp only [Nat.mul_zero, basesAt]
    have hl : 0 < (freeBases s core k).length := List.length_pos_iff.mpr h
    have hi := Nat.mod_lt (Config.freeValue s.fresh).toNat hl
    have he : (freeBases s core k)[(Config.freeValue s.fresh).toNat % (freeBases s core k).length]? = some _ := List.getElem?_eq_getElem hi
    unfold freeBases at he
    simp [he]

theorem bestCore_isSome {s : State} {cl : Nat} {k : Kernel} {ok : Nat → Bool} (c : Nat) (hc : c ∈ upto (24 * cl) 24) (ho : (coreOpen s c && ok c) = true)
    (h : (fitOn s c k).isSome = true) : (bestCore s cl k ok).isSome = true := by
  unfold bestCore
  simp only
  rw [List.findSome?_isSome_iff]
  refine ⟨c, ?_, by simpa using h⟩
  rw [mem_sortBy, List.mem_filter]
  exact ⟨hc, ho⟩

theorem trySeat_isSome {s s1 m0 : State} {n v : Nat} (ht : (clusterOk s (s.kernel (s.gang n).kernel) (s.gang n).cl &&
    atticFits s (clusterDie (s.gang n).cl) (s.kernel (s.gang n).kernel)) = true) (hg : gangGroups s n = some (s1, [v]))
    (hi : giveInbox s1 (s.kernel (s.gang n).kernel) v = some m0)
    (h : (bestCore m0 (s.gang n).cl (s.kernel (s.gang n).kernel) (fun c => slotsFit m0 c (s.kernel (s.gang n).kernel))).isSome = true) :
    ∃ m, trySeat s n = some (m, [v]) := by
  obtain ⟨⟨c, l, b⟩, hb⟩ := Option.isSome_iff_exists.mp h
  simp only [Bool.and_eq_true] at ht
  simp [trySeat, ht.1, ht.2, hg, seatAll, hi, hb]

end Sys2Proof.Laws
end

