-- ==== Sys2Proof/Tests/Slice0.lean ====
section
/-!
SUPPORT. Tests: words written out from the spec's encodings decode to what they stand for; ill-formed terms are refused; the hypotheses
of the statements are met.
-/
namespace Sys2Proof.Tests
open Sys2Proof Sys2Proof.Machine
set_option Elab.async false

/-- A full-form word from its fields (R58): MAJOR, DST, SRCA, SRCB, SRCC, MINOR; N, the three L bits, RETAIN, PINV with PIDX. -/
def w (major dst a b c minor : Nat) (n : Nat := 0) (l : Nat := 0) (ret : Nat := 0) (guard : Nat := 7) : Nat :=
  major * 2 ^ 55 + dst * 2 ^ 46 + n * 2 ^ 45 + a * 2 ^ 36 + b * 2 ^ 27 + c * 2 ^ 18 + l * 2 ^ 15 + ret * 2 ^ 13 + guard * 2 ^ 9 + minor

/-- A word of the FI sub-form (R63): its immediate in bits [35:18]. -/
def fi (major dst a imm minor : Nat) : Nat := w major dst a 0 0 minor + imm * 2 ^ 18

/-- A pair word (R71): POP, DST, SRC, TYPE of each half, the first guarded by p1 and the second unguarded. -/
def pr (p1 d1 s1 t1 p2 d2 s2 t2 : Nat) : Nat :=
  let half (p d s g t : Nat) : Nat := p * 2 ^ 25 + d * 2 ^ 16 + s * 2 ^ 7 + g * 2 ^ 4 + t
  2 ^ 63 + half p1 d1 s1 1 t1 * 2 ^ 31 + half p2 d2 s2 7 t2

/-- The header of an unguarded word. -/
abbrev g : Hdr := ⟨7, false, false, .none⟩

/-- Every word of a list decodes to its instruction. -/
def decodes (l : List (Nat × Instr)) : Bool := l.all (fun p => decodeTableWord 64 p.1 = some p.2)
/-- The same for words with an extension word (R65). -/
def decodesX (l : List (Nat × Nat × Instr)) : Bool := l.all (fun p => decodeTableWord 128 (p.1 + p.2.1 * 2 ^ 64) = some p.2.2)

/-- R83, R100 to R108, R297, R298. -/
theorem test_decode_control : decodes [
  (w 0x00 0 0 0 0 0, .nop g), (0, .nop ⟨0, false, false, .none⟩),
  (w 0x01 0 0 0 0 0 + 0x8000001 * 2 ^ 27, .bra g 0x8000001), (w 0x02 0 10 3 0 0x60 0 2 1, .brx ⟨7, false, false, .a⟩ .z64 (.reg 10) (.latch 3)),
  (w 0x03 0 0 0 0 0 0 0 0 9 + 5 * 2 ^ 27, .call ⟨1, true, false, .none⟩ 5), (w 0x05 0 30 0 0 0x60, .ret g .z64 (.reg 30)),
  (w 0x06 0 0 0 0 0, .exit g), (w 0x07 0 0 0 0 0, .yield g), (w 0x08 0 7 0 0 0, .sleep g (.reg 7)), (fi 0x08 0 0 100 1, .sleep g (.imm 100)),
  (w 0x08 0 8 0 0 2, .sleepP g (.reg 8)), (w 0x09 0 0 0 0 0, .cancp g), (fi 0x0A 0 0 0x3FFFF 1, .trap g (.imm 0x3FFFF)),
  (w 0x0B 0 0 0 0 0, .tret g), (w 0x0C 0 0 0 0 0, .tfence g), (w 0xE2 0 0 9 0 0, .syscall g (.reg 9))] = true := by decide +kernel

/-- R83 to R99: types .s32 0, .z32 1, .s64 2, .z64 3 in MINOR[8:5], I in MINOR[0]. -/
theorem test_decode_integer : decodes [
  (fi 0x10 3 2 100 1, .iadd g .s32 false 3 (.reg 2) (.imm 100)), (w 0x11 4 2 6 0 0x42, .isub g .s64 true 4 (.reg 2) (.reg 6)),
  (w 0x12 4 2 6 0 0x22, .imul g .z32 true 4 (.reg 2) (.reg 6)), (w 0x13 9 1 2 3 2 0 0 3, .imad ⟨7, false, false, .c⟩ .s32 true 9 (.reg 1) (.reg 2) (.reg 3)),
  (fi 0x14 9 1 5 0x63, .idiv g .z64 true 9 (.reg 1) (.imm 5)), (w 0x15 9 1 0 0 0x42, .iabs g .s64 true 9 (.reg 1)),
  (w 0x16 9 1 2 0 0, .imin g .s32 9 (.reg 1) (.reg 2)), (w 0x17 9 1 2 0 0x60, .imax g .z64 9 (.reg 1) (.reg 2)),
  (w 0x18 9 1 2 0 0x20, .and g .z32 false 9 (.reg 1) (.reg 2)), (w 0x19 9 1 2 0 0x22, .or g .z32 true 9 (.reg 1) (.reg 2)),
  (w 0x1A 9 1 0 0 0x62, .xor g .z64 true 9 (.reg 1) (.reg 0)), (fi 0x1B 9 1 31 0x21, .shl g .z32 9 (.reg 1) (.imm 31)),
  (w 0x1C 9 1 2 0 0x60, .shr g .z64 9 (.reg 1) (.reg 2)), (w 0x1D 9 1 2 0 0x40, .sar g .s64 9 (.reg 1) (.reg 2)),
  (w 0x1E 9 1 2 0 0x20, .rot g .z32 9 (.reg 1) (.reg 2)), (w 0x1F 9 1 2 0 0, .bfe g .s32 9 (.reg 1) (.reg 2)),
  (w 0x20 9 1 2 3 0x20, .bfi g .z32 9 (.reg 1) (.reg 2) (.reg 3)), (w 0x21 9 2 0 0 0x60, .popc g .z64 9 (.reg 2)),
  (w 0x22 9 2 0 0 0x20, .clz g .z32 9 (.reg 2)), (w 0x23 8 2 0 0 0x60, .brev g .z64 8 (.reg 2)),
  (w 0x24 9 1 2 3 0x20, .prmt g .z32 9 (.reg 1) (.reg 2) (.reg 3)), (w 0x25 9 1 2 0 0x16, .isel g .s32 5 true 9 (.reg 1) (.reg 2)),
  (w 0x26 1 2 0 0 0, .icmp g .s32 .eq 1 (.reg 2) (.reg 0)), (w 0x26 6 2 3 0 0x6A, .icmp g .z64 .ge 6 (.reg 2) (.reg 3)),
  (w 0x27 1 2 3 0 0, .pset g (.and 1 2 3)), (w 0x27 1 2 3 0 6, .pset g (.andn 1 2 3)), (w 0x27 1 40 0 0 8, .pset g (.nz 1 (.reg 40))),
  (w 0x27 40 0 0 0 10, .pset g (.save 40)), (w 0x27 0 40 0 0 12, .pset g (.load (.reg 40))),
  (w 0x28 2 1 0 0 0, .vote g (.any 2) 1), (w 0x28 2 1 0 0 4, .vote g (.uni 2) 1), (w 0x28 40 1 0 0 6, .vote g (.ballot 40) 1),
  (w 0x29 4 5 0 0 0xE0, .mov g .bf16 4 (.reg 5)), (fi 0x29 4 0 7 0x81, .mov g .f64 4 (.imm 7)),
  (w 0x2B 10 0x10 0 0 0x60, .sreg g .z64 10 .karg), (w 0x2B 10 7 0 0 0x20, .sreg g .z32 10 .core),
  (w 0x2C 12 10 2 0 0x64, .lea g .z64 2 12 (.reg 10) (.reg 2))] = true := by decide +kernel

/-- R65: CALLX, MOVI, BCOPY, BSTORE and LAUNCH have an extension word. -/
theorem test_decode_extension : decodesX [
  (w 0x04 6 0 0 0 0, 0x123456789ABCDEF0, .callx g 6 0x123456789ABCDEF0), (w 0x2A 8 0 0 0 0x60, 0xFFFF, .movi g .z64 8 0xFFFF),
  (w 0xA2 6 8 20 24 1, 0x1000, .bcopy g .f 6 (.reg 8) 20 24 0x1000), (w 0xA3 6 8 20 24 2, 0x1000, .bstore g .h 6 (.reg 8) 20 (.reg 24) 0x1000),
  (w 0xB0 6 32 0 0 0, 0x8000, .launch g 6 32 0x8000)] = true := by decide +kernel

/-- R204 to R213: types .f64 4, .f32 5, .f16 6, .bf16 7; RM in MINOR[4:2], FTZ in MINOR[1]. -/
theorem test_decode_float : decodes [
  (w 0x30 17 0 4 0 0xA0 0 4, .fadd g .f32 .dflt false 17 (.latch 0) (.reg 4)), (w 0x31 18 2 4 0 0x8A, .fsub g .f64 .rtz true 18 (.reg 2) (.reg 4)),
  (w 0x32 16 2 3 0 0xA0 1, .fmul ⟨7, false, true, .none⟩ .f32 .dflt false 16 (.reg 2) (.reg 3)),
  (w 0x33 8 2 3 8 0xA0 0 0 1, .ffma ⟨7, false, false, .a⟩ .f32 .dflt false 8 (.reg 2) (.reg 3) (.reg 8)),
  (w 0x34 8 2 3 0 0xC4, .fmin g .f16 true false 8 (.reg 2) (.reg 3)), (w 0x35 8 2 3 0 0xE2, .fmax g .bf16 false true 8 (.reg 2) (.reg 3)),
  (w 0x36 3 2 4 0 0xB8, .fcmp g .f32 .un false 3 (.reg 2) (.reg 4)), (w 0x37 3 2 0 0 0x82, .fclass g .f64 true 3 (.reg 2)),
  (w 0x38 6 2 4 0 0x90, .fdiv g .f64 .rup false 6 (.reg 2) (.reg 4)), (w 0x39 6 2 0 0 0xA4, .fsqrt g .f32 .rne false 6 (.reg 2)),
  (w 0x3A 6 2 0 0 0xA0, .frcp g .f32 false 6 (.reg 2)), (w 0x3B 6 2 0 0 0x82, .frsq g .f64 true 6 (.reg 2)),
  (w 0x3C 6 2 0 0 0xA0, .fexp2 g .f32 false 6 (.reg 2)), (w 0x3D 6 2 0 0 0xA0, .flog2 g .f32 false 6 (.reg 2)),
  (w 0x3E 6 2 0 0 0xA0, .fsin g .f32 false 6 (.reg 2)), (w 0x3F 6 2 0 0 0xA2, .fcos g .f32 true 6 (.reg 2)),
  (w 0x40 6 2 0 0 0xAC, .frnd g .f32 .rdn false 6 (.reg 2)), (fi 0x41 6 2 0x3FFFF 0xA1, .fscale g .f32 .dflt false 6 (.reg 2) (.imm 0x3FFFF)),
  (w 0x42 6 2 0 0 0xA4, .fxtr g .f32 true false 6 (.reg 2)), (w 0x43 4 5 7 0 0xA0, .fcvt g .f32 .dflt false false 4 (.reg 5) .bf16),
  (w 0x44 4 6 4 0 0x48, .f2i g .s64 .rtz false 4 (.reg 6) .f64), (w 0x45 4 6 1 0 0xC0, .i2f g .f16 .dflt 4 (.reg 6) .z32),
  (w 0x46 4 1 2 3 0xE0, .fdot2 g .bf16 .dflt false 4 (.reg 1) (.reg 2) (.reg 3)), (w 0x47 4 0 0 0 0, .fstat g .read 4),
  (fi 0x47 4 0 3 3, .fstat g (.clr (.imm 3)) 4), (w 0x47 4 0 5 0 4, .fstat g (.set (.reg 5)) 4), (w 0x48 0 0 5 0 0, .fmode g (.reg 5))] = true := by decide +kernel

/-- R204, R214 to R221: formats and tile tasks. -/
theorem test_decode_formats_and_matrix : decodes [
  (w 0x50 5 64 3 0x1B 0xA0, .dbdec g .f32 .dflt 5 64 (.reg 3) .c4 1), (w 0x51 8 64 3 0 6, .dbenc g .rne true 8 64 (.reg 3)),
  (w 0x52 0 40 0 0 2 0 0 0 1, .cbld ⟨1, false, false, .none⟩ 1 40), (fi 0x53 4 0 8 5, .cbread g 2 4 (.imm 8)),
  (w 0x54 7 20 0 0 0x103, .ncvt g .e4m3 (.dn .dflt true (.reg 20)) 7), (w 0x54 8 20 0 0 0x140, .ncvt g .i8 (.up (.reg 20)) 8),
  (w 0x55 6 64 0 0x2B 0xA0, .bsum g .f32 6 64 .c4 2), (w 0x58 36 48 0 0 0 0 0 0 1, .mtask ⟨1, false, false, .none⟩ 36 48),
  (w 0x59 6 8 0 0 0, .mtwait g 6 (.reg 8)), (w 0x5A 6 8 0 0 2, .mtqry g true 6 (.reg 8)), (w 0x5B 0 8 10 0 0, .mdrain g (.reg 8) (.reg 10)),
  (w 0x5C 0 8 10 0 0, .mfill g (.reg 8) (.reg 10)), (w 0x5D 0 8 0 0 0, .mfreeze g (.reg 8)), (w 0x5E 0 8 0 0 0, .mthaw g (.reg 8))] = true := by decide +kernel

/-- R111 to R126: the register space and memory; ORD in MINOR[4:2], ATOM in MINOR[1:0]. -/
theorem test_decode_register_space_and_memory : decodes [
  (w 0x60 6 64 8 0 0x20, .rdx g .z32 6 64 (.reg 8)), (w 0x61 64 8 10 0 0x60, .wrx g .z64 64 (.reg 8) (.reg 10)),
  (w 0x62 6 8 0 0 0x60, .take g .z64 6 8), (w 0x63 6 8 0 0 0x20, .give g .z32 6 (.reg 8)), (fi 0x64 6 0 4 7, .tagset g .poison 6 (.imm 4)),
  (fi 0x65 9 4 3 1, .tagq g 9 4 3), (fi 0x66 15 64 68 0x61, .wexp g ⟨true, true, false, false⟩ false 15 64 (.imm 68)),
  (w 0x66 15 64 7 0 0x182, .wexp g ⟨false, false, true, true⟩ true 15 64 (.reg 7)), (w 0x67 0 15 0 0 0, .wrev g (.reg 15)),
  (w 0x68 6 8 9 0 0x20, .wld g .z32 6 (.reg 8) (.reg 9)), (w 0x69 0 8 9 10 0x60, .wst g .z64 (.reg 8) (.reg 9) (.reg 10)),
  (fi 0x6A 6 8 3 0x21, .wtake g .z32 6 (.reg 8) (.imm 3)), (w 0x6B 0 8 9 10 0x20, .wgive g .z32 (.reg 8) (.reg 9) (.reg 10)),
  (w 0x6C 9 0 15 0 0x20, .lnrd g .z32 9 (.reg 0) 15), (w 0x6D 15 1 4 0 0x20, .lnwr g .z32 15 (.reg 1) (.reg 4)),
  (w 0x6E 6 8 10 12 0x20, .mcast g .z32 6 (.reg 8) (.reg 10) (.reg 12)), (w 0x70 6 12 0 0 0x65, .ldg g .z64 .atCore .a8 6 (.reg 12)),
  (w 0x71 0 12 3 0 0, .stg g .s32 .relaxed .word (.reg 12) (.reg 3)), (w 0x72 6 12 0 0 0x140, .ldf g .i8 .relaxed .word 6 (.reg 12)),
  (w 0x73 0 12 3 0 0xC0, .stf g .f16 .relaxed .word (.reg 12) (.reg 3)), (w 0x74 8 12 0 0 0x62, .ldh g .z64 .relaxed .a16 8 (.reg 12)),
  (w 0x75 0 12 4 0 0x14, .sth g .s32 .atHouse .word (.reg 12) (.reg 4)), (fi 0x76 0 0 3 3, .waitq g true (.imm 3))] = true := by decide +kernel

/-- R111, R127 to R139: barriers, fences and monitors; R336 to R342: atomics, OP in SRCC. -/
theorem test_decode_synchronisation_and_atomics : decodes [
  (fi 0x80 8 0 64 3, .binit g .gang 8 (.imm 64)), (w 0x81 14 9 0 0 0, .barr g 14 (.reg 9) (.reg 0)), (w 0x81 0 0 0 0 2, .barrGrp g),
  (w 0x82 0 9 10 11 0, .bwait g (.reg 9) (.reg 10) (.reg 11)), (w 0x83 0 9 10 12 2, .bxfer g true (.reg 9) (.reg 10) (.reg 12)),
  (w 0x84 0 0 0 0 0x86, .fence g .acq .company), (w 0x85 0 0 0 0 0, .fencesc g), (w 0x86 0 12 0 0 0, .marm g (.g (.reg 12))),
  (w 0x86 0 9 10 0 2, .marm g (.w (.reg 9) (.reg 10))), (fi 0x87 6 0 1000 1, .mwait g 6 (.imm 1000)), (w 0x88 0 0 0 0 8, .wbar g .house),
  (w 0x89 0 0 10 0 0, .hbwait g (.reg 10)), (w 0x90 34 14 25 1 0 0 0 0 4, .atom ⟨4, false, false, .none⟩ .s32 .relaxed 34 (.reg 14) (.reg 25) .min),
  (w 0x91 34 14 24 26 0x64, .acas g .z64 .atCore 34 (.reg 14) (.reg 24) (.reg 26)), (w 0x92 0 14 25 0 0xA0, .red g .f32 .relaxed (.reg 14) (.reg 25) .add),
  (w 0x93 32 14 64 0x75 0x20, .vatom g .z32 .relaxed 32 (.reg 14) 64 .xor 7), (w 0x94 34 14 24 2 0x80, .fatom g .f64 .relaxed 34 (.reg 14) (.reg 24) .max),
  (w 0x95 6 8 9 10 0x3C, .atomw g .z32 .cas 6 (.reg 8) (.reg 9) (.reg 10))] = true := by decide +kernel

/-- R244: copies, NM1 in MINOR[8:3], W in MINOR[2]; R336: the queues; R400: the estate and siblings. -/
theorem test_decode_copy_queue_estate : decodes [
  (w 0xA0 20 40 10 0 0x38, .acopy g 7 .g 20 (.own 40) (.reg 10) 0), (w 0xA0 20 40 10 12 0x05, .acopy g 0 .f 20 (.win (.reg 40)) (.reg 10) 12),
  (w 0xA1 20 40 10 12 0x1FA, .awrite g 63 .h 20 (.own 40) (.reg 10) (.reg 12)), (w 0xA4 6 20 0 0 2, .acq g true 6 (.reg 20)),
  (w 0xA5 0 10 0 0 0, .publish g (.reg 10)), (w 0xA6 20 10 0 22 0, .wopen g 20 (.reg 10) 22), (w 0xB1 0 35 24 0 0 0 0 0 5, .qpush ⟨5, false, false, .none⟩ (.reg 35) 24),
  (w 0xB2 4 16 0 0 0, .qpop g 4 16), (w 0xB2 4 16 0 0 2, .qpopH g 4 16), (w 0xB3 4 0 0 0 0, .qdepth g 4), (w 0xB4 4 0 0 0 0, .qsteal g 4),
  (w 0xB5 4 12 0 0 0, .lwait g 4 (.reg 12)), (w 0xC0 4 12 0 0 2, .hold g true 4 (.reg 12)), (w 0xC1 0 12 0 0 0, .hfree g (.reg 12)),
  (w 0xC1 0 12 0 0 2, .hfreeTask g (.reg 12)), (w 0xC2 0 12 13 0 0, .heir g (.reg 12) (.reg 13)), (w 0xC3 4 12 0 0 0, .hconvey g 4 (.reg 12)),
  (w 0xC3 4 0 0 0 2, .hconveyAll g 4), (w 0xC4 4 12 0 0 0, .prom g 4 (.reg 12)), (w 0xC5 0 12 20 0 0x20, .keep g .z32 (.reg 12) (.reg 20)),
  (w 0xC6 4 12 0 0 0, .pwait g 4 (.reg 12)), (w 0xC7 4 12 0 0 0, .estq g 4 (.reg 12)), (w 0xC7 4 12 0 0 2, .estqRec g 4 (.reg 12)),
  (w 0xC8 22 20 0 0 0, .sibpost g 22 (.reg 20)), (w 0xC9 4 0 0 0 0, .sibq g 4), (w 0xCA 4 0 0 0 0, .sibwait g 4), (w 0xCB 4 0 0 0 0, .sibacct g 4)] = true := by decide +kernel

/-- R348, R367: tiers and pages; R297, R301: system registers by their selector in SRCA. -/
theorem test_decode_tier_and_system : decodes [
  (w 0xD0 20 40 12 6 0x1E, .kvcopy g 15 20 40 (.reg 12) 6), (w 0xD1 20 0 0 0 2, .pgalloc g true 20), (w 0xD2 20 6 0 0 0, .pgfree g false 20 (.reg 6)),
  (w 0xD3 20 6 0 0 2, .pgref g true 20 (.reg 6)), (w 0xD4 20 0 12 6 2, .tierin g 1 20 (.reg 12) 6), (w 0xD5 5 0 12 6 0, .tierq g 5 (.reg 12) (.reg 6)),
  (w 0xD6 0 40 42 44 0, .invr g (.reg 40) (.reg 42) (.reg 44)), (w 0xD7 0 0 0 0 0, .invwait g), (w 0xE0 64 5 0 0 0x20, .srd g .z32 64 .trapCause),
  (w 0xE0 64 0x24 0 0 0x60, .srd g .z64 64 .evBase), (w 0xE0 64 0x13 0 0 0x60, .srdLogPop g .z64 64 .mgnLog), (w 0xE1 0 0x10 6 0 0x60, .swr g .z64 .mgnCtl (.reg 6)),
  (w 0xE1 0 0x25 6 0 0x60, .swrLogClear g .z64 .fltLog (.reg 6)), (w 0xE1 0 0x12 6 0 0x60, .swrMgnInj g .z64 (.reg 6)), (fi 0xE3 0 0 5 1, .halt g (.imm 5)),
  (w 0xE4 0 6 0 0 0, .quar g (.reg 6)), (w 0xE5 4 6 0 0 0, .ckcut g 4 (.reg 6)), (w 0xE6 5 6 0 0 0, .ckwait g 5 (.reg 6)), (w 0xE7 40 0 0 0 0, .evpop g 40),
  (w 0xE8 4 0 6 0 0, .evwait g 4 (.reg 6)), (w 0xE9 4 6 8 9 2, .csave g true 4 (.reg 6) (.reg 8) (.reg 9))] = true := by decide +kernel

abbrev b : PairHalf := ⟨.mov, ⟨6, 11, 7, .z32⟩⟩
abbrev a (t : Ty) : Half := ⟨5, 9, 1, t⟩

/-- R71, R74: half A in [61:31], guarded by p1; half B MOV v6, v11 of type .z32. -/
theorem test_decode_pairs : decodes [
      (pr 0x00 5 9 7 0 6 11 1, .pairMov (a .bf16) b), (pr 0x01 5 9 0 0 6 11 1, .pairIadd (a .s32) b), (pr 0x02 5 9 1 0 6 11 1, .pairIsub (a .z32) b),
      (pr 0x03 5 9 0 0 6 11 1, .pairImul (a .s32) b), (pr 0x04 5 9 0 0 6 11 1, .pairImin (a .s32) b), (pr 0x05 5 9 0 0 6 11 1, .pairImax (a .s32) b),
      (pr 0x06 5 9 1 0 6 11 1, .pairAnd (a .z32) b), (pr 0x07 5 9 1 0 6 11 1, .pairOr (a .z32) b), (pr 0x08 5 9 1 0 6 11 1, .pairXor (a .z32) b),
      (pr 0x09 5 9 1 0 6 11 1, .pairShl (a .z32) b), (pr 0x0A 5 9 1 0 6 11 1, .pairShr (a .z32) b), (pr 0x0B 5 9 0 0 6 11 1, .pairSar (a .s32) b),
      (pr 0x0C 5 9 1 0 6 11 1, .pairRot (a .z32) b), (pr 0x10 5 9 5 0 6 11 1, .pairFadd (a .f32) b), (pr 0x11 5 9 5 0 6 11 1, .pairFsub (a .f32) b),
      (pr 0x12 5 9 7 0 6 11 1, .pairFmul (a .bf16) b), (pr 0x13 5 9 5 0 6 11 1, .pairFmin (a .f32) b), (pr 0x14 5 9 5 0 6 11 1, .pairFmax (a .f32) b),
      (pr 0x20 5 9 0 0 6 11 1, .pairMovi (a .s32) b), (pr 0x21 5 9 0 0 6 11 1, .pairIaddImm (a .s32) b), (pr 0x22 5 9 1 0 6 11 1, .pairAndImm (a .z32) b),
      (pr 0x23 5 9 1 0 6 11 1, .pairShlImm (a .z32) b), (pr 0x24 5 9 1 0 6 11 1, .pairShrImm (a .z32) b), (pr 0x25 5 9 0 0 6 11 1, .pairSarImm (a .s32) b),
      (pr 0x26 5 9 1 0 6 11 1, .pairRotImm (a .z32) b)] = true := by decide +kernel

/-- One ill-formed term for each check of well-formedness, each refused (R58 to R64, R67, R70, R72, R74, R111, R204, R336). -/
theorem test_illFormed_refused : ([
  .icmp ⟨7, false, true, .none⟩ .s32 .eq 1 (.reg 2) (.reg 3),                 -- N where no register is written
  .idiv ⟨7, false, true, .none⟩ .s32 false 4 (.reg 2) (.reg 3),               -- N on a claiming instruction
  .iadd ⟨7, false, false, .a⟩ .s32 false 4 (.latch 2) (.reg 3),               -- RETAIN of a latch
  .iadd ⟨7, false, false, .c⟩ .s32 false 4 (.reg 2) (.reg 3),                 -- RETAIN of a source that is not there
  .iadd g .f32 false 4 (.reg 2) (.reg 3),                                     -- a type that is not listed
  .iadd g .s32 false 4 (.imm 2) (.reg 3),                                     -- an immediate as source A
  .ffma g .f32 .dflt false 4 (.reg 2) (.reg 3) (.imm 1),                      -- an immediate where FI is not listed
  .ldg g .s32 .relaxed .a8 4 (.reg 12),                                       -- ATOM .a8 of a 32-bit type
  .stg g .z64 .relaxed .a16 (.reg 12) (.reg 6),                               -- ATOM .a16 of registers that are no multiple of 4
  .fcvt g .f32 .dflt false false 4 (.reg 5) .f32,                             -- FCVT to its own type
  .f2i g .s32 .dflt false 4 (.reg 5) .s32,                                    -- F2I from an integer type
  .bsum g .f32 4 64 .f16 1,                                                   -- a family constant with a slot
  .tagq g 9 4 0, .tagq g 9 4 17,                                              -- TAGQ of no word, or of 17
  .wexp g ⟨false, false, false, false⟩ false 15 64 (.imm 1),                  -- WEXP with no right
  .binit g .troupe 8 (.imm 1), .wbar g .gang,                                 -- a scope that is not listed
  .atom g .s32 .relaxed 4 (.reg 12) (.reg 14) .cas,                           -- CAS as an OP of ATOM
  .red g .f32 .relaxed (.reg 12) (.reg 14) .xor,                              -- a bitwise float reduction
  .fatom g .f32 .relaxed 4 (.reg 12) (.reg 14) .exch,                         -- a float exchange
  .swr g .z64 .mgnInj (.reg 6),                                               -- MGN_INJ as a plain register
  .pairIadd ⟨4, 9, 7, .f32⟩ ⟨.fmul, ⟨5, 10, 7, .f32⟩⟩,                        -- a pair half's type
  .pairIadd ⟨4, 9, 7, .s32⟩ ⟨.fmul, ⟨8, 10, 7, .f32⟩⟩,                        -- destinations in one bank
  .pairIadd ⟨4, 9, 7, .s32⟩ ⟨.fmul, ⟨5, 13, 7, .f32⟩⟩,                        -- sources in one bank
  .pairShlImm ⟨4, 32, 7, .z32⟩ ⟨.fmul, ⟨5, 10, 7, .f32⟩⟩] : List Instr).filter (·.wf) = [] := by decide +kernel

/-- A thread of a group of eight, alone in its kernel, about to issue: every register zero and EMPTY. -/
abbrev t0 : Tid := ⟨1, 0, 0⟩
def one : State := { State.reset.withFetchWord 64 0 with cur := some t0 }
/-- The same after a change to the thread. -/
abbrev st (f : Thread → Thread) : State := one.updThread t0 f
/-- The same with these register words. -/
abbrev regs (l : Tab RegWord) : State := st (fun th => { th with regs := l })
abbrev wh (s : State) : Who := s.who t0
def f32 : RegWord := ⟨0x3FC00000, .full⟩

theorem thread_one {x : Tid} (h : x ≠ t0) : one.thread x = {} := by
  have e : one.threads = [(t0, { pc := 0x10000 })] := rfl
  simp [State.thread, e, at_, look, Ne.symm h]

theorem mem_upto {j n : Nat} : ∀ {a}, j < a + n → a ≤ j → j ∈ upto a n := by
  induction n with
  | zero => omega
  | succ n ih =>
    intro a h1 h2
    by_cases e : j = a
    · simp [upto, e]
    · exact List.mem_cons_of_mem _ (ih (by omega) (by omega))

theorem dst_of {s : State} {w : Who} {d n : Nat}
    (h : ((upto 0 n).all (fun j => d = 0 || (regGet s w.t (d + j)).tag != .pend) && !ownAccOn s w.t d n) = true) : DstFree w s d n := by
  obtain ⟨hp, ha⟩ := Bool.and_eq_true _ _ ▸ h
  refine ⟨fun i hi => ?_, fun _ => by simpa using ha⟩
  simp only [inDst, Bool.and_eq_true, decide_eq_true_eq] at hi
  obtain ⟨⟨h0, h1⟩, h2⟩ := hi
  obtain ⟨j, rfl⟩ := Nat.exists_eq_add_of_le h1
  have hj : j < n := by omega
  have := List.all_eq_true.mp hp j (mem_upto (by omega) (Nat.zero_le _))
  simpa [h0] using this

/-- An operand reads as a value. -/
def readsB (s : State) (u : Use) (r : Src × Nat × DWord) : Bool :=
  match src (wh s) (advance (wh s) u s) r.1 r.2.1 with
  | .ok v => v == r.2.2
  | _ => false
/-- The thread's word issues, and its operands read as the values listed. -/
def issuesB (s : State) (u : Use) (l : List (Src × Nat × DWord)) (h : Hdr := g) : Bool :=
  useCheck (wh s) u = none && guardTrue h (wh s).th && (wh s).gang.cancel = none && !accessHeld (wh s) u s && latchGate (wh s).th u = none &&
    (consumed (wh s) u s).isEmpty && l.all (readsB s u)
def freeB (s : State) (d n : Nat) : Bool := (upto 0 n).all (fun j => d = 0 || (regGet s t0 (d + j)).tag != .pend) && !ownAccOn s t0 d n

def Issue (s : State) (u : Use) (l : List (Src × Nat × DWord)) (h : Hdr := g) : Prop :=
  Issues h u (wh s) s ∧ ∀ r ∈ l, Reads u (wh s) s r.1 r.2.1 r.2.2
def Write (s : State) (u : Use) (d : BitVec 9) (n : Nat) (l : List (Src × Nat × DWord)) (h : Hdr := g) : Prop :=
  CanWrite h u d n (wh s) s ∧ ∀ r ∈ l, Reads u (wh s) s r.1 r.2.1 r.2.2
def Claim (s : State) (u : Use) (d : BitVec 9) (n : Nat) (l : List (Src × Nat × DWord)) (h : Hdr := g) : Prop :=
  CanClaim h u d n (wh s) s ∧ ∀ r ∈ l, Reads u (wh s) s r.1 r.2.1 r.2.2

theorem issue {s : State} {u : Use} {l : List (Src × Nat × DWord)} {h : Hdr} (hw : s.who? = some (wh s)) (hb : issuesB s u l h = true) :
    Issue s u l h := by
  simp only [issuesB, Bool.and_eq_true, decide_eq_true_eq, List.all_eq_true] at hb
  obtain ⟨⟨⟨⟨⟨⟨h1, h2⟩, h3⟩, h4⟩, h5⟩, h6⟩, h7⟩ := hb
  refine ⟨⟨hw, h1, h2, h3, by simpa using h4, h5, by simpa using h6⟩, fun r hr => ?_⟩
  have := h7 r hr
  unfold readsB at this
  split at this
  · rename_i v e
    rw [Reads, e]; simpa using this
  · simp at this
theorem claim {s : State} {u : Use} {d : BitVec 9} {n : Nat} {l : List (Src × Nat × DWord)} {h : Hdr} (hw : s.who? = some (wh s))
    (hb : (issuesB s u l h && freeB s d.toNat n) = true) : Claim s u d n l h :=
  have hb := Bool.and_eq_true _ _ ▸ hb
  ⟨⟨(issue hw hb.1).1, dst_of hb.2⟩, (issue hw hb.1).2⟩
theorem write {s : State} {u : Use} {d : BitVec 9} {n : Nat} {l : List (Src × Nat × DWord)} {h : Hdr} (hw : s.who? = some (wh s))
    (hb : (issuesB s u l h && freeB s d.toNat n) = true) : Write s u d n l h :=
  have c := claim hw hb
  ⟨⟨c.1.1, .inr c.1.2⟩, c.2⟩

/-- Sums and divisions: 32 and 64 bits, the most negative number, and a divisor 0. -/
theorem witness_IntegerArithmeticResults :
    let s := regs [(2, ⟨0x80000000, .full⟩), (3, ⟨0, .full⟩)]
    let u := useDAB .s32 5 (.reg 2) (.imm 0x3FFFF)
    let v := useDAB .s64 6 (.reg 2) (.reg 8)
    let u3 : Use := { u with srcs := [(.a, .reg 2, 1), (.b, .imm 3, 1), (.c, .reg 3, 1)] }
    let v3 : Use := { v with srcs := [(.a, .reg 2, 2), (.b, .reg 8, 2), (.c, .reg 4, 2)] }
    Write s u 5 1 [(.reg 2, 1, 0x80000000), (.imm 0x3FFFF, 1, 0xFFFFFFFF)] ∧ Claim s v 6 2 [(.reg 2, 2, 0x80000000), (.reg 8, 2, 0)] ∧
    Write s u3 5 1 [(.reg 2, 1, 0x80000000), (.imm 3, 1, 3), (.reg 3, 1, 0)] ∧
    Claim s v3 6 2 [(.reg 2, 2, 0x80000000), (.reg 8, 2, 0), (.reg 4, 2, 0)] ∧
    Write s (useDA .s32 5 (.reg 2)) 5 1 [(.reg 2, 1, 0x80000000)] ∧
    Claim s u 5 1 [(.reg 2, 1, 0x80000000), (.imm 0x3FFFF, 1, 0xFFFFFFFF)] ∧ intValue .s32 0xFFFFFFFF ≠ 0 ∧ intValue .s64 0 = 0 :=
  ⟨write rfl (by decide +kernel), claim rfl (by decide +kernel), write rfl (by decide +kernel), claim rfl (by decide +kernel),
   write rfl (by decide +kernel), claim rfl (by decide +kernel), by decide +kernel, by decide +kernel⟩

/-- Bitwise operations and shifts: the sign bit, a count of 32, and the rotation of 0. -/
theorem witness_LogicAndShiftResults :
    let s := regs [(2, ⟨0x80000000, .full⟩)]
    Write s (useDAB .z32 5 (.reg 2) (.imm 32)) 5 1 [(.reg 2, 1, 0x80000000), (.imm 32, 1, 32)] ∧
    Write s (useDAw .s32 5 (.reg 2) (.imm 32)) 5 1 [(.reg 2, 1, 0x80000000), (.imm 32, 1, 32)] ∧
    Write s (useDAw .s32 5 (.reg 3) (.imm 31)) 5 1 [(.reg 3, 1, 0), (.imm 31, 1, 31)] ∧
    ∀ i, i < 32 → (0 : DWord).getLsbD ((i + 31) % 32) = (0 : DWord).getLsbD i :=
  ⟨write rfl (by decide +kernel), write rfl (by decide +kernel), write rfl (by decide +kernel), by decide +kernel⟩

/-- Bit fields at the top of the width and of no length; counts of all ones; a permutation of ones. -/
theorem witness_BitFieldResults :
    let s := regs [(2, ⟨0xFFFFFFFF, .full⟩)]
    let x : DWord := 0xFFFFFFFF
    let up : Use := { useDAB .z32 5 (.reg 2) (.reg 2) with srcs := [(.a, .reg 2, 1), (.b, .reg 2, 1), (.c, .reg 4, 1)] }
    let uc : Use := { useDAB .z32 5 (.reg 2) (.reg 3) with srcs := [(.a, .reg 2, 1), (.b, .reg 3, 1), (.c, .reg 4, 1)] }
    Write s (useDAw .s32 5 (.reg 2) (.imm 0x11F)) 5 1 [(.reg 2, 1, x), (.imm 0x11F, 1, 0x11F)] ∧
    Write s uc 5 1 [(.reg 2, 1, x), (.reg 3, 1, 0), (.reg 4, 1, 0)] ∧
    (∀ i, i < 32 → x.getLsbD i = if 0 ≤ i ∧ i < 0 + 0 then (0 : DWord).getLsbD (i - 0) else x.getLsbD i) ∧
    Write s { srcs := [(.a, .reg 2, 1)], dst := some (5, 1) } 5 1 [(.reg 2, 1, x)] ∧
    (∀ i, 32 - 0 ≤ i → i < 32 → x.getLsbD i = false) ∧ x.getLsbD (32 - 1 - 0) = true ∧
    Write s (useDA .z32 5 (.reg 2)) 5 1 [(.reg 2, 1, x)] ∧ (∀ i, i < 32 → x.getLsbD i = x.getLsbD (32 - 1 - i)) ∧
    Write s up 5 1 [(.reg 2, 1, x), (.reg 4, 1, 0)] ∧
    ∀ i, i < 4 → ∀ j, j < 8 → x.getLsbD (8 * i + j) = x.getLsbD (8 * (bits (0 : DWord) (4 * i + 3) (4 * i) % 4) + j) :=
  ⟨write rfl (by decide +kernel), write rfl (by decide +kernel), by decide +kernel, write rfl (by decide +kernel), by omega, by decide +kernel,
   write rfl (by decide +kernel), by decide +kernel, write rfl (by decide +kernel), by decide +kernel⟩

/-- The unselected source of ISEL is PEND; a 64-bit destination; a scaled sum. -/
theorem witness_SelectionAndMoveResults :
    let s := regs [(2, ⟨7, .full⟩), (3, ⟨0, .pend⟩)]
    (wh s).th.preds.getLsbD 7 = true ∧ Write s { useDAB .z32 5 (.reg 2) (.reg 3) with sel := some (7, false) } 5 1 [(.reg 2, 1, 7)] ∧
    Write s (useDA .f64 6 (.reg 8)) 6 2 [(.reg 8, 2, 0)] ∧ Write s { dst := some (6, 2), len := 16, cycles := 2 } 6 2 [] ∧
    Write s { dst := some (6, 2) } 6 2 [] ∧ Write s (useDAw .z64 6 (.reg 8) (.imm 1)) 6 2 [(.reg 8, 2, 0), (.imm 1, 1, 1)] :=
  ⟨by decide +kernel, write rfl (by decide +kernel), write rfl (by decide +kernel), write rfl (by decide +kernel),
   write rfl (by decide +kernel), write rfl (by decide +kernel)⟩

theorem witness_PredicateResults :
    let s := regs [(2, ⟨0x80000000, .full⟩)]
    Issue s { srcs := [(.a, .reg 2, 1), (.b, .imm 1, 1)] } [(.reg 2, 1, 0x80000000), (.imm 1, 1, 1)] ∧ Issue s {} [] ∧
    Issue s { srcs := [(.a, .reg 2, 1)] } [(.reg 2, 1, 0x80000000)] ∧ Write s { dst := some (5, 1) } 5 1 [] :=
  ⟨issue rfl (by decide +kernel), issue rfl (by decide +kernel), issue rfl (by decide +kernel), write rfl (by decide +kernel)⟩

/-- Targets inside the address space, beyond it, and no multiple of 8; a link pair that is free, and one that is not. -/
theorem witness_BranchesCallsAndReturns :
    let s := st (fun th => { th with pc := 0x3FFFFFFFFFFFF8, regs := [(2, ⟨4, .full⟩), (30, ⟨0, .pend⟩), (33, ⟨0x400000, .full⟩)] })
    let ub (i : BitVec 9) : Use := { srcs := [(.a, .reg i, 2), (.b, .imm 1, 1)] }
    let ur (i : BitVec 9) : Use := { srcs := [(.a, .reg i, 2)] }
    Issue s { cancel := .never } [] ∧ bits ((wh s).th.pc + 8 * (0 : BitVec 28).signExtend 64) 63 54 = 0 ∧
    bits ((wh s).th.pc + 8 * (1 : BitVec 28).signExtend 64) 63 54 ≠ 0 ∧
    Issue s {} [] ∧ ¬ DstFree (wh s) s 30 2 ∧ Issue one {} [] ∧ DstFree (wh one) one 30 2 ∧
    Issue s (ub 2) [(.reg 2, 2, 4), (.imm 1, 1, 1)] ∧ Issue s (ub 4) [(.reg 4, 2, 0), (.imm 1, 1, 1)] ∧
    Issue s (ub 32) [(.reg 32, 2, 0x40000000000000), (.imm 1, 1, 1)] ∧
    Issue s (ur 2) [(.reg 2, 2, 4)] ∧ Issue s (ur 4) [(.reg 4, 2, 0)] ∧ Issue s (ur 32) [(.reg 32, 2, 0x40000000000000)] ∧
    Write s { dst := some (6, 2), len := 16, cycles := 2 } 6 2 [] :=
  ⟨issue rfl (by decide +kernel), by decide +kernel, by decide +kernel, issue rfl (by decide +kernel), fun h => h.1 30 rfl (by decide +kernel),
   issue rfl (by decide +kernel), dst_of (by decide +kernel), issue rfl (by decide +kernel), issue rfl (by decide +kernel),
   issue rfl (by decide +kernel), issue rfl (by decide +kernel), issue rfl (by decide +kernel), issue rfl (by decide +kernel),
   write rfl (by decide +kernel)⟩

/-- A running copy request of the thread. -/
abbrev copy0 : CeReq :=
  { seq := 0, kind := .acopy, tid := t0, space := .g, asid := 0, part := 0, vf := 0, pf := true, world := false, house := 0, st := .running }

/-- An enabled sticky flag; a float result on its way; a sleep of 0 and of 1 cycle; a promise ahead, and one reached whose copy runs. -/
theorem witness_SimpleControl :
    let s := st (fun th => { th with fcw := 0x0101, regs := [(2, ⟨1, .full⟩)], links := [⟨2, 0, 0⟩] })
    let s1 := { s with cyc := 1 }.updCluster 0 (fun c => { c with ce := [copy0] })
    let s2 : State := { regs [(2, ⟨1, .full⟩)] with results := [⟨0, t0, [], 0, true⟩], cyc := 1 }
    let u2 : Use := { srcs := [(.a, .reg 2, 2)], cancel := .always }
    let late (x : Wait) : State := { st (fun th => { th with wait := x }) with cyc := 1 }
    let m (s : State) : BitVec 6 := (wh s).th.fcw.extractLsb' 0 6 &&& (wh s).th.fcw.extractLsb' 8 6
    Issue s { cancel := .never } [] ∧ Issue s2 { cancel := .never } [] ∧ Issue one { cancel := .never } [] ∧
    Issue one { cancel := .always } [] ∧ (∀ x : Tid, x.vgid = 1 → x.layer = 0 → x ≠ t0 → ∀ k c, (one.thread x).wait ≠ .coll k c) ∧
    Issue s { srcs := [(.a, .imm 0, 1)], cancel := .always } [(.imm 0, 1, 0)] ∧
    Issue s { srcs := [(.a, .imm 1, 1)], cancel := .always } [(.imm 1, 1, 1)] ∧ Issue (late (.promised 2 2)) u2 [] ∧
    Issue (late (.slept 1 false)) u2 [] ∧ Issue (late (.slept 1 true)) u2 [] ∧ Issue s u2 [(.reg 2, 2, 1)] ∧
    Issue s2 u2 [(.reg 2, 2, 1)] ∧ Issue s1 u2 [(.reg 2, 2, 1)] ∧ (∀ r ∈ s.results, r.tid = (wh s).t → r.float = false) ∧ m s ≠ 0 ∧
    (∃ r ∈ s2.results, r.tid = (wh s2).t ∧ r.float = true) ∧ m one = 0 ∧ (wh s).th.wait = .none ∧ (∀ l ∈ (wh s2).th.links, l.pair ≠ 2) ∧
    s.cyc < 1 ∧ 1 ≤ s2.cyc ∧ (wh s2).th.links = [] ∧ 1 ≤ s1.cyc ∧ (wh s1).th.links.find? (fun l => l.pair = 2) = some ⟨2, 0, 0⟩ ∧
    (s1.cluster 0).ce.find? (fun r => r.seq = 0) = some copy0 :=
  ⟨issue rfl (by decide +kernel), issue rfl (by decide +kernel), issue rfl (by decide +kernel), issue rfl (by decide +kernel),
    (fun x _ _ h k c e => by rw [thread_one h] at e; exact nomatch e), issue rfl (by decide +kernel), issue rfl (by decide +kernel),
    issue rfl (by decide +kernel), issue rfl (by decide +kernel), issue rfl (by decide +kernel), issue rfl (by decide +kernel),
    issue rfl (by decide +kernel), issue rfl (by decide +kernel), by decide +kernel⟩

/-- The thread's kernel with other words: 32 registers and a handler, among others. -/
abbrev handled : State := one.updKernel 0 (fun k => { k with words := [0x10000, 0, 0x20000, 0, 0, 0, 0, 0, 1] ++ List.replicate 23 0 })
/-- `s` with these threads in lanes 1 to 7. -/
def lanes (s : State) (th : Thread) : State := { s with threads := s.threads ++ (upto 1 7).map (fun l => (⟨1, 0, l⟩, th)) }

/-- A delivered cause 0x17, one without a handler, and one while ENTRY is 1. -/
theorem witness_TrapsAreDeliveredOrKill :
    let u : Use := { srcs := [(.b, .imm 5, 1)], cancel := .never }
    let s1 := handled.updThread t0 (fun th => { th with regs := [(55, ⟨0x80000080, .full⟩)] })
    Issue handled u [(.imm 5, 1, 5)] ∧ Deliverable 0 (wh handled) handled ∧ handled.who? = some (wh handled) ∧
    ((0x17, 0) ∈ [(0x16, 0), (0x17, 0)]) ∧ one.who? = some (wh one) ∧ ¬ Deliverable 7 (wh one) one ∧ s1.who? = some (wh s1) ∧
    ¬ Deliverable 0 (wh s1) s1 ∧ t0.vgid ∈ (wh one).gang.groups ∧ (look one.groups 1).isSome ∧ (look one.threads t0).isSome :=
  ⟨issue rfl (by decide +kernel), by unfold Deliverable; decide +kernel, rfl, by decide, rfl, by unfold Deliverable; decide +kernel, rfl,
   by unfold Deliverable; decide +kernel, by decide +kernel, by decide +kernel, by decide +kernel⟩

theorem witness_ReturnFromTrap :
    let s (pc : Word) := handled.updThread t0 (fun th => { th with sys := true, regs := [(58, ⟨pc, .full⟩)] })
    let u : Use := { sys := true, cancel := .never, tret := true }
    Issue (s 8) u [] ∧ Issue (s 4) u [] ∧ (wh (s 8)).k.handler ≠ 0 ∧ bits (bankPair (s 8) t0 26) 2 0 = 0 ∧ (wh (s 4)).k.handler ≠ 0 ∧
    bits (bankPair (s 4) t0 26) 2 0 ≠ 0 :=
  ⟨issue rfl (by decide +kernel), issue rfl (by decide +kernel), by decide +kernel⟩

theorem arrives {s : State} {u : Use} (hw : s.who? = some (wh s))
    (hb : (useCheck (wh s) u = none && (wh s).gang.cancel = none && !accessHeld (wh s) u s && latchGate (wh s).th u = none &&
      (consumed (wh s) u s).isEmpty) = true) : Arrives u (wh s) s := by
  simp only [Bool.and_eq_true, decide_eq_true_eq] at hb
  obtain ⟨⟨⟨⟨h1, h3⟩, h4⟩, h5⟩, h6⟩ := hb
  exact ⟨hw, h1, h3, by simpa using h4, h5, by simpa using h6⟩

/-- An arrival before the seven others. -/
theorem witness_CollectiveArrival :
    (∃ x, LiveIn (wh one) one x ∧ x ≠ t0 ∧ ((one.thread x).st ≠ .waiting ∨ ∀ k c, (one.thread x).wait ≠ .coll k c)) ∧
    Arrives { dst := some (6, 2), collective := true } (wh one) one ∧ DstFree (wh one) one 6 2 ∧
    Arrives { collective := true } (wh one) one ∧ Drained (wh one) one ∧
    (wh (one.updGang 0 (fun x => { x with phase := 1 }))).gang.phase ≠ (wh one).k.phm1 ∧ look (wh one).k.scopes 1 = none :=
  ⟨⟨⟨1, 0, 1⟩, ⟨by decide +kernel, by decide +kernel, by decide +kernel, by decide +kernel⟩, by decide +kernel, .inl (by decide +kernel)⟩,
   arrives rfl (by decide +kernel), dst_of (by decide +kernel),
   arrives rfl (by decide +kernel), by unfold Drained; decide +kernel, by decide +kernel, by decide +kernel⟩

theorem others_of {s : State} {k : CollKind} (c : Option Bool)
    (h : ∀ l, l < (wh s).k.width → l ≠ 0 → (s.thread ⟨1, 0, l⟩).st = .waiting ∧ (s.thread ⟨1, 0, l⟩).wait = .coll k c ∧
      (s.thread ⟨1, 0, l⟩).pc = (wh s).th.pc) : OthersAt k (wh s) s := by
  rintro ⟨v, y, l⟩ ⟨rfl, rfl, hl, -⟩ hx
  have := h l hl (by rintro rfl; exact hx rfl)
  exact ⟨this.1, ⟨c, this.2.1⟩, this.2.2⟩

/-- The last of eight arrives: the others wait at the same PC. -/
theorem witness_CollectiveCompletion :
    let at_ (k : CollKind) (c : Option Bool) : State := lanes one { st := .waiting, wait := .coll k c, pc := 0x10000 }
    let v := at_ (.vote (.ballot 6) false) (some true)
    let bal := st (fun th => { th with wait := .ballot 7 })
    let p := (at_ (.wbar .gang) none).updKernel 0 (fun k => { k with words := k.words.set 8 0x1000010 })
    (Arrives { dst := some (6, 2), collective := true } (wh v) v ∧ (wh v).t.lane < (wh v).k.width ∧
      OthersAt (.vote (.ballot 6) false) (wh v) v ∧ DstFree (wh v) v 6 2) ∧
    (let b := at_ .barr none
     Arrives { collective := true } (wh b) b ∧ OthersAt .barr (wh b) b ∧ Drained (wh b) b) ∧
    Arrives { collective := true } (wh p) p ∧ OthersAt (.wbar .gang) (wh p) p ∧ (wh p).gang.phase ≠ (wh p).k.phm1 ∧
    look (wh p).k.scopes (wh p).gang.phase = none ∧
    (∀ r, (wh v).th.wait ≠ .ballot r) ∧ Arrives { dst := some (6, 2), collective := true } (wh bal) bal ∧ (wh bal).th.wait = .ballot 7 ∧
    DstFree (wh bal) bal 6 2 :=
  ⟨⟨arrives rfl (by decide +kernel), by decide +kernel, others_of (some true) (by decide +kernel),
     dst_of (by decide +kernel)⟩,
   ⟨arrives rfl (by decide +kernel), others_of none (by decide +kernel), by unfold Drained; decide +kernel⟩,
   arrives rfl (by decide +kernel), others_of none (by decide +kernel), by decide +kernel, by decide +kernel, fun _ => nofun,
   arrives rfl (by decide +kernel), rfl, dst_of (by decide +kernel)⟩

/-- Operands of every float form, in 32 and 64 bits: a signalling NaN, an infinity, zeros. -/
theorem witness_FloatResults :
    let s := regs [(2, ⟨0x7F800001, .full⟩), (9, ⟨0x7FF00000, .full⟩)]
    let u3 : Use := { useDAB .f64 6 (.reg 8) (.reg 8) with srcs := [(.a, .reg 8, 2), (.b, .reg 8, 2), (.c, .reg 8, 2)], cycles := 2 }
    let inf : DWord := 0x7FF0000000000000
    Write s { useDAB .f32 5 (.reg 2) (.reg 4) with cycles := floatCycles .f32 } 5 1 [(.reg 2, 1, 0x7F800001), (.reg 4, 1, 0)] ∧
    Write s u3 6 2 [(.reg 8, 2, inf)] ∧
    Write s { srcs := [(.a, .reg 2, 1)], dst := some (5, 1), cycles := floatCycles .f32 } 5 1 [(.reg 2, 1, 0x7F800001)] ∧
    Write s { useDAw .f32 5 (.reg 2) (.imm 0x20000) with cycles := floatCycles .f32 } 5 1 [(.reg 2, 1, 0x7F800001), (.imm 0x20000, 1, 0xFFFE0000)] ∧
    Write s { srcs := [(.a, .reg 8, 2)], dst := some (5, 1), cycles := floatCycles .f32 } 5 1 [(.reg 8, 2, inf)] ∧
    Write s { srcs := [(.a, .reg 2, 1), (.b, .reg 4, 1), (.c, .reg 4, 1)], dst := some (5, 1) } 5 1 [(.reg 2, 1, 0x7F800001), (.reg 4, 1, 0)] ∧
    Claim s (useDAB .f32 5 (.reg 2) (.reg 4)) 5 1 [(.reg 2, 1, 0x7F800001), (.reg 4, 1, 0)] ∧
    Claim s (useDA .f64 6 (.reg 8)) 6 2 [(.reg 8, 2, inf)] :=
  ⟨write rfl (by decide +kernel), write rfl (by decide +kernel), write rfl (by decide +kernel), write rfl (by decide +kernel),
    write rfl (by decide +kernel), write rfl (by decide +kernel), claim rfl (by decide +kernel), claim rfl (by decide +kernel)⟩

/-- 2049 lies half way between two FP16 numbers; the even one is 2048. -/
theorem witness_RoundingIsNearestOrDirected :
    fmt16 ∈ [fmt64, fmt32, fmt16, fmtBf, fmtE5, fmtE4] ∧ (-24 : Int) ≤ 0 ∧ (-24 : Int) ≤ fmt16.qmin ∧
    roundTo fmt16 .rne false false false 2049 0 = (0x6800, 0x10) ∧ unpack fmt16 0x6800 = .num false 1024 1 ∧
    unpack fmt16 0x6801 = .num false 1025 1 ∧ 0x6801 < 2 ^ fmt16.width :=
  by decide +kernel

theorem witness_FloatComparisonAndControlWord :
    let s := regs [(2, ⟨0x7FC00000, .full⟩)]
    Issue s { srcs := [(.a, .reg 2, 1), (.b, .reg 3, 1)], cycles := floatCycles .f32 } [(.reg 2, 1, 0x7FC00000), (.reg 3, 1, 0)] ∧
    Write s { srcs := [], dst := some (5, 1) } 5 1 [] ∧
    Write s { srcs := [(.b, .imm 0x3F, 1)], dst := some (5, 1) } 5 1 [(.imm 0x3F, 1, 0x3F)] ∧
    Issue s { srcs := [(.b, .imm 0x7FF, 1)] } [(.imm 0x7FF, 1, 0x7FF)] ∧ (∀ q ∈ s.results, q.tid = (wh s).t → q.float = false) :=
  ⟨issue rfl (by decide +kernel), write rfl (by decide +kernel), write rfl (by decide +kernel), issue rfl (by decide +kernel),
    by decide +kernel⟩

theorem list_of {s : State} {d n : Nat} (h : (upto 0 n).all (fun j => (regGet s t0 (d + j)).tag != .pend) = true) :
    ∀ i, inList d n i = true → (regGet s (wh s).t i).tag ≠ .pend := by
  intro i hi
  simp only [inList, Bool.and_eq_true, decide_eq_true_eq] at hi
  obtain ⟨⟨-, h1⟩, h2⟩ := hi
  obtain ⟨j, rfl⟩ := Nat.exists_eq_add_of_le h1
  have := List.all_eq_true.mp h j (mem_upto (by omega) (Nat.zero_le _))
  change (regGet s t0 (d + j)).tag ≠ .pend
  simpa using this

/-- A block of zeros in v16 to v31; the last element and the last pair; codes of a whole block; a codebook and its entries 0 to 8. -/
theorem witness_FormatAndCodebookResults :
    let s := regs [(16, ⟨0x01000001, .full⟩)]
    let s1 := regs [(16, ⟨0x20000020, .full⟩)]
    let ud (n : BitVec 18) : Use := { srcs := [(.b, .imm n, 1)], named := [(16, 1)], dst := some (5, 1), lists := fun _ _ => [(16, 16)] }
    let ue : Use := { ud 1 with lists := encWords 16 (.imm 1) }
    let ub : Use := { named := [(16, 1)], dst := some (5, 1), lists := fun _ _ => [(16, 16)] }
    let un : Use := { srcs := [(.a, .reg 20, 4)], dst := some (5, 1) }
    Claim s (ud 59) 5 1 [(.imm 59, 1, 59)] ∧ Claim s1 (ud 28) 5 1 [(.imm 28, 1, 28)] ∧ Issue one ue [(.imm 1, 1, 1)] ∧
    (∀ i, inList 5 16 i = true → (regGet one t0 i).tag ≠ .pend) ∧ Claim s ub 5 1 [] ∧
    Claim s { srcs := [(.a, .imm 0x3F, 1)], dst := some (5, 4) } 5 4 [(.imm 0x3F, 1, 0x3F)] ∧ Write s un 5 1 [] ∧
    Issue s { named := [(20, 1)], lists := fun _ _ => [(20, 8)] } [] ∧
    ReadsList { named := [(20, 1)], lists := fun _ _ => [(20, 8)] } (wh s) s 20 8 [0, 0, 0, 0, 0, 0, 0, 0] ∧
    Write s { srcs := [(.b, .imm 7, 1)], dst := some (5, 1) } 5 1 [(.imm 7, 1, 7)] ∧
    Write s { srcs := [(.b, .imm 8, 1)], dst := some (5, 1) } 5 1 [(.imm 8, 1, 8)] ∧
    Write s { srcs := [(.b, .imm 9, 1)], dst := some (5, 1) } 5 1 [(.imm 9, 1, 9)] ∧
    (readBlock (wh s) (advance (wh s) (ud 59) s) 16 .e4m3 0).isOk = true ∧ 59 < elemCount .e4m3 ∧
    (readBlock (wh s1) (advance (wh s1) (ud 28) s1) 16 .bf16 0).isOk = true ∧ ownAccOn one t0 5 16 = false ∧
    fmtElem (bits (1 : DWord) 7 0) = some .e4m3 ∧ (listRead (wh one) (advance (wh one) ue one) 16 60).isOk = true ∧
    (readBlock (wh s) (advance (wh s) ub s) 16 .e4m3 0).isOk = true ∧
    (quad (wh s) (advance (wh s) un s) (.reg 20)).toOption.map (·.1) = some [0, 0, 0, 0] :=
  ⟨claim rfl (by decide +kernel), claim rfl (by decide +kernel), issue rfl (by decide +kernel), (list_of (s := one) (by decide +kernel)),
    claim rfl (by decide +kernel), claim rfl (by decide +kernel), write rfl (by decide +kernel), issue rfl (by decide +kernel), rfl,
    write rfl (by decide +kernel), write rfl (by decide +kernel), write rfl (by decide +kernel), by decide +kernel⟩

/-- A condition on the words of an operand, from the words one by one. -/
theorem words_of {s : State} {d n : Nat} {P : Tag → Bool} (h : (upto 0 n).all (fun j => d = 0 || P (regGet s t0 (d + j)).tag) = true) :
    ∀ i, inDst d n i = true → P (regGet s (wh s).t i).tag = true := by
  intro i hi
  simp only [inDst, Bool.and_eq_true, decide_eq_true_eq] at hi
  obtain ⟨⟨h0, h1⟩, h2⟩ := hi
  obtain ⟨j, rfl⟩ := Nat.exists_eq_add_of_le h1
  have := List.all_eq_true.mp h j (mem_upto (by omega) (Nat.zero_le _))
  change P (regGet s t0 (d + j)).tag = true
  simpa [h0] using this

theorem own_of {s : State} {d n : Nat} {v : DWord}
    (h : ((upto 0 n).all (fun j => d = 0 || ((regGet s t0 (d + j)).tag != .pend && (regGet s t0 (d + j)).tag != .poison)) &&
      !ownAccOn s t0 d n) = true)
    (hv : loWord v = (if d = 0 then 0 else (regGet s t0 d).val) ∧ hiWord v = (if d = 0 ∨ n ≠ 2 then 0 else (regGet s t0 (d + 1)).val)) :
    OwnValue (wh s) s d n v := by
  obtain ⟨hp, ha⟩ := Bool.and_eq_true _ _ ▸ h
  exact ⟨fun _ => (by simpa using ha : ownAccOn s t0 d n = false), fun i hi => by simpa using words_of (P := fun g => g != .pend && g != .poison) hp i hi, hv.1, hv.2⟩

theorem tagged_of {s : State} {d n : Nat} {g : Tag} (h : (upto 0 n).all (fun j => d = 0 || (regGet s t0 (d + j)).tag == g) = true) :
    AllTagged (wh s) s d n g := fun i hi => by simpa using words_of (P := fun x => x == g) h i hi

/-- Addresses of a bank, of the attic, and of none; the last register and the first beyond; FULL and EMPTY words for TAKE and GIVE, and each where the other is asked for; runs of tags
that end at the last register, and one beyond. -/
theorem witness_RegisterSpaceResults :
    let s := regs [(4, ⟨7, .full⟩), (5, ⟨8, .full⟩), (511, ⟨9, .full⟩)]
    let urd (b : BitVec 18) (n : Nat) : Use :=
      { srcs := [(.b, .imm b, 1)], named := [(0, 1)], dst := some (6, n), lists := indexedWords (if n = 1 then .z32 else .z64) 0 (.imm b) }
    let uwr (b : BitVec 18) : Use := { srcs := [(.a, .imm b, 1), (.b, .reg 4, 1)], named := [(0, 1)] }
    let utk (i : Nat) : Use := { named := [(i, 2)], dst := some (6, 2), cancel := .always }
    let ugv (i : Nat) : Use := { srcs := [(.a, .reg 4, 2)], named := [(i, 2)], cancel := .always }
    let uts (n : BitVec 18) : Use := { srcs := [(.b, .imm n, 1)], named := [(510, 1)] }
    let utq (i : Nat) : Use := { named := [(i, 1)], dst := some (6, 1) }
    Write s (urd 511 1) 6 1 [(.imm 511, 1, 511)] ∧ OwnValue (wh s) s 511 1 9 ∧ Write s (urd 4 2) 6 2 [(.imm 4, 1, 4)] ∧
    OwnValue (wh s) s 4 2 0x800000007 ∧ Write s (urd 512 1) 6 1 [(.imm 512, 1, 512)] ∧ Write s (urd 5 2) 6 2 [(.imm 5, 1, 5)] ∧
    Issue s (uwr 511) [(.imm 511, 1, 511), (.reg 4, 1, 7)] ∧ DstFree (wh s) s 511 1 ∧
    Issue s (uwr 512) [(.imm 512, 1, 512), (.reg 4, 1, 7)] ∧ Issue s (utk 4) [] ∧ AllTagged (wh s) s 4 2 .full ∧ DstFree (wh s) s 6 2 ∧
    Issue s (utk 8) [] ∧ ¬ AllTagged (wh s) s 8 2 .full ∧ Issue s (ugv 8) [(.reg 4, 2, 0x800000007)] ∧ Drained (wh s) s ∧
    AllTagged (wh s) s 8 2 .empty ∧ Issue s (ugv 4) [(.reg 4, 2, 0x800000007)] ∧ ¬ AllTagged (wh s) s 4 2 .empty ∧
    Issue s (uts 2) [(.imm 2, 1, 2)] ∧ (∀ i, (wh s).th.wait ≠ .tags i) ∧ (∀ i, inList 510 2 i = true → (regGet s t0 i).tag ≠ .pend) ∧
    Issue s (uts 3) [(.imm 3, 1, 3)] ∧ Write s (utq 496) 6 1 [] ∧ Write s (utq 497) 6 1 [] ∧
    (1 < 48 ∧ 2 < 24 ∧ 3 < 64 ∧ 8191 < 8192 ∧ bits (0x80000000 : Word) 31 30 = 2) ∧ ownAccOn s t0 8 2 = false ∧
    ownAccOn s t0 510 2 = false ∧ (regGet s t0 511).tag = .full ∧ bits (0x40000000 : DWord) 31 30 = 1 :=
  ⟨write rfl (by decide +kernel), (own_of (by decide +kernel) (by decide +kernel)), write rfl (by decide +kernel),
    (own_of (by decide +kernel) (by decide +kernel)), write rfl (by decide +kernel), write rfl (by decide +kernel),
    issue rfl (by decide +kernel), dst_of (by decide +kernel), issue rfl (by decide +kernel), issue rfl (by decide +kernel),
    (tagged_of (by decide +kernel)), dst_of (by decide +kernel), issue rfl (by decide +kernel),
    (fun h => absurd (h 8 rfl) (by decide +kernel)), issue rfl (by decide +kernel), (by unfold Drained; decide +kernel),
    (tagged_of (by decide +kernel)), issue rfl (by decide +kernel), (fun h => absurd (h 4 rfl) (by decide +kernel)),
    issue rfl (by decide +kernel), (fun _ => nofun), (list_of (by decide +kernel)), issue rfl (by decide +kernel),
    write rfl (by decide +kernel), write rfl (by decide +kernel), by decide +kernel⟩

/-- A kernel of one window; none free, the first free, every slot of the core taken, and every slot reserved; a window of the own group; no cluster and one. -/
theorem witness_WindowExportRevokeAndMulticast :
    let win (x : Slot) : State := (one.updKernel 0 (fun k => { k with words := k.words.set 11 1 })).updCore 0 (fun c => { c with slots := [(0, x)] })
    let open0 : Slot := ⟨t0, 0, 0, true, false, false, ⟨true, true, true, true⟩, 1, 4, 0⟩
    let s := win {}
    let full := (win {}).updCore 0 (fun c => { c with slots := (upto 0 256).map (fun i => (i, { open0 with owner := ⟨9, 0, 0⟩ })) })
    let kept : State := { s with gangs := s.gangs ++ [(3, { kernel := 0, idx := 1, st := .placed, slotCores := List.replicate 256 0 })] }
    let u (n : BitVec 18) : Use := { srcs := [(.b, .imm n, 1)], named := [(4, 1)], dst := some (6, 1) }
    let m := ((win open0).updPart 0 (fun p => { p with clu := 1 })).updThread t0 (fun th => { th with regs := [(2, ⟨0x20, .full⟩), (4, ⟨1, .full⟩)] })
    let uv : Use := { srcs := [(.a, .reg 2, 1)] }
    let um (b : BitVec 9) : Use := { srcs := [(.a, .reg 2, 1), (.b, .reg b, 2), (.c, .reg 8, 2)], dst := some (6, 1) }
    Claim one (u 1) 6 1 [(.imm 1, 1, 1)] ∧ Claim s (u 508) 6 1 [(.imm 508, 1, 508)] ∧ Claim kept (u 1) 6 1 [(.imm 1, 1, 1)] ∧
    Claim s (u 509) 6 1 [(.imm 509, 1, 509)] ∧ Claim s (u 0) 6 1 [(.imm 0, 1, 0)] ∧ Claim full (u 1) 6 1 [(.imm 1, 1, 1)] ∧
    Issue m uv [(.reg 2, 1, 0x20)] ∧ Issue one uv [(.reg 2, 1, 0)] ∧
    Claim m (um 10) 6 1 [(.reg 2, 1, 0x20), (.reg 10, 2, 0), (.reg 8, 2, 0)] ∧ NoTake (wh m) m ∧
    Claim m (um 4) 6 1 [(.reg 2, 1, 0x20), (.reg 4, 2, 1), (.reg 8, 2, 0)] ∧ (wh one).k.windows ≤ (openSlots one 1).length ∧
    (openSlots s 1).length < (wh s).k.windows ∧ (slotAt s 0 0).opened = false ∧ s.accs = [] ∧ slotLeft s 0 (wh s).gk = true ∧
    slotLeft kept 0 (wh kept).gk = false ∧ (openSlots full 1).length < (wh full).k.windows ∧
    (∀ i, i < 256 → (slotAt full 0 i).opened = true) ∧ handleCheck m (wh m) 0x20 = none ∧ (slotAt m 0 0).owner.vgid = (wh m).t.vgid ∧
    (∀ q ∈ m.accs, q.slot ≠ some (0, 0)) ∧ handleCheck one (wh one) 0 = some 2 ∧
    (handleCheck full (wh full) 0x20 = none ∧ (slotAt full 0 0).owner.vgid ≠ 1) ∧ mcastTarget m (wh m) 0x20 0 0 ≠ none ∧
    (m.part (wh m).k.part).clu.getLsbD 0 = true :=
  ⟨claim rfl (by decide +kernel), claim rfl (by decide +kernel), claim rfl (by decide +kernel), claim rfl (by decide +kernel),
    claim rfl (by decide +kernel), claim rfl (by decide +kernel), issue rfl (by decide +kernel), issue rfl (by decide +kernel),
    claim rfl (by decide +kernel), (by unfold NoTake; decide +kernel), claim rfl (by decide +kernel), by decide +kernel⟩

/-- A window of two words: its last word and last pair, and one beyond it; the last lane and one beyond it. -/
theorem witness_WindowAndLaneAccesses :
    let slot : Slot := ⟨t0, 0, 0, true, false, false, ⟨true, true, true, true⟩, 1, 4, 1⟩
    let s := (one.updCore 0 (fun c => { c with slots := [(0, slot)] })).updThread t0 (fun th => { th with regs := [(2, ⟨0x20, .full⟩)] })
    let acc (o : BitVec 18) (r : Right) : Prop := windowCheck s (wh s) 0x20 (o.toNat) 1 r = none
    Claim s (useRead .z32 6 (.reg 2) (.imm 1)) 6 1 [(.reg 2, 1, 0x20), (.imm 1, 1, 1)] ∧ NoTake (wh s) s ∧ acc 1 .read ∧ acc 1 .take ∧
    acc 1 .write ∧ acc 1 .give ∧ Claim s (useRead .z64 6 (.reg 2) (.imm 0)) 6 2 [(.reg 2, 1, 0x20), (.imm 0, 1, 0)] ∧
    Claim s { useRead .z32 6 (.reg 2) (.imm 2) with cancel := .always } 6 1 [(.reg 2, 1, 0x20), (.imm 2, 1, 2)] ∧
    Issue s (useWrite .z32 (.reg 2) (.imm 1) (.reg 2)) [(.reg 2, 1, 0x20), (.imm 1, 1, 1)] ∧
    Issue s { useWrite .z32 (.reg 2) (.imm 1) (.reg 2) with cancel := .always } [(.reg 2, 1, 0x20), (.imm 1, 1, 1)] ∧ Drained (wh s) s ∧
    Claim s { srcs := [(.a, .imm 7, 1)], remote := [(511, 1)], dst := some (6, 1) } 6 1 [(.imm 7, 1, 7)] ∧
    Claim s { srcs := [(.a, .imm 8, 1)], remote := [(511, 1)], dst := some (6, 1) } 6 1 [(.imm 8, 1, 8)] ∧
    Issue s { srcs := [(.a, .imm 7, 1), (.b, .reg 2, 1)], remote := [(511, 1)] } [(.imm 7, 1, 7), (.reg 2, 1, 0x20)] ∧
    Issue s { srcs := [(.a, .imm 8, 1), (.b, .reg 2, 1)], remote := [(511, 1)] } [(.imm 8, 1, 8), (.reg 2, 1, 0x20)] ∧
    0 + 1 ≤ slot.lenm1 ∧ windowCheck s (wh s) 0x20 2 1 .read = some 8 ∧ (wh s).k.width = 8 :=
  ⟨claim rfl (by decide +kernel), (by unfold NoTake; decide +kernel), (by show _ = _; decide +kernel), (by show _ = _; decide +kernel),
    (by show _ = _; decide +kernel), (by show _ = _; decide +kernel), claim rfl (by decide +kernel), claim rfl (by decide +kernel),
    issue rfl (by decide +kernel), issue rfl (by decide +kernel), (by unfold Drained; decide +kernel), claim rfl (by decide +kernel),
    claim rfl (by decide +kernel), issue rfl (by decide +kernel), issue rfl (by decide +kernel), by decide +kernel⟩

/-- Page tables that map the first page to physical 0x80000 for reading and writing: directory, three levels and a leaf. -/
abbrev paged : State :=
  { one with mem := [(0, 1), (2, 4), (0x40000, 1), (0x40001, 0x50), (0x50000, 1), (0x50001, 0x60), (0x60000, 1), (0x60001, 0x70), (0x70000, 0x0F),
      (0x70001, 0x80)] }
/-- The same with these register words. -/
abbrev pregs (l : Tab RegWord) : State := paged.updThread t0 (fun th => { th with regs := l })

/-- A walk that succeeds, whose leaf allows a write; one that a check stops; one that fails. -/
theorem witness_TranslationFromMemory :
    let c := (wh paged).ctx
    let l : Leaf := ⟨0x800F, 0x70000, 3, 0⟩
    walk paged c 0 = .ok l ∧ walk one c 0 = .error (.walk 1 15) ∧ cacheHit paged c 0 = none ∧
    leafCheck paged c l.e 0x80000 .write (some .g) = none ∧ leafCheck paged c l.e 0x80000 .write (some .f) ≠ none ∧
    Memory.wf paged.mem = true ∧ l.at_ + 8 ≤ devBytes ∧ read64 paged l.at_ = l.e ∧ cacheHit one c 0 = none :=
  ⟨rfl, rfl, by decide +kernel⟩

/-- Aligned and misaligned addresses, a page that is mapped and one that is not, and 32 entries. -/
theorem witness_LoadsAndStoresIssue :
    let s := pregs [(2, ⟨2, .full⟩), (4, ⟨0xFFF8, .full⟩)]
    let ul (a : BitVec 9) : Use := { srcs := [(.a, .reg a, 2)], dst := some (6, 2) }
    let us (a : BitVec 9) : Use := { srcs := [(.a, .reg a, 2), (.b, .reg 8, 2)] }
    let busy : State := { s with loads := List.replicate 32 ⟨0, t0, 0, .z32, 0, 0, [], [], none, .relaxed, false, 0⟩ }
    let stored := s.updGroup 1 (fun q => { q with queue := List.replicate 32 ⟨0, t0, 0, 0, 4, [], .relaxed, none, false, 0, false⟩ })
    let ok (s : State) (u : Use) (va : Nat) (need : Need) : Bool := (translateRange (advance (wh s) u s) (wh s).ctx va 8 need (some .g)).isOk
    Claim s (ul 2) 6 2 [(.reg 2, 2, 2)] ∧ NoTake (wh s) s ∧ Claim s (ul 4) 6 2 [(.reg 4, 2, 0xFFF8)] ∧
    Claim busy (ul 4) 6 2 [(.reg 4, 2, 0xFFF8)] ∧ Issue s (us 2) [(.reg 2, 2, 2)] ∧ Issue s (us 4) [(.reg 4, 2, 0xFFF8)] ∧
    StoreWords (us 4) (wh s) s (.reg 8) 2 [0, 0] ∧ Issue stored (us 4) [(.reg 4, 2, 0xFFF8)] ∧ (2 : Nat) % accessBytes .z64 .a8 ≠ 0 ∧
    ok s (ul 4) 0xFFF8 .read = true ∧ (s.loads.filter (fun l => l.tid = t0)).length < 32 ∧ ok one (ul 4) 0xFFF8 .read = false ∧
    ok busy (ul 4) 0xFFF8 .read = true ∧ 32 ≤ (busy.loads.filter (fun l => l.tid = t0)).length ∧ ok s (us 4) 0xFFF8 .write = true ∧
    ok stored (us 4) 0xFFF8 .write = true ∧ 32 ≤ ((stored.group 1).queue.filter (fun e => e.tid = t0)).length :=
  ⟨claim rfl (by decide +kernel), (by unfold NoTake; decide +kernel), claim rfl (by decide +kernel), claim rfl (by decide +kernel),
    issue rfl (by decide +kernel), issue rfl (by decide +kernel), rfl, issue rfl (by decide +kernel), by decide +kernel⟩

theorem hit_one : cacheHit one (wh one).ctx 0x10000 = some ⟨0, 0, 0x10000, 0x10000, 0x105F, 0, 0⟩ := by decide +kernel

/-- An address that translates, a misaligned one, one that does not translate, and one in the far tier; the last count of elements; a word of
a window. -/
theorem witness_AtomicsIssue :
    let s := pregs [(2, ⟨2, .full⟩)]
    let u2 (a : BitVec 9) : Use := { srcs := [(.a, .reg a, 2), (.b, .reg 8, 1)], dst := some (6, 1) }
    let u3 : Use := { srcs := [(.a, .reg 4, 2), (.b, .reg 8, 1), (.c, .reg 9, 1)], dst := some (6, 1) }
    let ur (a : BitVec 9) : Use := { srcs := [(.a, .reg a, 2), (.b, .reg 8, 1)] }
    let uv (d : Nat) : Use := { srcs := [(.a, .reg 4, 2)], named := [(480, 1)], dst := some (d, 1), lists := fun _ _ => [(480, 32)] }
    let ok (s : State) (u : Use) (va : Nat) : Bool := (translate (advance (wh s) u s) (wh s).ctx va .atomic (some .g)).isOk
    let far : State := { one with tlbs := [(0, [⟨0, 0, 0, 0x10000, 0x10000000105F, 0, 0⟩])] }
    let at1 : State := regs [(2, ⟨0x10000, .full⟩)]
    let win := (one.updCore 0 (fun c => { c with slots := [(0, ⟨t0, 0, 0, true, false, false, ⟨true, true, true, true⟩, 1, 4, 1⟩)] })).updThread t0
      (fun th => { th with regs := [(2, ⟨0x20, .full⟩)] })
    let uw : Use := { srcs := [(.a, .reg 2, 1), (.b, .imm 1, 1), (.c, .imm 3, 1)], dst := some (6, 1) }
    Claim s (u2 4) 6 1 [(.reg 4, 2, 0), (.reg 8, 1, 0)] ∧ NoTake (wh s) s ∧ Drained (wh s) s ∧
    Claim s (u2 2) 6 1 [(.reg 2, 2, 2), (.reg 8, 1, 0)] ∧ Claim s u3 6 1 [(.reg 4, 2, 0), (.reg 8, 1, 0), (.reg 9, 1, 0)] ∧
    Issue at1 (ur 2) [(.reg 2, 2, 0x10000), (.reg 8, 1, 0)] ∧
    (∀ e, cacheHit one (wh one).ctx 0x10000 = some e → (place (frameOf e.leaf + (0x10000 - e.va))).space = some .g) ∧
    Issue far (ur 4) [(.reg 4, 2, 0), (.reg 8, 1, 0)] ∧
    (¬ ∀ e, cacheHit far (wh far).ctx 0 = some e → (place (frameOf e.leaf + (0 - e.va))).space = some .g) ∧
    Issue s (uv 448) [(.reg 4, 2, 0)] ∧ ReadsList (uv 448) (wh s) s 480 32 (List.replicate 32 0) ∧ Issue s (uv 481) [(.reg 4, 2, 0)] ∧
    Claim win uw 6 1 [(.reg 2, 1, 0x20), (.imm 1, 1, 1), (.imm 3, 1, 3)] ∧ ok s (u2 4) 0 = true ∧ ok one (u2 4) 0 = false ∧
    ((at1.group 1).queue.filter (fun e => e.tid = t0)).length < 32 ∧ (wh s).th.resuming = false ∧ 480 + 32 ≤ (wh s).k.regs ∧
    ok s (uv 448) 0 = true ∧ (wh s).k.regs < 481 + 32 ∧ windowCheck win (wh win) 0x20 1 1 .readWrite = none ∧
    (regGet win t0 5).tag ≠ .poison :=
  ⟨claim rfl (by decide +kernel), (by unfold NoTake; decide +kernel), (by unfold Drained; decide +kernel), claim rfl (by decide +kernel),
    claim rfl (by decide +kernel), issue rfl (by decide +kernel), (fun e h => by rw [hit_one] at h; cases h; decide +kernel),
    issue rfl (by decide +kernel), (fun h => absurd (h ⟨0, 0, 0, 0x10000, 0x10000000105F, 0, 0⟩ (by decide +kernel)) (by decide +kernel)),
    issue rfl (by decide +kernel), rfl, issue rfl (by decide +kernel), claim rfl (by decide +kernel), by decide +kernel⟩

/-- A count reached and one exceeded; loads that have returned and one that has not; a tick that has come and one that has not; a monitor that
has fired, one that has not, and none. -/
theorem witness_QueueFenceAndMonitorInstructions :
    let s : State := { one with loads := [⟨0, t0, 6, .z32, 0, 0, [(0, 4)], [], none, .relaxed, false, 0⟩] }
    let m (f : Bool) : State := st (fun th => { th with monitor := some ⟨f, false, 0x80000, t0, 0, false⟩ })
    let q (n : BitVec 18) : Use := { srcs := [(.b, .imm n, 1)], cancel := .never }
    let um (n : BitVec 18) : Use := { srcs := [(.b, .imm n, 1)], dst := some (6, 1), cancel := .always }
    let uh (n : BitVec 18) : Use := { srcs := [(.b, .imm n, 1)], cancel := .always }
    let fence (x : Option Nat) : State := st (fun th => { th with wait := .fencesc 1 0 x })
    let ug : Use := { srcs := [(.a, .reg 4, 2)] }
    let mon (n : Word) : State := paged.updKernel 0 (fun k => { k with words := k.words.set 10 n })
    let win := (one.updCore 0 (fun c => { c with slots := [(0, ⟨t0, 0, 0, true, false, false, ⟨true, true, true, true⟩, 1, 4, 1⟩)] })).updThread t0
      (fun th => { th with regs := [(2, ⟨0x20, .full⟩)] })
    Issue s (q 1) [(.imm 1, 1, 1)] ∧ Issue s (q 0) [(.imm 0, 1, 0)] ∧ Issue one {} [] ∧ Issue s {} [] ∧ NoTake (wh win) win ∧
    Drained (wh one) one ∧ (∀ m c t, (wh one).th.wait ≠ .fencesc m c t) ∧ Issue (fence none) {} [] ∧ Issue (fence (some 0)) {} [] ∧
    Issue (fence (some 1)) {} [] ∧ Issue one (uh 0) [(.imm 0, 1, 0)] ∧ Issue one (uh 1) [(.imm 1, 1, 1)] ∧
    Write one (um 0) 6 1 [(.imm 0, 1, 0)] ∧ Write (m true) (um 0) 6 1 [(.imm 0, 1, 0)] ∧ Write (m false) (um 0) 6 1 [(.imm 0, 1, 0)] ∧
    Write (m false) (um 1) 6 1 [(.imm 1, 1, 1)] ∧ (∀ c e, (wh (m false)).th.wait ≠ .mwait c e) ∧ Issue (mon 0x10000) ug [(.reg 4, 2, 0)] ∧
    Issue (mon 0) ug [(.reg 4, 2, 0)] ∧ Issue win { srcs := [(.a, .reg 2, 1), (.b, .imm 1, 1)] } [(.reg 2, 1, 0x20), (.imm 1, 1, 1)] ∧
    (s.loads.filter (fun l => l.tid = t0)).length = 1 ∧ (∀ l ∈ one.loads, l.tid ≠ t0) ∧ (∀ q ∈ one.atomics, q.tid ≠ t0) ∧
    (¬ ∀ l ∈ s.loads, l.tid ≠ t0) ∧ (∀ a ∈ one.accs, a.tid ≠ t0) ∧ (wh (fence none)).th.wait = .fencesc 1 0 none ∧ 0 ≤ one.hbt ∧
    (fence (some 1)).hbt < 1 ∧ (wh one).th.monitor = none ∧ (wh (m true)).th.monitor.isSome ∧
    (translate (advance (wh (mon 0x10000)) ug (mon 0x10000)) (wh paged).ctx 0 .read (some .g)).isOk = true ∧
    (wh (mon 0x10000)).k.fr = false ∧ (wh (mon 0x10000)).k.monitors = 1 ∧ (wh (mon 0)).k.monitors = 0 ∧
    (translate (advance (wh one) ug one) (wh one).ctx 0 .read (some .g)).isOk = false ∧ windowCheck win (wh win) 0x20 1 1 .read = none :=
  ⟨issue rfl (by decide +kernel), issue rfl (by decide +kernel), issue rfl (by decide +kernel), issue rfl (by decide +kernel),
    (by unfold NoTake; decide +kernel), (by unfold Drained; decide +kernel), (fun _ _ _ => nofun), issue rfl (by decide +kernel),
    issue rfl (by decide +kernel), issue rfl (by decide +kernel), issue rfl (by decide +kernel), issue rfl (by decide +kernel),
    write rfl (by decide +kernel), write rfl (by decide +kernel), write rfl (by decide +kernel), write rfl (by decide +kernel),
    (fun _ _ => nofun), issue rfl (by decide +kernel), issue rfl (by decide +kernel), issue rfl (by decide +kernel), by decide +kernel⟩

/-- A kernel of one barrier; an object of one and of no awaited arrival, in a window of its own four words; counts 0, 65,535 and 65,536. -/
theorem witness_BarrierObjects :
    let k1 := one.updKernel 0 (fun k => { k with words := k.words.set 10 1 })
    let u (d : Nat) (n : BitVec 9) : Use := { srcs := [(.b, .reg n, 1)], named := [(d, 1)] }
    let s := k1.updThread t0 (fun th => { th with regs := [(3, ⟨0xFFFF, .full⟩), (2, ⟨0x10000, .full⟩)] })
    let has : State := { s with barriers := [⟨0, t0, 4, .gang, false⟩] }
    let obj (p : Word) : State := { has with cores := put has.cores 0 { (has.core 0) with slots := [(0, ⟨t0, 0, 0, true, false, false, ⟨true, true, true, true⟩, 1, 4, 3⟩)] } }.updThread t0
      (fun th => { th with regs := [(2, ⟨0x20, .full⟩), (4, ⟨0, .full⟩), (5, ⟨0, .full⟩), (6, ⟨0x10000000, .full⟩), (7, ⟨p * 4096, .full⟩)], links := [⟨10, 0, 0⟩] })
    let o1 := (obj 1).updCluster 0 (fun c => { c with ce := [{ copy0 with total := some 4 }] })
    let ur : Use := { srcs := [(.a, .reg 2, 1), (.b, .imm 0, 1)], dst := some (9, 1) }
    let uw (z : BitVec 18) : Use := { srcs := [(.a, .reg 2, 1), (.b, .imm 0, 1), (.c, .imm z, 1)], cancel := .always }
    let ux (c : BitVec 9) : Use := { srcs := [(.a, .reg 2, 1), (.b, .imm 0, 1), (.c, .reg c, 2)] }
    let at1 (s : State) : Prop := ObjectAt s t0 4 (barGet s t0 4)
    let waits : State := (lanes has { wait := .barrier t0 4 }).updKernel 0 (fun k => { k with words := [0x10000, 0, 0x20000] ++ k.words.drop 3 })
    let o2 : State := { o1 with threads := o1.threads ++ [(⟨1, 0, 1⟩, { st := .waiting, wait := .barrier t0 4 })] }
    let posted := o1.updThread t0 (fun th => { th with wait := .posted })
    Issue s (u 5 3) [(.reg 3, 1, 0xFFFF)] ∧ Issue s (u 0 3) [(.reg 3, 1, 0xFFFF)] ∧ Issue one (u 508 3) [(.reg 3, 1, 0)] ∧
    Issue s (u 4 2) [(.reg 2, 1, 0x10000)] ∧ Issue has (u 4 8) [(.reg 8, 1, 0)] ∧ Issue s (u 4 8) [(.reg 8, 1, 0)] ∧
    Issue has (u 4 3) [(.reg 3, 1, 0xFFFF)] ∧ Issue s (u 4 3) [(.reg 3, 1, 0xFFFF)] ∧ at1 (obj 0) ∧ at1 o1 ∧ NoTake (wh o1) o1 ∧
    (∀ g, (wh o1).th.wait ≠ .counted g) ∧ Issue waits (u 4 8) [(.reg 8, 1, 0)] ∧
    (∀ y ∈ barWaiters waits t0 4, y ≠ t0 → Deliverable 2 (waits.who y) waits) ∧ Write o1 ur 9 1 [(.reg 2, 1, 0x20), (.imm 0, 1, 0)] ∧
    Drained (wh o1) o1 ∧ Issue o1 (uw 0) [(.reg 2, 1, 0x20), (.imm 0, 1, 0)] ∧ Issue o1 (uw 1) [(.imm 1, 1, 1)] ∧
    Issue o1 (ux 12) [(.reg 2, 1, 0x20), (.imm 0, 1, 0), (.reg 12, 2, 0)] ∧ Issue o1 (ux 10) [(.reg 10, 2, 0)] ∧
    Issue posted (uw 0) [(.imm 0, 1, 0)] ∧ at1 o2 ∧ Write o2 ur 9 1 [] ∧ 508 + 3 < (wh one).k.regs ∧ (wh s).k.fr = false ∧
    (wh s).k.barriers = 1 ∧ s.barriers = [] ∧ (wh one).k.barriers = 0 ∧ (∀ j, j < 4 → (regGet s t0 (4 + j)).tag ≠ .pend) ∧
    t0 ∉ deferred o1 t0 4 ∧ (∀ y ∈ barWaiters has t0 4, y = t0) ∧ ownAccOn s t0 4 4 = false ∧ (barGet o1 t0 4).pending = 1 ∧
    (barGet (obj 0) t0 4).pending = 0 ∧ windowCheck o1 (wh o1) 0x20 0 1 .readWrite = none ∧ windowCheck o1 (wh o1) 0x20 0 1 .read = none ∧
    (barGet o1 t0 4).gen = 0 ∧ (∀ l ∈ (wh o1).th.links, l.pair ≠ 12) ∧ (wh o1).th.links.find? (fun l => l.pair = 10) = some ⟨10, 0, 0⟩ ∧
    findReq o1 0 0 = some { copy0 with total := some 4 } ∧ (wh o1).th.wait ≠ .posted ∧ waiting o2 ⟨1, 0, 1⟩ = some (.barrier t0 4) ∧
    (barGet o2 t0 4).pending = 1 ∧ (barGet o2 t0 4).inbound = 0 ∧ (barGet o2 t0 4).outbound = 0 :=
  ⟨issue rfl (by decide +kernel), issue rfl (by decide +kernel), issue rfl (by decide +kernel), issue rfl (by decide +kernel),
    issue rfl (by decide +kernel), issue rfl (by decide +kernel), issue rfl (by decide +kernel), issue rfl (by decide +kernel),
    (⟨by decide +kernel, by decide +kernel, by decide +kernel, by decide +kernel, by decide +kernel, rfl, by decide +kernel⟩),
    (⟨by decide +kernel, by decide +kernel, by decide +kernel, by decide +kernel, by decide +kernel, rfl, by decide +kernel⟩),
    (by unfold NoTake; decide +kernel), (fun _ => nofun), issue rfl (by decide +kernel), (by unfold Deliverable; decide +kernel),
    write rfl (by decide +kernel), (by unfold Drained; decide +kernel), issue rfl (by decide +kernel), issue rfl (by decide +kernel),
    issue rfl (by decide +kernel), issue rfl (by decide +kernel), issue rfl (by decide +kernel),
    (⟨by decide +kernel, by decide +kernel, by decide +kernel, by decide +kernel, by decide +kernel, rfl, by decide +kernel⟩),
    write rfl (by decide +kernel), by decide +kernel⟩

/-- A record of one FP32 element that passes every check and one without an operation; tickets of a cluster outside the partition, not yet
issued, ended, on its way, and too old; an engine number and one too large. -/
theorem witness_TileTaskTickets :
    let task (op : Word) : State := (regs [(16, ⟨op + 0x5550000, .full⟩), (17, ⟨0x10000, .full⟩), (18, ⟨0x228, .full⟩), (20, ⟨0x229, .full⟩), (22, ⟨0x22A, .full⟩)])
    let um : Use := { named := [(16, 1)], dst := some (6, 2), lists := fun _ _ => [(16, 16)] }
    let ws (op : Word) : List Word := [op + 0x5550000, 0x10000, 0x228, 0, 0x229, 0, 0x22A, 0, 0, 0, 0, 0, 0, 0, 0, 0]
    let s := task 2
    let gs := (recRegions (recOf (ws 2))).map (fun q => regionOf (wh s) (advance (wh s) um s) ((ws 2).getD q.1 0) ((ws 2).getD (q.1 + 1) 0))
    let q0 : MtTask := { home := 0, seq := 1, order := 0, tid := t0, kernel := 0, words := [], regions := [] }
    let m (seq : Word) : State := ((one.updPart 0 (fun p => { p with clu := 1 })).updCluster 0 (fun c => { c with mtSeq := 4098, mt := [q0], stamps := [(2, (.done, 7))] })).updThread t0
      (fun th => { th with regs := [(2, ⟨seq, .full⟩)] })
    let far := (m 2).updPart 0 (fun p => { p with clu := 0 })
    let uw : Use := { srcs := [(.a, .reg 2, 2)], dst := some (8, 2), cancel := .always }
    let uq : Use := { srcs := [(.a, .reg 2, 2)], dst := some (8, 1) }
    let ue (n : BitVec 18) : Use := { srcs := [(.a, .imm n, 1)], dst := some (8, 1) }
    Write s um 6 2 [] ∧ NoTake (wh s) s ∧ ReadsList um (wh s) s 16 16 (ws 2) ∧ Write (task 0) um 6 2 [] ∧
    ReadsList um (wh (task 0)) (task 0) 16 16 (ws 0) ∧ Write far uw 8 2 [(.reg 2, 2, 2)] ∧ Write (m 4098) uw 8 2 [(.reg 2, 2, 4098)] ∧
    Write (m 2) uw 8 2 [(.reg 2, 2, 2)] ∧ Write (m 3) uw 8 2 [(.reg 2, 2, 3)] ∧ Write (m 1) uw 8 2 [(.reg 2, 2, 1)] ∧
    Claim (m 2) uq 8 1 [(.reg 2, 2, 2)] ∧ Claim (m 1) uq 8 1 [(.reg 2, 2, 1)] ∧ Claim one (ue 7) 8 1 [(.imm 7, 1, 7)] ∧
    Claim one (ue 8) 8 1 [(.imm 8, 1, 8)] ∧
    (∀ q ∈ gs.zip (recRegions (recOf (ws 2))), regionFault (wh s) (advance (wh s) um s) q.1 q.2.2 = none) ∧
    recBad (wh s) (advance (wh s) um s) (ws 2) (recOf (ws 2)) gs 6 = none ∧ (s.cluster 0).mt.length < 256 ∧ (regGet s t0 42).tag ≠ .pend ∧
    recBad (wh s) (advance (wh s) um s) (ws 0) (recOf (ws 0)) gs 6 = some 1 ∧ (far.part 0).clu.getLsbD 0 = false ∧
    (far.cluster 0).mtSeq = 4098 ∧ ((m 0).part 0).clu.getLsbD 0 = true ∧ look ((m 2).cluster 0).stamps 2 = some (.done, 7) ∧
    look ((m 3).cluster 0).stamps 3 = none ∧
    (findTask ((m 2).updCluster 0 (fun c => { c with mt := [{ q0 with seq := 3 }] })) 0 3).isSome :=
  ⟨write rfl (by decide +kernel), (by unfold NoTake; decide +kernel), rfl, write rfl (by decide +kernel), rfl,
    write rfl (by decide +kernel), write rfl (by decide +kernel), write rfl (by decide +kernel), write rfl (by decide +kernel),
    write rfl (by decide +kernel), claim rfl (by decide +kernel), claim rfl (by decide +kernel), claim rfl (by decide +kernel),
    claim rfl (by decide +kernel), by decide +kernel⟩

/-- System mode; engine 7 and 8; an idle engine, a running and a frozen task, and one of another partition; the image of an engine without a
task and of one. -/
theorem witness_MatrixEngineControl :
    let q0 : MtTask := { home := 0, seq := 1, order := 0, tid := t0, kernel := 0, words := List.replicate 16 0, regions := [] }
    let m (q : MtTask) (e : Engine) (rs : Tab RegWord) : State := (one.updCluster 0 (fun c => { c with mt := [q], engines := [(0, e)] })).updThread t0
      (fun th => { th with sys := true, regs := rs })
    let idle := m q0 {} [(2, ⟨0x1820, .full⟩), (4, ⟨0x20 + 200 * 512, .full⟩)]
    let run := m { q0 with st := .running } { task := some (0, 1) } []
    let frz := m { q0 with st := .frozen } { frozen := true, task := some (0, 1) } [(4, ⟨0x20 + 200 * 512, .full⟩)]
    let fill := m { q0 with st := .frozen } { frozen := true } [(4, ⟨0x20 + 200 * 512, .full⟩), (48, ⟨0x80000000, .full⟩), (50, ⟨1, .full⟩)]
    let away := (m { q0 with st := .running, kernel := 5 } { task := some (0, 1) } []).updKernel 5 (fun k => { k with words := List.replicate 13 0 ++ [0x400000] })
    let chk := m { q0 with st := .checking } { task := some (0, 1) } []
    let u1 (n : BitVec 18) : Use := { srcs := [(.a, .imm n, 1)], sys := true }
    let u2 : Use := { srcs := [(.a, .imm 0, 1), (.b, .reg 4, 2)], sys := true }
    let p : DWord := 0x20 + 200 * 512
    let e0 (s : State) : Engine := at_ (s.cluster 0).engines 0 {}
    let word (s : State) (j : Nat) : RegWord := regGet s ⟨1, 0, j / 200⟩ (0x20 + j % 200)
    Issue idle (u1 7) [(.imm 7, 1, 7)] ∧ Issue idle (u1 8) [(.imm 8, 1, 8)] ∧ Issue run (u1 0) [(.imm 0, 1, 0)] ∧
    Issue chk (u1 0) [(.imm 0, 1, 0)] ∧ NoProbe (wh frz) frz ∧ Issue frz (u1 0) [(.imm 0, 1, 0)] ∧
    Issue idle u2 [(.imm 0, 1, 0), (.reg 4, 2, p)] ∧ Issue frz u2 [(.reg 4, 2, p)] ∧ Issue fill u2 [(.reg 4, 2, p)] ∧
    engineTask idle (e0 idle) = none ∧ engineTask run (e0 run) = some { q0 with st := .running } ∧
    engineTask away (e0 away) = some { q0 with st := .running, kernel := 5 } ∧ (away.kernel 5).part ≠ (wh away).k.part ∧
    (run.kernel 0).part = (wh run).k.part ∧ (run.kernel 0).world = (wh run).k.world ∧
    engineTask chk (e0 chk) = some { q0 with st := .checking } ∧ (wh chk).th.wait ≠ .freeze ∧
    engineTask frz (e0 frz) = some { q0 with st := .frozen } ∧ (e0 frz).frozen = true ∧ (e0 run).frozen = false ∧
    bits (loWord p) 31 19 = 0 ∧ 96 ≤ (wh idle).k.width * bits (loWord p) 18 9 ∧
    (∀ j, j < 96 → (word idle j).tag ≠ .pend ∧ (word idle j).tag ≠ .poison ∧ eccAt idle ⟨1, 0, j / 200⟩ (0x20 + j % 200) 1 = []) ∧
    1120 ≤ (wh frz).k.width * bits (loWord p) 18 9 ∧ (∀ j, j < 1120 → (word frz j).tag ≠ .pend) ∧ (e0 fill).task = none ∧
    (word fill 16).val.getLsbD 31 = true ∧ (word fill 17).val.toNat = 0 ∧ (word fill 16).val.getLsbD 29 = false ∧
    (∀ j, j < 1120 → (word fill j).tag ≠ .poison) ∧
    findTask fill (bits (pairOf (word fill 18).val (word fill 19).val) 49 44) (bits (pairOf (word fill 18).val (word fill 19).val) 43 0) = some (0, { q0 with st := .frozen }) ∧
    (word idle 16).val.getLsbD 31 = false :=
  ⟨issue rfl (by decide +kernel), issue rfl (by decide +kernel), issue rfl (by decide +kernel), issue rfl (by decide +kernel),
    (by unfold NoProbe; decide +kernel), issue rfl (by decide +kernel), issue rfl (by decide +kernel), issue rfl (by decide +kernel),
    issue rfl (by decide +kernel), by decide +kernel⟩

/-- One and 64 words, aligned and misaligned; a stamp pair, and a stamp in memory; a window of four words; the whole of a region of one word. -/
theorem witness_CopyRequestsAccepted :
    let s := pregs [(2, ⟨2, .full⟩), (10, ⟨0x20, .full⟩), (12, ⟨0x228, .full⟩)]
    let win := s.updCore 0 (fun c => { c with slots := [(0, ⟨t0, 0, 0, true, false, false, ⟨true, true, true, true⟩, 1, 100, 3⟩)] })
    let uo (a : BitVec 9) : Use := { srcs := [(.b, .reg a, 2)], named := [(448, 1), (22, 2)], dst := some (20, 2) }
    let uw : Use := { srcs := [(.a, .reg 10, 2), (.b, .reg 4, 2)], named := [(22, 2)], dst := some (20, 2) }
    let uao (a : BitVec 9) : Use := { srcs := [(.b, .reg a, 2)], named := [(448, 1)], dst := some (20, 2), lists := fun _ _ => [(448, 64)] }
    let uas : Use := { srcs := [(.b, .reg 4, 2), (.c, .reg 6, 2)], named := [(448, 1)], dst := some (20, 2), lists := fun _ _ => [(448, 64)] }
    let uaw : Use := { srcs := [(.a, .reg 10, 2), (.b, .reg 4, 2)], dst := some (20, 2) }
    let ub : Use := { srcs := [(.a, .reg 12, 2)], named := [(64, 1), (22, 2)], dst := some (20, 2), len := 16, cycles := 2, lists := fun _ _ => [(64, 10)] }
    let us : Use := { srcs := [(.a, .reg 12, 2)], named := [(64, 1)], dst := some (20, 2), len := 16, cycles := 2, lists := fun _ _ => [(64, 10)] }
    let own := (List.range 64).map (fun i => (t0, 448 + i))
    let g := regionOf (wh s) s 0x228 0
    let rows := (List.range 8).map (regionWord g)
    let can (cl : List (Tid × Nat)) (pp : Nat) : Prop := CanAccept (wh s) cl pp s
    NoTake (wh s) s ∧ NoProbe (wh s) s ∧ Issue s (uo 4) [(.reg 4, 2, 0)] ∧ Issue s (uo 2) [(.reg 2, 2, 2)] ∧
    Apart (pairWords t0 20) (pairWords t0 22) ∧ Apart (pairWords t0 20) own ∧ can (own ++ pairWords t0 22) 20 ∧
    Issue win uw [(.reg 10, 2, 0x20), (.reg 4, 2, 0)] ∧ Issue s (uao 4) [(.reg 4, 2, 0)] ∧
    ReadsList (uao 4) (wh s) s 448 64 (List.replicate 64 0) ∧ Issue s (uao 2) [(.reg 2, 2, 2)] ∧
    Issue s uas [(.reg 4, 2, 0), (.reg 6, 2, 0)] ∧ ReadsList uas (wh s) s 448 64 (List.replicate 64 0) ∧ can [] 20 ∧
    Issue win uaw [(.reg 10, 2, 0x20), (.reg 4, 2, 0)] ∧ Issue s ub [(.reg 12, 2, 0x228)] ∧
    ReadsList ub (wh s) s 64 10 (List.replicate 10 0) ∧ Apart (pairWords t0 20) rows ∧ Apart (pairWords t0 22) rows ∧
    can (rows ++ pairWords t0 22) 20 ∧ Issue s us [(.reg 12, 2, 0x228)] ∧ windowCheck win (wh win) 0x20 0 4 .write = none ∧
    windowCheck win (wh win) 0x20 0 5 .write = some 8 ∧ (translate (advance (wh s) uas s) (wh s).ctx 0 .write (some .g)).isOk = true ∧
    windowCheck win (wh win) 0x20 0 4 .read = none ∧
    (∀ j, j < 4 → (regGet win t0 (100 + 0 + j)).tag ≠ .pend ∧ (regGet win t0 (100 + 0 + j)).tag ≠ .poison ∧ eccAt win t0 (100 + 0 + j) 1 = []) ∧
    regionFault (wh s) s g .write = none ∧ g.base + g.len ≤ (wh s).k.regs ∧ bits (0x228 : Word) 31 19 = 0 ∧ 0 < g.len ∧
    regionFault (wh s) s g .read = none :=
  ⟨(by unfold NoTake; decide +kernel), (by unfold NoProbe; decide +kernel), issue rfl (by decide +kernel), issue rfl (by decide +kernel),
    (by unfold Apart; decide +kernel), (by unfold Apart; decide +kernel), (by show CanAccept _ _ _ _; unfold CanAccept; decide +kernel),
    issue rfl (by decide +kernel), issue rfl (by decide +kernel), rfl, issue rfl (by decide +kernel), issue rfl (by decide +kernel), rfl,
    (by show CanAccept _ _ _ _; unfold CanAccept; decide +kernel), issue rfl (by decide +kernel), issue rfl (by decide +kernel), rfl,
    (by unfold Apart; decide +kernel), (by unfold Apart; decide +kernel), (by show CanAccept _ _ _ _; unfold CanAccept; decide +kernel),
    issue rfl (by decide +kernel), by decide +kernel⟩

/-- A KV record of one row-word; a wings pair and a plain page; a pair without a link, of a request under way, of one that has ended, and of one
that has failed. -/
theorem witness_TierWingsAndAcquireRequests :
    let s : State := { pregs [(2, ⟨2, .full⟩)] with mem := paged.mem ++ [(0x80000, 1), (0x80004, 1)] }
    let uk (a : BitVec 9) : Use := { srcs := [(.b, .reg a, 2)], named := [(64, 1), (16, 1)], dst := some (20, 2), lists := fun _ _ => [(16, 1)] }
    let ut (a : BitVec 9) : Use := { srcs := [(.b, .reg a, 2)], named := [(16, 1)], dst := some (20, 2), lists := fun _ _ => [(16, 1)] }
    let sec : State := s.updPart 0 (fun p => { p with mems := (9, 0xC000000000000000) :: p.mems })
    let uo : Use := { srcs := [(.a, .reg 4, 2)], named := [(22, 2)], dst := some (20, 2) }
    let head (u : Use) : Bool := match headerOf (wh s) (advance (wh s) u s) 0 with
      | .ok (k, m) => k.roww = 1 && (listRead (wh s) m 16 1).isOk && decide (64 + k.roww * ((16 * 1 - 1) / (wh s).k.width + 1) ≤ (wh s).k.regs)
      | _ => false
    let rows := (List.range 1).flatMap (kvWords t0 8 64 1)
    let wings : State := { paged with mem := (paged.mem.dropLast) ++ [(0x70001, 0x82), (0x70008, 0x0F), (0x70009, 0x90)] }
    let lf : Leaf := ⟨0x820F, 0x70000, 3, 0x90000⟩
    let r (x : CeReq) : State := (one.updCluster 0 (fun c => { c with ce := [x] })).updThread t0 (fun th => { th with links := [⟨2, 0, 0⟩] })
    let u : Use := { srcs := [(.a, .reg 2, 2)], dst := some (6, 2) }
    let up : Use := { srcs := [(.a, .reg 4, 2)] }
    let low := (handled.updThread t0 (fun th => { th with sys := true }))
    Issue low { ut 4 with dst := some (32, 2) } [(.reg 4, 2, 0)] ∧ NoTake (wh s) s ∧ Issue s (uk 4) [(.reg 4, 2, 0)] ∧
    Issue s (uk 2) [(.reg 2, 2, 2)] ∧ CanAccept (wh s) (rows ++ pairWords t0 20 ++ [(t0, 20 + 2)]) 0 s ∧ Issue s (ut 4) [(.reg 4, 2, 0)] ∧
    Issue s (ut 2) [(.reg 2, 2, 2)] ∧ CanAccept (wh s) (pairWords t0 20) 0 s ∧ Issue s uo [(.reg 4, 2, 0)] ∧
    walk s (wh s).ctx 0 = .ok ⟨0x800F, 0x70000, 3, 0⟩ ∧ Issue wings uo [(.reg 4, 2, 0)] ∧ walk wings (wh wings).ctx 0 = .ok lf ∧
    Issue sec uo [(.reg 4, 2, 0)] ∧ CanAccept (wh wings) (pairWords t0 22) 20 wings ∧ Write one u 6 2 [(.reg 2, 2, 0)] ∧
    Write (r copy0) u 6 2 [(.reg 2, 2, 0)] ∧ Issue wings up [(.reg 4, 2, 0)] ∧ (∀ m i, (wh wings).th.wait ≠ .publish m i) ∧
    (wh low).k.regs < 32 + 2 ∧ 16 + 1 ≤ (wh low).k.regs ∧ (wh s).th.wait = .none ∧ head (uk 4) = true ∧ head (ut 4) = true ∧
    (place (frameOf lf.e + 0)).space = some .g ∧ inRanges (wings.part 0) (frameOf lf.e) = true ∧
    inSecure (wings.part 0) (frameOf lf.e) = false ∧ inSecure (sec.part 0) 0x80000 = true ∧ lf.e.getLsbD 9 = true ∧
    lf.e.getLsbD 3 = true ∧ lf.e.getLsbD 7 = (wh wings).k.world ∧ (wh one).th.links = [] ∧
    (wh (r copy0)).th.links.find? (fun y => y.pair = 2) = some ⟨2, 0, 0⟩ ∧ findReq (r copy0) 0 0 = some copy0 ∧ copy0.st = .running ∧
    findReq (r { copy0 with st := .ended, fault := true }) 0 0 = some { copy0 with st := .ended, fault := true } :=
  ⟨issue rfl (by decide +kernel), (by unfold NoTake; decide +kernel), issue rfl (by decide +kernel), issue rfl (by decide +kernel),
    (by unfold CanAccept; decide +kernel), issue rfl (by decide +kernel), issue rfl (by decide +kernel),
    (by unfold CanAccept; decide +kernel), issue rfl (by decide +kernel), rfl, issue rfl (by decide +kernel), rfl,
    issue rfl (by decide +kernel), (by unfold CanAccept; decide +kernel), write rfl (by decide +kernel), write rfl (by decide +kernel),
    issue rfl (by decide +kernel), (fun _ _ => nofun), by decide +kernel⟩

/-- A queue of one entry, an empty one, one whose entry is in the cellar, and one of another core; room on the chip, in the cellar, and none beyond
the quota; words that the thread's mode can name, and one beyond them. -/
theorem witness_TaskQueueInstructions :
    let e (k : Nat) : QEntry := ⟨3, k, List.replicate 8 0, false⟩
    let q (l c : List QEntry) : State := (one.updKernel 0 (fun k => { k with words := k.words.set 11 0x10000 })).updCore 0 (fun x => { x with onchip := l, cellar := c })
    let s := q [e 5, e 0] []
    let full := (q (List.replicate 64 (e 5)) [e 5]).updPart 0 (fun p => { p with qctl := 0 })
    let more := (q (List.replicate 64 (e 5)) [e 5]).updPart 0 (fun p => { p with qctl := 4 })
    let cellar := q [e 5] [e 0]
    let far := one.updCore 23 (fun x => { x with onchip := [e 0] })
    let up : Use := { srcs := [(.a, .imm 3, 1)], named := [(504, 1)], lists := fun _ _ => [(504, 8)] }
    let uq : Use := { named := [(504, 1)], dst := some (6, 1) }
    let ud : Use := { dst := some (6, 1) }
    Issue s { up with named := [(505, 1)], lists := fun _ _ => [(505, 8)] } [] ∧ Issue s { uq with named := [(505, 1)] } [] ∧
    Issue s up [(.imm 3, 1, 3)] ∧ ReadsList up (wh s) s 504 8 (List.replicate 8 0) ∧ Drained (wh s) s ∧ Issue full up [(.imm 3, 1, 3)] ∧
    ReadsList up (wh full) full 504 8 (List.replicate 8 0) ∧ Issue more up [(.imm 3, 1, 3)] ∧
    ReadsList up (wh more) more 504 8 (List.replicate 8 0) ∧ Drained (wh more) more ∧ Issue cellar uq [] ∧ NoTake (wh cellar) cellar ∧
    DstFree (wh cellar) cellar 6 1 ∧ (∀ i, inList 504 8 i = true → (regGet cellar t0 i).tag ≠ .pend) ∧ Issue s uq [] ∧ NoTake (wh s) s ∧
    DstFree (wh s) s 6 1 ∧ (∀ i, inList 504 8 i = true → (regGet s t0 i).tag ≠ .pend) ∧ Issue one uq [] ∧ Claim s ud 6 1 [] ∧
    Claim far ud 6 1 [] ∧ (wh s).k.regs < 505 + 8 ∧ 504 + 8 ≤ (wh s).k.regs ∧ (s.core 0).cellar = [] ∧ (s.core 0).onchip.length < 64 ∧
    (s.core 0).onchip.Pairwise (fun y z => y.key ≤ z.key) ∧
    max (full.core 0).cellar.length (bits (full.part 0).qctl 23 0) < (qPush (full.core 0) ⟨3, 0, List.replicate 8 0, false⟩).cellar.length ∧
    (qPush (more.core 0) ⟨3, 0, List.replicate 8 0, false⟩).cellar.length ≤ max (more.core 0).cellar.length (bits (more.part 0).qctl 23 0) ∧
    ownAccOn more t0 504 8 = false ∧ (∀ y ∈ (cellar.core 0).onchip, y.kernel ≠ 0) ∧ (∃ y ∈ (cellar.core 0).cellar, y.kernel = 0) ∧
    ownAccOn s t0 504 8 = false ∧ (s.core 0).onchip = [e 5] ++ e 0 :: [] ∧ seqOk s 1 = true ∧ estateFree s (wh s) 0 = true ∧
    (∀ y ∈ (one.core 0).onchip ++ (one.core 0).cellar, (y.kernel = 0) = false) ∧
    ((far.core 23).onchip.filter (fun y => y.kernel = 0)).length = 1 ∧ (∀ i, i < 22 → (far.core (i + 1)).onchip = []) :=
  ⟨issue rfl (by decide +kernel), issue rfl (by decide +kernel), issue rfl (by decide +kernel), rfl, (by unfold Drained; decide +kernel),
    issue rfl (by decide +kernel), rfl, issue rfl (by decide +kernel), rfl, (by unfold Drained; decide +kernel),
    issue rfl (by decide +kernel), (by unfold NoTake; decide +kernel), dst_of (by decide +kernel), (list_of (by decide +kernel)),
    issue rfl (by decide +kernel), (by unfold NoTake; decide +kernel), dst_of (by decide +kernel), (list_of (by decide +kernel)),
    issue rfl (by decide +kernel), claim rfl (by decide +kernel), claim rfl (by decide +kernel), by decide +kernel⟩

/-- A device page whose translation is cached, with A and D. -/
abbrev cached (l : List Host.Cell) : State :=
  { one with tlbs := [(0, [⟨0, 0, 0, 0x10000, 0x806F, 0, 0⟩])], mem := l }

/-- A misaligned entry and a misaligned DONE; a queue of 256; a completion record that has ended, one that runs, and one misaligned. -/
theorem witness_LaunchAndLaunchWait :
    let s := cached []
    let ul : Use := { named := [(480, 1)], dst := some (6, 1), len := 16, cycles := 2, lists := fun _ _ => [(480, 32)] }
    let uw (a : BitVec 9) : Use := { srcs := [(.a, .reg a, 2)], dst := some (6, 1), cancel := .always }
    let q : LaunchReq := { words := [], fn := 0, parent := .host, irq := false, order := 0 }
    let full := s.updPart 0 (fun p => { p with devq := List.replicate 256 q })
    let odd := s.updThread t0 (fun th => { th with regs := [(486, ⟨8, .full⟩), (2, ⟨32, .full⟩)] })
    let run := cached [(0x80000, 2)]
    let done := cached [(0x80000, 3)]
    let bad : State := { s with gran := [(0x2000, .poisoned)] }
    Claim s ul 6 1 [] ∧ NoTake (wh s) s ∧ Drained (wh s) s ∧ ReadsList ul (wh s) s 480 32 (List.replicate 32 0) ∧ Claim odd ul 6 1 [] ∧
    translate (advance (wh s) ul s) (wh s).ctx 0 .write (some .g) = .ok (0x80000, advance (wh s) ul s) ∧ Claim full ul 6 1 [] ∧
    Write s (uw 4) 6 1 [(.reg 4, 2, 0)] ∧
    translate (advance (wh s) (uw 4) s) (wh s).ctx 0 .read (some .g) = .ok (0x80000, advance (wh s) (uw 4) s) ∧
    Write done (uw 4) 6 1 [(.reg 4, 2, 0)] ∧ Write bad (uw 4) 6 1 [(.reg 4, 2, 0)] ∧ Write run (uw 4) 6 1 [(.reg 4, 2, 0)] ∧
    Write odd (uw 2) 6 1 [(.reg 2, 2, 32)] ∧ 480 + 32 ≤ (wh s).k.regs ∧ bits (4 : DWord) 2 0 ≠ 0 ∧
    (listRead (wh odd) (advance (wh odd) ul odd) 480 32).isOk = true ∧ (regGet odd t0 486).val = 8 ∧ (s.part 0).devq.length < 256 ∧
    256 ≤ (full.part 0).devq.length ∧ ownPending (wh s) (advance (wh s) (uw 4) s) 0x80000 4 = false ∧ bits (read32 s 0x80000) 3 0 = 0 ∧
    badAt s 0x80000 4 = none ∧ bits (read32 done 0x80000) 3 0 = 3 ∧ badAt bad 0x80000 4 ≠ none ∧ bits (read32 run 0x80000) 3 0 = 2 :=
  ⟨claim rfl (by decide +kernel), (by unfold NoTake; decide +kernel), (by unfold Drained; decide +kernel), rfl,
    claim rfl (by decide +kernel), rfl, claim rfl (by decide +kernel), write rfl (by decide +kernel), rfl, write rfl (by decide +kernel),
    write rfl (by decide +kernel), write rfl (by decide +kernel), write rfl (by decide +kernel), by decide +kernel⟩

/-- The word at 0 of a cached page: free, broken, held by the issuer and by another; one waiter and none. -/
theorem witness_LockHoldAndFree :
    let e (v : Nat) : Est := { die := 2, idx := 5, kind := .lock, hkind := .none, heir := 0, holder := some v, creator := v, fn := 0, vf := 0, part := 0, world := false, seq := 0, addr := 0x80000 }
    let k := (cached []).updKernel 0 (fun k => { k with words := k.words.set 11 0x10000 })
    let held (v : Nat) (x : Byte) : State := { k with mem := [(0x80003, 5), (0x80005, x), (0x80007, 0x40)], estate := [e v] }
    let mine := held 1 1
    let his := held 2 2
    let broken : State := { k with mem := [(0x80007, 0xC0)] }
    let wait : State := { mine with holdq := [⟨7, ⟨9, 0, 0⟩, 0x80000, 0, 6, 0, 4, false⟩] }
    let odd (y : Est) : State := { mine with estate := [y] }
    let bad : State := { k with gran := [(0x2000, .uncorrectable)] }
    let uh : Use := { srcs := [(.a, .reg 4, 2)], dst := some (6, 2) }
    let uf : Use := { srcs := [(.a, .reg 4, 2)] }
    let at0 (s : State) (u : Use) : Prop := WordAt u (wh s) s 0 .write 0x80000 (advance (wh s) u s)
    NoTake (wh k) k ∧ Claim k uh 6 2 [(.reg 4, 2, 0)] ∧ at0 k uh ∧ NoCut k ∧ Claim broken uh 6 2 [(.reg 4, 2, 0)] ∧ at0 broken uh ∧
    Claim mine uh 6 2 [(.reg 4, 2, 0)] ∧ at0 mine uh ∧ Claim his uh 6 2 [(.reg 4, 2, 0)] ∧ at0 his uh ∧ Issue k uf [(.reg 4, 2, 0)] ∧
    at0 k uf ∧ Issue mine uf [(.reg 4, 2, 0)] ∧ at0 mine uf ∧ HoldingAt (wh mine) mine 0x80000 .lock (e 1) ∧ Drained (wh mine) mine ∧
    Issue wait uf [(.reg 4, 2, 0)] ∧ HoldingAt (wh wait) wait 0x80000 .lock (e 1) ∧ Claim bad uh 6 2 [(.reg 4, 2, 0)] ∧ at0 bad uh ∧
    Claim (odd { e 1 with part := 1 }) uh 6 2 [(.reg 4, 2, 0)] ∧ at0 (odd { e 1 with part := 1 }) uh ∧
    Claim (odd { e 1 with kind := .promise }) uh 6 2 [(.reg 4, 2, 0)] ∧ estAt k 0x80000 = none ∧ bits (read64 k 0x80000) 63 62 = 0 ∧
    seqOk k 1 = true ∧ estateFree k (wh k) (dieOf 0x80000) = true ∧ bits (read64 broken 0x80000) 63 62 = 3 ∧
    estAt mine 0x80000 = some (e 1) ∧ stray mine (e 1) = false ∧ bits (read64 mine 0x80000) 63 62 = 1 ∧
    bits (read64 mine 0x80000) 61 40 = 1 ∧ estAt his 0x80000 = some (e 2) ∧ stray his (e 2) = false ∧
    bits (read64 his 0x80000) 61 40 = 2 ∧ estateFree his (wh his) (dieOf 0x80000) = true ∧ mine.holdq = [] ∧
    canon wait 0x80000 = 0x80000 ∧ wait.holdq.length = 1 ∧ (∀ z ∈ wait.holdq, z.tid ≠ t0 ∧ (wait.group z.tid.vgid).saved = none) ∧
    badAt k 0x80000 8 = none ∧ badAt mine 0x80000 8 = none ∧ badAt bad 0x80000 8 ≠ none ∧ estAt bad 0x80000 = none ∧
    estAt (odd { e 1 with part := 1 }) 0x80000 = some { e 1 with part := 1 } ∧
    stray (odd { e 1 with part := 1 }) { e 1 with part := 1 } = false ∧ (wh mine).k.part = 0 ∧
    estAt (odd { e 1 with kind := .promise }) 0x80000 = some { e 1 with kind := .promise } :=
  ⟨(by unfold NoTake; decide +kernel), claim rfl (by decide +kernel), (⟨rfl, rfl, by decide +kernel⟩), (by unfold NoCut; decide +kernel),
    claim rfl (by decide +kernel), (⟨rfl, rfl, by decide +kernel⟩), claim rfl (by decide +kernel), (⟨rfl, rfl, by decide +kernel⟩),
    claim rfl (by decide +kernel), (⟨rfl, rfl, by decide +kernel⟩), issue rfl (by decide +kernel), (⟨rfl, rfl, by decide +kernel⟩),
    issue rfl (by decide +kernel), (⟨rfl, rfl, by decide +kernel⟩), (by unfold HoldingAt; decide +kernel),
    (by unfold Drained; decide +kernel), issue rfl (by decide +kernel), (by unfold HoldingAt; decide +kernel),
    claim rfl (by decide +kernel), (⟨rfl, rfl, by decide +kernel⟩), claim rfl (by decide +kernel), (⟨rfl, rfl, by decide +kernel⟩),
    claim rfl (by decide +kernel), by decide +kernel⟩

/-- A word with a live promise and without an entry; an entry to take, none, and an order that is spent; a word still open and one kept; a
thread that waits, and one whose promise was kept. -/
theorem witness_PromiseWords :
    let e : Est := { die := 2, idx := 5, kind := .promise, hkind := .none, heir := 0, holder := some 1, creator := 1, fn := 0, vf := 0, part := 0, world := false, seq := 0, addr := 0x80000 }
    let none0 := cached []
    let k := none0.updKernel 0 (fun k => { k with words := k.words.set 11 0x20000 })
    let mine : State := { k with mem := [(0x80005, 1)], estate := [e] }
    let old := (k.updGroup 1 (fun g => { g with created := 0x80000000 }))
    let spent : State := { old with estate := [{ e with addr := 0x90000 }] }
    let kept : State := { k with mem := [(0x80000, 7), (0x80005, 1), (0x80007, 0x40)] }
    let woken := mine.updThread t0 (fun th => { th with wait := .kept 7 })
    let other : Thread := { st := .waiting, wait := .promise 0x80000 }
    let two : State := { mine with threads := mine.threads ++ [(⟨1, 1, 0⟩, other)] }
    let odd (y : Est) : State := { mine with estate := [y] }
    let bad : State := { k with gran := [(0x2000, .uncorrectable)] }
    let up : Use := { srcs := [(.a, .reg 4, 2)], dst := some (6, 1), cancel := .never }
    let uk : Use := { srcs := [(.a, .reg 4, 2), (.b, .imm 9, 1)], cancel := .never }
    let uw : Use := { srcs := [(.a, .reg 4, 2)], dst := some (6, 2), cancel := .always }
    let at0 (s : State) (u : Use) (n : Need) : Prop := WordAt u (wh s) s 0 n 0x80000 (advance (wh s) u s)
    NoTake (wh k) k ∧ Claim k up 6 1 [(.reg 4, 2, 0)] ∧ at0 k up .write ∧ NoCut k ∧ Claim mine up 6 1 [(.reg 4, 2, 0)] ∧
    at0 mine up .write ∧ Claim none0 up 6 1 [(.reg 4, 2, 0)] ∧ Claim spent up 6 1 [(.reg 4, 2, 0)] ∧ at0 spent up .write ∧
    Issue k uk [(.reg 4, 2, 0), (.imm 9, 1, 9)] ∧ at0 k uk .write ∧ Issue mine uk [(.reg 4, 2, 0), (.imm 9, 1, 9)] ∧ at0 mine uk .write ∧
    HoldingAt (wh mine) mine 0x80000 .promise e ∧ Drained (wh mine) mine ∧ Claim mine uw 6 2 [(.reg 4, 2, 0)] ∧ at0 mine uw .read ∧
    Claim kept uw 6 2 [(.reg 4, 2, 0)] ∧ at0 kept uw .read ∧ (∀ y, (wh mine).th.wait ≠ .kept y) ∧ Claim woken uw 6 2 [(.reg 4, 2, 0)] ∧
    Issue two uk [(.reg 4, 2, 0), (.imm 9, 1, 9)] ∧ at0 two uk .write ∧ HoldingAt (wh two) two 0x80000 .promise e ∧ Drained (wh two) two ∧
    NoCut two ∧ Claim bad uw 6 2 [(.reg 4, 2, 0)] ∧ at0 bad uw .read ∧ Claim (odd { e with part := 1 }) uw 6 2 [(.reg 4, 2, 0)] ∧
    at0 (odd { e with part := 1 }) uw .read ∧ Claim (odd { e with kind := .lock }) uw 6 2 [(.reg 4, 2, 0)] ∧ estAt k 0x80000 = none ∧
    seqOk k 1 = true ∧ estateFree k (wh k) (dieOf 0x80000) = true ∧ estAt mine 0x80000 = some e ∧ stray mine e = false ∧
    estateFree none0 (wh none0) (dieOf 0x80000) = false ∧ seqOk none0 1 = true ∧ estAt spent 0x80000 = none ∧ seqOk spent 1 = false ∧
    bits (read64 mine 0x80000) 63 62 = 0 ∧ bits (read64 kept 0x80000) 63 62 = 1 ∧ (wh woken).th.wait = .kept 7 ∧
    (∀ q ∈ mine.threads, q.2.wait ≠ .promise 0x80000) ∧ canon two 0x80000 = 0x80000 ∧ look two.threads ⟨1, 1, 0⟩ = some other ∧
    (two.group 1).saved = none ∧ (e.part = (wh mine).k.part ∧ e.vf = (wh mine).k.vf ∧ e.world = (wh mine).k.world) ∧
    badAt mine 0x80000 8 = none ∧ badAt bad 0x80000 8 ≠ none ∧ estAt bad 0x80000 = none ∧
    estAt (odd { e with part := 1 }) 0x80000 = some { e with part := 1 } ∧ stray (odd { e with part := 1 }) { e with part := 1 } = false ∧
    estAt (odd { e with kind := .lock }) 0x80000 = some { e with kind := .lock } :=
  ⟨(by unfold NoTake; decide +kernel), claim rfl (by decide +kernel), (⟨rfl, rfl, by decide +kernel⟩), (by unfold NoCut; decide +kernel),
    claim rfl (by decide +kernel), (⟨rfl, rfl, by decide +kernel⟩), claim rfl (by decide +kernel), claim rfl (by decide +kernel),
    (⟨rfl, rfl, by decide +kernel⟩), issue rfl (by decide +kernel), (⟨rfl, rfl, by decide +kernel⟩), issue rfl (by decide +kernel),
    (⟨rfl, rfl, by decide +kernel⟩), (by unfold HoldingAt; decide +kernel), (by unfold Drained; decide +kernel),
    claim rfl (by decide +kernel), (⟨rfl, rfl, by decide +kernel⟩), claim rfl (by decide +kernel), (⟨rfl, rfl, by decide +kernel⟩),
    (fun _ => nofun), claim rfl (by decide +kernel), issue rfl (by decide +kernel), (⟨rfl, rfl, by decide +kernel⟩),
    (by unfold HoldingAt; decide +kernel), (by unfold Drained; decide +kernel), (by unfold NoCut; decide +kernel),
    claim rfl (by decide +kernel), (⟨rfl, rfl, by decide +kernel⟩), claim rfl (by decide +kernel), (⟨rfl, rfl, by decide +kernel⟩),
    claim rfl (by decide +kernel), by decide +kernel⟩

/-- A task, a lock and another group's holding by handle; heirs of each kind; the last index and one beyond; registers enough and one too few. -/
theorem witness_HoldingsByHandle :
    let e : Est := {
      die := 0, idx := 5, kind := .task, hkind := .none, heir := 0, holder := some 1, creator := 1, fn := 0, vf := 0, part := 0,
      world := false, seq := 0, addr := 0, claim := some ⟨3, 0, List.replicate 8 0, false⟩ }
    let s (e : Est) : State := { one with estate := [e] }
    let group (v : Nat) : State := { one with groups := one.groups ++ [(2, one.group 1)], estate := [{ e with hkind := .vgid, heir := v }] }
    let u (b : BitVec 18) (n d : Nat) : Use := { srcs := [(.a, .imm b, 1)], dst := some (d, n) }
    let u0 (b : BitVec 18) : Use := { srcs := [(.a, .imm b, 1)] }
    let u2 (k : BitVec 9) : Use := { srcs := [(.a, .imm 5, 1), (.b, .reg k, 1)] }
    let heirs := (s e).updThread t0 (fun th => { th with regs := [(2, ⟨0x40000001, .full⟩), (3, ⟨0x40000009, .full⟩), (8, ⟨0x80000000, .full⟩), (9, ⟨0xC0000000, .full⟩)] })
    NoTake (wh (s e)) (s e) ∧ Issue (s e) (u0 4) [(.imm 4, 1, 4)] ∧ Issue (s e) (u0 5) [(.imm 5, 1, 5)] ∧ Drained (wh (s e)) (s e) ∧
    Issue (s { e with kind := .lock }) (u0 5) [(.imm 5, 1, 5)] ∧ Issue heirs (u2 2) [(.reg 2, 1, 0x40000001)] ∧
    Issue heirs (u2 3) [(.reg 3, 1, 0x40000009)] ∧ Issue heirs (u2 4) [(.reg 4, 1, 0)] ∧ Issue heirs (u2 8) [(.reg 8, 1, 0x80000000)] ∧
    Issue heirs (u2 9) [(.reg 9, 1, 0xC0000000)] ∧ Claim (group 1) (u 5 1 6) 6 1 [(.imm 5, 1, 5)] ∧
    Claim (group 2) (u 5 1 6) 6 1 [(.imm 5, 1, 5)] ∧ NoCut (group 2) ∧ Claim (s e) (u 5 1 6) 6 1 [(.imm 5, 1, 5)] ∧
    Issue (s { e with addr := 0x90000 }) (u 5 1 503) [(.imm 5, 1, 5)] ∧ Claim (group 1) { dst := some (6, 1) } 6 1 [] ∧
    Claim (s e) (u 0 4 508) 508 1 [(.imm 0, 1, 0)] ∧ (∀ i, inList 508 4 i = true → (regGet (s e) t0 i).tag ≠ .pend) ∧
    Claim (s e) (u 1 4 508) 508 1 [(.imm 1, 1, 1)] ∧ Issue (s e) (u 5 1 503) [(.imm 5, 1, 5)] ∧
    (∀ i, inList 503 9 i = true → (regGet (s e) t0 i).tag ≠ .pend) ∧ findEst (s e) 0 4 = none ∧ findEst (s e) 0 5 = some e ∧
    e.mine (wh (s e)) = true ∧ ({ e with holder := some 2 } : Est).mine (wh (s e)) = false ∧ liveGroup heirs 1 = true ∧
    kernelOfGroup heirs 1 = some 0 ∧ (heirs.kernel 0).part = (wh heirs).k.part ∧ liveGroup heirs 9 = false ∧
    (Est.goesTo (group 1) { e with hkind := .vgid, heir := 1 } none).1 = .group 1 ∧
    (Est.goesTo (group 2) { e with hkind := .vgid, heir := 2 } none).1 = .group 2 ∧
    stray (group 2) { e with hkind := .vgid, heir := 2 } = false ∧ (e.goesTo (s e) none).1 = .heirless ∧ (s e).holdq = [] ∧
    (Est.goesTo (s e) { e with kind := .lock, hkind := .host, heir := 0x3FFFFF } none).1 = .host ∧
    holdings (group 2) 1 = [{ e with hkind := .vgid, heir := 2 }] ∧ (holdings (s e) 1)[0]? = some e ∧ (holdings (s e) 1).length ≤ 1 ∧
    508 + 4 ≤ (wh (s e)).k.regs ∧ ownAccOn (s e) t0 508 4 = false ∧ ownAccOn (s e) t0 503 9 = false ∧ (wh (s e)).k.regs < 510 + 4 :=
  ⟨(by unfold NoTake; decide +kernel), issue rfl (by decide +kernel), issue rfl (by decide +kernel), (by unfold Drained; decide +kernel),
    issue rfl (by decide +kernel), issue rfl (by decide +kernel), issue rfl (by decide +kernel), issue rfl (by decide +kernel),
    issue rfl (by decide +kernel), issue rfl (by decide +kernel), claim rfl (by decide +kernel), claim rfl (by decide +kernel),
    (by unfold NoCut; decide +kernel), claim rfl (by decide +kernel), issue rfl (by decide +kernel), claim rfl (by decide +kernel),
    claim rfl (by decide +kernel), (list_of (s := { one with estate := [_] }) (by decide +kernel)), claim rfl (by decide +kernel),
    issue rfl (by decide +kernel), (list_of (s := { one with estate := [_] }) (by decide +kernel)), by decide +kernel⟩

/-- A sibling kernel with a ballot: a first post, one that reaches the quorum and one after the verdict; a closed ballot and an open one; and a
kernel without siblings. -/
theorem witness_SiblingBallot :
    let b : Ballot := { die := 0, idx := 0, kernel := 0, part := 0, sibn := 2, quorum := 2 }
    let k := one.updKernel 0 (fun k => { k with words := k.words.set 12 0x80, ballot := some (0, 0) })
    let s (b : Ballot) : State := { k with ballots := [b] }
    let up : Use := { srcs := [(.a, .reg 4, 2)], dst := some (6, 1), cancel := .always }
    let last : Ballot := { b with slots := [⟨0, 1, 1, 0⟩] }
    Issue one up [(.reg 4, 2, 0)] ∧ Claim (s b) up 6 1 [(.reg 4, 2, 0)] ∧ Drained (wh (s b)) (s b) ∧
    Claim (s last) up 6 1 [(.reg 4, 2, 0)] ∧ Claim (s { b with verdict := true }) up 6 1 [(.reg 4, 2, 0)] ∧
    Issue (s b) { dst := some (6, 1) } [] ∧ (∀ i, inList 6 8 i = true → (regGet (s b) t0 i).tag ≠ .pend) ∧
    Claim (s { b with closed := true }) { dst := some (6, 2), cancel := .always } 6 2 [] ∧
    Claim (s b) { dst := some (6, 2), cancel := .always } 6 2 [] ∧ NoTake (wh (s b)) (s b) ∧ (wh one).k.sib = false ∧
    (wh (s b)).k.sib = true ∧ ballotOf (s b) 0 = some b ∧ (wh (s b)).gang.idx < 64 ∧ b.posted.getLsbD 0 = false ∧ b.verdict = false ∧
    1 ≠ b.quorum ∧ last.slots.find? (fun y => y.hash = 0) = some ⟨0, 1, 1, 0⟩ ∧ 1 + 1 = last.quorum ∧ ownAccOn (s b) t0 6 8 = false ∧
    (∀ g ∈ (s last).gangs, g.2.kernel = 0 → ¬(g.2.st = .pending ∧ g.2.groups = [])) ∧ (wh (s b)).gang.killed = none ∧
    ((wh (s b)).gk, (wh (s b)).gang) ∈ (s b).gangs :=
  ⟨issue rfl (by decide +kernel), claim rfl (by decide +kernel), (by unfold Drained; decide +kernel), claim rfl (by decide +kernel),
    claim rfl (by decide +kernel), issue rfl (by decide +kernel),
    (fun i h => list_of (s := { (one.updKernel 0 _) with ballots := [_] }) (by decide +kernel) i h), claim rfl (by decide +kernel),
    claim rfl (by decide +kernel), (by unfold NoTake; decide +kernel), by decide +kernel⟩

/-- A pool of two pages: off; none taken; the first taken; all taken; the quota reached; one reference, the most, and none. -/
theorem witness_PagePool :
    let pool (l : List Host.Cell) : State := ({ one with mem := l }.updPart 0 (fun p => { p with kvpCtl := 0x80A00001, kvpCnt := 0x100000 })).updKernel 0
      (fun k => { k with words := k.words.set 13 0x10000000 })
    let s := pool []
    let first := pool [(0x100000, 1), (0x100003, 0x80)]
    let all := pool [(0x100000, 1), (0x100003, 0x80), (0x100004, 1), (0x100007, 0x80)]
    let most := pool [(0x100000, 0xFF), (0x100001, 0xFF), (0x100003, 0x80)]
    let two := pool [(0x100000, 2), (0x100003, 0x80)]
    let vf := ((pool []).updKernel 0 (fun k => { k with words := k.words.set 13 0 })).updFn 1 (fun f => { f with kvqQuota := 0 })
    let b : Ballot := { die := 0, idx := 0, kernel := 0, part := 0, sibn := 2, quorum := 2, recBase := 0x200000 }
    let sib : State := { first.updKernel 0 (fun k => { k with words := k.words.set 12 0x80, ballot := some (0, 0) }) with ballots := [b] }
    let ua : Use := { dst := some (6, 2) }
    let u1 (n : BitVec 18) : Use := { srcs := [(.a, .imm n, 1)], dst := some (6, 1) }
    NoTake (wh s) s ∧ NoCut s ∧ Write one ua 6 2 [] ∧ Write s ua 6 2 [] ∧ Write first ua 6 2 [] ∧ Write all ua 6 2 [] ∧
    Write vf ua 6 2 [] ∧ Write first (u1 0) 6 1 [(.imm 0, 1, 0)] ∧ Write first (u1 2) 6 1 [(.imm 2, 1, 2)] ∧
    Write most (u1 0) 6 1 [(.imm 0, 1, 0)] ∧ Write two (u1 0) 6 1 [(.imm 0, 1, 0)] ∧ Drained (wh two) two ∧ Write sib ua 6 2 [] ∧
    0x100000 + 4 * 2 ^ 20 ≤ devBytes ∧ Memory.wf first.mem = true ∧ (one.part 0).kvpCtl.getLsbD 31 = false ∧
    (s.part 0).kvpCtl.getLsbD 31 = true ∧ (wh s).k.pf = true ∧ (read32 s 0x100000).getLsbD 31 = false ∧
    (read32 first 0x100000).getLsbD 31 = true ∧ (read32 first 0x100004).getLsbD 31 = false ∧
    (∀ k, k ≤ 1 → (read32 all (0x100000 + 4 * k)).getLsbD 31 = true) ∧ (wh vf).k.pf = false ∧
    (vf.fn (wh vf).k.owner).kvqQuota ≤ (vf.fn (wh vf).k.owner).kvqUsed ∧ bits (read32 first 0x100000) 15 0 = 1 ∧
    bits (read32 most 0x100000) 15 0 = 65535 ∧ 1 < bits (read32 two 0x100000) 15 0 ∧ (wh sib).k.sib = true ∧
    (wh sib).gang.sib.pages.length < 256 ∧ ballotOf sib (wh sib).kn = some b ∧ b.recBase ≠ 0 :=
  ⟨(by unfold NoTake; decide +kernel), (by unfold NoCut; decide +kernel), write rfl (by decide +kernel), write rfl (by decide +kernel),
    write rfl (by decide +kernel), write rfl (by decide +kernel), write rfl (by decide +kernel), write rfl (by decide +kernel),
    write rfl (by decide +kernel), write rfl (by decide +kernel), write rfl (by decide +kernel), (by unfold Drained; decide +kernel),
    write rfl (by decide +kernel), by decide +kernel⟩

/-- A KV record whose entry is not mapped, and a misaligned one; a range at the top of the address space, one beyond it, and none; another
address space; the eighth invalidation and the ninth, and a piece of a copy in the range. -/
theorem witness_TierQueryAndInvalidation :
    let s : State := { pregs [(2, ⟨2, .full⟩)] with mem := paged.mem ++ [(0x80000, 1), (0x80004, 1)] }
    let uq (a : BitVec 9) : Use := { srcs := [(.b, .reg a, 2), (.c, .imm 1, 1)], dst := some (6, 1) }
    let ui (a b : BitVec 9) (c : BitVec 18) : Use := { srcs := [(.a, .reg a, 2), (.b, .reg b, 2), (.c, .imm c, 1)], sys := true }
    let v (n : Nat) : State := st (fun th => { th with sys := true, invrs := List.replicate n 1, regs := [(2, ⟨0xFFFFFFFF, .full⟩), (3, ⟨0x3FFFFF, .full⟩), (8, ⟨1, .full⟩), (10, ⟨2, .full⟩)] })
    let pc : Piece := ⟨1, 0, 0, 0x3FFFFFFFFF, false, 0, 0⟩
    let low := (v 0).updKernel 0 (fun k => { k with words := [0x10000, 0, 0x20000, 0, 0, 0, 0, 0, 1] ++ List.replicate 23 0 })
    let wait (n : Nat) : State := (v 8).updThread t0 (fun th => { th with wait := .invr n })
    let held : State := { v 7 with pieces := [pc] }
    let head := match headerOf (wh s) (advance (wh s) (uq 4) s) 0 with | .ok (k, m) => decide ((kvEntry m (wh s).ctx (wh s).k.owner 0 k.count 1).1 = none) && !entryOwn (wh s) m 0 k.count 1 | _ => false
    Issue low { srcs := [(.b, .reg 4, 2), (.c, .imm 1, 1)], dst := some (32, 1) } [(.reg 4, 2, 0)] ∧ NoTake (wh low) low ∧
    Issue (wait 1) (ui 2 8 0) [(.reg 8, 2, 1)] ∧ Issue (wait 5) (ui 2 8 0) [(.reg 8, 2, 1)] ∧
    Claim s (uq 4) 6 1 [(.reg 4, 2, 0), (.imm 1, 1, 1)] ∧ NoTake (wh s) s ∧ Claim s (uq 2) 6 1 [(.reg 2, 2, 2)] ∧
    Issue (v 7) (ui 2 8 0) [(.reg 2, 2, 0x3FFFFFFFFFFFFF), (.reg 8, 2, 1), (.imm 0, 1, 0)] ∧
    Issue (v 7) (ui 2 10 0) [(.reg 2, 2, 0x3FFFFFFFFFFFFF), (.reg 10, 2, 2), (.imm 0, 1, 0)] ∧ Issue (v 7) (ui 2 4 0) [(.reg 4, 2, 0)] ∧
    Issue (v 7) (ui 2 8 1) [(.reg 8, 2, 1), (.imm 1, 1, 1)] ∧ Issue (v 8) (ui 2 8 0) [(.reg 8, 2, 1)] ∧
    Issue (v 0) { sys := true, cancel := .always } [] ∧ Issue (v 7) { sys := true, cancel := .always } [] ∧
    Issue held (ui 2 8 0) [(.reg 2, 2, 0x3FFFFFFFFFFFFF), (.reg 8, 2, 1), (.imm 0, 1, 0)] ∧ (wh low).k.regs < 32 + 1 ∧
    (wh (wait 1)).th.wait = .invr 1 ∧ 1 ∈ (wh (wait 1)).th.invrs ∧ (wh (wait 5)).th.wait = .invr 5 ∧ 5 ∉ (wh (wait 5)).th.invrs ∧
    (wh (v 8)).th.invrs = 1 :: List.replicate 7 1 ∧ (wh (v 8)).th.wait = .none ∧ (wh s).th.wait = .none ∧ head = true ∧
    (wh (v 7)).k.pf = false ∧ (wh (v 7)).k.asid = 0 ∧ (wh (v 7)).th.invrs.length < 8 ∧ 8 ≤ (wh (v 8)).th.invrs.length ∧
    (wh (v 0)).th.invrs = [] ∧ (wh (v 7)).th.invrs ≠ [] ∧ pc ∈ held.pieces ∧ 65536 * pc.page ≤ 0x3FFFFFFFFFFFFF + 1 - 1 ∧
    0x3FFFFFFFFFFFFF < 65536 * pc.page + 65536 :=
  ⟨issue rfl (by decide +kernel), (by unfold NoTake; decide +kernel), issue rfl (by decide +kernel), issue rfl (by decide +kernel),
    claim rfl (by decide +kernel), (by unfold NoTake; decide +kernel), claim rfl (by decide +kernel), issue rfl (by decide +kernel),
    issue rfl (by decide +kernel), issue rfl (by decide +kernel), issue rfl (by decide +kernel), issue rfl (by decide +kernel),
    issue rfl (by decide +kernel), issue rfl (by decide +kernel), issue rfl (by decide +kernel), by decide +kernel⟩

theorem witness_PrivilegedInstructionsTrap :
    let s := st (fun th => { th with sys := true })
    one.who? = some (wh one) ∧ s.who? = some (wh s) ∧ (wh one).th.sys = false ∧ (wh s).th.sys = true ∧ (wh s).k.pf = false :=
  ⟨rfl, rfl, by decide +kernel⟩

/-- A thread in system mode of a kernel of the physical function, with these register words. -/
abbrev sysPf (l : Tab RegWord) : State :=
  (handled.updKernel 0 (fun k => { k with words := k.words.set 13 0x10000000 })).updThread t0 (fun th => { th with sys := true, regs := l })

/-- Values that a register takes and values that it does not. -/
theorem witness_SystemRegisters :
    let s := sysPf [(2, ⟨0xFFFFFFFF, .full⟩), (3, ⟨0xFFFFFFFF, .full⟩), (4, ⟨0x14404000, .full⟩), (5, ⟨0x82, .full⟩), (9, ⟨0x01000000, .full⟩)]
    let ur (pf : Bool) : Use := { dst := some (6, 2), sys := true, pf := pf }
    let uw (pf : Bool) (b : BitVec 9) : Use := { srcs := [(.b, .reg b, 2)], sys := true, pf := pf }
    let good (y : DWord) : Prop := ¬ (bits y 63 48 ≠ 0 ∨ bits y 46 40 ≠ 0 ∨ bits y 11 4 ≠ 0 ∨ bits y 15 12 = 0 ∨ bits y 23 16 = 0 ∨ bits y 33 30 = 0 ∨
         bits y 29 24 < 10 ∨ 40 < bits y 29 24 ∨ bits y 39 34 < 16 ∨ 40 < bits y 39 34)
    Claim s (ur true) 6 2 [] ∧ Claim s (ur false) 6 2 [] ∧ Issue s (uw false 10) [(.reg 10, 2, 0)] ∧
    Issue s (uw false 2) [(.reg 2, 2, 0xFFFFFFFFFFFFFFFF)] ∧ Issue s (uw true 2) [(.reg 2, 2, 0xFFFFFFFFFFFFFFFF)] ∧
    Issue s (uw true 4) [(.reg 4, 2, 0x8214404000)] ∧ good 0x8214404000 ∧ Issue s (uw true 8) [(.reg 8, 2, 0x0100000000000000)] ∧
    Issue s (uw true 10) [(.reg 10, 2, 0)] ∧ 1 ≤ (wh s).k.regs ∧ bits (0xFFFFFFFFFFFFFFFF : DWord) 30 8 ≠ 0 ∧
    bits (0x0100000000000000 : DWord) 59 56 = 1 :=
  ⟨claim rfl (by decide +kernel), claim rfl (by decide +kernel), issue rfl (by decide +kernel), issue rfl (by decide +kernel),
    issue rfl (by decide +kernel), issue rfl (by decide +kernel), (by show ¬ _; decide +kernel), issue rfl (by decide +kernel),
    issue rfl (by decide +kernel), by decide +kernel⟩

/-- A core in reach with nothing on it, the issuer's own, and one with a group; an area enough, too small, and misaligned; a save still under way
and one that is done. -/
theorem witness_HaltQuarantineAndSave :
    let s0 := (sysPf [(2, ⟨32, .full⟩), (8, ⟨0x800001, .full⟩), (9, ⟨0x10, .full⟩), (10, ⟨1, .full⟩), (11, ⟨0x800, .full⟩), (4, ⟨0x1000, .full⟩), (14, ⟨0x100000, .full⟩)]).updPart 0 (fun p => { p with clu := 1 })
    let s : State := { s0 with groups := s0.groups ++ [(7, { s0.group 1 with core := 4 })] }
    let u (a b c : BitVec 9) : Use := { srcs := [(.a, .reg a, 2), (.b, .reg b, 1), (.c, .reg c, 1)], dst := some (12, 1), sys := true, pf := true }
    let ua (a : BitVec 18) : Use := { srcs := [(.a, .imm a, 1)], sys := true, pf := true }
    let wait (l : Tab Group) : State := ({ s with groups := s0.groups ++ l }).updThread t0 (fun th => { th with wait := .csave 0 [7] })
    Issue s { srcs := [(.b, .imm 3, 1)], sys := true } [(.imm 3, 1, 3)] ∧ Issue s (ua 23) [(.imm 23, 1, 23)] ∧
    Issue s (ua 24) [(.imm 24, 1, 24)] ∧ Issue s (ua 32) [(.imm 32, 1, 32)] ∧
    Issue (s.updCore 23 (fun c => { c with quar := true })) (ua 23) [(.imm 23, 1, 23)] ∧
    Write s (u 6 8 6) 12 1 [(.reg 6, 2, 0), (.reg 8, 1, 0x800001), (.reg 6, 1, 0)] ∧ (∀ n l, (wh s).th.wait ≠ .csave n l) ∧
    Write s (u 6 11 6) 12 1 [(.reg 6, 2, 0), (.reg 11, 1, 0x800), (.reg 6, 1, 0)] ∧ Write s (u 2 9 14) 12 1 [(.reg 2, 2, 32)] ∧
    Write s (u 4 9 14) 12 1 [(.reg 4, 2, 0x1000), (.reg 9, 1, 0x10), (.reg 14, 1, 0x100000)] ∧
    Write s (u 4 9 6) 12 1 [(.reg 9, 1, 0x10), (.reg 6, 1, 0)] ∧ Write (wait [(7, s0.group 1)]) (u 4 9 14) 12 1 [] ∧
    Write (wait []) (u 4 9 14) 12 1 [] ∧ (look s.gangs 0).isSome ∧ (s.gang 0).kernel = (wh s).kn ∧ (s.gang 0).st ≠ .ended ∧
    (s.part 0).clu.getLsbD 0 = true ∧ (s.core 23).quar = false ∧ (s.part 0).clu.getLsbD 1 = false ∧ (wh s).g.core = 0 ∧
    residents s 11 = [] ∧ residents s 4 = [7] ∧ ((areaShape s 7).size + 63) / 64 * 64 ≤ 0x100000 ∧
    0 < ((areaShape s 7).size + 63) / 64 * 64 ∧ inRanges (s.part 0) 0x1000 = true ∧
    inRanges (s.part 0) (0x1000 + ((areaShape s 7).size + 63) / 64 * 64 - 1) = true ∧ (wh (wait [])).th.wait = .csave 0 [7] ∧
    (look (wait [(7, s0.group 1)]).groups 7).isSome = true ∧ look (wait []).groups 7 = none :=
  ⟨issue rfl (by decide +kernel), issue rfl (by decide +kernel), issue rfl (by decide +kernel), issue rfl (by decide +kernel),
    issue rfl (by decide +kernel), write rfl (by decide +kernel), (fun _ _ => nofun), write rfl (by decide +kernel),
    write rfl (by decide +kernel), write rfl (by decide +kernel), write rfl (by decide +kernel), write rfl (by decide +kernel),
    write rfl (by decide +kernel), by decide +kernel⟩

/-- No cut, one scheduled and one being copied; the latest cut with its outcome; an inbox with no entry, one and two, and one whose HEAD is 0. -/
theorem witness_CutsAndTheEventInbox :
    let s := sysPf [(2, ⟨9, .full⟩)]
    let c : Cut := { tick := 9, dest := 0, asidsel := 0, regs := false }
    let cut (p : Part → Part) : State := s.updPart 0 p
    let box (head count : Byte) : State := { (one.updGroup 1 (fun g => { g with evPhys := 0x90000 })) with mem := if count = 0 then [(0x90000, head)] else [(0x90000, head), (0x90004, count)] }
    let uc : Use := { srcs := [(.a, .reg 2, 2)], dst := some (6, 2), sys := true, pf := true }
    let uw : Use := { srcs := [(.a, .reg 2, 2)], dst := some (6, 1), cancel := .always }
    let ue : Use := { dst := some (6, 1) }
    let uv (n : BitVec 18) : Use := { srcs := [(.b, .imm n, 1)], dst := some (6, 1), cancel := .always }
    Claim s uc 6 2 [(.reg 2, 2, 9)] ∧ Claim (cut (fun p => { p with ckActive := true })) uc 6 2 [(.reg 2, 2, 9)] ∧
    Write (cut (fun p => { p with cut := some c, latest := some (9, 4) })) uw 6 1 [(.reg 2, 2, 9)] ∧
    Write (cut (fun p => { p with lastCut := some true, latest := some (9, 4) })) uw 6 1 [(.reg 2, 2, 9)] ∧
    Write s uw 6 1 [(.reg 2, 2, 9)] ∧ Issue (box 63 1) ue [] ∧ (∀ i, inList 6 8 i = true → (regGet (box 63 1) t0 i).tag ≠ .pend) ∧
    NoTake (wh (box 63 1)) (box 63 1) ∧ NoCut (box 63 1) ∧ Issue (box 1 0) ue [] ∧ Issue (box 64 1) ue [] ∧
    Write (box 1 1) (uv 0) 6 1 [(.imm 0, 1, 0)] ∧ (∀ k j, (wh (box 1 1)).th.wait ≠ .evwait k j) ∧
    Write (box 1 0) (uv 0) 6 1 [(.imm 0, 1, 0)] ∧ Write (box 1 0) (uv 1) 6 1 [(.imm 1, 1, 1)] ∧ (s.part 0).ckActive = false ∧ c.tick = 9 ∧
    (s.part 0).latest = none ∧ ownPendingW (wh (box 63 1)) (box 63 1) 0x90000 2048 = false ∧
    badAt (box 63 1) (0x90000 + 32 * 63) 32 = none ∧ ownAccOn (box 63 1) t0 6 8 = false ∧ (read32 (box 63 1) 0x90000).toNat = 63 ∧
    read32 (box 63 1) 0x90004 = 1 ∧ read32 (box 63 1) 0x90008 = 0 ∧ 0x90000 + 2048 ≤ devBytes ∧ Memory.wf (box 63 1).mem = true ∧
    read32 (box 1 0) 0x90004 = 0 ∧ 63 < (read32 (box 64 1) 0x90000).toNat ∧ 0 < bits (read32 (box 1 1) 0x90004) 5 0 :=
  ⟨claim rfl (by decide +kernel), claim rfl (by decide +kernel), write rfl (by decide +kernel), write rfl (by decide +kernel),
    write rfl (by decide +kernel), issue rfl (by decide +kernel),
    (list_of (s := { (one.updGroup 1 _) with mem := _ }) (by decide +kernel)), (by unfold NoTake; decide +kernel),
    (by unfold NoCut; decide +kernel), issue rfl (by decide +kernel), issue rfl (by decide +kernel), write rfl (by decide +kernel),
    (fun _ _ => nofun), write rfl (by decide +kernel), write rfl (by decide +kernel), by decide +kernel⟩

/-- Four FULL words; a source that is PEND; a result index in another class. -/
theorem witness_PairWordResults :
    let s := regs [(4, f32), (5, f32), (9, f32), (10, f32)]
    let p := regs [(9, ⟨0, .pend⟩)]
    let u : Use := { named := [(4, 1), (9, 1), (5, 1), (10, 1)], lists := fun v _ =>
      (activeHalves [⟨.iadd, ⟨4, 9, 7, .s32⟩⟩, ⟨.iadd, ⟨5, 10, 7, .s32⟩⟩] v.th).flatMap halfReads }
    Issue s u [] ∧ Issue p u [] ∧ Issue s { named := [(4, 1), (5, 1), (10, 1)] } [] ∧ (∀ i ∈ [4, 5, 9, 10], regGet s t0 i = f32) ∧
    (wh s).th.preds.getLsbD 7 = true ∧ (regGet p t0 9).tag = .pend ∧ (4 : Nat) % 4 ≠ 5 % 4 ∧
    (∀ i ∈ [4, 5, 9, 10], busy s t0 i 1 = false) ∧ busy p t0 9 1 = true :=
  ⟨issue rfl (by decide +kernel), issue rfl (by decide +kernel), issue rfl (by decide +kernel), by decide +kernel⟩

/-- A load with one piece left and with two, at a whole granule and at a bad one, and behind an older one; a store that is performed, and one
that an earlier atomic holds. -/
theorem witness_LoadsArriveAndStoresPerform :
    let l (ps : List (Nat × Nat)) : Load := ⟨3, t0, 6, .z32, 0, 0, ps, [], none, .relaxed, false, 0⟩
    let s (ps : List (Nat × Nat)) : State := { one with loads := [l ps] }
    let bad : State := { s [(0x80000, 4)] with gran := [(0x2000, .uncorrectable)] }
    let behind : State := { s [(0x80000, 4)] with loads := [⟨1, t0, 8, .z32, 0, 0, [(0x80000, 4)], [], none, .atCore, false, 0⟩, l [(0x80000, 4)]] }
    let e : StoreEntry := ⟨5, t0, 0, 0, 4, [(0x80000, [1, 2, 3, 4])], .relaxed, none, false, 0, false⟩
    let q (s : State) : State := s.updGroup 1 (fun g => { g with queue := [e] })
    let own : Atomic := { id := 3, tid := t0, kind := .op .add, ty := .z32, va := 0, asid := 0, addr := 0x80000, b := 1, c := 0, dst := 6, ord := .relaxed }
    let held : State := { (q one) with atomics := [own] }
    let wrong := one.updGroup 1 (fun g => { g with queue := [{ e with bad := true }] })
    NoCut (q one) ∧
    (∀ ps ∈ [[(0x80000, 4)], [(0x80000, 4), (0x90000, 4)]], (s ps).loads.find? (fun y => y.id = 3) = some (l ps) ∧ ((s ps).group 1).saved = none ∧ loadHeld (s ps) (l ps) 0x80000 4 = false) ∧
    (∀ j, j < 4 → ownByte one t0 3 (0x80000 + j) = none ∧ memGet one.mem (canon one (0x80000 + j)) = 0 ∧ granBad one (0x80000 + j) = none) ∧
    bad.loads.find? (fun y => y.id = 3) = some (l [(0x80000, 4)]) ∧ granBad bad 0x80000 ≠ none ∧
    loadHeld bad (l [(0x80000, 4)]) 0x80000 4 = false ∧ behind.loads.find? (fun y => y.id = 3) = some (l [(0x80000, 4)]) ∧
    loadHeld behind (l [(0x80000, 4)]) 0x80000 4 = true ∧ look (q one).groups 1 = some ((q one).group 1) ∧
    ((q one).group 1).queue.head? = some e ∧ storeHeld (q one) e 0x80000 4 = false ∧ look held.groups 1 = some (held.group 1) ∧
    storeHeld held e 0x80000 4 = true ∧ storeHeld wrong { e with bad := true } 0x80000 4 = false ∧
    ((wrong.group 1).queue.head?).map (·.bad) = some true :=
  ⟨(by unfold NoCut; decide +kernel), by decide +kernel⟩

/-- A result of two words; an atomic, and a reduction queued, accepted at a page that is mapped, and at one that is not; a bad granule found. -/
theorem witness_ResultsAtomicsAndReductionsApply :
    let r : Result := { id := 3, tid := t0, writes := [(6, 1), (7, 2)] }
    let s : State := { one with results := [r] }
    let a : Atomic := { id := 3, tid := t0, kind := .op .add, ty := .z32, va := 0, asid := 0, addr := 0x80000, b := 1, c := 0, dst := 6, ord := .relaxed }
    let sa : State := { one with atomics := [a] }
    let o : RedOp := ⟨.add, .z32, 1⟩
    let e : StoreEntry := ⟨5, t0, 0, 0, 4, [], .relaxed, some o, false, 0, false⟩
    let q := one.updGroup 1 (fun g => { g with queue := [e] })
    let d : Red := ⟨3, t0, 0, 0, 0, 0, false, o, .relaxed, 0⟩
    let sr : State := { paged with reds := [d] }
    let unit (s : State) : Nat := 1200 + (match redPhys s 0 0 0 false with | some a => dieOf (canon s a) | none => 0)
    let got (s : State) := translate { overtake s t0 3 with reds := [] } { unit := unit s, part := 0, asid := 0, world := false, house := 0 } 0 .atomic (some .g)
    NoCut sa ∧ (∀ i k o, a.kind ≠ .vatom i k o) ∧ NoCut sr ∧ s.results.find? (fun x => x.id = 3) = some r ∧ (s.group 1).saved = none ∧
    (r.writes.map (·.1)).Nodup ∧ sa.atomics.find? (fun x => x.id = 3) = some a ∧ atomicHeld sa a = false ∧ a.got = none ∧ a.live = true ∧
    badAt sa 0x80000 4 = none ∧ look q.groups 1 = some (q.group 1) ∧ (q.group 1).queue.head? = some e ∧ releaseHeld q e = false ∧
    coreBefore q t0 e.after = false ∧ sr.reds = [d] ∧ sr.loads = [] ∧ sr.atomics = [] ∧ othersOvertaken sr t0 = false ∧
    mayPass sr t0 3 = true ∧ (match got sr with | .ok (pa, m) => pa = 0x80000 && badAt m pa 4 = none | _ => false) = true ∧
    ({ one with reds := [d] } : State).reds = [d] ∧ (got { one with reds := [d] }).isOk = false ∧ one.where_ 0x80000 = .dev 0x80000 ∧
    one.where_ 0x100000000040 = .far 0x100000000040 :=
  ⟨(by unfold NoCut; decide +kernel), (fun _ _ _ => nofun), (by unfold NoCut; decide +kernel), by decide +kernel⟩

/-- A tick that is due and one that is not; each wait; a group told to stop; a pending gang below 3 and at 3; a key that has waited 1,024
cycles; a refill; depths that differ by more than THRESH and none that do. -/
theorem witness_TimedEvents :
    let w (x : Wait) : State := st (fun t => { t with st := .waiting, wait := x })
    let a : WinAcc := { id := 3, kind := .wst, tid := t0, slot := some (0, 1), owner := t0, reg := 100, n := 1, vals := [7], dst := 0, handle := 0, off := 0 }
    let busy : State := { w (.wrev 0 1) with accs := [a] }
    let stop := (handled.updGroup 1 (fun g => { g with stop := some 4 })).updThread t0 (fun t => { t with regs := [((wh handled).k.regs + 23, ⟨0x80000000, .full⟩)] })
    let pend (b : Nat) : State := { one with gangs := one.gangs ++ [(7, { kernel := 0, idx := 0, boost := b })] }
    let k : PcKey := ⟨8, 0, false, false⟩
    let key : State := { one.updCore 0 (fun c => { c with table := [(0, k)], waitKeys := [({ k with pc := 0 }, 0)] }) with cyc := 1024 }
    let r (x : Option Nat) : State := one.updCore 0 (fun c => { c with refill := [x], cellar := [⟨3, 0, [], false⟩] })
    let deep := one.updCore 0 (fun c => { c with cellar := List.replicate 20 ⟨3, 0, [], false⟩ })
    waiting (w (.hbt 1)) t0 = some (.hbt 1) ∧ one.hbt = 0 ∧ waiting (w (.hbt 2)) t0 = some (.hbt 2) ∧
    waiting (w (.sleep 5)) t0 = some (.sleep 5) ∧ one.mgmt.up = true ∧
    ({ one with mgmt := { one.mgmt with noImage := true } } : State).mgmt.up = false ∧
    look (w (.promised 5 6)).threads t0 = some ((w (.promised 5 6)).thread t0) ∧ ((w (.promised 5 6)).thread t0).wait = .promised 5 6 ∧
    ((w (.promised 5 6)).thread t0).st = .waiting ∧ waiting (w (.mwait 5 6)) t0 = some (.mwait 5 6) ∧
    waiting (w (.evwait 5 6)) t0 = some (.evwait 5 6) ∧ waiting (w (.wrev 0 1)) t0 = some (.wrev 0 1) ∧ (w (.wrev 0 1)).accs = [] ∧
    waiting busy t0 = some (.wrev 0 1) ∧ a ∈ busy.accs ∧ look stop.groups 1 = some (stop.group 1) ∧ (stop.group 1).stop = some 4 ∧
    (stop.thread t0).st ≠ .exited ∧ (stop.thread t0).stopped = false ∧ entryBit stop t0 = true ∧
    (∀ b ∈ [0, 3], look (pend b).gangs 7 = some { kernel := 0, idx := 0, boost := b }) ∧
    (key.core 0).waitKeys = [({ k with pc := 0 }, 0)] ∧ ((key.core 0).table.map (·.1)).Nodup ∧ (0, k) ∈ (key.core 0).table ∧
    (∀ e ∈ (key.core 0).table, e.1 ≤ 0) ∧ (r none).core 0 = { one.core 0 with refill := [none], cellar := [⟨3, 0, [], false⟩] } ∧
    ((r (some 0)).core 0).refill = [some 0] ∧ clusterPart deep 0 = clusterPart one 0 ∧
    (deep.core 0).onchip.length + (deep.core 0).cellar.length = 20 ∧
    (∀ c, c < 24 → (one.core c).onchip.length + (one.core c).cellar.length = 0) :=
  by decide +kernel

/-- Each kind of access at a FULL word, at a PEND one and at one of its own condition; a bound that has expired; a multicast with deliveries
left and with none. -/
theorem witness_WindowAccessesComplete :
    let a (k : WinKind) (vs : List Word) (c : Option Nat) : WinAcc := ⟨3, k, t0, some (0, 1), t0, 100, 1, vs, 6, 0, 0, c, true, false, 0, none⟩
    let s (k : WinKind) (vs : List Word) (c : Option Nat) (t : Tag) : State :=
      { regs [(100, ⟨5, t⟩)] with accs := [a k vs c] }
    let held : State := { st (fun t => { t with st := .waiting, wait := .access 3, regs := [(100, ⟨5, .pend⟩)] }) with accs := [a .wst [7] (some 4)] }
    let order : State := { s .wld [] none .full with accs := [a .wld [] none, { a .wld [] none with id := 4 }] }
    let ecc : State := (s .wld [] none .full).updThread t0 (fun t => { t with ecc := [(100, false)] })
    let probe : State := { st (fun t => { t with st := .waiting, wait := .window, regs := [(100, ⟨5, .pend⟩)] }) with accs := [a .probe [] (some 4)] }
    let m (n : Nat) : Mcast := { id := 4, tid := t0, dst := 6, handle := 0, left := n, next := 8 }
    let mc (n : Nat) : State := { st (fun t => { t with st := .waiting, wait := .access 4 }) with mcasts := [m n] }
    (∀ i, inDst 100 1 i = true → inDst 6 1 i = false) ∧
    (∀ k ∈ [WinKind.wld, .lnrd, .wst, .lnwr, .wtake, .wgive], ∀ t ∈ [Tag.full, .empty, .pend], (s k [] none t).accs.find? (fun x => x.id = 3) = some (a k [] none) ∧ regGet (s k [] none t) t0 100 = ⟨5, t⟩ ∧ ((s k [] none t).group 1).saved = none ∧ accHeld (s k [] none t) (a k [] none) = false ∧ eccAt (s k [] none t) t0 100 1 = []) ∧
    accHeld order { a .wld [] none with id := 4 } = true ∧ accHeld ecc (a .wld [] none) = false ∧ (a .wld [] none).closed one = true ∧
    ({ a .wld [] none with slot := none } : WinAcc).closed one = false ∧ eccAt ecc t0 100 1 ≠ [] ∧
    probe.accs.find? (fun x => x.id = 3) = some (a .probe [] (some 4)) ∧ accHeld probe (a .probe [] (some 4)) = false ∧
    (probe.thread t0).wait = .window ∧ (regGet probe t0 100).tag = .pend ∧
    (∀ t ∈ [Tag.full, .pend], (s (.atomw .add false) [1, 0] none t).accs.find? (fun x => x.id = 3) = some (a (.atomw .add false) [1, 0] none)) ∧
    (s .wld [] (some 4) .pend).accs.find? (fun x => x.id = 3) = some (a .wld [] (some 4)) ∧
    held.accs.find? (fun x => x.id = 3) = some (a .wst [7] (some 4)) ∧ (regGet held t0 100).tag = .pend ∧ (held.thread t0).st = .waiting ∧
    (held.thread t0).wait = .access 3 ∧ (mc 0).accs.find? (fun x => x.id = 4) = none ∧
    (mc 0).mcasts.find? (fun x => x.id = 4) = some (m 0) ∧ ((mc 0).thread t0).st = .waiting ∧ ((mc 0).thread t0).wait = .access 4 ∧
    (∀ r ∈ [9, 10], ({ m 0 with timedOut := some r } : Mcast).left = 0) ∧ (mc 1).mcasts.find? (fun x => x.id = 4) = some (m 1) :=
  ⟨(fun i h => by simp only [inDst, Bool.and_eq_true, Bool.and_eq_false_iff, decide_eq_true_eq, decide_eq_false_iff_not] at *; omega),
    by decide +kernel⟩

/-- An issue group that none has issued, and none; below every limit, at LIMIT with a step to go back and without; a first mismatch; a core
below TARGET and one at it, and one that is quarantined. -/
theorem witness_MarginEvents :
    let c (f : Core → Core) : State := one.updCore 0 (fun c => f { c with slot := [t0], last := [t0] })
    let s := c id
    let at1 := c (fun c => { c with nrep := mgnLimit c.mgnCtl - 1 })
    let at0 := c (fun c => { c with step := 2, mgnCtl := c.mgnCtl ||| 4, nrep := mgnLimit c.mgnCtl - 1 })
    let trp := c (fun c => { c with mgnCtl := c.mgnCtl ||| 0x800000000000 })
    let on (x : Nat) : State := ({ State.reset.withFetchWord 64 x with cur := some t0 }).updCore 0 (fun c => { c with slot := [t0], last := [t0] })
    let add := on (w 0x10 3 2 4 0 0)
    let store := on (w 0x71 0 12 3 0 0)
    let sto := s.updGroup 1 (fun g => { g with queue := [⟨5, t0, 0, 0, 4, [(0x80000, [1, 2, 3, 4])], .relaxed, none, false, 0, false⟩] })
    let go (s : State) : Prop := (s.core 0).slot ≠ [] ∧ (s.core 0).slot.length = (s.core 0).last.length ∧ (s.core 0).doom = false ∧ (s.core 0).mgnCtl.getLsbD 47 = false ∧ (s.core 0).mgnInj.getLsbD 63 = false ∧
      (s.core 0).injLeft = 0
    go s ∧ NoCut s ∧ go at0 ∧ NoCut at0 ∧ go at1 ∧ NoCut at1 ∧
    ((trp.core 0).slot = [t0] ∧ (trp.thread t0).st = .ready ∧ (trp.core 0).mgnCtl.getLsbD 47 = true ∧ (trp.core 0).slot.length = (trp.core 0).last.length ∧ (trp.core 0).doom = false ∧ (trp.core 0).mgnInj.getLsbD 63 = false ∧ (trp.core 0).injLeft = 0 ∧ (trp.core 0).nrep + 1 < mgnLimit (trp.core 0).mgnCtl ∧ winCount trp (trp.core 0) + 1 < mgnWinc (trp.core 0).mgnCtl) ∧
    groupGuarded store 0 = true ∧ groupGuarded add 0 = false ∧ checkedBy add 0 0 = true ∧ checkedBy store 0 0 = false ∧
    1 < (s.who t0).k.nw ∧ ((sto.group 1).queue.getLast?).map (·.id) = some 5 ∧ (s.group 1).queue = [] ∧ (one.core 1).slot = [] ∧
    one.mgmt.up = true ∧ ({ one with mgmt := { one.mgmt with noImage := true } } : State).mgmt.up = false ∧
    look s.threads t0 = some (s.thread t0) ∧ (s.core 0).nrep + 1 < mgnLimit (s.core 0).mgnCtl ∧
    winCount s (s.core 0) + 1 < mgnWinc (s.core 0).mgnCtl ∧ mgnLimit (at0.core 0).mgnCtl ≤ (at0.core 0).nrep + 1 ∧ (at0.core 0).step ≠ 0 ∧
    (at0.core 0).step ≤ mgnTarget (at0.core 0).mgnCtl ∧ backCount at0 (at0.core 0) + 1 < mgnEscn (at0.core 0).mgnCtl ∧
    mgnLimit (at1.core 0).mgnCtl ≤ (at1.core 0).nrep + 1 ∧ (at1.core 0).step = 0 ∧ (at1.core 0).quar = false ∧
    (s.core 0).last[0]? = some t0 ∧ (look s.threads t0).isSome = true ∧ (s.core 0).mismatch = false ∧ (at1.core 0).quar = false ∧
    (s.core 0).step = mgnTarget (s.core 0).mgnCtl ∧
    ((at0.updCore 0 (fun c => { c with step := 1 })).core 0).step < mgnTarget (at0.core 0).mgnCtl :=
  ⟨(by show _ ∧ _ ∧ _ ∧ _ ∧ _ ∧ _; decide +kernel), (by unfold NoCut; decide +kernel), (by show _ ∧ _ ∧ _ ∧ _ ∧ _ ∧ _; decide +kernel),
    (by unfold NoCut; decide +kernel), (by show _ ∧ _ ∧ _ ∧ _ ∧ _ ∧ _; decide +kernel), (by unfold NoCut; decide +kernel),
    by decide +kernel⟩

/-- A group whose threads have exited, and one whose have not; a gang killed for a relaunch, with a copy that reads its words and without; a
kernel whose gangs have ended, and one that runs; an instance that has arrived, and one that has not; a cancellation on its way. -/
theorem witness_GroupsGangsAndKernelsEnd :
    let every (th : Thread) : State := { one with threads := (tidsOf (one.kernel 0) 1).map (fun u => (u, th)) }
    let x := every { st := .exited }
    let kill := one.updGang 0 (fun g => { g with killed := some false })
    let busy := kill.updCluster 0 (fun c => { c with ce := [{ copy0 with items := [⟨[.reg t0 100], .drop, false, none⟩] }] })
    let e : Est := { die := 2, idx := 5, kind := .lock, hkind := .none, heir := 0, holder := some 1, creator := 1, fn := 0, vf := 0, part := 0, world := false, seq := 0, addr := 0x80000 }
    let heirs : State := { kill with estate := [e] }
    let sums : State := { heirs with reds := [⟨3, t0, 0, 0, 0, 0, false, ⟨.add, .z32, 1⟩, .relaxed, 0⟩] }
    let fin := one.updGang 0 (fun g => { g with st := .ended })
    let inTroupe (s : State) : State := s.updKernel 0 (fun k => { k with scopes := [(0, .troupe)] })
    let ph := inTroupe (every { st := .waiting, wait := .phase .troupe })
    let q := (every { st := .waiting, wait := .promise 0 }).updGang 0 (fun g => { g with signal := some 1 })
    NoCut paged ∧ look x.groups 1 = some (x.group 1) ∧ (∀ u ∈ tidsOf (x.who ⟨1, 0, 0⟩).k 1, (x.thread u).st = .exited) ∧
    (x.group 1).queue = [] ∧ readsPending (settleGroup x 1) 1 = false ∧ atomicsPending (settleGroup x 1) 1 = false ∧
    (x.gang (x.group 1).gang).killed ≠ some false ∧ openSlots x 1 = [] ∧ x.estate = [] ∧ (one.thread ⟨1, 0, 0⟩).st ≠ .exited ∧
    (∀ s ∈ [kill, busy], look s.gangs 0 = some (s.gang 0) ∧ (s.gang 0).st = .placed ∧ (s.gang 0).killed = some false) ∧
    (∀ v ∈ (kill.gang 0).groups, readsPending kill v = false ∧ holdings kill v = []) ∧ (kill.gang 0).groups.Nodup ∧
    look kill.groups 1 = some (kill.group 1) ∧ (kill.group 1).gang = 0 ∧
    (∀ s ∈ [heirs, sums], look s.gangs 0 = some (s.gang 0) ∧ (s.gang 0).st = .placed ∧ (s.gang 0).killed = some false) ∧
    (∀ v ∈ (heirs.gang 0).groups, readsPending heirs v = false ∧ holdings heirs v ≠ [] ∧ redsPending heirs v = false) ∧
    (∃ v ∈ (sums.gang 0).groups, holdings sums v ≠ [] ∧ redsPending sums v = true) ∧
    (∃ v ∈ (busy.gang 0).groups, readsPending busy v = true) ∧
    (translate paged (homeCtx { words := [] }) 0 .write (some .g)).isOk = true ∧ look fin.kernels 0 = some (fin.kernel 0) ∧
    (fin.kernel 0).st ≠ .ended ∧ kernelDone fin 0 = true ∧ kernelDone one 0 = false ∧ look ph.gangs 0 = some (ph.gang 0) ∧
    (ph.gangs.map (·.1)).Nodup ∧ (ph.gang 0).st = .placed ∧ look (ph.kernel 0).scopes (ph.gang 0).phase = some .troupe ∧
    (∀ p ∈ ph.gangs, gangArrived ph (ph.gang 0).phase p.2 = true ∧ cutHolds ph p.2 = false) ∧
    look ((inTroupe one).kernel 0).scopes ((inTroupe one).gang 0).phase = some .troupe ∧
    (∃ p ∈ (inTroupe one).gangs, gangArrived (inTroupe one) 0 p.2 = false) ∧ look q.groups 1 = some (q.group 1) ∧
    look q.gangs 0 = some (q.gang 0) ∧ (q.gang 0).signal = some 1 ∧ (q.gang 0).killed = none ∧ (q.threads.map (·.1)).Nodup ∧
    q.holdq = [] ∧ (∀ u ∈ (q.gang 0).groups, (q.group u).saved = none) :=
  ⟨(by unfold NoCut; decide +kernel), by decide +kernel⟩

/-- The group saved, to return to the only core of its cluster that takes placement. -/
abbrev away : State :=
  ({ one with threads := (tidsOf (one.kernel 0) 1).map (fun u => (u, {})) }.updGroup 1 (fun g => { g with saved := some { base := 0, pool := false } })).updCluster 0
    (fun c => { c with hold := 0xFFFFFD })

theorem away_restores : restoreCore away [1] 0 = some 1 := by
  have h : (restoreUnit away 1 [1]).isSome = true := by
    have hf : (fitOn away 1 (away.who ⟨1, 0, 0⟩).k).isSome = true :=
      Laws.fitOn_isSome (by decide +kernel) (by decide +kernel) (by decide +kernel) (by decide +kernel)
    obtain ⟨⟨l, b⟩, e⟩ := Option.isSome_iff_exists.mp hf
    simp [restoreUnit, e]
  have hc : ∀ c ∈ upto (24 * 0) 24, (coreOpen away c && (restoreUnit away c [1]).isSome) = decide (c = 1) := by
    have ho : ∀ c ∈ upto (24 * 0) 24, coreOpen away c = decide (c = 1) := by decide +kernel
    intro c hc
    rw [ho c hc]
    by_cases e : c = 1
    · subst e; simp [h]
    · simp [e]
  unfold restoreCore
  simp only
  rw [List.filter_congr hc]
  decide +kernel

/-- A group told to stop, its area planned, its threads stopped at once, and with a store left; a group that may return to core 1 and not to
core 0. -/
theorem witness_GroupsStopSaveAndReturn :
    let x : SavedAt := { base := 0x40000, pool := true }
    let s := one.updGroup 1 (fun g => { g with stop := some 3, area := some x })
    let mates : State := { away with groups := away.groups ++ [(2, { one.group 1 with core := (one.group 1).core, gidx := 1, stop := some 3 })], gangs := [(0, { away.gang 0 with groups := [1, 2] })] }
    let sib := s.updKernel 0 (fun k => { k with words := k.words.set 12 (k.w 12 ||| 0x80) })
    let busy := s.updGroup 1 (fun g => { g with queue := [⟨5, t0, 0, 0, 4, [], .relaxed, none, false, 0, false⟩] })
    NoCut sib ∧ restoreCore away [1] (away.gang 0).cl = some 1 ∧ restoreCore away [1] (away.gang 0).cl ≠ some 0 ∧
    (∀ m ∈ [s, busy], look m.groups 1 = some (m.group 1) ∧ (m.group 1).saved = none ∧ (m.group 1).stop.isSome = true ∧ (m.group 1).area = some x) ∧
    (s.gang 0).killed = none ∧ (s.gang 0).cancel = none ∧ allStopped s 1 = true ∧ (s.group 1).queue = [] ∧
    remapUsed s 0 + (one.kernel 0).depth ≤ 64 ∧ (busy.group 1).queue ≠ [] ∧ look away.groups 1 = some (away.group 1) ∧
    (away.group 1).saved = some { base := 0, pool := false } ∧ mateStops away 1 = false ∧ mateStops mates 1 = true ∧
    saveUnit mates 1 = [1] ∧ look mates.groups 1 = some (mates.group 1) ∧ (mates.group 1).saved = (away.group 1).saved ∧
    (sib.who t0).k.sib = true ∧ look sib.groups 1 = some (sib.group 1) ∧ (sib.group 1).area = some x ∧ allStopped sib 1 = true ∧
    (sib.group 1).queue = [] ∧ (∀ y ∈ away.threads, ∀ n ∈ [0, 1], y.2.wait ≠ .hbt n) ∧ saveUnit away 1 = [1] ∧
    (away.gang 0).room = false ∧ x.whole = false ∧ layersOf s 1 = 1 ∧ remapFits s 0 = true ∧ (s.groups.map (·.1)).Nodup ∧
    (∀ u ∈ tidsOf (away.kernel 0) 1, (look away.threads u).isSome = true ∧ (away.thread u).wait = .none) :=
  ⟨(by unfold NoCut; decide +kernel), away_restores, (fun h => nomatch away_restores.symm.trans h), by decide +kernel⟩

theorem seats {s : State} {n v : Nat} (c : Nat)
    (h : (let g := s.gang n
      let k := s.kernel g.kernel
      match gangGroups s n with
      | none => false
      | some (m1, vs) => match giveInbox m1 k v with
        | none => false
        | some m => clusterOk s k g.cl && atticFits s (clusterDie g.cl) k && decide (vs = [v]) && (upto (24 * g.cl) 24).contains c &&
        coreOpen m c && slotsFit m c k && decide (k.depth = 1) && decide (k.width ≤ 64) && decide (0 < k.width) &&
        decide (Laws.freeBases m c k ≠ [])) = true) :
    ∃ m, trySeat s n = some (m, [v]) := by
  dsimp only at h
  split at h
  · exact absurd h (by decide)
  · rename_i m vs e
    split at h
    · exact absurd h (by decide)
    rename_i m0 e0
    simp only [Bool.and_eq_true, decide_eq_true_eq, List.contains_iff_mem] at h
    obtain ⟨⟨⟨⟨⟨⟨⟨⟨⟨h1, h2⟩, rfl⟩, h4⟩, h5⟩, h6⟩, h7⟩, h8⟩, h9⟩, h10⟩ := h
    exact Laws.trySeat_isSome (s1 := m) (by simp [h1, h2]) e e0 (Laws.bestCore_isSome c h4 (by simp [h5, h6]) (Laws.fitOn_isSome h7 h8 h9 h10))

/-- A gang of one group to place in cluster `cl`; the partition owns the first two clusters. -/
abbrev gang1 (cl : Nat) (f : State → State) : State :=
  f { one with
      gangs := one.gangs ++ [(7, { kernel := 9, idx := 0, groups := [9], cl := cl, inbox := [(9, (0x80000000, 0x90000))] })], kernels := one.kernels ++ [(9, { words := State.probeWords })],
      parts := [(0, { one.part 0 with clu := 0x8000000000000003, savePool := 0x100000, saveSize := 0x100000 })] }

/-- The gang, of priority 1, has to wait for the core that the resident group of priority 0 fills. -/
abbrev crowded : State := gang1 0 (fun s =>
  { s with
    groups := [(1, { s.group 1 with bases := (upto 0 16).map (512 * ·) })],
    kernels := [(0, { s.kernel 0 with words := State.probeWords.set 8 0x3F10 }), (9, { words := State.probeWords.set 12 0x10 })],
    parts := [(0, { s.part 0 with clu := 0x8000000000000001 })], clusters := [(0, { hold := 0xFFFFFE })] })

theorem crowded_fits : ∀ c, ¬(c < 48 ∧ (crowded.part 0).clu.getLsbD c = true ∧
    (trySeat (crowded.updGang 7 (fun g => { g with cl := c })) 7).isSome = true) := by
  rintro c ⟨h1, h2, h3⟩
  have h0 : ∀ c, c < 48 → (crowded.part 0).clu.getLsbD c = true → c = 0 := by decide +kernel
  obtain rfl := h0 c h1 h2
  exact absurd h3 (by decide +kernel)

theorem crowded_vacate : vacate crowded 7 = some (0, [0]) := by
  have h : ∃ m, trySeat (asVacated (toCluster crowded 7 0) [0]) 7 = some (m, [9]) := seats 0 (by decide +kernel)
  obtain ⟨m, h⟩ := h
  have hv : victims crowded 0 (crowded.kernel (crowded.gang 7).kernel).part (crowded.kernel (crowded.gang 7).kernel).prio = [0] := by
    decide +kernel
  have hc : (crowded.gang 7).cl = 0 := rfl
  have he : enough crowded 7 (crowded.gang 7).cl = some [0] := by simp [enough, hv, hc, upto, choices, h]
  have hn : ((upto (12 * (crowded.gang 7).die) 12).filter (· ≠ (crowded.gang 7).cl)).filterMap
      (fun c => (enough crowded 7 c).map (fun l => (c, l))) = [] := by decide +kernel
  unfold vacate
  simp only [List.filterMap_cons, he, hn]
  rfl

/-- A gang waiting at WBAR on its core, and a pending one of the same kernel that no core of the cluster takes, with a save pool and without. -/
def packed (pool : Bool) : State := gang1 0 (fun s =>
  { s with
    gangs := s.gangs.map (fun g => (g.1, { g.2 with kernel := 0 })), clusters := [(0, { hold := 0xFFFFFF })],
    threads := (tidsOf (s.kernel 0) 1).map (fun u => (u, { st := .waiting, wait := .phase .gang })),
    parts := [(0, if pool then s.part 0 else { s.part 0 with savePool := 0, saveSize := 0 })] })

/-- A gang that fits and one that no cluster takes; a save area in the pool; a gang that has waited at WBAR, beside a pending one; a cluster to
steal from; a TAIL one ahead and too far; records of every fate; a waiting record of each predecessor's state. -/
theorem witness_SchedulingAndLaunchEvents :
    let s := gang1 0 id
    let none0 := gang1 0 (fun s => { s with parts := [(0, {})] })
    let bar (cl : Nat) := gang1 cl (fun s => { s with gangs := s.gangs.map (fun g => (g.1, { g.2 with kernel := 0 })), threads := (tidsOf (s.kernel 0) 1).map (fun u => (u, { st := .waiting, wait := .phase .gang })) })
    let alone : State := { one with threads := (tidsOf (one.kernel 0) 1).map (fun u => (u, { st := .waiting, wait := .phase .gang })) }
    let steal := gang1 1 id
    let moved := steal.updGang 7 (fun x => { x with cl := 0, die := clusterDie 0 })
    let lq : Lq := { en := true, base := 0xA0000, tail := 1 }
    let h (l : List Host.Cell) : State := { paged with mem := paged.mem ++ l, fns := [(0, { en := true, lq := [(0, lq)] })] }
    let k (s : State) : Kernel := { words := hostRecord s 0 lq, parent := .host, fn := 0, irq := lq.irq }
    let q : LaunchReq := { words := State.probeWords.set 0 0, fn := 0, parent := .group 1, irq := false, order := 0, ret := some (t0, 6) }
    let dev := paged.updPart 0 (fun p => { p with devq := [q] })
    let after (a : Word) : LaunchReq := { q with words := q.words.set 16 a }
    let wait (a : Word) (b : Byte) : State := { paged.updPart 0 (fun p => { p with waits := [after a] }) with mem := paged.mem ++ [(0x80040, b)] }
    (∃ m, trySeat s 7 = some (m, [9])) ∧
    (∀ c, ¬(c < 48 ∧ (crowded.part 0).clu.getLsbD c = true ∧ (trySeat (crowded.updGang 7 (fun g => { g with cl := c })) 7).isSome = true)) ∧
    vacate crowded 7 = some (0, [0]) ∧
    (∀ b ∈ [false, true], look (packed b).gangs 0 = some ((packed b).gang 0) ∧ gangAtWbar (packed b) ((packed b).gang 0) = true ∧ ((packed b).gang 7).st = .pending ∧ ((packed b).gang 7).kernel = 0 ∧ ((packed b).gang 7).phase ≤ ((packed b).gang 0).phase ∧ clusterOk (packed b) ((packed b).kernel 0) 0 = true ∧ (trySeat (packed b) 7).isSome = false ∧ (trySeat (toCluster (packed b) 7 0) 7).isSome = false) ∧
    (planSaves (packed false) [1]).isSome = false ∧ (planSaves (packed true) [1]).isSome = true ∧ (clusterPart steal 0).isSome = true ∧
    (∃ m, trySeat moved 7 = some (m, [9])) ∧
    (∀ l ∈ [[], [(0xA0018, 8)], [(0xA0020, 0x10)]], let x := (h l).fn 0; (h l).mgmt.up = true ∧ x.en = true ∧ x.tdisp = 0 ∧ x.queue 0 = lq ∧ lq.stuck = false ∧ lq.head ≠ lq.tail ∧ ((h l).part x.part).waits.length < 256) ∧
    (∀ l ∈ [[], [(0xA0020, 0x10)]], doneBad (h l) (k (h l)) 0xA0000 = false ∧ preds (k (h l)) = [] ∧ (k (h l)).sib = false) ∧
    look s.gangs 7 = some (s.gang 7) ∧ (s.gang 7).st = .pending ∧ mayPlace s 7 = true ∧ (∀ p ∈ s.threads, p.1.vgid ≠ 9) ∧
    look none0.gangs 7 = some (none0.gang 7) ∧ trySeat none0 7 = none ∧ (planSaves s [1]).isSome = true ∧
    look crowded.gangs 7 = some (crowded.gang 7) ∧ (crowded.gang 7).st = .pending ∧
    (∀ cl ∈ [0, 1], look (bar cl).gangs 0 = some ((bar cl).gang 0) ∧ ((bar cl).gang 0).st = .placed ∧ gangAtWbar (bar cl) ((bar cl).gang 0) = true) ∧
    gangAtWbar alone (alone.gang 0) = true ∧ (∀ p ∈ alone.gangs, p.2.st ≠ .pending) ∧ pendingOn steal (fun g => g.cl = 0) = [] ∧
    clusterPart steal 0 = clusterPart steal 1 ∧ pendingOn steal (fun g => g.cl = 1) = [(7, steal.gang 7)] ∧
    doneBad (h [(0xA0018, 8)]) (k (h [(0xA0018, 8)])) 0xA0000 = true ∧ (recReason (h []) (k (h []))).isSome = true ∧
    recReason (h [(0xA0020, 0x10)]) (k (h [(0xA0020, 0x10)])) = none ∧ ¬ ((one.fn 0).en = true) ∧ one.mgmt.powered = true ∧
    one.mgmt.noImage = false ∧ ({ one with mgmt := { one.mgmt with noImage := true, powered := false } } : State).mgmt.powered = false ∧
    (dev.part 0).devq = [q] ∧ (dev.part 0).waits.length < 256 ∧ (dev.fn 0).tdisp = 0 ∧ (dev.group 1).saved = none ∧ preds q.kernel = [] ∧
    recReason dev q.kernel = none ∧ q.kernel.sib = false ∧
    (∀ b ∈ [1, 3, 4], ((wait 0x40 b).part 0).waits[0]? = some (after 0x40) ∧ predStates (wait 0x40 b) (after 0x40).kernel = [some b.toNat]) ∧
    ((wait 0x10040 3).part 0).waits[0]? = some (after 0x10040) ∧ predStates (wait 0x10040 3) (after 0x10040).kernel = [none] :=
  ⟨(seats 1 (by decide +kernel)), crowded_fits, crowded_vacate, (by decide +kernel), (by decide +kernel), (by decide +kernel),
    (by decide +kernel), (seats 1 (by decide +kernel)), (by decide +kernel), (by decide +kernel), by decide +kernel⟩

/-- The page at 0 a wings pair, of frames 0x80000 and 0x90000. -/
abbrev winged : State := { paged with mem := paged.mem.dropLast ++ [(0x70001, 0x82), (0x70008, 0x0F), (0x70009, 0x90)] }
/-- A copy request with these items. -/
abbrev copyOf (s : State) (r : CeReq) : State := s.updCluster 0 (fun c => { c with ce := [r] })

/-- An accepted request of each kind; a layout record that cannot be read, one that fails a check and one of four bytes; an item inbound,
outbound and through a window, at a PEND word, and at a page that is not mapped; a granule of WOPEN; a thread at PUBLISH, and a copy that holds
it; an invalidation; a page-in that can be read and one that cannot. -/
theorem witness_CopyEngineEvents :
    let acc (k : CeKind) : CeReq := { copy0 with kind := k, st := .accepted }
    let full := paged.updPart 0 (fun p => { p with tracker := List.replicate 1024 ⟨0, 0, 0, .inflight, 0, 0, 0, false, 0, 0, 0, 0, [], 0, false⟩ })
    let bulk : CeReq := { acc .bcopy with args := [0, 0, 0, 0, 0, 1], region := some ⟨1, 0, 64, 1, 0⟩ }
    let rec1 : State := { paged with mem := paged.mem ++ [(0x80008, 0x0A), (0x8000C, 1)] }
    let lay (s : State) : Option (Layout × Word) := match engRead s (ceCtx 0 bulk) 0 64 .g with
      | .ok (bs, _) => some (layoutOf (wordsOf bs), (wordsOf bs).getD 2 0)
      | .error _ => none
    let bad (s : State) : Option (Option Nat) := (lay s).map (fun x => layoutBad x.1 x.2 false 0 1)
    let item (src : CeSrc) (dst : CeDst) (n : Option Nat) : CeReq := { copy0 with items := [⟨[src], dst, false, n⟩] }
    let win (l : Tab RegWord) : State := (pregs l).updCore 0 (fun c => { c with slots := [(0, ⟨t0, 0, 0, true, false, false, ⟨true, true, true, true⟩, 1, 100, 3⟩)] })
    let open_ (s : State) (r : CeReq) : Prop := openItem (copyOf s r) 0 0 0 = some (r, r.items.getD 0 ⟨[], .drop, false, none⟩) ∧ lowerFault (copyOf s r) 0 r 0 = false ∧ r.barriers = []
    let inb := item (.mem 0 4) (.claim t0 6) none
    let out := item (.bytes [1, 2, 3, 4]) (.mem [(0, 4)]) none
    let two : CeReq := { copy0 with items := [⟨[.bytes [5, 6, 7, 8]], .mem [(0, 4)], false, none⟩, ⟨[.bytes [1, 2, 3, 4]], .mem [(0, 4)], false, none⟩] }
    let thr (x : Option Nat) := item (.bytes [1, 2, 3, 4]) (.win 0x20 t0 100) x
    let gone := item (.mem 0x10000 4) (.claim t0 6) none
    let wop : CeReq := { copy0 with kind := .wopen }
    let pub (r : List CeReq) : State :=
      let m := memWrite winged.mem 0x10000 (leBytes 8 (w 0xA5 0 10 0 0 0))
      ((({ winged with mem := m }.updKernel 0 (fun k => { k with code := m })).updThread t0 (fun t => { t with st := .waiting, wait := .publish 5 none })).updCluster 0 (fun c => { c with ce := r }))
    let i : Inv := ⟨3, none, 0, 0, 0, 0xFFFF, [], []⟩
    let inv : State := { one with invs := [i] }
    let tr (a : Nat) : Tracker := ⟨3, 0, 0, .inflight, 0, 0, 0, false, a, 0, 4, 8, [], 0, false⟩
    let tier (a : Nat) : State := { paged with parts := [(0, { paged.part 0 with tracker := [tr a] })], mem := paged.mem ++ [(0x70008, 0x0F), (0x70009, 1), (0x7000D, 1)] }
    open_ paged inb ∧ open_ paged out ∧ NoCut (copyOf paged out) ∧ open_ (win []) (thr none) ∧
    open_ (win [(100, ⟨0, .pend⟩)]) (thr (some 4)) ∧
    itemTry (copyOf (win [(100, ⟨0, .pend⟩)]) (thr (some 4))) 0 (thr (some 4)) 0 ⟨[.bytes [1, 2, 3, 4]], .win 0x20 t0 100, false, some 4⟩ = .pend (some (t0, 100)) ∧
    open_ paged gone ∧ (∃ x, itemTry (copyOf one gone) 0 gone 0 ⟨[.mem 0x20000 4], .claim t0 6, false, none⟩ = .fault x) ∧
    NoCut (copyOf winged wop) ∧
    (∀ r ∈ [[], [out]], publishOf (pub r) t0 = some ((pub r).who t0, 0, 5) ∧ (wingsLeaf ((pub r).who t0) (pub r) 0).isOk = true) ∧
    NoCut (tier 0x10000) ∧
    (∀ k ∈ [CeKind.acopy, .awrite, .wopen, .bcopy, .bstore, .kvcopy, .tierin], findReq (copyOf paged (acc k)) 0 0 = some (acc k)) ∧
    trackRoom full 0 1 = false ∧ findReq (copyOf one bulk) 0 0 = some bulk ∧ (engRead one (ceCtx 0 bulk) 0 64 .g).isOk = false ∧
    bad paged = some (some 0x40) ∧ bad rec1 = some none ∧ ((lay rec1).map (fun x => streamWords x.1 (boxOf x.1 bulk.args))) = some 1 ∧
    (engRead (copyOf paged inb) (pieceCtx 0 inb 0) 0 4 .g).isOk = true ∧
    (dstPhys (copyOf paged out) (pieceCtx 0 out 0) .g [(0, 4)]).1 = [(0x80000, 4)] ∧
    (dstPhys (copyOf paged out) (pieceCtx 0 out 0) .g [(0, 4)]).2.1 = none ∧
    itemBehind (dstPhys (copyOf paged out) (pieceCtx 0 out 0) .g [(0, 4)]).2.2 0 out 0 [(0x80000, 4)] = false ∧ out.stamp = .none ∧
    outBefore (copyOf paged out) t0 0 = false ∧ itemBehind (copyOf paged two) 0 two 1 [(0x80000, 4)] = true ∧
    openItem (copyOf paged two) 0 0 1 = some (two, two.items.getD 1 ⟨[], .drop, false, none⟩) ∧
    lowerFault (copyOf paged two) 0 two 1 = false ∧ (dstPhys (copyOf paged two) (pieceCtx 0 two 1) .g [(0, 4)]).1 = [(0x80000, 4)] ∧
    dstBlocked (dstPhys (copyOf paged out) (pieceCtx 0 out 0) .g [(0, 4)]).2.2 0 [(0x80000, 4)] = false ∧
    handleLive (copyOf (win []) (thr none)) 0x20 = true ∧ (regGet (win []) t0 100).tag ≠ .pend ∧
    (regGet (win [(100, ⟨0, .pend⟩)]) t0 100).tag = .pend ∧ findReq (copyOf winged wop) 0 0 = some wop ∧
    (match engRead (copyOf winged wop) (pieceCtx 0 wop 0) 0 64 .g with | .ok (bs, m) => decide (bs.length = 64) && (dstPhys m (pieceCtx 0 wop 0) .g [(0, 64)]).1 = [(0x90000, 64)] && (dstPhys m (pieceCtx 0 wop 0) .g [(0, 64)]).2.1 = none && !dstBlocked (dstPhys m (pieceCtx 0 wop 0) .g [(0, 64)]).2.2 0 [(0x90000, 64)] | .error _ => false) = true ∧
    publishHeld (pub []) ((pub []).who t0) ⟨0x820F, 0x70000, 3, 0x90000⟩ 5 = false ∧
    publishHeld (pub [out]) ((pub [out]).who t0) ⟨0x820F, 0x70000, 3, 0x90000⟩ 5 = true ∧ inv.invs.find? (fun x => x.id = 3) = some i ∧
    invReady inv i = true ∧
    invReady { inv with loads := [⟨1, t0, 0, .z32, 0, 0, [], [], none, .relaxed, false, 0⟩] } { i with after := [1] } = false ∧
    (∀ a ∈ [0x10000, 0x20000], (tier a).parts.findSome? (fun p => (p.2.tracker.find? (fun t => t.id = 3 && t.st = .inflight)).map (fun t => (p.1, t))) = some (0, tr a) ∧ look (tier a).parts 0 = some ((tier a).part 0) ∧ tr a ∈ ((tier a).part 0).tracker) ∧
    (match engRead (tier 0x10000) ⟨1152, 0, 0, false, 0, 0, 0⟩ 0x10000 4 .f with | .ok (_, m) => (dstPhys m ⟨1152, 0, 0, false, 0, 0, 0⟩ .g [(0, 4)]).2.1 = none | .error _ => false) = true ∧
    (engRead (tier 0x10000) ⟨1152, 0, 0, false, 0, 0, 0⟩ 8 4 .g).isOk = true ∧
    (translate (tier 0x10000) ⟨1152, 0, 0, false, 0, 0, 0⟩ 8 .write (some .g)).isOk = true ∧
    (engRead (tier 0x20000) ⟨1152, 0, 0, false, 0, 0, 0⟩ 0x20000 4 .f).isOk = false :=
  ⟨(by show _ ∧ _ ∧ _; decide +kernel), (by show _ ∧ _ ∧ _; decide +kernel), (by unfold NoCut; decide +kernel),
    (by show _ ∧ _ ∧ _; decide +kernel), (by show _ ∧ _ ∧ _; decide +kernel), rfl, (by show _ ∧ _ ∧ _; decide +kernel), (⟨_, rfl⟩),
    (by unfold NoCut; decide +kernel),
    (fun r h => by simp only [List.mem_cons, List.not_mem_nil, or_false] at h; rcases h with rfl | rfl <;> exact ⟨rfl, by decide +kernel⟩),
    (by unfold NoCut; decide +kernel), by decide +kernel⟩

/-- A tile task of one FP32 element: queued alone and behind one that writes its operands, READY, running, its sum done, and written back; a task
that promises; an engine held by the power limit. -/
theorem witness_MatrixEvents :
    let ws : List Word := [0x5550002, 0x10000, 0x228, 0, 0x229, 0, 0x22A, 0, 0, 0, 0, 0, 0, 0, 0, 0]
    let gs := (recRegions (recOf ws)).map (fun q => regionOf (wh one) one (ws.getD q.1 0) (ws.getD (q.1 + 1) 0))
    let t (x : MtState) : MtTask := { home := 0, seq := 1, order := 4, tid := t0, kernel := 0, words := ws, regions := gs, st := x }
    let s (x : MtTask) (e : Engine) : State := one.updCluster 0 (fun c => { c with mt := [x], engines := [(0, e)] })
    let pair := one.updCluster 0 (fun c => { c with mt := [t .queued, { t .running with seq := 2, order := 3, regions := gs.reverse }] })
    let on (x : MtTask) : State := s x { task := some (0, 1) }
    let prom : MtTask := { t .ready with words := ws.set 12 0x80000800 }
    let ran : MtTask := { t .running with filled := true, rows := [0], c0 := [0], acc := [0] }
    let ok (x : ItemOut MtTask) : Bool := match x with | .ok _ => true | _ => false
    let hold : State := { s (t .ready) {} with mgmt := { one.mgmt with holding := true } }
    (∀ p ∈ (on ran).threads, p.2.ecc = []) ∧ queued (s (t .queued) {}) 0 1 = some (t .queued) ∧
    (s (t .queued) {}).hbt = (s (t .queued) {}).cyc / 128 ∧ conflicts (s (t .queued) {}) (t .queued) = false ∧
    queued pair 0 1 = some (t .queued) ∧ conflicts pair (t .queued) = true ∧ queued (s (t .ready) {}) 0 1 = some (t .ready) ∧
    (t .ready).aged = false ∧ dispatchNext (s (t .ready) {}) 0 = some (t .ready) ∧ freeEngine (s (t .ready) {}) 0 = some 0 ∧
    (s (t .ready) {}).mgmt.holding = false ∧ (t .ready).record.kind / 2 ≠ 1 ∧
    ok (fillRead (s (t .ready) {}) { t .ready with st := .running }) = true ∧ dispatchNext hold 0 = some (t .ready) ∧
    hold.mgmt.holding = true ∧ queued (s prom {}) 0 1 = some prom ∧ dispatchNext (s prom {}) 0 = some prom ∧ prom.record.kind / 2 = 1 ∧
    ((s prom {}).group t0.vgid).saved = none ∧ dispatchNext one 0 = none ∧ onEngine (on (t .running)) 0 0 .running = some (t .running) ∧
    ok ((fillRead (on (t .running)) (t .running)).bind (fun u => advanceTask (on (t .running)) u u.record.k)) = true ∧
    onEngine (on ran) 0 0 .running = some ran ∧ ran.record.at_ = .f32 ∧ ok (advanceTask (on ran) ran ran.record.k) = true ∧
    (∀ b ∈ [false, true], onEngine (on { t .checking with replayed := b }) 0 0 .checking = some { t .checking with replayed := b }) ∧
    (t .checking).bad = false ∧ onEngine (on (t .writing)) 0 0 .writing = some (t .writing) ∧ ((t .writing).region 2).handle = 0 ∧
    (∀ x ∈ (accWords (t .writing)).zip (tileAt (t .writing).record ((t .writing).region 2)), ((on (t .writing)).group x.2.1.vgid).saved = none) ∧
    (((accWords (t .writing)).zip (tileAt (t .writing).record ((t .writing).region 2))).map (·.2)).Nodup :=
  by decide +kernel

/-- Device memory that is open, and closed by a secure range; a lock the host holds; a good granule and a bad one; a VF in each state; a
partition that is idle and one with a kernel; a mailbox that is ready and one that is busy; a range a house key opens; no valid image. -/
theorem witness_HostAndHouseAccesses :
    let r := State.reset
    let closed := r.updPart 0 (fun p => { p with mems := [(0, 0xC000000000000000)] })
    let e : Est := { die := 2, idx := 5, kind := .lock, hkind := .none, heir := 0, holder := none, creator := 1, fn := 0, vf := 0, part := 0, world := false, seq := 0, addr := 0x80000 }
    let host : State := { r with estate := [e], mem := memWrite [] 0x80000 (bytes64 (BitVec.ofNat 64 (e.holderCode * 2 ^ 40 + 5 * 2 ^ 24 + 2 ^ 62))) }
    let runs := closed.updFn 1 (fun f => { f with tdisp := 2, en := true, part := 0 })
    let bad : State := { r with gran := [(0x2000, .uncorrectable)] }
    let vf (x : Nat) (b : Bool) : State := r.updFn 1 (fun f => { f with tdisp := x, en := b })
    let busy : State := { r with mgmt := { r.mgmt with busy := true } }
    let down : State := { r with mgmt := { r.mgmt with noImage := true } }
    let key := r.updPart 0 (fun p => { p with houseKey := 7, mems := [(0, 0x8000000000000000)] })
    NoCut r ∧ NoCut host ∧ NoCut key ∧ secureClosed closed 0x80000 4 = true ∧ secureClosed r 0x80000 4 = false ∧
    secureRange r 0x80000 4 = false ∧ secureRange runs 0x80000 4 = true ∧ secureClosed runs 0x80000 4 = false ∧ r.estate = [] ∧
    secureClosed host 0x80000 8 = false ∧ secureRange host 0x80000 8 = false ∧
    host.estate.filter (fun e => e.holder.isNone && e.kind ≠ .task && meets host 0x80000 8 e.addr 8) = [e] ∧ stray host e = false ∧
    badAt r 0x80000 4 = none ∧ badAt bad 0x80000 4 ≠ none ∧
    (∀ x ∈ [0, 1, 2], ∀ b ∈ [false, true], ((vf x b).fn 1).tdisp = x ∧ ((vf x b).fn 1).en = b) ∧
    (∀ g ∈ (vf 1 true).gangs, g.2.st = .ended) ∧ (∀ f ∈ r.fns, f.2.part = 0 → (r.fn f.1).tdisp = 0) ∧
    (∀ f ∈ one.fns, f.2.part = 0 → (one.fn f.1).tdisp = 0) ∧
    tableReg (r.part 0) 0 0x8000000000000003 = some { r.part 0 with clu := 0x8000000000000003 } ∧ partBusy r 0 = false ∧
    partOk r 0 { r.part 0 with clu := 0x8000000000000003 } = true ∧ tableReg (one.part 0) 0 3 = some { one.part 0 with clu := 3 } ∧
    partBusy one 0 = true ∧ (r.fn 1).tdisp ≠ 1 ∧ (r.fn 1).tdisp ≠ 2 ∧ r.mgmt.busy = false ∧ busy.mgmt.busy = true ∧
    (∀ j, j < 4 → houseOpen key 7 (0x80000 + j) = true) ∧ badAt key 0x80000 4 = none ∧ houseOpen r 7 0x80000 = false ∧
    down.mgmt.up = false ∧ down.mgmt.noImage = true ∧ (∀ x ∈ [r, closed, runs, host, bad, busy, key, one], x.mgmt.up = true) :=
  ⟨(by unfold NoCut; decide +kernel), (by unfold NoCut; decide +kernel), (by unfold NoCut; decide +kernel), by decide +kernel⟩

/-- A connection at each point; an interface in each state, with a kernel and without. -/
theorem witness_AttestationAndInterfaces :
    let r := State.reset
    let p (x : Spdm) : State := { r with spdm := x }
    let vf (x : Nat) : State := r.updFn 1 (fun f => { f with tdisp := x })
    let busy := (vf 2).updKernel 4 (fun k => { k with words := List.replicate 13 0 ++ [0] })
    let run : State := { busy with gangs := [(7, { kernel := 4, idx := 0 })] }
    (p { version := true }).spdm.version = true ∧ (p { caps := true }).spdm.caps = true ∧ (p { algs := true }).spdm.algs = true ∧
    r.spdm.version = false ∧ look (p { algs := true }).spdm.sessions 3 = none ∧
    look (p { sessions := [(3, false)] }).spdm.sessions 3 = some false ∧
    look (p { sessions := [(3, true)] }).spdm.sessions 3 = some true ∧ (∀ x ∈ [0, 1, 2], ((vf x).fn 1).tdisp = x) ∧
    (∀ k ∈ (vf 0).kernels, k.2.owner ≠ 1) ∧ (∃ k ∈ busy.kernels, k.2.st ≠ .ended ∧ k.2.owner = 1) ∧
    (∀ g ∈ (vf 2).gangs, g.2.st = .ended) ∧ (∀ g ∈ (vf 2).groups, ((vf 2).kernel ((vf 2).gang g.2.gang).kernel).owner ≠ 1) ∧
    ((vf 2).part ((vf 2).fn 1).part).kvpCtl.getLsbD 31 = false ∧
    (∃ g ∈ run.gangs, look run.gangs g.1 = some g.2 ∧ g.2.st ≠ .ended ∧ (run.kernel g.2.kernel).owner = 1) :=
  by decide +kernel

/-- A dirty leaf stays in the list of every table above it. -/
theorem dirty_of {s : State} {p : Part} {t lvl va i fuel : Nat} {x : Nat × Nat × Nat × DWord} {span : Nat}
    (h : x ∈ dirtyLeaves s p (frameOf (read64 s (t + 8 * i)) + bits (read64 s (t + 8 * i)) 9 2 * 256) (lvl + 1) (va + span * i) fuel)
    (hs : span = 2 ^ (match lvl with | 0 => 39 | 1 => 30 | 2 => 21 | _ => 16)) (hi : i ∈ upto 0 (tblEntries lvl))
    (hc : (inRanges p (t + 8 * i) && bit (read64 s (t + 8 * i)) 0 && !malformed (read64 s (t + 8 * i)) (read64 s (t + 8 * i + 8)) lvl i && i == 0 &&
      !bit (read64 s (t + 8 * i)) 1) = true) : x ∈ dirtyLeaves s p t lvl va (fuel + 1) := by
  simp only [Bool.and_eq_true, Bool.not_eq_true', beq_iff_eq] at hc
  obtain ⟨⟨⟨⟨h1, h2⟩, h3⟩, h4⟩, h5⟩ := hc
  subst h4 hs
  unfold dirtyLeaves
  refine List.mem_flatMap.mpr ⟨0, hi, ?_⟩
  simp only [Nat.mul_zero, Nat.add_zero] at *
  simp only [h1, h2, h3, h5, Bool.not_true, Bool.or_false, ne_eq, not_true, decide_false, Bool.false_and, Bool.false_eq_true, if_false]
  exact h

/-- Page tables with one dirty leaf, that of the first page. -/
abbrev dirty : State := { paged with mem := paged.mem.dropLast.dropLast ++ [(0x70000, 0x2F), (0x70001, 0x80)] }

theorem dirty_leaves : (cutAsids dirty (dirty.part 0) 0).flatMap (fun x =>
    (dirtyLeaves dirty (dirty.part 0) (bits x.2 51 18 * 2 ^ 18) 0 0 4).map (fun l => (x.1, l))) ≠ [] := by
  have h3 : (0x70000, 0, 3, (0x802F : DWord)) ∈ dirtyLeaves dirty (dirty.part 0) 0x70000 3 0 1 := by decide +kernel
  have h2 : (0x70000, 0, 3, (0x802F : DWord)) ∈ dirtyLeaves dirty (dirty.part 0) 0x60000 2 0 2 :=
    dirty_of (i := 0) h3 rfl (mem_upto (by decide) (by decide)) (by decide +kernel)
  have h1 : (0x70000, 0, 3, (0x802F : DWord)) ∈ dirtyLeaves dirty (dirty.part 0) 0x50000 1 0 3 :=
    dirty_of (i := 0) h2 rfl (mem_upto (by decide) (by decide)) (by decide +kernel)
  have h0 : (0x70000, 0, 3, (0x802F : DWord)) ∈ dirtyLeaves dirty (dirty.part 0) 0x40000 0 0 4 :=
    dirty_of (i := 0) h1 rfl (mem_upto (by decide) (by decide)) (by decide +kernel)
  have hc : cutAsids dirty (dirty.part 0) 0 = [(0, 0x40001)] := by decide +kernel
  rw [hc]
  exact List.ne_nil_of_mem (List.mem_flatMap.mpr ⟨_, List.mem_singleton.mpr rfl, List.mem_map.mpr ⟨_, h0, rfl⟩⟩)

/-- Slots of a ring: an all-reduce that passes, one of an attempt that is past, one without a communicator, and an abort; a token; a collective
that runs, at good memory and at a bad granule; a cut that has ticked, one that has not, and a granule that is not the last. -/
theorem witness_CollectivesAndCuts :
    let f (y : Fn) : State := { one with fns := [(1, { y with part := 0, collBase := 0x80000 })] }
    let slot (op : Byte) : List Host.Cell := [(0x80003, op), (0x80008, 1), (0x80012, 0xA), (0x8001A, 0xB), (0x80022, 9), (0x8003F, 0x80)]
    let ws (op : Byte) : List Word := [BitVec.ofNat 32 (op.toNat * 2 ^ 24), 0, 1, 0, 0xA0000, 0, 0xB0000, 0, 0x90000, 0, 0, 0, 0, 0, 0, 0x80000000]
    let r (op : Byte) (y : Fn) : State := { f y with mem := slot op }
    let comm : Fn := { comm := [(0, 0x8000000000000000)] }
    let c : Coll := collOf (ws 1) 0
    let run (g : Tab Gran) : State := { f { comm with colls := [c] } with gran := g }
    let cut (k : Cut) (ctl : DWord) : State := dirty.updPart 0 (fun p => { p with cut := some k, ckCtl := ctl })
    let k : Cut := { tick := 0, dest := 0x100000, asidsel := 0, regs := false }
    let far : Cut := { k with sel := 1 }
    let i (va pa : Nat) : CutItem := ⟨0x70000, 0, va, pa, false⟩
    let copy := cut { k with ticked := true, at_ := 64, items := [i 0 0x80000, i 0x10000 0x90000] } 0
    let more := copy.updPart 0 (fun p => { p with later := [k] })
    (∀ op ∈ [1, 0xF], nextSlot (r op comm) 1 = some (0x80000, ws op) ∧ collBad (r op comm) 1 (ws op) (collOf (ws op) 0) = false ∧ (collOf (ws op) 0).attempt = curOf (r op comm) 1 0 ∧ (collOf (ws op) 0).op = op.toNat) ∧
    NoCut (r 1 comm) ∧ NoCut (run []) ∧ badAt (run [(0x2800, .uncorrectable)]) c.src 4 ≠ none ∧
    cutDestOk ((cut far 0).part 0) far.sel 0x100000 64 = false ∧ ((cut far 0).part 0).cut = some far ∧
    ((cutAsids dirty (dirty.part 0) 0).flatMap (fun x => (dirtyLeaves dirty (dirty.part 0) (bits x.2 51 18 * 2 ^ 18) 0 0 4).map (fun l => (x.1, l))) ≠ []) ∧
    ((r 0xF comm).fn 1).colls = [] ∧ collBad (r 1 {}) 1 (ws 1) (collOf (ws 1) 0) = true ∧ nextSlot (r 1 {}) 1 = some (0x80000, ws 1) ∧
    curOf (r 1 { comm with cur := [(0, 1)] }) 1 0 ≠ (collOf (ws 1) 0).attempt ∧ nextSlot one 1 = none ∧ ((run []).fn 1).colls = [c] ∧
    collRange (run []) 1 c.stamp 8 = true ∧ collRange (run []) 1 c.dst 4 = true ∧ (commOf (run []) 1 0).2.1 = 1 ∧
    (collBytes 1 1 4 1).1 = 4 ∧ badAt (run []) c.src 4 = none ∧ (collResult c 0 [physRead (run []) c.src 4]).length = 4 ∧
    (one.part 0).cut = none ∧ ((cut k 0).part 0).cut = some k ∧ k.ticked = false ∧ cutDestOk ((cut k 0).part 0) k.sel 0x100000 64 = true ∧
    (copy.part 0).later = [] ∧ (more.part 0).later = [k] ∧ (more.part 0).cut = (copy.part 0).cut ∧ Memory.wf (cut k 0).mem = true ∧
    (copy.part 0).cut = some { k with ticked := true, at_ := 64, items := [i 0 0x80000, i 0x10000 0x90000] } ∧
    [i 0 0x80000, i 0x10000 0x90000].find? (fun x => !x.done) = some (i 0 0x80000) ∧
    canon copy 0x80000 = canon copy (0x80010 - 0x80010 % 65536) ∧ canon copy 0x80000 ≠ canon copy (0x90000 - 0x90000 % 65536) ∧
    cutBarred copy (copy.part 0) 0x80000 = false ∧ cutDestOk (copy.part 0) k.sel (0x100000 + 64) 65600 = true ∧ (i 0 0).leafAt % 8 = 0 :=
  ⟨(by decide +kernel), (by unfold NoCut; decide +kernel), (by unfold NoCut; decide +kernel), (by decide +kernel), (by decide +kernel),
    (by decide +kernel), dirty_leaves, by decide +kernel⟩

theorem loadCuts_none {s : State} {c : Ctx} {n a : Nat} (h : (wordsOf (physRead s a 64)).getD 0 0 ≠ 2) :
    loadCuts s c (n + 1) a = .ok (a, s) := by
  have e : cutsAt s (n + 1) a = ([], a) := by simp only [cutsAt, if_pos h]
  simp only [loadCuts, e]; rfl
theorem loadCuts_bad {s : State} {c : Ctx} {n a : Nat} (h : (wordsOf (physRead s a 64)).getD 0 0 = 2)
    (h1 : bits ((wordsOf (physRead s (a + 64) 64)).getD 0 0) 31 24 = 0) (h2 : (wordsOf (physRead s (a + 64 + 64) 64)).getD 0 0 ≠ 2)
    (h3 : recordAt s 1 (a + 64) = none) : loadCuts s c (n + 2) a = .error 1 := by
  have p (m : Nat) (hm : 0 < m) : cutPast s m (a + 64) = a + 64 + 64 := by
    obtain ⟨m, rfl⟩ := Nat.exists_eq_succ_of_ne_zero (Nat.ne_of_gt hm)
    simp only [cutPast, h1, if_true]
  have l (m : Nat) (hm : 0 < m) : loadCut s c m 1 (a + 64) = .error 1 := by
    obtain ⟨m, rfl⟩ := Nat.exists_eq_succ_of_ne_zero (Nat.ne_of_gt hm)
    simp only [loadCut, h3]
  have e : cutsAt s (n + 2) a = ([(((wordsOf (physRead s a 64)).getD 1 0).toNat, a + 64)], a + 64 + 64) := by
    simp only [cutsAt, h, ne_eq, not_true, if_false, p _ (by decide : 0 < 2 ^ 26), h2, not_false_eq_true, if_true]
  simp only [loadCuts, e, sortBy]
  show Except.map _ ((List.foldlM _ s [_])) = _
  simp only [List.foldlM_cons, List.foldlM_nil, l _ (by decide : 0 < 2 ^ 26)]
  rfl
theorem records_end {s : State} {n q a : Nat} (h : (recordAt s q a).map (·.1) = some 0) : checkRecords s (n + 1) q a = .ok [] := by
  obtain ⟨⟨k, va, bs, l⟩, e, rfl⟩ := Option.map_eq_some_iff.mp h
  simp [checkRecords, e]
theorem records_bad {s : State} {n q a : Nat} (h : recordAt s q a = none) : checkRecords s (n + 1) q a = .error q := by simp [checkRecords, h]

/-- Power on and off; a temperature below the limit and at it; each command under way, with arguments it takes and some it does not; a VF whose
groups are away, and one with a group in place; state records that pass, and some that do not. -/
theorem witness_ManagementEvents :
    let r := State.reset
    let off : State := { r with mgmt := { r.mgmt with powered := false } }
    let b (c : Word) (a : Tab Word) : State := { r with mgmt := { r.mgmt with busy := true, cmd := c, arg := a } }
    let img (v : Nat) : Image := ⟨v, 0, false, 0, 0, 3200, 0, true, []⟩
    let two : State := { r with mgmt := { r.mgmt with slotA := some (img 1), slotB := some (img 2) } }
    let hot : State := { r with mgmt := { r.mgmt with temps := [(0, 500)] } }
    let quar := (b 3 [(0, 5)]).updCore 5 (fun c => { c with quar := true })
    let host : Nat := 0x8000000000000
    let hist := b 4 [(1, 0x80000), (2, 4)]
    let new : State := { b 5 [(1, 0x80000)] with mem := memWrite [] host (bytesOf [0x53544F41, 2, 0, 0, 0, 0, 3200, 0]) }
    let out := b 0x10 [(1, 0x80000)]
    let vf (s : State) : State := s.updFn 1 (fun f => { f with tdisp := 1 })
    let inn := b 0x11 [(1, 0x80000)]
    let good : State := { vf inn with
      mem := memWrite [] 0x80000 (cutTrailer { tick := 0, dest := 0, asidsel := 0, regs := false } false), house := { r.house with images := [([], {})] } }
    let life (x y : Bool) : State := { r with mgmt := { r.mgmt with lifeA := { good := x }, lifeB := { good := y } } }
    let broken : State := { vf inn with mem := memWrite [] 0x80000 (bytesOf [2]) }
    let here : State := { out with
      groups := [(1, { gang := 0, gidx := 0, core := 0 })], gangs := [(0, { kernel := 0, idx := 0 })], kernels := [(0, { words := [] })] }
    NoCut hist ∧ (imageHeader (physRead new host 128)).valid = Config.signed (physRead new host 128) ∧ NoCut out ∧
    loadCuts good ⟨1204, 0, 0, false, 0, 0, 0⟩ (2 ^ 24) 0x80000 = .ok (0x80000, good) ∧
    loadCuts broken ⟨1204, 0, 0, false, 0, 0, 0⟩ (2 ^ 24) 0x80000 = .error 1 ∧ checkRecords good (2 ^ 24) 1 0x80000 = .ok [] ∧
    checkRecords (vf inn) (2 ^ 24) 1 0x80000 = .error 1 ∧ off.mgmt.powered = false ∧ r.mgmt.powered = true ∧
    two.mgmt.slotB = some (img 2) ∧ (img 2).valid = true ∧ (∀ x ∈ [1149], x < 1150) ∧ hot.mgmt.temps = [(0, 500)] ∧
    ([1, 2, 3, 4, 5, 6, 0x10, 0x11].all (fun c => (b c []).mgmt.busy && (b c []).mgmt.cmd = c && (b c []).mgmt.powered)) = true ∧
    800 ≤ (at_ (b 2 [(0, 800)]).mgmt.arg 0 0).toNat ∧ ¬ (800 ≤ (at_ (b 2 []).mgmt.arg 0 0).toNat) ∧ (quar.core 5).quar = true ∧
    bits (at_ quar.mgmt.arg 0 0) 4 0 = 5 ∧ (r.core 0).quar = false ∧ at_ hist.mgmt.arg 1 0 = 0x80000 ∧ hostRange host 4 = true ∧
    Memory.wf hist.mem = true ∧ hostRange 0 4 = false ∧ hostRange host 128 = true ∧ imageSize new host = 128 ∧
    (imageHeader (physRead r host 128)).valid = false ∧ place 0x80000 ≠ .nowhere ∧ fnGroups out 1 = [] ∧ fnBusy out 1 = false ∧
    0x80000 + (imageBytes out 0 (imagePayloads out (vfImage out 0))).length ≤ devBytes ∧
    (∃ g ∈ fnGroups here 1, g.2.saved.isSome = false) ∧ (inn.fn 1).tdisp ≠ 1 ∧ ((vf inn).fn 1).tdisp = 1 ∧ recordsHold good [] = some {} ∧
    importTaken good (good.part 0) {} = false ∧ (life true false).mgmt.lifeA.good = true ∧ (life true false).mgmt.lifeB.good = false ∧
    (life false true).mgmt.lifeA.good = false ∧ (life false true).mgmt.lifeB.good = true ∧
    importTaken here (here.part 0) { groups := [(1, here.group 1)] } = true ∧ (importState good 1 {}).isSome = true :=
  ⟨(by unfold NoCut; decide +kernel), rfl, (by unfold NoCut; decide +kernel), (loadCuts_none (n := 16777215) (by decide +kernel)),
    (loadCuts_bad (n := 16777214) (by decide +kernel) (by decide +kernel) (by decide +kernel) (by decide +kernel)),
    (records_end (n := 16777215) (by decide +kernel)), (records_bad (n := 16777215) (by decide +kernel)), by decide +kernel⟩

/-- An instruction that encodes, with bytes after it. -/
theorem witness_DecodingInvertsEncoding :
    (Instr.iadd g .s32 false 3 (.reg 2) (.imm 100)).wf = true ∧ encode (.iadd g .s32 false 3 (.reg 2) (.imm 100)) ≠ [] :=
  by decide +kernel

theorem witness_DecodedWordsAreCanonical : decode (List.replicate 12 0) = .ok (.nop ⟨0, false, false, .none⟩, [0, 0, 0, 0]) := rfl

/-- The state the host's probe steps from, a thread alone at the head of its issue group: NOP, a word that is refused, and one word of two. -/
theorem witness_StepRunsTheDecodedInstruction :
    let s (x : Nat) : State := State.reset.withFetchWord 128 x
    let run (x : Nat) : State := { s x with turns := [] }.updCore 0 (fun c => { c with slot := [] })
    let start := (s 0).updCore 0 (fun c => { c with last := [t0] })
    let doomed := start.updCore 0 (fun c => { c with doom := true })
    let far (pc : DWord) : State := (run 0).updThread t0 (fun th => { th with pc := pc })
    let gone (pc : DWord) (n : Nat) : Bool := match translate (far pc) ((far pc).who t0).ctx (pc.toNat + n) .fetch none with | .ok _ => false | .error _ => true
    let word (x : Nat) : Nat := ofBytes (physRead (run x) 0x10000 8)
    translate (run 0) ((run 0).who t0).ctx 0x10000 .fetch none = .ok (0x10000, run 0) ∧
    decode (physRead (run 0) 0x10000 8) = .ok (.nop ⟨0, false, false, .none⟩, []) ∧ (s 0).turns = [.issue 0] ∧
    overdue (s 0) ((s 0).cyc + 1) = none ∧ ((s 0).core 0).slot = [t0] ∧ unstarted ((s 0).core 0) = false ∧ start.turns = [.issue 0] ∧
    (start.core 0).slot = [t0] ∧ unstarted (start.core 0) = true ∧ (start.core 0).mgnInj.getLsbD 63 = false ∧ (start.core 0).injLeft = 0 ∧
    (start.core 0).doom = false ∧ (doomed.core 0).doom = true ∧ unstarted (doomed.core 0) = true ∧ doomed.turns = [.issue 0] ∧
    (doomed.core 0).slot = [t0] ∧ overdue doomed (doomed.cyc + 1) = none ∧ look (s 0).threads t0 = some { pc := 0x10000 } ∧
    ((s 0).group 1).saved = none ∧ ((s 0).group 1).stop = none ∧
    (∀ x ∈ [0, 0x7F00000000000000, w 0x2A 8 0 0 0 0x60], physRead (run x) 0x10000 8 = physRead { run x with mem := ((run x).who t0).k.code } 0x10000 8) ∧
    isX (BitVec.ofNat 64 (word 0)) = false ∧ isX (BitVec.ofNat 64 (word 0x7F00000000000000)) = false ∧
    (match decode (physRead (run 0x7F00000000000000) 0x10000 8) with | .ok _ => false | .error _ => true) = true ∧
    isX (BitVec.ofNat 64 (word (w 0x2A 8 0 0 0 0x60))) = true ∧
    (translate (run (w 0x2A 8 0 0 0 0x60)) ((run 0).who t0).ctx (0x10000 + 8) .fetch none).isOk = true ∧ gone 0x20000 0 = true ∧
    gone 0x1FFF8 0 = false ∧ gone 0x1FFF8 8 = true :=
  ⟨rfl, rfl, by decide +kernel⟩

theorem witness_EveryStepKeepsTheInvariant :
    (State.reset.withFetchWord 64 0).Inv ∧ (match step (State.reset.withFetchWord 64 0) with | .next _ => true | _ => false) = true :=
  ⟨(⟨by decide +kernel, by decide +kernel⟩), by decide +kernel⟩

/-- What an instruction gives in register `d` of a thread with these words, at once or on its way, with the flags it sets. -/
def gives (f : State → State) (l : Tab RegWord) (i : Instr) (d : Nat) : Option (Word × BitVec 6) :=
  match exec i (f (regs l)) with
  | .next t =>
    let x := regGet t t0 d
    if x.tag = .full then some (x.val, (t.thread t0).fcw.setWidth 6)
    else (t.results.findSome? (fun r => (r.writes.find? (fun p => p.1 = d)).map (fun p => (p.2, r.flags))))
  | _ => none
def full (i : Nat) (l : List Word) : Tab RegWord := l.zipIdx.map (fun x => (i + x.2, ⟨x.1, .full⟩))

/-- The table of R85: quotient and remainder. -/
theorem test_division_table :
    let t (ty : Ty) (rem : Bool) (a b : Word) := gives id (full 2 [a, b]) (.idiv g ty rem 5 (.reg 2) (.reg 3)) 5
    t .s32 false (-7) 2 = some (-3, 0) ∧ t .s32 true (-7) 2 = some (-1, 0) ∧ t .s32 false 7 (-2) = some (-3, 0) ∧ t .s32 true 7 (-2) = some (1, 0) ∧
    t .s32 false 0x80000000 (-1) = some (0x80000000, 0) ∧ t .s32 true 0x80000000 (-1) = some (0, 0) ∧
    t .z32 false 5 0 = some (0xFFFFFFFF, dvz) ∧ t .z32 true 5 0 = some (5, dvz) := by decide +kernel

/-- The conversions worked under the rules of F2I and FCVT, and the product of 3.0 and 5.0 worked under the residue check. -/
theorem test_float_worked :
    gives id (full 2 [0x44340000]) (.fcvt g .bf16 .dflt false false 4 (.reg 2) .f32) 4 = some (0x4434, 0) ∧
    gives id (full 2 [0xC2F00000]) (.f2i g .s32 .rtz false 4 (.reg 2) .f32) 4 = some (-120, 0) ∧
    gives id (full 2 [0xBECCCCCD]) (.f2i g .z32 .rne false 4 (.reg 2) .f32) 4 = some (0, inx) ∧
    gives id (full 2 [0x40400000, 0x40A00000]) (.fmul g .f32 .dflt false 4 (.reg 2) (.reg 3)) 4 = some (0x41700000, 0) := by decide +kernel

/-- Codebook slot 1 with the value c in entry c, and the even-row block of R217's worked run. -/
def book (s : State) : State := s.updGroup 1 (fun q => { q with
  cbs := [(1, ⟨true, [0, 0x3F80, 0x4000, 0x4040, 0x4080, 0x40A0, 0x40C0, 0x40E0, 0x4100, 0x4110, 0x4120, 0x4130, 0x4140, 0x4150, 0x4160, 0x4170]⟩)] })
def block : Tab RegWord := full 3 [3] ++ full 20 [0x40400000, 0x43B40000, 0xC2700000, 0x43FA0000] ++ full 64 (0x98087F11 :: List.replicate 15 0xBBBBBBBB)

/-- The run worked under the rule of NCVT. -/
theorem test_block_run :
    gives book block (.dbdec g .f32 .dflt 5 64 (.reg 3) .c4 1) 5 = some (0x40400000, 0) ∧ gives book block (.bsum g .f32 6 64 .c4 1) 6 = some (0x43B40000, 0) ∧
    gives book block (.ncvt g .e4m3 (.dn .dflt false (.reg 20)) 7) 7 = some (0x7FE77B44, inx ||| ovf ||| ivl) ∧
    gives book block (.ncvt g .e4m3 (.dn .dflt true (.reg 20)) 7) 7 = some (0x7EE77B44, inx ||| ovf) := by decide +kernel

/-- A translation that a copy request holds delays the invalidation that found it (R360). -/
theorem test_copy_piece_holds_invalidation :
    let p : Piece := ⟨1, 0, 0, 0, false, 0, 0⟩
    let i : Inv := ⟨3, none, 0, 0, 0, 0xFFFF, [], [p]⟩
    invReady { State.reset with pieces := [p] } i = false ∧ invReady State.reset i = true := by decide +kernel

end Sys2Proof.Tests
end

section
/-! Completion: how an instruction that completes gives its result, and that only the words of the result matter (R42, R67, R79). -/
namespace Sys2Proof.Machine

/-- Two values with the same low `n` words: as a result of `n` words they are one. -/
def SameResult (n : Nat) (v v' : DWord) : Prop := v.setWidth (32 * n) = v'.setWidth (32 * n)

namespace SameResult
variable {n : Nat} {v v' : DWord}

theorem refl (n : Nat) (v : DWord) : SameResult n v v := rfl

theorem iff_bits : SameResult n v v' ↔ ∀ i, i < 32 * n → v.getLsbD i = v'.getLsbD i := by
  constructor
  · intro h i hi
    have := congrArg (·.getLsbD i) h
    simpa [hi] using this
  · intro h
    exact BitVec.eq_of_getLsbD_eq fun i hi => by simp [hi, h i hi]

theorem lo (h : SameResult n v v') (hn : n ≠ 0) : loWord v = loWord v' :=
  BitVec.eq_of_getLsbD_eq fun i hi => by simpa [hi] using iff_bits.mp h i (by omega)

theorem eq_of_two (h : SameResult 2 v v') : v = v' := by simpa [SameResult] using h

theorem wordsN (h : SameResult n v v') (hn : n = 1 ∨ n = 2) : wordsN n v = wordsN n v' := by
  rcases hn with rfl | rfl
  · simp [Machine.wordsN, h.lo]
  · rw [h.eq_of_two]

theorem wordOf (h : SameResult n v v') (hn : n = 1 ∨ n = 2) {j : Nat} (hj : j < n) : wordOf v j = wordOf v' j := by
  rcases hn with rfl | rfl
  · obtain rfl : j = 0 := by omega
    exact h.lo (by omega)
  · rw [h.eq_of_two]

/-- Exact results that agree modulo 2^(32n) are one result of `n` words. -/
theorem ofInt {x y : Int} (h : x % 2 ^ (32 * n) = y % 2 ^ (32 * n)) (hn : n = 1 ∨ n = 2) :
    SameResult n (BitVec.ofInt 64 x) (BitVec.ofInt 64 y) := by
  apply BitVec.eq_of_toNat_eq
  rcases hn with rfl | rfl <;> simp [BitVec.toNat_ofInt] at h ⊢ <;> omega

end SameResult

/-- What is written at issue depends on the words of the result alone. -/
theorem WroteNow.congr {h : Hdr} {d : BitVec 9} {n : Nat} {pc v v' : DWord} {f : Flags} {w : Who} {s t : State}
    (hw : WroteNow h d n pc v f w s t) (hv : SameResult n v v') (hn : n = 1 ∨ n = 2) : WroteNow h d n pc v' f w s t where
  past := hw.past
  dst hnw i hi := by
    have hlt : i - d.toNat < n := by simp [inDst] at hi; omega
    rw [hw.dst hnw i hi, hv.wordOf hn hlt]
  latch := hw.latch
  latchLo := by rw [hw.latchLo, hv.lo (by omega)]
  latchHi h2 := by
    subst h2
    rw [hw.latchHi rfl, hv.eq_of_two]
  preds := hw.preds
  fcw := hw.fcw
  rest := hw.rest

theorem tyWords_cases (ty : Ty) : tyWords ty = 1 ∨ tyWords ty = 2 := by cases ty <;> simp [tyWords]

theorem upto_eq_range' (a n : Nat) : upto a n = List.range' a n := by
  induction n generalizing a with
  | zero => rfl
  | succ n ih => rw [upto, ih, List.range'_succ]

theorem upto_zero_eq_range (n : Nat) : upto 0 n = List.range n := by rw [upto_eq_range', List.range_eq_range']

theorem except_map_ok {ε α β : Type} {x : Except ε α} {f : α → β} {r : β} (h : x.map f = .ok r) : ∃ y, x = .ok y ∧ f y = r := by
  cases x with
  | error e => cases h
  | ok y => exact ⟨y, rfl, by simpa [Except.map] using h⟩

/-- A read of `n` words gives `n` words (R79). -/
theorem bankRead_length {w : Who} {s : State} {i n : Nat} {ws : List Word} (h : bankRead w s i n = .ok ws) : ws.length = n := by
  have hl : (operandWords s w.t i n).length = n := by
    simp only [operandWords]
    split <;> simp [regGets, upto_eq_range']
  simp only [bankRead] at h
  split at h
  · cases h
  · split at h
    · cases h
    · cases h
      simpa using hl

theorem regRead_length {w : Who} {s : State} {i n : Nat} {ws : List Word} (h : regRead w s i n = .ok ws) : ws.length = n := by
  simp only [regRead] at h
  split at h
  · split at h
    · cases h
      simp [retainedWords, upto_eq_range']
    · exact bankRead_length h
  · exact bankRead_length h

theorem pairOf_zero_toNat_lt (x : Word) : (pairOf x 0).toNat < 2 ^ 32 := by
  simpa [BitVec.toNat_append] using x.isLt

section Completion
variable {i : Instr} {h : Hdr} {u : Use} {body : Who → State → Res State} {w : Who} {s : State} {d : BitVec 9} {n : Nat} {v v' : DWord}

/-- An instruction whose body ends in `res` completes with every value that has the words of its result. -/
theorem givesNow_of_body (he : exec i s = runInstr h u body s) (hc : CanWrite h u d n w s) (hn : n = 1 ∨ n = 2)
    (hb : body w (advance w u s) = res w h (advance w u s) d n v) (hv : SameResult n v v') : GivesNow i h d n u.len v' w s := by
  obtain ⟨t, ht, hw⟩ := wroteNow_of_res hc.1 hn hc.2 hb
  exact ⟨t, he.trans ht, hw.congr hv hn⟩

/-- An instruction whose body claims its destination leaves every value with the words of its result on its way. -/
theorem givesLater_of_body {f : Flags} {fl : Bool} (he : exec i s = runInstr h u body s) (hc : CanClaim h u d n w s) (hn : n = 1 ∨ n = 2)
    (hb : body w (advance w u s) = (claim w (advance w u s) d.toNat n).map (fun s1 =>
      pushResult s1 w.t (if d = 0 then [] else numbered d.toNat (wordsN n v)) f fl))
    (hv : SameResult n v v') : GivesLater i d n u.len v' f fl w s := by
  rw [hv.wordsN hn] at hb
  obtain ⟨t, ht, hw⟩ := willWrite_of_claim hc.1 hc.2 hb
  exact ⟨t, he.trans ht, hw⟩

theorem Reads.eq {a : Src} {x : DWord} (ha : Reads u w s a n x) : src w (advance w u s) a n = .ok x := ha

/-- A source of one word, read as a word. -/
theorem Reads.src32 {a : Src} {x : DWord} (ha : Reads u w s a 1 x) : src32 w (advance w u s) a = .ok (loWord x) := by
  simp [Machine.src32, ha.eq, Except.map]

/-- A source of one word has nothing above it (R79). -/
theorem Reads.toNat_lt {a : Src} {x : DWord} (ha : Reads u w s a 1 x) : x.toNat < 2 ^ 32 := by
  simp only [Reads, Machine.src] at ha
  split at ha
  · obtain ⟨ws, hr, rfl⟩ := except_map_ok ha
    rw [valueOf, List.getD_eq_getElem?_getD (i := 1), List.getElem?_eq_none (Nat.le_of_eq (regRead_length hr))]
    exact pairOf_zero_toNat_lt _
  · cases ha
    exact pairOf_zero_toNat_lt _
  · cases ha
    exact pairOf_zero_toNat_lt _

variable {ty : Ty} {a b : Src} {x y : DWord}

theorem givesNow_alu2 {f : DWord → DWord → DWord} (he : exec i s = alu2 h ty d a b f s)
    (hc : CanWrite h (useDAB ty d a b) d (tyWords ty) w s)
    (ha : Reads (useDAB ty d a b) w s a (tyWords ty) x) (hb : Reads (useDAB ty d a b) w s b (tyWords ty) y)
    (hv : SameResult (tyWords ty) (f x y) v) : GivesNow i h d (tyWords ty) 8 v w s := by
  refine givesNow_of_body he hc (tyWords_cases ty) ?_ hv
  simp only [ha.eq, hb.eq]
  rfl

theorem givesNow_aluW {f : DWord → Word → DWord} (he : exec i s = aluW h ty d a b f s)
    (hc : CanWrite h (useDAw ty d a b) d (tyWords ty) w s)
    (ha : Reads (useDAw ty d a b) w s a (tyWords ty) x) (hb : Reads (useDAw ty d a b) w s b 1 y)
    (hv : SameResult (tyWords ty) (f x (loWord y)) v) : GivesNow i h d (tyWords ty) 8 v w s := by
  refine givesNow_of_body he hc (tyWords_cases ty) ?_ hv
  simp only [ha.eq, hb.src32]
  rfl

theorem givesNow_alu1 {f : DWord → DWord} (hn : n = 1 ∨ n = 2) (he : exec i s = alu1 h ty d n a f s)
    (hc : CanWrite h { srcs := [(.a, a, tyWords ty)], dst := some (d.toNat, n) } d n w s)
    (ha : Reads { srcs := [(.a, a, tyWords ty)], dst := some (d.toNat, n) } w s a (tyWords ty) x)
    (hv : SameResult n (f x) v) : GivesNow i h d n 8 v w s := by
  refine givesNow_of_body he hc hn ?_ hv
  simp only [ha.eq]
  rfl

end Completion
end Sys2Proof.Machine
end

section
/-! Integer arithmetic (R84 to R86): the model's operations are the exact values modulo 2^w; what each form gives. -/
namespace Sys2Proof.Machine

/-- The integer types (R79). -/
theorem intType_cases {ty : Ty} (ht : intType ty = true) : ty = .s32 ∨ ty = .z32 ∨ ty = .s64 ∨ ty = .z64 := by
  cases ty <;> simp_all [intType]

section Values
variable {ty : Ty} (ht : intType ty = true)
include ht

theorem tyBits_of_intType : tyBits ty = 32 * tyWords ty := by
  rcases intType_cases ht with rfl | rfl | rfl | rfl <;> rfl

/-- The model's reading of an operand is the value of its type (R84). -/
theorem opInt_eq_intValue (x : DWord) : opInt ty x = intValue ty x := by
  have hx := x.isLt
  rcases intType_cases ht with rfl | rfl | rfl | rfl <;>
    simp [opInt, intOf, intValue, tyBits, tySigned, BitVec.toInt_eq_toNat_cond] <;> grind

/-- The value of an operand is its bits modulo 2^w. -/
theorem intValue_emod (x : DWord) : intValue ty x % 2 ^ (32 * tyWords ty) = x.toNat % 2 ^ (32 * tyWords ty) := by
  have hx := x.isLt
  rcases intType_cases ht with rfl | rfl | rfl | rfl <;>
    simp [intValue, tyWords, BitVec.toInt_eq_toNat_cond] <;> grind

/-- A value is its operand's word or pair. -/
theorem sameResult_intValue (x : DWord) : SameResult (tyWords ty) x (BitVec.ofInt 64 (intValue ty x)) := by
  have := SameResult.ofInt (intValue_emod ht x).symm (tyWords_cases ty)
  simpa using this

omit ht in
theorem clamp_eq_saturate (sat : Bool) (x : Int) :
    (if sat then max (intMin ty) (min (intMax ty) x) else x) = saturate ty sat x := by
  cases sat <;> cases hs : tySigned ty <;> simp [saturate, intMin, intMax, hs]

/-- A result taken modulo 2^w is the exact result under SAT, as a result of its words. -/
theorem sameResult_wrapInt (sat : Bool) (x : Int) : SameResult (tyWords ty) (wrapInt ty sat x) (BitVec.ofInt 64 (saturate ty sat x)) := by
  rw [wrapInt, clamp_eq_saturate, intBits, tyBits_of_intType ht]
  refine SameResult.ofInt ?_ (tyWords_cases ty)
  rw [Int.toNat_of_nonneg (Int.emod_nonneg _ (Int.ne_of_gt (Int.pow_pos (by decide)))), Int.emod_emod]

/-- The same without SAT. -/
theorem sameResult_wrap (x : Int) : SameResult (tyWords ty) (wrapInt ty false x) (BitVec.ofInt 64 x) := sameResult_wrapInt ht false x

theorem sameResult_intMinOf (x y : DWord) :
    SameResult (tyWords ty) (intMinOf ty x y) (BitVec.ofInt 64 (min (intValue ty x) (intValue ty y))) := by
  rw [intMinOf, opInt_eq_intValue ht, opInt_eq_intValue ht]
  split
  next h => rw [Int.min_eq_right (Int.le_of_lt h)]; exact sameResult_intValue ht y
  next h => rw [Int.min_eq_left (Int.not_lt.mp h)]; exact sameResult_intValue ht x

theorem sameResult_intMaxOf (x y : DWord) :
    SameResult (tyWords ty) (intMaxOf ty x y) (BitVec.ofInt 64 (max (intValue ty x) (intValue ty y))) := by
  rw [intMaxOf, opInt_eq_intValue ht, opInt_eq_intValue ht]
  split
  next h => rw [Int.max_eq_right (Int.le_of_lt h)]; exact sameResult_intValue ht y
  next h => rw [Int.max_eq_left (Int.not_lt.mp h)]; exact sameResult_intValue ht x

theorem sameResult_intMul (hi : Bool) (x y : DWord) :
    SameResult (tyWords ty) (intMul ty hi x y)
      (BitVec.ofInt 64 (if hi then intValue ty x * intValue ty y / 2 ^ (32 * tyWords ty) else intValue ty x * intValue ty y)) := by
  rw [intMul, opInt_eq_intValue ht, opInt_eq_intValue ht, tyBits_of_intType ht]
  exact sameResult_wrap ht _

theorem sameResult_intMad (sat : Bool) (x y z : DWord) :
    SameResult (tyWords ty) (intMad ty sat x y z)
      (BitVec.ofInt 64 (saturate ty sat (intValue ty x * intValue ty y + intValue ty z))) := by
  rw [intMad, opInt_eq_intValue ht, opInt_eq_intValue ht, opInt_eq_intValue ht]
  exact sameResult_wrapInt ht _ _

theorem intDiv_zero {rem : Bool} {x y : DWord} (hy : intValue ty y = 0) :
    intDiv ty rem x y = (wrapInt ty false (if rem then intValue ty x else 2 ^ tyBits ty - 1), dvz) := by
  simp only [intDiv, opInt_eq_intValue ht, hy, if_true]

/-- The remainder is what the quotient rounded toward zero leaves (R85). -/
theorem intDiv_ne_zero {rem : Bool} {x y : DWord} (hy : intValue ty y ≠ 0) :
    intDiv ty rem x y = (wrapInt ty false
      (if rem then intValue ty x - intValue ty y * (intValue ty x).tdiv (intValue ty y) else (intValue ty x).tdiv (intValue ty y)), 0) := by
  simp only [intDiv, opInt_eq_intValue ht, hy, if_false, Int.tmod_def]

end Values

theorem resWide_of_one {w : Who} {h : Hdr} {s : State} {ty : Ty} {d : BitVec 9} {v : DWord} (hn : tyWords ty = 1) :
    resWide w h s ty d v = res w h s d 1 v := by simp [resWide, hn]

theorem resWide_of_two {w : Who} {h : Hdr} {s : State} {ty : Ty} {d : BitVec 9} {v : DWord} (hn : tyWords ty = 2) :
    resWide w h s ty d v = resLater w s d 2 v := by simp [resWide, hn]

/-- Operands DST, A, B and C: A and B of `n` words, C of `k` (R79). -/
def useDABC (ty : Ty) (d : BitVec 9) (a b c : Src) (n k : Nat) : Use :=
  { useDAB ty d a b with srcs := [(.a, a, n), (.b, b, n), (.c, c, k)] }

section Arithmetic
variable {h : Hdr} {ty : Ty} {d : BitVec 9} {a b c : Src} {w : Who} {s : State} {x y z : DWord} (ht : intType ty = true)
include ht

section Sums
variable (hc : CanWrite h (useDAB ty d a b) d (tyWords ty) w s) (ha : Reads (useDAB ty d a b) w s a (tyWords ty) x)
  (hb : Reads (useDAB ty d a b) w s b (tyWords ty) y)
include hc ha hb

theorem iadd_gives (sat : Bool) :
    GivesNow (.iadd h ty sat d a b) h d (tyWords ty) 8 (BitVec.ofInt 64 (saturate ty sat (intValue ty x + intValue ty y))) w s := by
  refine givesNow_alu2 (f := intAdd ty sat) rfl hc ha hb ?_
  rw [intAdd, opInt_eq_intValue ht, opInt_eq_intValue ht]
  exact sameResult_wrapInt ht _ _

theorem isub_gives (sat : Bool) :
    GivesNow (.isub h ty sat d a b) h d (tyWords ty) 8 (BitVec.ofInt 64 (saturate ty sat (intValue ty x - intValue ty y))) w s := by
  refine givesNow_alu2 (f := intSub ty sat) rfl hc ha hb ?_
  rw [intSub, opInt_eq_intValue ht, opInt_eq_intValue ht]
  exact sameResult_wrapInt ht _ _

theorem imin_gives :
    GivesNow (.imin h ty d a b) h d (tyWords ty) 8 (BitVec.ofInt 64 (min (intValue ty x) (intValue ty y))) w s :=
  givesNow_alu2 rfl hc ha hb (sameResult_intMinOf ht x y)

theorem imax_gives :
    GivesNow (.imax h ty d a b) h d (tyWords ty) 8 (BitVec.ofInt 64 (max (intValue ty x) (intValue ty y))) w s :=
  givesNow_alu2 rfl hc ha hb (sameResult_intMaxOf ht x y)

end Sums

theorem iabs_gives (sat : Bool) (hc : CanWrite h (useDA ty d a) d (tyWords ty) w s) (ha : Reads (useDA ty d a) w s a (tyWords ty) x) :
    GivesNow (.iabs h ty sat d a) h d (tyWords ty) 8 (BitVec.ofInt 64 (saturate ty sat (intValue ty x).natAbs)) w s := by
  refine givesNow_alu1 (f := intAbs ty sat) (tyWords_cases ty) rfl hc ha ?_
  rw [intAbs, opInt_eq_intValue ht]
  exact sameResult_wrapInt ht _ _

section Products
variable {n : Nat} (hn : tyWords ty = n)
include hn

/-- A product of 32 bits is complete at issue (R109). -/
theorem imul_gives (hi : Bool) (h1 : n = 1) (hc : CanWrite h (useDAB ty d a b) d n w s) (ha : Reads (useDAB ty d a b) w s a n x)
    (hb : Reads (useDAB ty d a b) w s b n y) :
    GivesNow (.imul h ty hi d a b) h d n 8
      (BitVec.ofInt 64 (if hi then intValue ty x * intValue ty y / 2 ^ (32 * n) else intValue ty x * intValue ty y)) w s := by
  subst hn
  refine givesNow_of_body rfl hc (.inl h1) ?_ (sameResult_intMul ht hi x y)
  simp only [ha.eq, hb.eq, resWide_of_one h1, bind, Except.bind]
  rw [h1]

/-- A product of 64 bits is claimed (R109). -/
theorem imul_gives_later (hi : Bool) (h2 : n = 2) (hc : CanClaim h (useDAB ty d a b) d n w s) (ha : Reads (useDAB ty d a b) w s a n x)
    (hb : Reads (useDAB ty d a b) w s b n y) :
    GivesLater (.imul h ty hi d a b) d n 8
      (BitVec.ofInt 64 (if hi then intValue ty x * intValue ty y / 2 ^ (32 * n) else intValue ty x * intValue ty y)) 0 false w s := by
  subst hn
  refine givesLater_of_body rfl hc (.inr h2) ?_ (sameResult_intMul ht hi x y)
  simp only [ha.eq, hb.eq, resWide_of_two h2, bind, Except.bind]
  rw [h2]
  rfl

theorem imad_gives (sat : Bool) (h1 : n = 1) (hc : CanWrite h (useDABC ty d a b c (tyWords ty) (tyWords ty)) d n w s)
    (ha : Reads (useDABC ty d a b c (tyWords ty) (tyWords ty)) w s a n x) (hb : Reads (useDABC ty d a b c (tyWords ty) (tyWords ty)) w s b n y)
    (hz : Reads (useDABC ty d a b c (tyWords ty) (tyWords ty)) w s c n z) :
    GivesNow (.imad h ty sat d a b c) h d n 8
      (BitVec.ofInt 64 (saturate ty sat (intValue ty x * intValue ty y + intValue ty z))) w s := by
  subst hn
  refine givesNow_of_body rfl hc (.inl h1) ?_ (sameResult_intMad ht sat x y z)
  simp only [ha.eq, hb.eq, hz.eq, resWide_of_one h1, bind, Except.bind]
  rw [h1]

theorem imad_gives_later (sat : Bool) (h2 : n = 2) (hc : CanClaim h (useDABC ty d a b c (tyWords ty) (tyWords ty)) d n w s)
    (ha : Reads (useDABC ty d a b c (tyWords ty) (tyWords ty)) w s a n x) (hb : Reads (useDABC ty d a b c (tyWords ty) (tyWords ty)) w s b n y)
    (hz : Reads (useDABC ty d a b c (tyWords ty) (tyWords ty)) w s c n z) :
    GivesLater (.imad h ty sat d a b c) d n 8
      (BitVec.ofInt 64 (saturate ty sat (intValue ty x * intValue ty y + intValue ty z))) 0 false w s := by
  subst hn
  refine givesLater_of_body rfl hc (.inr h2) ?_ (sameResult_intMad ht sat x y z)
  simp only [ha.eq, hb.eq, hz.eq, resWide_of_two h2, bind, Except.bind]
  rw [h2]
  rfl

end Products

/-- A division claims its destination, and its flags set with the result (R85, R109). -/
theorem idiv_gives_later {rem : Bool} {v : Int} {f : Flags} (hc : CanClaim h (useDAB ty d a b) d (tyWords ty) w s)
    (ha : Reads (useDAB ty d a b) w s a (tyWords ty) x) (hb : Reads (useDAB ty d a b) w s b (tyWords ty) y)
    (hv : intDiv ty rem x y = (wrapInt ty false v, f)) :
    GivesLater (.idiv h ty rem d a b) d (tyWords ty) 8 (BitVec.ofInt 64 v) f true w s := by
  refine givesLater_of_body rfl hc (tyWords_cases ty) ?_ (sameResult_wrap ht v)
  simp only [ha.eq, hb.eq, hv, bind, Except.bind]
  rfl

end Arithmetic

/-- Settles O1: every form ends in a result of the exact value's words; the products split by their width, the quotients by a divisor 0. -/
theorem integerArithmeticResults : Obligations.IntegerArithmeticResults := by
  unfold Obligations.IntegerArithmeticResults
  constructor
  · intro h ty sat hi d a b c w s x y z ht
    refine ⟨fun hc ha hb => ⟨iadd_gives ht hc ha hb sat, isub_gives ht hc ha hb sat, imin_gives ht hc ha hb, imax_gives ht hc ha hb, ?_⟩,
      fun hc ha hb hn => imul_gives_later ht hn hi rfl hc ha hb, fun hc ha hb hz hn => imad_gives ht hn sat rfl hc ha hb hz,
      fun hc ha hb hz hn => imad_gives_later ht hn sat rfl hc ha hb hz, iabs_gives ht sat⟩
    intro hn
    simpa [hn] using imul_gives ht rfl hi hn hc ha hb
  · intro h ty rem d a b w s x y ht n u X Y hc ha hb
    exact ⟨fun hy => idiv_gives_later ht hc ha hb (intDiv_zero ht hy), fun hy => idiv_gives_later ht hc ha hb (intDiv_ne_zero ht hy)⟩

end Sys2Proof.Machine
end

section
/-! Logic, shifts and rotation (R87, R88). -/
namespace Sys2Proof.Machine

theorem intShl_eq (ty : Ty) (x : DWord) (n : Word) :
    intShl ty x n = BitVec.ofNat 64 (if tyBits ty ≤ n.toNat then 0 else x.toNat * 2 ^ n.toNat) := by
  rw [intShl]
  split
  · rfl
  · exact BitVec.eq_of_toNat_eq (by simp [Nat.shiftLeft_eq])

theorem intShr_eq (ty : Ty) (x : DWord) (n : Word) :
    intShr ty x n = BitVec.ofNat 64 (if tyBits ty ≤ n.toNat then 0 else x.toNat / 2 ^ n.toNat) := by
  rw [intShr]
  split
  · rfl
  · apply BitVec.eq_of_toNat_eq
    rw [BitVec.toNat_ushiftRight, Nat.shiftRight_eq_div_pow, BitVec.toNat_ofNat,
      Nat.mod_eq_of_lt (Nat.lt_of_le_of_lt (Nat.div_le_self _ _) x.isLt)]

theorem sameResult_intSar {ty : Ty} (ht : intType ty = true) (x : DWord) (n : Word) :
    SameResult (tyWords ty) (intSar ty x n) (BitVec.ofInt 64
      (if tyBits ty ≤ n.toNat then (if intValue ty x < 0 then -1 else 0) else intValue ty x / 2 ^ n.toNat)) := by
  rw [intSar, opInt_eq_intValue ht]
  exact sameResult_wrap ht _

/-- A rotation to the left by `k` is the word whose bit (i + k) mod m is bit i. -/
theorem rotateLeft_eq_of_bits {m : Nat} {x r : BitVec m} {k : Nat} (hr : ∀ i, i < m → r.getLsbD ((i + k) % m) = x.getLsbD i) :
    x.rotateLeft (k % m) = r := by
  rw [BitVec.rotateLeft_mod_eq_rotateLeft]
  refine BitVec.eq_of_getLsbD_eq fun j hj => ?_
  have hk : k % m < m := Nat.mod_lt _ (by omega)
  rw [BitVec.getLsbD_rotateLeft]
  -- bit j comes from the place k mod m below it, around the end
  have fromPlace : ∀ i, i < m → i + k % m = j ∨ i + k % m = j + m → r.getLsbD j = x.getLsbD i := by
    intro i hi e
    rw [← hr i hi, Nat.add_mod, Nat.mod_eq_of_lt hi]
    rcases e with e | e
    · rw [e, Nat.mod_eq_of_lt hj]
    · rw [e, Nat.add_mod_right, Nat.mod_eq_of_lt hj]
  by_cases h : j < k % m
  · simp only [h, decide_true, cond_true]
    exact (fromPlace _ (by omega) (.inr (by omega))).symm
  · simp only [h, hj, decide_false, decide_true, cond_false, Bool.true_and]
    exact (fromPlace _ (by omega) (.inl (by omega))).symm

/-- A word of 32 bits and the low word that it is. -/
theorem sameResult_of_loWord {x : Word} {v : DWord} (h : x = loWord v) : SameResult 1 (x.setWidth 64) v := by
  subst h
  exact SameResult.iff_bits.mpr fun i hi => by simp [hi]; omega

theorem sameResult_intRot {ty : Ty} (ht : intType ty = true) {x r : DWord} {n : Word}
    (hr : ∀ i, i < tyBits ty → r.getLsbD ((i + n.toNat) % tyBits ty) = x.getLsbD i) :
    SameResult (tyWords ty) (intRot ty x n) r := by
  have hb := tyBits_of_intType ht
  rcases tyWords_cases ty with h1 | h2
  · rw [h1] at hb ⊢
    rw [hb] at hr
    have hrot : (loWord x).rotateLeft (n.toNat % 32) = loWord r := by
      refine rotateLeft_eq_of_bits fun i hi => ?_
      have := hr i hi
      simpa [hi, Nat.mod_lt] using this
    rw [intRot, hb, if_neg (by omega)]
    exact sameResult_of_loWord hrot
  · rw [h2] at hb ⊢
    rw [hb] at hr
    rw [intRot, hb, if_pos rfl, rotateLeft_eq_of_bits hr]
    exact SameResult.refl _ _

/-- Settles O2: the bitwise forms are the model's operations; of the shifts each value is said once, and a rotation is known by its bits. -/
theorem logicAndShiftResults : Obligations.LogicAndShiftResults := by
  unfold Obligations.LogicAndShiftResults
  intro h ty nb d a b w s x y ht
  refine ⟨fun hc ha hb => ⟨?and, ?or, ?xor⟩, fun hc ha hb => ⟨?shl, ?shr, fun _ => ?sar, fun r hr => ?rot⟩⟩
  case and => exact givesNow_alu2 (f := fun x y => x &&& withNb nb y) rfl hc ha hb (.refl _ _)
  case or => exact givesNow_alu2 (f := fun x y => x ||| withNb nb y) rfl hc ha hb (.refl _ _)
  case xor => exact givesNow_alu2 (f := fun x y => x ^^^ withNb nb y) rfl hc ha hb (.refl _ _)
  case shl =>
    rw [← intShl_eq]
    exact givesNow_aluW rfl hc ha hb (.refl _ _)
  case shr =>
    rw [← intShr_eq]
    exact givesNow_aluW rfl hc ha hb (.refl _ _)
  case sar => exact givesNow_aluW rfl hc ha hb (sameResult_intSar ht _ _)
  case rot => exact givesNow_aluW rfl hc ha hb (sameResult_intRot ht hr)

end Sys2Proof.Machine
end

section
/-! Bit fields, counts, reversal and byte permutation (R89 to R91). -/
namespace Sys2Proof.Machine

theorem bits_loWord (y : DWord) {hi lo : Nat} (h : hi < 32) : bits (loWord y) hi lo = bits y hi lo := by
  refine congrArg BitVec.toNat (BitVec.eq_of_getLsbD_eq fun i hi => ?_)
  simp [hi]
  omega

theorem testBit_bits {m : Nat} (x : BitVec m) (hi lo j : Nat) :
    (bits x hi lo).testBit j = (decide (j < hi + 1 - lo) && x.getLsbD (lo + j)) := by
  rw [BitVec.testBit_toNat, BitVec.getLsbD_extractLsb']

/-- An operand of a type has no bit above the type's width. -/
theorem Reads.getLsbD_of_le {ty : Ty} (ht : intType ty = true) {u : Use} {w : Who} {s : State} {a : Src} {x : DWord}
    (ha : Reads u w s a (tyWords ty) x) {i : Nat} (hi : tyBits ty ≤ i) : x.getLsbD i = false := by
  rw [tyBits_of_intType ht] at hi
  rcases tyWords_cases ty with h1 | h2
  · rw [h1] at ha hi
    have hlt : x.toNat < 2 ^ i := Nat.lt_of_lt_of_le ha.toNat_lt (Nat.pow_le_pow_right (by decide) hi)
    exact Nat.testBit_lt_two_pow hlt
  · exact BitVec.getLsbD_of_ge x i (by omega)

/-! Fields (R89). -/

theorem sameResult_bitExtract {ty : Ty} (ht : intType ty = true) (x y : DWord) :
    let pos := bits y 5 0
    let len := min (bits y 14 8) (tyBits ty)
    let f := x.toNat / 2 ^ pos % 2 ^ len
    SameResult (tyWords ty) (bitExtract ty x (loWord y)) (BitVec.ofInt 64
      (if tyBits ty ≤ pos ∨ len = 0 then 0 else if tySigned ty ∧ 2 ^ (len - 1) ≤ f then (f : Int) - 2 ^ len else f)) := by
  intro pos len f
  have hp : fieldPos (loWord y) = pos := bits_loWord y (by decide)
  have hl : fieldLen ty (loWord y) = len := by rw [fieldLen, bits_loWord y (by decide)]
  simp only [bitExtract, hp, hl, Bool.or_eq_true, Bool.and_eq_true, decide_eq_true_eq]
  split
  · exact SameResult.refl _ _
  · exact sameResult_wrap ht _

/-- A mask of `n` bits at `pos`. -/
theorem getLsbD_fieldMask {n pos i : Nat} (hi : i < 64) :
    (BitVec.ofNat 64 ((2 ^ n - 1) * 2 ^ pos)).getLsbD i = (decide (pos ≤ i) && decide (i < pos + n)) := by
  rw [BitVec.getLsbD_ofNat, Nat.testBit_mul_two_pow, Nat.testBit_two_pow_sub_one]
  by_cases h : pos ≤ i <;> simp [h, hi]; omega

theorem getLsbD_bitInsert {ty : Ty} {x y : DWord} {desc : Word} {i : Nat} (hi : i < tyBits ty) (h64 : i < 64) :
    (bitInsert ty x y desc).getLsbD i =
      if fieldPos desc ≤ i ∧ i < fieldPos desc + fieldLen ty desc then y.getLsbD (i - fieldPos desc) else x.getLsbD i := by
  simp only [bitInsert, Bool.or_eq_true, decide_eq_true_eq]
  split
  next h => rw [if_neg (by omega)]
  next h =>
    have hm : (decide (fieldPos desc ≤ i) && decide (i < fieldPos desc + (min (fieldPos desc + fieldLen ty desc) (tyBits ty) - fieldPos desc))) =
        decide (fieldPos desc ≤ i ∧ i < fieldPos desc + fieldLen ty desc) := by
      rw [← Bool.decide_and]
      exact decide_eq_decide.mpr (by omega)
    simp only [BitVec.getLsbD_or, BitVec.getLsbD_and, BitVec.getLsbD_not, BitVec.getLsbD_shiftLeft, getLsbD_fieldMask h64, hm, h64]
    split
    next hin => simp [hin]
    next hin => simp [hin]

/-! Counts (R90). -/

theorem popCount_eq {ty : Ty} (ht : intType ty = true) {x : DWord} (hx : ∀ i, tyBits ty ≤ i → x.getLsbD i = false) :
    popCount x = ((List.range (tyBits ty)).filter (fun i => x.getLsbD i)).length := by
  have hw : List.range 64 = List.range (tyBits ty) ++ (List.range (64 - tyBits ty)).map (tyBits ty + ·) := by
    rcases intType_cases ht with rfl | rfl | rfl | rfl <;> rfl
  have hup : ((List.range (64 - tyBits ty)).map (tyBits ty + ·)).filter (fun i => x.getLsbD i) = [] := by
    simp only [List.filter_eq_nil_iff, List.mem_map, Bool.not_eq_true]
    rintro _ ⟨j, -, rfl⟩
    exact hx _ (by omega)
  rw [popCount, upto_zero_eq_range, hw, List.filter_append, List.length_append, hup]
  rfl

/-- The count of leading zeros is the length of the run of zeros from the top. -/
theorem leadZeros_eq (x : DWord) {n z : Nat} (hz : z ≤ n) (h0 : ∀ i, n - z ≤ i → i < n → x.getLsbD i = false)
    (h1 : z < n → x.getLsbD (n - 1 - z) = true) : leadZeros x n = z := by
  induction n generalizing z with
  | zero => rw [leadZeros]; omega
  | succ n ih =>
    rw [leadZeros]
    by_cases hb : x.getLsbD n = true
    · have : ¬ 0 < z := fun hp => by simp [h0 n (by omega) (by omega)] at hb
      rw [if_pos hb]
      omega
    · have hz0 : z ≠ 0 := by
        rintro rfl
        exact hb (by simpa using h1 (by omega))
      obtain ⟨k, rfl⟩ := Nat.exists_eq_succ_of_ne_zero hz0
      rw [if_neg hb, ih (z := k) (by omega) (fun i h h' => h0 i (by omega) (by omega))
        (fun h => by
        rw [show n - 1 - k = n + 1 - 1 - (k + 1) by omega]
        exact h1 (by omega))]
      omega

/-! Bits reversed (R90). -/

/-- The low `m` bits of a value, reversed. -/
def reversedBits (x : DWord) : Nat → Nat
  | 0 => 0
  | m + 1 => 2 * reversedBits x m + (x.getLsbD m).toNat

theorem testBit_reversedBits (x : DWord) (m j : Nat) :
    (reversedBits x m).testBit j = (decide (j < m) && x.getLsbD (m - 1 - j)) := by
  induction m generalizing j with
  | zero => simp [reversedBits]
  | succ m ih =>
    have hb : (x.getLsbD m).toNat < 2 ^ 1 := Bool.toNat_lt _
    rw [reversedBits, ← Nat.pow_one 2, Nat.testBit_two_pow_mul_add _ hb]
    cases j with
    | zero => cases hm : x.getLsbD m <;> simp [hm]
    | succ j => simp [ih, show m - (j + 1) = m - 1 - j by omega]

/-- The sum that the model builds is the bits met so far, reversed, at the top of the width. -/
theorem reverse_fold_eq (x : DWord) {n m : Nat} (hm : m ≤ n) :
    (upto 0 m).foldl (fun r i => r + (if bit x i then 2 ^ (n - 1 - i) else 0)) 0 = 2 ^ (n - m) * reversedBits x m := by
  rw [upto_zero_eq_range]
  induction m with
  | zero => simp [reversedBits]
  | succ m ih =>
    have hp : 2 ^ (n - m) = 2 ^ (n - (m + 1)) * 2 := by rw [← Nat.pow_succ]; congr 1; omega
    have he : n - 1 - m = n - (m + 1) := by omega
    rw [List.range_succ, List.foldl_append, ih (by omega), reversedBits, hp, Nat.mul_add, Nat.mul_assoc]
    cases hb : x.getLsbD m <;> simp [he, hb]

theorem getLsbD_bitReverse {ty : Ty} {x : DWord} {i : Nat} (hi : i < tyBits ty) (h64 : i < 64) :
    (bitReverse ty x).getLsbD i = x.getLsbD (tyBits ty - 1 - i) := by
  rw [bitReverse, reverse_fold_eq x (Nat.le_refl _), BitVec.getLsbD_ofNat, Nat.sub_self, Nat.pow_zero, Nat.one_mul, testBit_reversedBits]
  simp [hi, h64]

/-! Bytes permuted (R91). -/

/-- The byte that a selector `n` of PRMT names. -/
def permutedByte (a b : Word) (n : Nat) : Nat :=
  let x := bits (pairOf a b) (8 * (n % 8) + 7) (8 * (n % 8))
  if n ≥ 8 then (if x ≥ 128 then 255 else 0) else x

theorem bits_byte_lt {m : Nat} (x : BitVec m) (lo : Nat) : bits x (lo + 7) lo < 2 ^ 8 := by
  refine Nat.lt_of_lt_of_eq (BitVec.isLt _) ?_
  congr 1
  omega

theorem permutedByte_lt (a b : Word) (n : Nat) : permutedByte a b n < 2 ^ 8 := by
  simp only [permutedByte]
  split
  · split <;> decide
  · exact bits_byte_lt _ _

theorem testBit_seven_of_byte {x : Nat} (hx : x < 2 ^ 8) : x.testBit 7 = decide (x ≥ 128) := by
  rw [Nat.testBit_eq_decide_div_mod_eq]
  exact decide_eq_decide.mpr (by omega)

theorem testBit_permutedByte (a b : Word) (n : Nat) {j : Nat} (hj : j < 8) :
    (permutedByte a b n).testBit j = (pairOf a b).getLsbD (8 * (n % 8) + if 8 ≤ n then 7 else j) := by
  have hx (k : Nat) (hk : k < 8) : (bits (pairOf a b) (8 * (n % 8) + 7) (8 * (n % 8))).testBit k = (pairOf a b).getLsbD (8 * (n % 8) + k) := by
    rw [testBit_bits, decide_eq_true (by omega), Bool.true_and]
  simp only [permutedByte]
  by_cases hn : 8 ≤ n
  · -- bit 7 of the byte in all eight bits
    rw [if_pos hn, if_pos hn, ← hx 7 (by decide), testBit_seven_of_byte (bits_byte_lt _ _)]
    split
    next h => rw [decide_eq_true h, show 255 = 2 ^ 8 - 1 by rfl, Nat.testBit_two_pow_sub_one, decide_eq_true hj]
    next h => rw [decide_eq_false h, Nat.zero_testBit]
  · rw [if_neg hn, if_neg hn, hx j hj]

/-- Bit `j` of byte `i` of a word of four bytes. -/
theorem testBit_fourBytes {b : Nat → Nat} (hb : ∀ i, b i < 2 ^ 8) {i j : Nat} (hi : i < 4) (hj : j < 8) :
    (b 0 + b 1 * 2 ^ 8 + b 2 * 2 ^ 16 + b 3 * 2 ^ 24).testBit (8 * i + j) = (b i).testBit j := by
  have e : b 0 + b 1 * 2 ^ 8 + b 2 * 2 ^ 16 + b 3 * 2 ^ 24 = 2 ^ 8 * (2 ^ 8 * (2 ^ 8 * b 3 + b 2) + b 1) + b 0 := by omega
  rw [e, Nat.testBit_two_pow_mul_add _ (hb 0), Nat.testBit_two_pow_mul_add _ (hb 1), Nat.testBit_two_pow_mul_add _ (hb 2)]
  rcases i with _ | _ | _ | _ | i
  · rw [if_pos (by omega), Nat.mul_zero, Nat.zero_add]
  · rw [if_neg (by omega), if_pos (by omega)]
    congr 1
    omega
  · rw [if_neg (by omega), if_neg (by omega), if_pos (by omega)]
    congr 1
    omega
  · rw [if_neg (by omega), if_neg (by omega), if_neg (by omega)]
    congr 1
    omega
  · omega

/-- The eight bytes of PRMT: A's, then B's. -/
theorem getLsbD_byteOfPair (x y : DWord) {m k : Nat} (hm : m < 8) (hk : k < 8) :
    (pairOf (loWord x) (loWord y)).getLsbD (8 * m + k) = (if m < 4 then x else y).getLsbD (8 * (m % 4) + k) := by
  rw [BitVec.getLsbD_append, BitVec.getLsbD_extractLsb', BitVec.getLsbD_extractLsb']
  by_cases h : m < 4
  · have hlo : 8 * m + k < 32 := by omega
    rw [if_pos h, if_pos hlo, decide_eq_true hlo, Nat.mod_eq_of_lt h, Nat.zero_add, Bool.true_and]
  · have hhi : 8 * m + k - 32 < 32 := by omega
    rw [if_neg h, if_neg (by omega), decide_eq_true hhi, show 8 * (m % 4) + k = 8 * m + k - 32 by omega, Nat.zero_add, Bool.true_and]

theorem getLsbD_bytePermute (x y z : DWord) {i j : Nat} (hi : i < 4) (hj : j < 8) :
    let sel := bits z (4 * i + 3) (4 * i)
    let src : DWord := if sel % 8 < 4 then x else y
    (bytePermute (loWord x) (loWord y) (loWord z)).getLsbD (8 * i + j) = src.getLsbD (8 * (sel % 4) + if 8 ≤ sel then 7 else j) := by
  intro sel src
  have hsel : bits (loWord z) (4 * i + 3) (4 * i) = sel := bits_loWord z (by omega)
  have hk : (if 8 ≤ sel then 7 else j) < 8 := by split <;> omega
  have hperm : (bytePermute (loWord x) (loWord y) (loWord z)).getLsbD (8 * i + j) =
      (permutedByte (loWord x) (loWord y) sel).testBit j := by
    rw [← hsel]
    have := testBit_fourBytes (b := fun i => permutedByte (loWord x) (loWord y) (bits (loWord z) (4 * i + 3) (4 * i)))
      (fun _ => permutedByte_lt _ _ _) hi hj
    rw [← this]
    exact (BitVec.getLsbD_ofNat ..).trans (by rw [decide_eq_true (by omega), Bool.true_and]; rfl)
  rw [hperm, testBit_permutedByte _ _ _ hj, getLsbD_byteOfPair x y (Nat.mod_lt _ (by decide)) hk, Nat.mod_mod_of_dvd sel (by decide)]

/-- The permuted word is the one whose bits are those of the bytes selected (R91). -/
theorem bytePermute_eq {x y z r : DWord} (hr : ∀ i j, i < 4 → j < 8 →
    let sel := bits z (4 * i + 3) (4 * i)
    let src : DWord := if sel % 8 < 4 then x else y
    r.getLsbD (8 * i + j) = src.getLsbD (8 * (sel % 4) + if 8 ≤ sel then 7 else j)) :
    bytePermute (loWord x) (loWord y) (loWord z) = loWord r := by
  refine BitVec.eq_of_getLsbD_eq fun k hk => ?_
  obtain ⟨i, j, hi, hj, rfl⟩ : ∃ i j, i < 4 ∧ j < 8 ∧ k = 8 * i + j := ⟨k / 8, k % 8, by omega, by omega, by omega⟩
  rw [getLsbD_bytePermute x y z hi hj, BitVec.getLsbD_extractLsb', decide_eq_true hk, Nat.zero_add, Bool.true_and]
  exact (hr i j hi hj).symm

section Fields
variable {h : Hdr} {ty : Ty} {d : BitVec 9} {a b c : Src} {w : Who} {s : State} {x y z v : DWord}

theorem bfi_gives (hc : CanWrite h (useDABC ty d a b c (tyWords ty) 1) d (tyWords ty) w s)
    (ha : Reads (useDABC ty d a b c (tyWords ty) 1) w s a (tyWords ty) x) (hb : Reads (useDABC ty d a b c (tyWords ty) 1) w s b (tyWords ty) y)
    (hz : Reads (useDABC ty d a b c (tyWords ty) 1) w s c 1 z) (hv : SameResult (tyWords ty) (bitInsert ty x y (loWord z)) v) :
    GivesNow (.bfi h ty d a b c) h d (tyWords ty) 8 v w s := by
  refine givesNow_of_body rfl hc (tyWords_cases ty) ?_ hv
  simp only [ha.eq, hb.eq, hz.src32, bind, Except.bind]

theorem prmt_gives (hc : CanWrite h (useDABC ty d a b c 1 1) d 1 w s) (ha : Reads (useDABC ty d a b c 1 1) w s a 1 x)
    (hb : Reads (useDABC ty d a b c 1 1) w s b 1 y) (hz : Reads (useDABC ty d a b c 1 1) w s c 1 z)
    (hv : bytePermute (loWord x) (loWord y) (loWord z) = loWord v) : GivesNow (.prmt h ty d a b c) h d 1 8 v w s := by
  refine givesNow_of_body rfl hc (.inl rfl) ?_ (sameResult_of_loWord hv)
  simp only [ha.src32, hb.src32, hz.src32, bind, Except.bind]

end Fields

/-- Settles O3: the counts are numbers of the operand's bits, every other result is known by its bits. -/
theorem bitFieldResults : Obligations.BitFieldResults := by
  unfold Obligations.BitFieldResults
  intro h ty d a b c w s x y z ht n W uw uc u1 un up
  have hW : W = 32 * n := tyBits_of_intType ht
  have hn : n = 1 ∨ n = 2 := tyWords_cases ty
  refine ⟨fun hc ha hb => ?bfe, fun hc ha hb hz r hr => ?bfi, fun hc ha => ⟨?popc, fun k hk h0 h1 => ?clz⟩,
    fun hc ha r hr => ?brev, fun hc ha hb hz r hr => prmt_gives hc ha hb hz (bytePermute_eq hr)⟩
  case bfe => exact givesNow_aluW rfl hc ha hb (sameResult_bitExtract ht x y)
  case bfi =>
    refine bfi_gives hc ha hb hz (SameResult.iff_bits.mpr fun i hi => ?_)
    rw [getLsbD_bitInsert (by omega) (by omega), hr i (by omega), fieldPos, fieldLen, bits_loWord z (by decide), bits_loWord z (by decide)]
  case popc =>
    rw [← popCount_eq ht fun i hi => ha.getLsbD_of_le ht hi]
    exact givesNow_alu1 (.inl rfl) rfl hc ha (.refl _ _)
  case clz =>
    rw [← leadZeros_eq x hk h0 h1]
    exact givesNow_alu1 (.inl rfl) rfl hc ha (.refl _ _)
  case brev =>
    refine givesNow_alu1 hn rfl hc ha (SameResult.iff_bits.mpr fun i hi => ?_)
    rw [getLsbD_bitReverse (by omega) (by omega)]
    exact (hr i (by omega)).symm

end Sys2Proof.Machine
end

section
/-! Selection, moves and identity values (R92, R96, R97, R99). -/
namespace Sys2Proof.Machine

section Selection
variable {h : Hdr} {ty : Ty} {d : BitVec 9} {a b : Src} {w : Who} {s : State} {x y : DWord}

/-- The operand that is not selected is not read (R92). -/
theorem isel_gives {p : BitVec 3} {neg : Bool} (hc : CanWrite h { useDAB ty d a b with sel := some (p, neg) } d (tyWords ty) w s)
    (hx : Reads { useDAB ty d a b with sel := some (p, neg) } w s (if w.th.preds.getLsbD p.toNat ^^ neg then a else b) (tyWords ty) x) :
    GivesNow (.isel h ty p neg d a b) h d (tyWords ty) 8 x w s := by
  refine givesNow_of_body rfl hc (tyWords_cases ty) ?_ (.refl _ x)
  simp only [hx.eq, bind, Except.bind]

theorem movi_gives (x : DWord) (hc : CanWrite h { dst := some (d.toNat, tyWords ty), len := 16, cycles := 2 } d (tyWords ty) w s) :
    GivesNow (.movi h ty d x) h d (tyWords ty) 16 x w s :=
  givesNow_of_body rfl hc (tyWords_cases ty) rfl (.refl _ _)

/-- An issue changes no identity value. -/
theorem sregValue_advance (u : Use) (sel : SregName) : sregValue w (advance w u s) sel = sregValue w s sel := by
  cases sel <;> rfl

theorem sreg_gives (sel : SregName) (hc : CanWrite h { dst := some (d.toNat, tyWords ty) } d (tyWords ty) w s) :
    GivesNow (.sreg h ty d sel) h d (tyWords ty) 8 (BitVec.ofNat 64 (sregValue w s sel)) w s := by
  refine givesNow_of_body rfl hc (tyWords_cases ty) ?_ (.refl _ _)
  rw [sregValue_advance]

theorem lea_gives (ht : intType ty = true) (sh : BitVec 4) (hc : CanWrite h (useDAw ty d a b) d (tyWords ty) w s)
    (ha : Reads (useDAw ty d a b) w s a (tyWords ty) x) (hb : Reads (useDAw ty d a b) w s b 1 y) :
    GivesNow (.lea h ty sh d a b) h d (tyWords ty) 8
      (BitVec.ofInt 64 (x.toNat + (if tySigned ty then (loWord y).toInt else (loWord y).toNat) * 2 ^ sh.toNat)) w s :=
  givesNow_aluW (f := leaOf ty sh.toNat) rfl hc ha hb (sameResult_wrap ht _)

end Selection

/-- Settles O4: one lemma for each form; the names of R20 are the cases of `sregValue`. -/
theorem selectionAndMoveResults : Obligations.SelectionAndMoveResults := by
  unfold Obligations.SelectionAndMoveResults
  intro h ty p neg sh d a b w s x y
  refine ⟨isel_gives, fun hc ha => ?mov, movi_gives y, fun hc => ?sreg, fun ht => lea_gives ht sh⟩
  case mov => exact givesNow_alu1 (f := id) (tyWords_cases ty) rfl hc ha (.refl _ _)
  case sreg =>
    have give (sel : SregName) := sreg_gives (ty := ty) sel hc
    have karg : BitVec.ofNat 64 (sregValue w s .karg) = w.k.karg := by simp [sregValue]
    exact ⟨give .lane, give .layer, give .gwidth, give .gdepth, give .group, give .gang, give .ngang, give .core, give .cluster, give .die,
      give .vgid, give .cyc, give .hbt, give .phase, karg ▸ give .karg, give .sibidx, give .sibn⟩

end Sys2Proof.Machine
end

section
/-! Comparisons and predicate operations (R93, R94, R80). -/
namespace Sys2Proof.Machine

/-- From `s` to `s'` only the predicates of `t` have changed, to `q`. -/
structure OnlyPreds (t : Tid) (q : BitVec 8) (s s' : State) : Prop where
  machine : s' = { s with threads := s'.threads }
  others : ∀ x, x ≠ t → s'.thread x = s.thread x
  own : s'.thread t = { s.thread t with preds := q }

/-- The predicates `ps` after a write of `v` to `p` (R80). -/
def predsAfter (ps : BitVec 8) (p : BitVec 3) (v : Bool) : BitVec 8 :=
  if p = 7 then ps
  else
    let m : BitVec 8 := 1 <<< p.toNat
    if v then ps ||| m else ps &&& ~~~m

theorem withPred_predsAfter (ps : BitVec 8) (p : BitVec 3) (v : Bool) : withPred ps p v (predsAfter ps p v) := by
  intro i hi
  have hbit : (BitVec.ofNat 8 (1 <<< p.toNat)).getLsbD i = decide (i = p.toNat) := by
    rw [BitVec.getLsbD_ofNat, Nat.one_shiftLeft, Nat.testBit_two_pow, decide_eq_true hi, Bool.true_and]
    exact decide_eq_decide.mpr eq_comm
  by_cases hp : p = 7
  · rw [predsAfter, if_pos hp, if_neg (fun e => e.2 hp)]
  · have hif : (if i = p.toNat ∧ p ≠ 7 then v else ps.getLsbD i) = if i = p.toNat then v else ps.getLsbD i := by
      simp only [ne_eq, hp, not_false_eq_true, and_true]
    rw [hif, predsAfter, if_neg hp, BitVec.natCast_eq_ofNat]
    cases v
    · simp only [Bool.false_eq_true, if_false, BitVec.getLsbD_and, BitVec.getLsbD_not, hbit, hi]
      split <;> simp [*]
    · simp only [if_true, BitVec.getLsbD_or, hbit]
      split <;> simp [*]

theorem onlyPreds_updThread (s : State) (t : Tid) (q : BitVec 8) :
    OnlyPreds t q s (s.updThread t (fun th => { th with preds := q })) where
  machine := rfl
  others x hx := by rw [State.updThread_at_thread, if_neg hx]
  own := State.updThread_at_thread_self ..

theorem onlyPreds_setPred (s : State) (t : Tid) (p : BitVec 3) (v : Bool) :
    OnlyPreds t (predsAfter (s.thread t).preds p v) s (setPred s t p v) := by
  simp only [setPred, predsAfter]
  split
  · exact ⟨rfl, fun _ _ => rfl, rfl⟩
  · refine ⟨rfl, fun x hx => ?_, ?_⟩
    · rw [State.updThread_at_thread, if_neg hx]
    · rw [State.updThread_at_thread_self]

theorem bne_eq_decide_ne (x y : Word) : (x != y) = decide (x ≠ y) := by
  by_cases h : x = y <;> simp [h]

section Predicates
variable {i : Instr} {h : Hdr} {u : Use} {body : Who → State → Res State} {w : Who} {s : State}

/-- The issuer's thread, as the state holds it. -/
theorem Issues.thread_eq (hi : Issues h u w s) : s.thread w.t = w.th := (congrArg Who.th (who?_spec hi.who).1).symm

/-- An instruction whose body changes the issuer's predicates alone completes with them. -/
theorem givesPreds_of_body {s1 : State} {q : BitVec 8} {new : BitVec 8 → Prop} (he : exec i s = runInstr h u body s) (hi : Issues h u w s)
    (hl : u.len = 8) (hb : body w (advance w u s) = .ok s1) (ho : OnlyPreds w.t q (advance w u s) s1) (hq : new q) : GivesPreds i new w s := by
  have hown : s1.thread w.t = { pastThread u s.cyc w.th with preds := q } := by rw [ho.own, advance_thread, hi.thread_eq]
  refine ⟨_, he.trans (runInstr_ok hi hb), ?_, ?_, ?_, ?_, ?_⟩
  · constructor <;> rw [endIssue_thread, hown]
    · simp only [pastThread, nextPc, hl]
    · rfl
    · rfl
    · rfl
  · rwa [endIssue_thread, hown]
  · rw [endIssue_thread, hown]; rfl
  · rw [endIssue_thread, hown]; rfl
  · exact rest_of_only (OnlyRegs.refl _ _ _) ho.machine ho.others (by rw [ho.own])

theorem advance_preds (hi : Issues h u w s) : ((advance w u s).thread w.t).preds = w.th.preds := by
  rw [advance_thread, hi.thread_eq]
  rfl

/-- An instruction that ends in a write of one predicate (R80). -/
theorem givesPred_of_body {p : BitVec 3} {v : Bool} (he : exec i s = runInstr h u body s) (hi : Issues h u w s) (hl : u.len = 8)
    (hb : body w (advance w u s) = .ok (setPred (advance w u s) w.t p v)) : GivesPreds i (withPred w.th.preds p v) w s := by
  have ho := onlyPreds_setPred (advance w u s) w.t p v
  rw [advance_preds hi] at ho
  exact givesPreds_of_body he hi hl hb ho (withPred_predsAfter _ _ _)

variable {ty : Ty} {a b : Src} {x y : DWord}

theorem icmp_gives {p : BitVec 3} (cond : ICond) (hi : Issues h { srcs := [(.a, a, tyWords ty), (.b, b, tyWords ty)] } w s)
    (ha : Reads { srcs := [(.a, a, tyWords ty), (.b, b, tyWords ty)] } w s a (tyWords ty) x)
    (hb : Reads { srcs := [(.a, a, tyWords ty), (.b, b, tyWords ty)] } w s b (tyWords ty) y) :
    GivesPreds (.icmp h ty cond p a b) (withPred w.th.preds p (intCompare cond ty x y)) w s := by
  refine givesPred_of_body rfl hi rfl ?_
  simp only [ha.eq, hb.eq, bind, Except.bind]

/-- The predicates that PSET.load makes of a word: p0 to p6 from it, p7 true (R94). -/
theorem getLsbD_loadedPreds (x : DWord) {i : Nat} (hi : i < 8) :
    (((loWord x).setWidth 8 &&& 0x7F) ||| 0x80 : BitVec 8).getLsbD i = (decide (i = 7) || x.getLsbD i) := by
  have hlo : ((loWord x).setWidth 8).getLsbD i = x.getLsbD i := by simp [hi]; omega
  have hlow : ∀ j, j < 8 → (0x7F : BitVec 8).getLsbD j = decide (j ≠ 7) := by decide
  have htop : ∀ j, j < 8 → (0x80 : BitVec 8).getLsbD j = decide (j = 7) := by decide
  rw [BitVec.getLsbD_or, BitVec.getLsbD_and, hlo, hlow i hi, htop i hi]
  by_cases h : i = 7 <;> simp [h]

end Predicates

/-- Settles O5: every form but PSET.save ends in a change of the issuer's predicates alone, and a write of p7 changes none. -/
theorem predicateResults : Obligations.PredicateResults := by
  unfold Obligations.PredicateResults
  intro h ty p pa pb d a b w s x y
  refine ⟨fun ht hi ha hb => ?icmp, fun hi => ?logic, fun hi ha => ⟨?nz, ?load⟩, fun hc => ?save⟩
  case icmp =>
    have give (cond : ICond) := icmp_gives (p := p) cond hi ha hb
    simp only [intCompare, opInt_eq_intValue ht] at give
    exact ⟨give .eq, give .ne, give .lt, give .le, give .gt, give .ge⟩
  case logic =>
    exact ⟨givesPred_of_body rfl hi rfl rfl, givesPred_of_body rfl hi rfl rfl, givesPred_of_body rfl hi rfl rfl,
      givesPred_of_body rfl hi rfl rfl⟩
  case nz =>
    refine givesPred_of_body (u := { srcs := [(.a, a, 1)] }) rfl hi rfl ?_
    simp only [ha.src32, bind, Except.bind, bne_eq_decide_ne]
  case load =>
    refine givesPreds_of_body (u := { srcs := [(.a, a, 1)] }) rfl hi rfl ?_ (onlyPreds_updThread _ _ _) (fun i => getLsbD_loadedPreds x)
    simp only [ha.src32, bind, Except.bind]
  case save => exact givesNow_of_body rfl hc (.inl rfl) rfl (.refl _ _)

end Sys2Proof.Machine
end

section
/-! What an issue, an account and a change of the issuer's own state leave alone, one change after another (R377, R42). -/
namespace Sys2Proof.Machine

namespace Rest
variable {w : Who} {mine also : Nat → Bool} {a b c : State}

theorem mono (h : Rest w mine a b) (hm : ∀ i, mine i = true → also i = true) : Rest w also a b :=
  { h with regs := fun x i hx => h.regs x i (fun e => hx ⟨e.1, hm i e.2⟩) }

theorem trans (h : Rest w mine a b) (g : Rest w mine b c) : Rest w mine a c where
  machine := by rw [g.machine, h.machine]
  gangs v := by rw [g.gangs, h.gangs]
  cores v := by rw [g.cores, h.cores]
  regs x i hx := (g.regs x i hx).trans (h.regs x i hx)
  others x hx := by rw [g.others x hx, h.others x hx]

theorem of_onlyRegs (h : OnlyRegs w.t mine a b) : Rest w mine a b where
  machine := by rw [h.machine]
  gangs v := by rw [h.gang v]
  cores v := by rw [h.core v]
  regs := h.regs
  others := h.others

/-- The issuer changed, but for its registers. -/
theorem of_updThread {f : Thread → Thread} (hs : (a.group w.t.vgid).saved = none) (hf : (f (a.thread w.t)).regs = (a.thread w.t).regs) :
    Rest w mine a (a.updThread w.t f) where
  machine := rfl
  gangs _ := rfl
  cores _ := rfl
  regs x i _ := regGet_updThread f x i hs (fun _ _ => by rw [hf])
  others x hx := by rw [State.updThread_at_thread, if_neg hx]

theorem advance (w : Who) (u : Use) (s : State) : Rest w mine s (advance w u s) where
  machine := rfl
  gangs _ := rfl
  cores := advance_core w u s
  regs x i _ := advance_regGet w u s x i
  others x hx := by rw [advance_other w u s hx]

/-- The kernel of every thread stays the kernel it was. -/
theorem kernelOf (h : Rest w mine a b) (x : Tid) : (b.who x).k = (a.who x).k := by
  have hgroup : b.group x.vgid = a.group x.vgid := by rw [h.machine]; rfl
  have hgang : (b.gang (a.group x.vgid).gang).kernel = (a.gang (a.group x.vgid).gang).kernel := by rw [h.gangs]
  have hkernel : ∀ k, b.kernel k = a.kernel k := fun k => by rw [h.machine]; rfl
  simp only [State.who, hgroup, hgang, hkernel]

theorem saved (h : Rest w mine a b) (v : Nat) : (b.group v).saved = (a.group v).saved := by rw [h.machine]; rfl

theorem bankGet (h : Rest w mine a b) {n : Nat} (hn : mine ((a.who w.t).k.regs + n) = false) :
    Machine.bankGet b w.t n = Machine.bankGet a w.t n := by
  simp only [Machine.bankGet, h.kernelOf]
  rw [h.regs _ _ (fun e => by simp [hn] at e)]

theorem bankPair (h : Rest w mine a b) {n : Nat} (hlo : mine ((a.who w.t).k.regs + n) = false)
    (hhi : mine ((a.who w.t).k.regs + (n + 1)) = false) : Machine.bankPair b w.t n = Machine.bankPair a w.t n := by
  simp only [Machine.bankPair, h.bankGet hlo, h.bankGet hhi]

end Rest

/-- The account of a sibling's issues changes nothing but the gang's sibling record (R377). -/
theorem countIssue_machine (w : Who) (s : State) : countIssue w s = { s with gangs := (countIssue w s).gangs } := by
  simp only [countIssue]
  split <;> rfl

theorem countIssue_thread (w : Who) (s : State) (x : Tid) : (countIssue w s).thread x = s.thread x := by
  rw [countIssue_machine]; rfl

theorem countIssue_gang (w : Who) (s : State) (k : Nat) : (countIssue w s).gang k = { s.gang k with sib := ((countIssue w s).gang k).sib } := by
  simp only [countIssue, updSib]
  split
  · rw [State.updGang_at_gang]
    split
    · rename_i e; rw [e]
    · rfl
  · rfl

theorem countIssue_kernelOf (w : Who) (s : State) (x : Tid) : ((countIssue w s).who x).k = (s.who x).k := by
  have hgang : ((countIssue w s).gang (s.group x.vgid).gang).kernel = (s.gang (s.group x.vgid).gang).kernel := by rw [countIssue_gang]
  have hgroup : (countIssue w s).group x.vgid = s.group x.vgid := by rw [countIssue_machine]; rfl
  have hkernel : ∀ k, (countIssue w s).kernel k = s.kernel k := fun k => by rw [countIssue_machine]; rfl
  simp only [State.who, hgroup, hgang, hkernel]

theorem rest_countIssue (mine : Nat → Bool) (w : Who) (s : State) : Rest w mine s (countIssue w s) where
  machine := by rw [countIssue_machine]
  gangs := countIssue_gang w s
  cores c := by rw [countIssue_machine]; rfl
  regs x i _ := by
    have hgroup : (countIssue w s).group x.vgid = s.group x.vgid := by rw [countIssue_machine]; rfl
    exact regGet_congr i hgroup (countIssue_kernelOf w s x) (by rw [countIssue_machine]) (by rw [countIssue_machine]) (by rw [countIssue_thread])
  others x _ := by rw [countIssue_thread]

/-- The end of an instruction changes the retained entry and the account. -/
theorem rest_endIssue (mine : Nat → Bool) (h : Hdr) (u : Use) (w : Who) (s s1 : State) (hs : (s1.group w.t.vgid).saved = none) :
    Rest w mine s1 (endIssue h u w s s1) :=
  (Rest.of_updThread hs rfl).trans (rest_countIssue mine w _)

end Sys2Proof.Machine
end

section
/-! The handler bank of a resident thread (R257, R258), delivery (R260) and return (R262). -/
namespace Sys2Proof.Machine

theorem OnlyRegs.kernelOf {t : Tid} {m : Nat → Bool} {s s' : State} (h : OnlyRegs t m s s') (x : Tid) : (s'.who x).k = (s.who x).k := by
  rw [h.machine]; rfl

/-- Trap registers written one after another. -/
def bankPuts (s : State) (t : Tid) (l : List (Nat × Word)) : State := l.foldl (fun s p => bankPut s t p.1 p.2) s

/-- V[i] of a thread of kernel `k` is one of the trap registers `l`. -/
def inBank (k : Kernel) (l : List Nat) (i : Nat) : Bool := l.any (fun b => i = k.regs + b)

theorem inBank_of_subset {k : Kernel} {l l' : List Nat} (h : l ⊆ l') (i : Nat) (hi : inBank k l i = true) : inBank k l' i = true := by
  simp only [inBank, List.any_eq_true] at hi ⊢
  obtain ⟨b, hb, hib⟩ := hi
  exact ⟨b, h hb, hib⟩

section Bank
variable {s : State} {t : Tid}

theorem bankGet_bankPut {n : Nat} (v : Word) (m : Nat) (hn : n ≠ 0) (hs : (s.group t.vgid).saved = none) :
    bankGet (bankPut s t n v) t m = if m = n then v else bankGet s t m := by
  have hput := onlyRegs_regPut (i := (s.who t).k.regs + n) ⟨v, .full⟩ hs
  simp only [bankGet, bankPut, hput.kernelOf]
  split
  · subst m
    rw [regGet_regPut_self _ (by omega) hs]
  · rename_i hm
    rw [hput.regs _ _ (by simp [hm])]

theorem onlyRegs_bankPuts (l : List (Nat × Word)) (hs : (s.group t.vgid).saved = none) :
    OnlyRegs t (inBank (s.who t).k (l.map Prod.fst)) s (bankPuts s t l) := by
  induction l generalizing s with
  | nil => exact .refl _ _ _
  | cons p l ih =>
    have hput := onlyRegs_regPut (i := (s.who t).k.regs + p.1) ⟨p.2, .full⟩ hs
    have hrest := ih (s := bankPut s t p.1 p.2) (by rw [bankPut, hput.group]; exact hs)
    rw [bankPut, hput.kernelOf] at hrest
    exact (hput.mono (by simp [inBank])).trans (hrest.mono (by simp +contextual [inBank]))

/-- Of several writes to a trap register the last one counts. -/
theorem bankGet_bankPuts (l : List (Nat × Word)) (m : Nat) (hl : ∀ p ∈ l, p.1 ≠ 0) (hs : (s.group t.vgid).saved = none) :
    bankGet (bankPuts s t l) t m = l.foldl (fun v p => if m = p.1 then p.2 else v) (bankGet s t m) := by
  induction l generalizing s with
  | nil => rfl
  | cons p l ih =>
    have hput := onlyRegs_regPut (i := (s.who t).k.regs + p.1) ⟨p.2, .full⟩ hs
    rw [bankPuts, List.foldl_cons, List.foldl_cons, ← bankGet_bankPut p.2 m (hl p (by simp)) hs]
    exact ih (fun q hq => hl q (by simp [hq])) (by rw [bankPut, hput.group]; exact hs)

theorem bankGet_updThread {f : Thread → Thread} (n : Nat) (hs : (s.group t.vgid).saved = none) (hf : (f (s.thread t)).regs = (s.thread t).regs) :
    bankGet (s.updThread t f) t n = bankGet s t n := by
  simp only [bankGet]
  rw [show ((s.updThread t f).who t).k = (s.who t).k from rfl, regGet_updThread f t _ hs (fun _ _ => by rw [hf])]

end Bank

/-- What a delivery writes to the handler bank: cause and mode, PC, address, information, and ENTRY set in the mask (R258, R260). -/
def trapWords (s : State) (t : Tid) (cause : Nat) (pc addr : DWord) (info : Word) : List (Nat × Word) :=
  [(31, BitVec.ofNat 32 (cause + (if (s.thread t).sys then 256 else 0))), (26, loWord pc), (27, hiWord pc), (28, loWord addr), (29, hiWord addr),
   (30, info), (23, bankGet s t 23 ||| 0x80000000)]

theorem dropLatches_valid (l : Tab Latch) (k : Nat) : (at_ (dropLatches l) k {}).valid = false := by
  have h := look_map l (fun _ (x : Latch) => { x with valid := false }) k
  simp only [dropLatches, at_, h]
  cases look l k <;> rfl

/-- The thread at its handler (R260). -/
def atHandler (pc : DWord) (cyc : Nat) (th : Thread) : Thread :=
  { th with
    st := .ready, wait := .none, sys := true, pc := pc, latches := dropLatches th.latches, retained := none, resuming := false, ready := cyc + 1 }

theorem atHandler_regs (pc : DWord) (cyc : Nat) (th : Thread) : (atHandler pc cyc th).regs = th.regs := rfl

section Delivery
variable {s : State} {t : Tid}

/-- A delivery writes the trap registers, and then the thread stands at the handler that V[R+24] and V[R+25] name. -/
theorem deliver_eq (cause : Nat) (pc addr : DWord) (info : Word) (hs : (s.group t.vgid).saved = none) :
    deliver s t cause pc addr info =
      (bankPuts s t (trapWords s t cause pc addr info)).updThread t (atHandler (bankPair s t 24) s.cyc) := by
  have hmask : bankGet (bankPuts s t ((trapWords s t cause pc addr info).take 6)) t 23 = bankGet s t 23 := by
    rw [bankGet_bankPuts _ _ (by simp [trapWords]) hs]
    simp [trapWords]
  have hputs : deliver s t cause pc addr info =
      (bankPuts s t (trapWords s t cause pc addr info)).updThread t
        (atHandler (bankPair (bankPuts s t (trapWords s t cause pc addr info)) t 24) s.cyc) := by
    rw [trapWords, ← hmask]; rfl
  have hhandler : bankPair (bankPuts s t (trapWords s t cause pc addr info)) t 24 = bankPair s t 24 := by
    simp only [bankPair]
    rw [bankGet_bankPuts _ _ (by simp [trapWords]) hs, bankGet_bankPuts _ _ (by simp [trapWords]) hs]
    simp [trapWords]
  rw [hputs, hhandler]

/-- A delivery changes the trap registers, and no other register word. -/
theorem deliver_bankGet (cause : Nat) (pc addr : DWord) (info : Word) (n : Nat) (hs : (s.group t.vgid).saved = none) :
    bankGet (deliver s t cause pc addr info) t n =
      (trapWords s t cause pc addr info).foldl (fun v p => if n = p.1 then p.2 else v) (bankGet s t n) := by
  have hputs := onlyRegs_bankPuts (trapWords s t cause pc addr info) hs
  rw [deliver_eq _ _ _ _ hs, bankGet_updThread n (by rw [hputs.group]; exact hs) (atHandler_regs _ _ _),
    bankGet_bankPuts _ n (by simp [trapWords]) hs]

theorem deliver_thread (cause : Nat) (pc addr : DWord) (info : Word) (hs : (s.group t.vgid).saved = none) :
    ∃ m r l e, (deliver s t cause pc addr info).thread t =
      atHandler (bankPair s t 24) s.cyc { s.thread t with monitor := m, regs := r, links := l, ecc := e } := by
  rw [deliver_eq _ _ _ _ hs, State.updThread_at_thread_self, (onlyRegs_bankPuts (trapWords s t cause pc addr info) hs).own]
  exact ⟨_, _, _, _, rfl⟩

end Delivery

theorem rest_deliver {w : Who} {s : State} (cause : Nat) (pc addr : DWord) (info : Word) (hs : (s.group w.t.vgid).saved = none) :
    Rest w (inBank (s.who w.t).k [31, 26, 27, 28, 29, 30, 23]) s (deliver s w.t cause pc addr info) := by
  have hputs := onlyRegs_bankPuts (trapWords s w.t cause pc addr info) hs
  rw [deliver_eq _ _ _ _ hs]
  exact (Rest.of_onlyRegs hputs).trans (.of_updThread (by rw [hputs.group]; exact hs) (atHandler_regs _ _ _))

/-- A delivery to the issuer is one of R260, whatever state it is in that has its mode, predicates and control word. -/
theorem delivered_deliver {w : Who} {s : State} (cause : Nat) (pc addr : DWord) (info : Word) (hs : (s.group w.t.vgid).saved = none)
    (hk : (s.who w.t).k = w.k) (hsys : (s.thread w.t).sys = w.th.sys) (hpreds : (s.thread w.t).preds = w.th.preds)
    (hfcw : (s.thread w.t).fcw = w.th.fcw) : Delivered cause pc addr info w s (deliver s w.t cause pc addr info) := by
  have hget := fun n => deliver_bankGet cause pc addr info n hs
  obtain ⟨_, _, _, _, hth⟩ := deliver_thread cause pc addr info hs
  constructor
  case cause => simp [hget, trapWords, hsys]
  case pc => simp [bankPair, hget, trapWords]
  case addr => simp [bankPair, hget, trapWords]
  case info => simp [hget, trapWords]
  case mask => simp [hget, trapWords]
  case sys => rw [hth]; rfl
  case at_ => rw [hth]; rfl
  case ready => rw [hth]; rfl
  case latches => intro k; rw [hth]; exact dropLatches_valid _ k
  case retained => rw [hth]; rfl
  case preds => rw [hth]; exact hpreds
  case fcw => rw [hth]; exact hfcw
  case rest =>
    have h := rest_deliver cause pc addr info hs
    rw [hk] at h
    exact h.mono (inBank_of_subset (by decide))

namespace Delivered
variable {cause : Nat} {pc addr : DWord} {info : Word} {w : Who} {a b c : State}

/-- A delivery after a step that changes no register. -/
theorem before (h : Rest w (fun _ => false) a b) (hd : Delivered cause pc addr info w b c) : Delivered cause pc addr info w a c :=
  { hd with
    mask := by rw [hd.mask, h.bankGet rfl]
    at_ := by rw [hd.at_, h.bankPair rfl rfl]
    rest := (h.mono (by simp)).trans hd.rest }

/-- A delivery stands after a step that leaves the issuer alone. -/
theorem after (hd : Delivered cause pc addr info w a b) (h : Rest w (fun _ => false) b c) (hth : c.thread w.t = b.thread w.t) :
    Delivered cause pc addr info w a c where
  cause := by rw [h.bankGet rfl, hd.cause]
  pc := by rw [h.bankPair rfl rfl, hd.pc]
  addr := by rw [h.bankPair rfl rfl, hd.addr]
  info := by rw [h.bankGet rfl, hd.info]
  mask := by rw [h.bankGet rfl, hd.mask]
  sys := by rw [hth, hd.sys]
  at_ := by rw [hth, hd.at_]
  ready := by rw [hth, hd.ready]
  latches k := by rw [hth, hd.latches k]
  retained := by rw [hth, hd.retained]
  preds := by rw [hth, hd.preds]
  fcw := by rw [hth, hd.fcw]
  rest := hd.rest.trans (h.mono (by simp))

end Delivered

/-- The model's test of the three conditions is R260's. -/
theorem delivers_iff {w : Who} {s : State} (hk : (s.who w.t).k = w.k) (cause : Nat) :
    delivers s w.t cause = true ↔ Deliverable (trapClass cause) w s := by
  have hhas : w.k.hasHandler = true ↔ w.k.handler ≠ 0 := bne_iff_ne
  rw [delivers, entryBit, hk, Deliverable, ← hhas]
  cases w.k.hasHandler <;> simp

/-- A trap that reports a failed walk is counted first, and the count changes nothing that a delivery or a kill looks at (R292). -/
theorem trapCount_machine (s : State) (t : Tid) (cause : Nat) (info : Word) :
    trapCount s t cause info = { s with fns := (trapCount s t cause info).fns } := by
  unfold trapCount
  split <;> rfl

theorem trapCount_of_ne (s : State) (t : Tid) {cause : Nat} (info : Word) (hc : cause ≠ 0x05) : trapCount s t cause info = s := by
  simp [trapCount, hc]

theorem trapCount_eq {w : Who} {s : State} (hk : (s.who w.t).k = w.k) (cause : Nat) (info : Word) :
    trapCount s w.t cause info = if cause = 0x05 ∧ info.toNat / 16 = 3 then count s w.k.owner 10 1 else s := by
  simp [trapCount, hk]

theorem delivers_trapCount (s : State) (t : Tid) (cause : Nat) (info : Word) (c : Nat) :
    delivers (trapCount s t cause info) t c = delivers s t c := by
  rw [trapCount_machine]; rfl

section Taken
variable {w : Who} {s : State} {cause : Nat} (pc addr : DWord) (info : Word) (hk : (s.who w.t).k = w.k)
include hk

theorem takeTrap_of_deliverable (hd : Deliverable (trapClass cause) w s) :
    takeTrap s w.t cause pc addr info = deliver (trapCount s w.t cause info) w.t cause pc addr info :=
  if_pos ((delivers_trapCount ..).trans ((delivers_iff hk cause).mpr hd))

theorem takeTrap_of_not_deliverable (hd : ¬ Deliverable (trapClass cause) w s) :
    takeTrap s w.t cause pc addr info = killFinal (trapCount s w.t cause info) w.t.vgid cause pc addr info :=
  if_neg fun h => hd ((delivers_iff hk cause).mp ((delivers_trapCount ..).symm.trans h))

end Taken

/-- A deliverable trap of the issuer is delivered in the state in which it has been counted. -/
theorem delivered_takeTrap {w : Who} {s : State} {cause : Nat} (pc addr : DWord) (info : Word) (hw : s.who? = some w)
    (hd : Deliverable (trapClass cause) w s) :
    Delivered cause pc addr info w (trapCount s w.t cause info) (takeTrap s w.t cause pc addr info) := by
  obtain ⟨hwho, hs, -⟩ := who?_spec hw
  have hk : (s.who w.t).k = w.k := congrArg Who.k hwho.symm
  have hth : (trapCount s w.t cause info).thread w.t = w.th := by rw [trapCount_machine]; exact congrArg Who.th hwho.symm
  rw [takeTrap_of_deliverable pc addr info hk hd]
  refine delivered_deliver cause pc addr info ?_ ?_ (by rw [hth]) (by rw [hth]) (by rw [hth]) <;> rw [trapCount_machine]
  · exact hs
  · exact hk

theorem Rest.deliverable {cls : Nat} {w : Who} {s t : State} (h : Rest w (fun _ => false) s t) (hd : Deliverable cls w s) : Deliverable cls w t := by
  simpa only [Deliverable, h.bankGet rfl] using hd

/-- An instruction whose own effect is a trap after it (R255) is done, and then its trap is taken. -/
theorem delivered_of_after {i : Instr} {h : Hdr} {u : Use} {body : Who → State → Res State} {cause : Nat} {addr : DWord} {info : Word} {w : Who}
    {s : State} (he : exec i s = runInstr h u body s) (hi : Issues h u w s)
    (hb : body w (advance w u s) = .error (.after cause addr info (advance w u s))) (hc : cause ≠ 0x05)
    (hd : Deliverable (trapClass cause) w s) : ∃ t, exec i s = .next t ∧ Delivered cause (nextPc w u.len) addr info w s t := by
  obtain ⟨hw, hs, -⟩ := who?_spec hi.who
  have hk : (s.who w.t).k = w.k := congrArg Who.k hw.symm
  have hadv := Rest.advance (mine := fun _ => false) w u s
  have hth : (advance w u s).thread w.t = pastThread u s.cyc w.th := by rw [advance_thread, hi.thread_eq]
  have htrap : takeTrap (advance w u s) w.t cause (nextPc w u.len) addr info = deliver (advance w u s) w.t cause (nextPc w u.len) addr info := by
    rw [takeTrap_of_deliverable _ addr info (hadv.kernelOf _ ▸ hk) (hadv.deliverable hd), trapCount_of_ne _ _ _ hc]
  have hstop : stopped h u w s (.after cause addr info (advance w u s)) =
      countIssue w (deliver (advance w u s) w.t cause (nextPc w u.len) addr info) := by
    rw [← htrap]
    simp only [stopped, hth]
    rfl
  have hdel : Delivered cause (nextPc w u.len) addr info w (advance w u s) _ :=
    delivered_deliver cause (nextPc w u.len) addr info hs (hadv.kernelOf _ ▸ hk) (by rw [hth]; rfl) (by rw [hth]; rfl) (by rw [hth]; rfl)
  exact ⟨_, he.trans ((runInstr_stop hi hb).trans (congrArg _ hstop)),
    (hdel.before hadv).after (rest_countIssue _ w _) (countIssue_thread ..)⟩


section Return
variable {s : State} {t : Tid}

/-- What the issuer of a TRET is after it, but for its registers (R262). -/
def returned (mode : Bool) (pc : DWord) (th : Thread) : Thread :=
  { th with sys := mode, pc := pc, latches := dropLatches th.latches, retained := none, resuming := true }

theorem trapReturn_eq (s : State) (t : Tid) :
    trapReturn s t = (bankPut s t 23 (bankGet s t 23 &&& 0x7FFFFFFF)).updThread t (returned (bit (bankGet s t 31) 8) (bankPair s t 26)) := rfl

/-- A return clears ENTRY of the mask. -/
theorem trapReturn_mask (hs : (s.group t.vgid).saved = none) : bankGet (trapReturn s t) t 23 = bankGet s t 23 &&& 0x7FFFFFFF := by
  have hput := onlyRegs_regPut (i := (s.who t).k.regs + 23) ⟨bankGet s t 23 &&& 0x7FFFFFFF, .full⟩ hs
  have hs1 : ((bankPut s t 23 (bankGet s t 23 &&& 0x7FFFFFFF)).group t.vgid).saved = none := by rw [bankPut, hput.group]; exact hs
  rw [trapReturn_eq]
  refine (bankGet_updThread (s := bankPut s t 23 _) 23 hs1 rfl).trans ?_
  rw [bankGet_bankPut _ 23 (by decide) hs, if_pos rfl]

theorem trapReturn_thread (hs : (s.group t.vgid).saved = none) :
    ∃ m r l e, (trapReturn s t).thread t =
      returned (bit (bankGet s t 31) 8) (bankPair s t 26) { s.thread t with monitor := m, regs := r, links := l, ecc := e } := by
  have hput := onlyRegs_regPut (i := (s.who t).k.regs + 23) ⟨bankGet s t 23 &&& 0x7FFFFFFF, .full⟩ hs
  rw [trapReturn_eq, State.updThread_at_thread_self, bankPut, hput.own]
  exact ⟨_, _, _, _, rfl⟩

theorem rest_trapReturn {w : Who} (hs : (s.group w.t.vgid).saved = none) :
    Rest w (fun i => i = (s.who w.t).k.regs + 23) s (trapReturn s w.t) := by
  have hput := onlyRegs_regPut (i := (s.who w.t).k.regs + 23) ⟨bankGet s w.t 23 &&& 0x7FFFFFFF, .full⟩ hs
  rw [trapReturn_eq, bankPut]
  exact (Rest.of_onlyRegs hput).trans (.of_updThread (by rw [hput.group]; exact hs) rfl)

/-- The low three bits of an address are its remainder by 8 (R57). -/
theorem toNat_mod_eight (x : DWord) : x.toNat % 8 = bits x 2 0 := by
  simp [bits]

/-- An instruction that names no source leaves no retained entry (R70). -/
theorem retainOf_of_no_reads (h : Hdr) {u : Use} {w : Who} (s s1 : State) (hu : u.reads w.th = []) : retainOf h u w s s1 = none := by
  simp [retainOf, hu]

/-- What a TRET names: nothing (R299). -/
abbrev tretUse : Use := { sys := true, cancel := .never, tret := true }

theorem bankPair_advance (w : Who) (u : Use) (s : State) (n : Nat) : bankPair (advance w u s) w.t n = bankPair s w.t n :=
  (Rest.advance (mine := fun _ => false) w u s).bankPair rfl rfl

theorem exec_tret_of_aligned {h : Hdr} {w : Who} (hi : Issues h tretUse w s) (hpc : bits (bankPair s w.t 26) 2 0 = 0) :
    exec (.tret h) s = .next (endIssue h tretUse w s (trapReturn (advance w tretUse s) w.t)) := by
  refine runInstr_ok hi ?_
  simp only [takeCancel_none hi.noCancel, bankPair_advance, toNat_mod_eight, hpc]
  rfl

theorem exec_tret_of_misaligned {h : Hdr} {w : Who} (hi : Issues h tretUse w s) (hpc : bits (bankPair s w.t 26) 2 0 ≠ 0) :
    TrapsWith (.tret h) 0x09 (bankPair s w.t 26) 0 w s := by
  refine runInstr_stop (x := .trap 0x09 (bankPair s w.t 26) 0) hi ?_
  simp only [takeCancel_none hi.noCancel, bankPair_advance, toNat_mod_eight, trapIf, decide_eq_true hpc]
  rfl

end Return

/-- Settles O9: the return writes ENTRY alone and changes the issuer; a TRAP_PC that is no multiple of 8 stops it before. -/
theorem returnFromTrap : Obligations.ReturnFromTrap := by
  unfold Obligations.ReturnFromTrap
  intro h w s hi _
  refine ⟨fun hpc => ⟨_, exec_tret_of_aligned hi hpc, ?_⟩, exec_tret_of_misaligned hi⟩
  obtain ⟨hw, hs, -⟩ := who?_spec hi.who
  have hadv := Rest.advance (mine := fun _ => false) w tretUse s
  have hs1 : ((advance w tretUse s).group w.t.vgid).saved = none := hs
  have hret := rest_trapReturn hs1
  have hend := rest_endIssue (fun _ => false) h tretUse w s (trapReturn (advance w tretUse s) w.t) (by rw [hret.saved]; exact hs)
  obtain ⟨_, _, _, _, hth⟩ := trapReturn_thread hs1
  rw [advance_thread, hi.thread_eq, hadv.bankGet rfl, bankPair_advance] at hth
  rw [hadv.kernelOf, ← hw] at hret
  refine ⟨?mode, ?pc, ?mask, fun k => ?latches, ?retained, ?preds, ?fcw, (hadv.mono (by simp)).trans (hret.trans (hend.mono (by simp)))⟩
  case mask => rw [hend.bankGet rfl, trapReturn_mask hs1, hadv.bankGet rfl]
  case retained => rw [endIssue_thread, retainOf_of_no_reads h _ _ rfl]
  case latches => rw [endIssue_thread, hth]; exact dropLatches_valid _ k
  all_goals rw [endIssue_thread, hth]; rfl

end Sys2Proof.Machine
end

section
/-! What the death of a gang keeps (R276): whatever it does to memory, to registers and to holdings, it changes no kernel until it notes the
kill there, and no thread comes back from EXITED. -/
namespace Sys2Proof.Machine

/-- From `s` to `s'` no kernel has changed, and a thread that was EXITED still is. -/
structure KeepsEnded (s s' : State) : Prop where
  kernels : s'.kernels = s.kernels
  exited : ∀ x, (s.thread x).st = .exited → (s'.thread x).st = .exited

/-- A change of entries that keeps their keys leaves a look-up the changed value. -/
theorem look_map_of_key {κ α : Type} [DecidableEq κ] {f : κ × α → κ × α} (hf : ∀ p, (f p).1 = p.1) (t : List (κ × α)) (x : κ) :
    look (t.map f) x = (look t x).map (fun a => (f (x, a)).2) := by
  have h : t.map f = t.map (fun p => (p.1, (f (p.1, p.2)).2)) := List.map_congr_left fun p _ => Prod.ext (hf p) rfl
  rw [h]
  exact look_map t (fun k a => (f (k, a)).2) x

namespace KeepsEnded
variable {s a b : State}

theorem refl (s : State) : KeepsEnded s s := ⟨rfl, fun _ h => h⟩

theorem same (h : KeepsEnded s a) (hk : b.kernels = a.kernels) (ht : b.threads = a.threads) : KeepsEnded s b :=
  ⟨hk.trans h.kernels, fun x hx => by rw [State.thread, ht]; exact h.exited x hx⟩

theorem ite {q : Prop} [Decidable q] (ha : KeepsEnded s a) (hb : KeepsEnded s b) : KeepsEnded s (if q then a else b) := by
  split
  · exact ha
  · exact hb

theorem foldl {α : Type} {f : State → α → State} {l : List α} (hf : ∀ b x, KeepsEnded s b → KeepsEnded s (f b x)) (h : KeepsEnded s a) :
    KeepsEnded s (l.foldl f a) := by
  induction l generalizing a with
  | nil => exact h
  | cons x l ih => exact ih (hf a x h)

theorem updThread {t : Tid} {f : Thread → Thread} (hf : ∀ th, th.st = .exited → (f th).st = .exited) (h : KeepsEnded s a) :
    KeepsEnded s (a.updThread t f) := by
  refine ⟨h.kernels, fun x hx => ?_⟩
  have hax := h.exited x hx
  rw [State.updThread_at_thread]
  split
  · next e => exact hf _ (e ▸ hax)
  · exact hax

theorem mapThreads {f : Tid × Thread → Tid × Thread} (hkey : ∀ p, (f p).1 = p.1) (hst : ∀ p, p.2.st = .exited → (f p).2.st = .exited)
    (h : KeepsEnded s a) : KeepsEnded s { a with threads := a.threads.map f } := by
  refine ⟨h.kernels, fun x hx => ?_⟩
  have hax := h.exited x hx
  simp only [State.thread, at_, look_map_of_key hkey] at hax ⊢
  cases hl : look a.threads x with
  | none => rw [hl] at hax; exact hax
  | some th => rw [hl] at hax; exact hst (x, th) hax

theorem mapGroup {v : Nat} {f : Tid → Thread → Thread} (hf : ∀ t th, th.st = .exited → (f t th).st = .exited) (h : KeepsEnded s a) :
    KeepsEnded s (a.mapGroup v f) := by
  refine mapThreads (fun p => ?_) (fun p hp => ?_) h <;> split
  · rfl
  · rfl
  · exact hf _ _ hp
  · exact hp

theorem updGroup {k : Nat} {f : Group → Group} (h : KeepsEnded s a) : KeepsEnded s (a.updGroup k f) := h.same rfl rfl
theorem updGang {k : Nat} {f : Gang → Gang} (h : KeepsEnded s a) : KeepsEnded s (a.updGang k f) := h.same rfl rfl
theorem updCore {k : Nat} {f : Core → Core} (h : KeepsEnded s a) : KeepsEnded s (a.updCore k f) := h.same rfl rfl
theorem updCluster {k : Nat} {f : Cluster → Cluster} (h : KeepsEnded s a) : KeepsEnded s (a.updCluster k f) := h.same rfl rfl
theorem updFn {k : Nat} {f : Fn → Fn} (h : KeepsEnded s a) : KeepsEnded s (a.updFn k f) := h.same rfl rfl
theorem updPart {k : Nat} {f : Part → Part} (h : KeepsEnded s a) : KeepsEnded s (a.updPart k f) := h.same rfl rfl

/-! Memory and the cuts (R290, R430). -/

theorem performPiece {pa : Nat} {bs : List Byte} (h : KeepsEnded s a) : KeepsEnded s (Machine.performPiece a pa bs) := by
  have hraw : ∀ b, KeepsEnded s b → KeepsEnded s (physWriteRaw b pa bs) := fun b hb => by
    rw [physWriteRaw_machine]
    exact hb.same rfl rfl
  have hmerge : ∀ b g n, KeepsEnded s b → KeepsEnded s (mergeGran b g n) := fun b g n hb => by
    unfold mergeGran
    split
    · exact hb
    · exact .ite (hb.same rfl rfl) (hb.same rfl rfl)
  refine mapThreads (fun p => ?_) (fun p hp => ?_) (hmerge _ _ _ (hraw _ (h.same rfl rfl)))
  · dsimp only
    split
    · split <;> rfl
    · rfl
  · dsimp only
    split
    · split <;> exact hp
    · exact hp

theorem performWrite {pa : Nat} {bs : List Byte} {n : Nat} (h : KeepsEnded s a) : KeepsEnded s (Machine.performWrite a pa bs n) := by
  induction n generalizing a pa bs with
  | zero => exact h
  | succ n ih =>
    unfold Machine.performWrite
    split
    · exact h
    · exact ih (.performPiece h)

theorem cutClear {x : Nat} {d : Bool} (h : KeepsEnded s a) : KeepsEnded s (Machine.cutClear a x d) :=
  .performWrite (h.same rfl rfl)

theorem cutEnd {p : Nat} {c : Cut} {f : Bool} (h : KeepsEnded s a) : KeepsEnded s (Machine.cutEnd a p c f) := by
  have htrailer : KeepsEnded s
      (if cutDestOk (a.part p) c.sel (c.dest + c.at_) 64 then Machine.performWrite a (c.dest + c.at_) (cutTrailer c f) 3 else a) :=
    .ite (.performWrite h) h
  unfold Machine.cutEnd
  exact .updPart (.ite (.foldl (fun _ _ hb => .cutClear hb) htrailer) htrailer)

theorem poisonGrans {base : Nat} {offs : List Nat} (h : KeepsEnded s a) : KeepsEnded s (Machine.poisonGrans a base offs) :=
  .foldl (fun _ _ hb => .updFn (hb.same rfl rfl)) h

/-- Appending a record, done or failed. -/
theorem cutAppend {p : Nat} {c : Cut} {k n : Nat} {x : DWord} {bs : List Byte} (h : KeepsEnded s a) :
    (∀ c1 b, Machine.cutAppend a p c k n x bs = .ok (c1, b) → KeepsEnded s b) ∧
      ∀ b, Machine.cutAppend a p c k n x bs = .error b → KeepsEnded s b := by
  unfold Machine.cutAppend
  dsimp only
  generalize recordBytes _ _ _ _ _ _ = r
  split
  · refine ⟨fun c1 b e => ?_, fun b e => nomatch e⟩
    cases e
    exact .performWrite h
  · refine ⟨fun c1 b e => (nomatch e), fun b e => ?_⟩
    cases e
    exact .cutEnd h

theorem cutCopy {p : Nat} {i : CutItem} (h : KeepsEnded s a) : KeepsEnded s (Machine.cutCopy a p i) := by
  unfold Machine.cutCopy
  split
  · exact h
  · next c _ =>
    have happend := h.cutAppend (p := p) (c := c) (k := 1) (n := i.asid) (x := BitVec.ofNat 64 i.va) (bs := physRead a i.phys 65536)
    refine .ite (.cutEnd h) ?_
    split
    · next e => exact happend.2 _ e
    · next e =>
      have hmarked : ∀ base offs, KeepsEnded s (Machine.poisonGrans _ base offs) := fun _ _ => .poisonGrans (happend.1 _ _ e)
      exact .ite (.cutEnd (.ite (.cutClear (hmarked _ _)) (hmarked _ _))) (.updPart (.ite (.cutClear (hmarked _ _)) (hmarked _ _)))

theorem performBytes {pa : Nat} {bs : List Byte} (h : KeepsEnded s a) : KeepsEnded s (Machine.performBytes a pa bs) :=
  .performWrite (.foldl (fun _ _ hb => .cutCopy hb) h)

/-! Register words (R40, R44). -/

section Words
variable {t : Tid} {i : Nat}

theorem regPut {w : RegWord} (h : KeepsEnded s a) : KeepsEnded s (Machine.regPut a t i w) := by
  refine .ite h ?_
  split
  · exact .updThread (fun _ hx => hx) h
  · exact .performBytes (.performBytes h)

theorem fireWord (h : KeepsEnded s a) : KeepsEnded s (Machine.fireWord a t i) := by
  rw [fireWord_eq]
  exact .mapThreads (fun _ => rfl) (fun _ hx => hx) h

theorem writeWord {v : Word} (h : KeepsEnded s a) : KeepsEnded s (Machine.writeWord a t i v) :=
  .ite h (.fireWord (.updThread (fun _ hx => hx) (.regPut h)))

theorem setTag {g : Tag} (h : KeepsEnded s a) : KeepsEnded s (Machine.setTag a t i g) := .ite h (.fireWord (.regPut h))

theorem arriveWord {v : Word} (h : KeepsEnded s a) : KeepsEnded s (Machine.arriveWord a t i v) := .ite (.writeWord h) h

theorem lossWord {r : Word} (h : KeepsEnded s a) : KeepsEnded s (Machine.lossWord a t i r) :=
  .ite (.ite h (.fireWord (.regPut h))) h

theorem writeWords {ws : List Word} (h : KeepsEnded s a) : KeepsEnded s (Machine.writeWords a t i ws) := by
  induction ws generalizing a i with
  | nil => exact h
  | cons w ws ih => exact ih (.writeWord h)

theorem arriveWords {ws : List Word} (h : KeepsEnded s a) : KeepsEnded s (Machine.arriveWords a t i ws) := by
  induction ws generalizing a i with
  | nil => exact h
  | cons w ws ih => exact ih (.arriveWord h)

theorem lossWords {r : Word} {n : Nat} (h : KeepsEnded s a) : KeepsEnded s (Machine.lossWords a t i r n) := by
  induction n generalizing a i with
  | zero => exact h
  | succ n ih => exact ih (.lossWord h)

theorem operandWrite {ws : List Word} (h : KeepsEnded s a) : KeepsEnded s (Machine.operandWrite a t i ws) := .ite h (.writeWords h)
theorem operandArrive {ws : List Word} (h : KeepsEnded s a) : KeepsEnded s (Machine.operandArrive a t i ws) := .ite h (.arriveWords h)
theorem operandLoss {r : Word} {n : Nat} (h : KeepsEnded s a) : KeepsEnded s (Machine.operandLoss a t i r n) := .ite h (.lossWords h)
theorem operandTags {n : Nat} {g : Tag} (h : KeepsEnded s a) : KeepsEnded s (Machine.operandTags a t i n g) :=
  .ite h (.foldl (fun _ _ hb => .setTag hb) h)

/-- A held thread goes on only where it is WAITING. -/
theorem finishHeld (h : KeepsEnded s a) : KeepsEnded s (Machine.finishHeld a t) := .updThread (fun th hx => by simp [hx]) h

end Words

/-! Window accesses and windows (R46, R54). -/

/-- An attempt at a word that performs the access leaves a state that keeps what has ended. -/
def WhenDone (s : State) : AccOut → Prop
  | .done b => KeepsEnded s b
  | _ => True

theorem WhenDone.ite {q : Prop} [Decidable q] {x y : AccOut} (hx : WhenDone s x) (hy : WhenDone s y) : WhenDone s (if q then x else y) := by
  split
  · exact hx
  · exact hy

theorem accTry (x : WinAcc) (h : KeepsEnded s a) : WhenDone s (Machine.accTry a x) := by
  unfold Machine.accTry
  generalize x.kind = kind
  cases kind with
  | wld | lnrd =>
    refine .ite trivial ?_
    split
    · exact operandLoss h
    · exact operandArrive h
  | wst | lnwr | mcast => exact .ite trivial (operandWrite h)
  | wtake =>
    dsimp only
    split
    · exact operandLoss h
    · exact .ite trivial (.ite (operandArrive (.operandTags h)) trivial)
  | wgive =>
    dsimp only
    split
    · trivial
    · exact .ite trivial (.ite (operandWrite h) trivial)
  | atomw =>
    refine .ite trivial ?_
    split
    · exact operandLoss h
    · exact operandArrive (.operandWrite h)
  | probe => exact .ite trivial h

theorem dropAcc {n : Nat} (h : KeepsEnded s a) : KeepsEnded s (Machine.dropAcc a n) := h.same rfl rfl
theorem putAcc {x : WinAcc} (h : KeepsEnded s a) : KeepsEnded s (Machine.putAcc a x) := h.same rfl rfl
theorem mcastStep {p : Nat} {n : Bool} {r : Option Nat} (h : KeepsEnded s a) : KeepsEnded s (Machine.mcastStep a p n r) := h.same rfl rfl

theorem accFinish {x : WinAcc} (h : KeepsEnded s a) : KeepsEnded s (Machine.accFinish a x) := by
  unfold Machine.accFinish
  generalize x.kind = kind
  cases kind with
  | wst | wgive | lnwr => exact .finishHeld (.dropAcc h)
  | mcast => exact .mcastStep (.dropAcc h)
  | wld | lnrd | wtake | atomw | probe => exact .dropAcc h

theorem accEnd {x : WinAcc} {r : Nat} (h : KeepsEnded s a) : KeepsEnded s (Machine.accEnd a x r) := by
  unfold Machine.accEnd
  split
  · exact .mcastStep (.dropAcc h)
  · exact .ite (.dropAcc (.operandLoss h)) (.putAcc h)

theorem revoke {core slot : Nat} (h : KeepsEnded s a) : KeepsEnded s (Machine.revoke a core slot) := by
  refine .foldl (fun b x hb => .ite (.accEnd hb) (.ite hb ?_)) (.updCore h)
  split
  · next e =>
    have hout := hb.accTry x
    rw [e] at hout
    exact .accFinish hout
  · exact .accEnd hb
  · exact .putAcc hb

theorem revokeAll {v : Nat} (h : KeepsEnded s a) : KeepsEnded s (Machine.revokeAll a v) := .foldl (fun _ _ hb => .revoke hb) h

/-! Posts (R309, R420). -/

section Posts
variable {n kind src : Nat} {bereaved : Bool} {p : List Word}

theorem postInbox (h : KeepsEnded s a) : KeepsEnded s (Machine.postInbox a n kind bereaved src p) := by
  unfold Machine.postInbox
  split
  · exact h
  · refine .ite (.performBytes h) (.mapGroup (fun t th hx => ?_) (.performBytes (.performBytes h)))
    split <;> exact hx

theorem heqWrite {ws : List Word} (h : KeepsEnded s a) : KeepsEnded s (Machine.heqWrite a n ws) := by
  unfold Machine.heqWrite msix
  exact .updFn (.updFn (.performBytes h))

theorem postHost (h : KeepsEnded s a) : KeepsEnded s (Machine.postHost a n kind bereaved src p) := by
  have hflush : KeepsEnded s (heqFlush a n) := .ite (.updFn (.heqWrite h)) h
  exact .ite (.heqWrite hflush) (.updFn hflush)

end Posts

/-! Holdings and their conveyance (R385 to R392, R403). -/

theorem freeEst {e : Est} (h : KeepsEnded s a) : KeepsEnded s (Machine.freeEst a e) := h.same rfl rfl
theorem putEst {e : Est} (h : KeepsEnded s a) : KeepsEnded s (Machine.putEst a e) := h.same rfl rfl
theorem writeLockWord {pa : Nat} {x : DWord} (h : KeepsEnded s a) : KeepsEnded s (Machine.writeLockWord a pa x) := .performBytes h

theorem lockMine {pa v : Nat} {hd : Word} (h : KeepsEnded s a) : KeepsEnded s (Machine.lockMine a pa v hd) :=
  .foldl (fun _ _ hb => .finishHeld (.operandArrive hb)) (h.same rfl rfl)

theorem lockBreak {pa : Nat} (h : KeepsEnded s a) : KeepsEnded s (Machine.lockBreak a pa) :=
  .foldl (fun _ _ hb => .finishHeld (.operandArrive hb)) (h.same rfl rfl)

theorem lockGrant {pa : Nat} (h : KeepsEnded s a) : KeepsEnded s (Machine.lockGrant a pa) := by
  unfold Machine.lockGrant
  split
  · exact h
  · exact .lockMine (.finishHeld (.operandArrive (.writeLockWord (h.same rfl rfl))))

theorem promEnd {e : Est} {x : DWord} (h : KeepsEnded s a) : KeepsEnded s (Machine.promEnd a e x) := by
  refine .mapThreads (fun p => ?_) (fun p hp => ?_) (.freeEst (.writeLockWord h)) <;> split
  · rfl
  · rfl
  · exact hp
  · exact hp

theorem taskReturn {e : Est} (h : KeepsEnded s a) : KeepsEnded s (Machine.taskReturn a e) := by
  unfold Machine.taskReturn
  split
  · exact .freeEst h
  · exact .freeEst (.ite (.updCore h) (.updPart (.updCore h)))

theorem postHeirless {e : Est} {info : Nat} (h : KeepsEnded s a) : KeepsEnded s (Machine.postHeirless a e info) := by
  unfold Machine.postHeirless
  dsimp only
  split
  · exact .ite (.postInbox h) (.postHost h)
  · exact .postHost h

theorem strayEnd {e : Est} (h : KeepsEnded s a) : KeepsEnded s (Machine.strayEnd a e) := by
  have hfree : KeepsEnded s (Machine.freeEst (Machine.postHeirless a e 2) e) := .freeEst (.postHeirless h)
  unfold Machine.strayEnd
  dsimp only
  split
  · exact .lockGrant hfree
  · exact .lockBreak hfree
  · exact hfree

theorem heirlessEnd {e : Est} (h : KeepsEnded s a) : KeepsEnded s (Machine.heirlessEnd a e) := by
  unfold Machine.heirlessEnd
  split
  · exact .lockBreak (.freeEst (.postHeirless (.writeLockWord h)))
  · exact .promEnd h
  · exact .taskReturn h

theorem holderWrite {e : Est} {v : Nat} (h : KeepsEnded s a) : KeepsEnded s (Machine.holderWrite a e v) := by
  unfold Machine.holderWrite
  split
  · exact .writeLockWord h
  · exact .writeLockWord h
  · exact h

theorem convey {e : Est} {kill : Bool} {self : Option Nat} (h : KeepsEnded s a) : KeepsEnded s (Machine.convey a e kill self).1 := by
  unfold Machine.convey
  split
  · exact .strayEnd h
  · dsimp only
    split
    · exact .postInbox (.ite (.lockMine (.putEst (.holderWrite (h.same rfl rfl)))) (.putEst (.holderWrite (h.same rfl rfl))))
    · split
      · exact .postHost (.taskReturn h)
      · exact .postHost (.putEst (.holderWrite h))
    · exact .heirlessEnd (.putEst h)

theorem conveyAll {v : Nat} {kill : Bool} (h : KeepsEnded s a) : KeepsEnded s (Machine.conveyAll a v kill) := by
  refine .foldl (fun b e hb => ?_) (.ite (.updGroup h) h)
  split
  · exact .convey hb
  · exact hb

/-! Pages, images and requests of what ends (R34, R240, R365, R398). -/

theorem pageDrop {part i : Nat} (h : KeepsEnded s a) : KeepsEnded s (Machine.pageDrop a part i).2 := by
  unfold Machine.pageDrop pageWrite
  split
  · exact h
  · dsimp only
    split
    · dsimp only
      exact .performBytes h
    · exact ite (.performBytes h) (.updFn (.performBytes h))

theorem sibStore {gk : Nat} (h : KeepsEnded s a) : KeepsEnded s (Machine.sibStore a gk) := by
  unfold Machine.sibStore
  dsimp only
  split
  · exact .ite h (.performBytes h)
  · exact h

theorem dropPages {gk : Nat} (h : KeepsEnded s a) : KeepsEnded s (Machine.dropPages a gk) :=
  .sibStore (.updGang (.foldl (fun _ _ hb => .pageDrop hb) h))

theorem loadImage {v : Nat} (h : KeepsEnded s a) : KeepsEnded s (Machine.loadImage a v) := by
  have hcount : KeepsEnded s (countArea a v) := by
    unfold countArea
    dsimp only
    split
    · exact h
    · refine .foldl (fun b x hb => ?_) h
      split
      · exact hb.same rfl rfl
      · exact hb
  unfold Machine.loadImage
  exact .updGroup (.mapGroup (fun _ _ hx => hx) hcount)

theorem freeArea {v : Nat} (h : KeepsEnded s a) : KeepsEnded s (Machine.freeArea a v) := by
  unfold Machine.freeArea
  split
  · exact h
  · exact .updPart (.updCore h)

theorem settle {v : Nat} {kill : Bool} (h : KeepsEnded s a) : KeepsEnded s (Machine.settle a v kill) := by
  have hcancel : KeepsEnded s (mtCancel a v) := .foldl (fun _ _ hb => .updCluster hb) (h.same rfl rfl)
  exact hcancel.same rfl rfl

theorem releaseGang {gk : Nat} (h : KeepsEnded s a) : KeepsEnded s (Machine.releaseGang a gk) := by
  unfold Machine.releaseGang
  exact .updGang (.foldl (fun _ _ hb => hb.same rfl rfl) h)

theorem exitGroup {v : Nat} (h : KeepsEnded s a) : KeepsEnded s (Machine.exitGroup a v) :=
  .updGroup (.mapGroup (fun _ _ _ => rfl) h)

end KeepsEnded

end Sys2Proof.Machine
end

section
/-! The final kill of an undelivered trap (R261, R276, R323), and the trap that is delivered or kills. -/
namespace Sys2Proof.Machine

theorem ballotEnd_machine (s : State) (k i : Nat) : ballotEnd s k i = { s with ballots := (ballotEnd s k i).ballots } := by
  unfold ballotEnd
  split
  · rfl
  · dsimp only
    split <;> rfl

@[simp] theorem ballotEnd_threads (s : State) (k i : Nat) : (ballotEnd s k i).threads = s.threads := by rw [ballotEnd_machine]
@[simp] theorem ballotEnd_at_kernel (s : State) (k i n : Nat) : (ballotEnd s k i).kernel n = s.kernel n := by rw [ballotEnd_machine]; rfl
@[simp] theorem ballotEnd_at_gang (s : State) (k i n : Nat) : (ballotEnd s k i).gang n = s.gang n := by rw [ballotEnd_machine]; rfl

/-- A gang that is released loses its inboxes and the windows it reserves (R35, R324). -/
theorem releaseGang_machine (s : State) (gk : Nat) :
    ∃ parts retired, releaseGang s gk =
      { s with parts := parts, retired := retired, gangs := put s.gangs gk { s.gang gk with st := .ended, slotCores := [], inbox := [] } } := by
  unfold releaseGang
  dsimp only
  generalize hb : List.foldl _ s _ = b
  obtain ⟨parts, retired, rfl⟩ : ∃ parts retired, b = { s with parts := parts, retired := retired } := by
    rw [← hb]
    refine List.foldlRecOn (motive := fun b : State => ∃ parts retired, b = { s with parts := parts, retired := retired }) _ _ ⟨_, _, rfl⟩ ?_
    rintro _ ⟨parts, retired, rfl⟩ x -
    exact ⟨_, _, rfl⟩
  exact ⟨parts, retired, rfl⟩

@[simp] theorem releaseGang_threads (s : State) (gk : Nat) : (releaseGang s gk).threads = s.threads := by
  obtain ⟨_, _, h⟩ := releaseGang_machine s gk
  rw [h]

@[simp] theorem releaseGang_at_kernel (s : State) (gk n : Nat) : (releaseGang s gk).kernel n = s.kernel n := by
  obtain ⟨_, _, h⟩ := releaseGang_machine s gk
  rw [h]
  rfl

@[simp] theorem releaseGang_killed (s : State) (gk : Nat) : ((releaseGang s gk).gang gk).killed = (s.gang gk).killed := by
  obtain ⟨_, _, h⟩ := releaseGang_machine s gk
  rw [h]
  simp [State.gang]

/-- The threads of a group that exits, and no others, are EXITED (R276). -/
theorem look_exitGroup (s : State) (v : Nat) (x : Tid) :
    look (exitGroup s v).threads x = (look s.threads x).map (fun th => if x.vgid = v then { th with st := .exited, wait := .none } else th) := by
  refine (look_map_of_key (fun p => ?_) s.threads x).trans ?_
  · split <;> rfl
  · congr 1
    funext th
    split <;> rfl

theorem exitGroup_exited {s : State} {x : Tid} (hx : (look s.threads x).isSome) : ((exitGroup s x.vgid).thread x).st = .exited := by
  obtain ⟨th, hth⟩ := Option.isSome_iff_exists.mp hx
  simp [State.thread, at_, look_exitGroup, hth]

theorem foldl_exitGroup_exited {s : State} {x : Tid} {vs : List Nat} (hv : x.vgid ∈ vs) (hx : (look s.threads x).isSome) :
    ((vs.foldl exitGroup s).thread x).st = .exited := by
  induction vs generalizing s with
  | nil => cases hv
  | cons v vs ih =>
    by_cases e : v = x.vgid
    · subst e
      have hkeeps : KeepsEnded (exitGroup s x.vgid) (vs.foldl exitGroup (exitGroup s x.vgid)) := .foldl (fun _ _ hb => .exitGroup hb) (.refl _)
      exact hkeeps.exited x (exitGroup_exited hx)
    · exact ih ((List.mem_cons.mp hv).resolve_left (Ne.symm e)) (by simpa [look_exitGroup] using hx)

/-- What a kill notes once the work of the gang `g` is settled: in the gang, in its kernel, and in the ballot of a sibling (R276, R261, R377). -/
def noteKill (m : State) (gk : Nat) (g : Gang) (gone votes isFinal : Bool) (info : Option KillInfo) : State :=
  let s1 := m.updGang gk (fun g => { g with killed := some isFinal })
  let s2 := if gone then releaseGang s1 gk else s1
  let s3 := s2.updKernel g.kernel (fun k => { k with kill := k.kill.or info })
  if votes then ballotEnd s3 g.kernel g.idx else s3

section NoteKill
variable (m : State) (gk : Nat) (g : Gang) (gone votes isFinal : Bool) (info : Option KillInfo)

theorem noteKill_threads : (noteKill m gk g gone votes isFinal info).threads = m.threads := by
  cases gone <;> cases votes <;> simp [noteKill]

theorem noteKill_kill : ((noteKill m gk g gone votes isFinal info).kernel g.kernel).kill = (m.kernel g.kernel).kill.or info := by
  cases gone <;> cases votes <;> simp [noteKill]

theorem noteKill_killed : ((noteKill m gk g gone votes isFinal info).gang gk).killed = some isFinal := by
  cases gone <;> cases votes <;> simp [noteKill]

end NoteKill

/-- A kill makes the threads of the gang's groups EXITED, settles its work in a state `m`, and notes the kill there. -/
theorem killGang_eq (s : State) (gk : Nat) (isFinal : Bool) (info : Option KillInfo) :
    let g := s.gang gk
    let vs := g.groups.filter (fun v => (look s.groups v).isSome)
    ∃ m, KeepsEnded (vs.foldl exitGroup s) m ∧
      killGang s gk isFinal info = noteKill m gk g vs.isEmpty (isFinal && (s.kernel g.kernel).sib) isFinal info := by
  intro g vs
  refine ⟨_, .foldl (fun b v hb => .ite (.loadImage (.freeArea hb)) hb) ?pages, rfl⟩
  case pages =>
    have hdrop : ∀ {q : Prop} [Decidable q] {a : State}, KeepsEnded (vs.foldl exitGroup s) a →
        KeepsEnded (vs.foldl exitGroup s) (if q then dropPages a gk else a) := fun ha => .ite (.dropPages ha) ha
    refine hdrop (.foldl (fun _ _ hb => .conveyAll hb) (.foldl (fun _ _ hb => .settle hb) ?_))
    exact .foldl (fun _ _ hb => .revokeAll hb) (.refl _)

theorem killGang_kill (s : State) (gk : Nat) (isFinal : Bool) (info : Option KillInfo) :
    ((killGang s gk isFinal info).kernel (s.gang gk).kernel).kill = (s.kernel (s.gang gk).kernel).kill.or info := by
  obtain ⟨m, hm, he⟩ := killGang_eq s gk isFinal info
  have hkernels : m.kernels = s.kernels := hm.kernels.trans (KeepsEnded.foldl (fun _ _ hb => .exitGroup hb) (.refl s)).kernels
  rw [he, noteKill_kill, State.kernel, hkernels]
  rfl

theorem killGang_killed (s : State) (gk : Nat) (isFinal : Bool) (info : Option KillInfo) :
    ((killGang s gk isFinal info).gang gk).killed = some isFinal := by
  obtain ⟨m, hm, he⟩ := killGang_eq s gk isFinal info
  rw [he, noteKill_killed]

theorem killGang_exited {s : State} {gk : Nat} {x : Tid} (isFinal : Bool) (info : Option KillInfo) (hv : x.vgid ∈ (s.gang gk).groups)
    (hg : (look s.groups x.vgid).isSome) (hx : (look s.threads x).isSome) : ((killGang s gk isFinal info).thread x).st = .exited := by
  obtain ⟨m, hm, he⟩ := killGang_eq s gk isFinal info
  rw [he, State.thread, noteKill_threads]
  exact hm.exited x (foldl_exitGroup_exited (List.mem_filter.mpr ⟨hv, hg⟩) hx)

/-- The logs of a kill change nothing but the functions' queues (R303). -/
theorem logKill_machine (s : State) (f cause v : Nat) (info : Word) :
    logKill s f cause v info = { s with fns := (logKill s f cause v info).fns } := by
  unfold logKill
  dsimp only
  split <;> rfl

/-- What an undelivered trap leaves (R261, R276, R323): the first kill of the kernel, the gang killed for good, and its threads EXITED. -/
theorem killFinal_spec {w : Who} {s : State} (hw : w = s.who w.t) (cause : Nat) (pc addr : DWord) (info : Word) :
    let t := killFinal s w.t.vgid cause pc addr info
    (t.kernel w.kn).kill = (s.kernel w.kn).kill.or (some ⟨cause, pc, addr, info⟩) ∧ (t.gang w.gk).killed = some true ∧
      ∀ x, x.vgid ∈ w.gang.groups → (look s.groups x.vgid).isSome → (look s.threads x).isSome → (t.thread x).st = .exited := by
  let i : KillInfo := ⟨cause, pc, addr, info⟩
  have hgang : w.gang = s.gang w.gk := by rw [hw]; rfl
  have hkn : w.kn = (s.gang w.gk).kernel := by rw [hw]; rfl
  have hfinal : ∃ f, killFinal s w.t.vgid cause pc addr info = logKill (killGang s w.gk true (some i)) f cause w.t.vgid info :=
    ⟨_, by rw [hw]; rfl⟩
  obtain ⟨f, hfinal⟩ := hfinal
  rw [hfinal, logKill_machine, hkn, hgang]
  exact ⟨killGang_kill s w.gk true (some i), killGang_killed s w.gk true (some i), fun x hv hg hx => killGang_exited true (some i) hv hg hx⟩

/-- The causes of kind P, D and A with their classes (R259). -/
def trapClasses : List (Nat × Nat) :=
  [(0x01, 0), (0x02, 0), (0x03, 1), (0x04, 1), (0x05, 1), (0x06, 1), (0x09, 1), (0x07, 2), (0x08, 2), (0x0C, 2), (0x0E, 2), (0x0A, 3), (0x14, 3),
   (0x15, 3), (0x0B, 4), (0x0F, 5), (0x13, 5), (0x10, 6), (0x12, 7), (0x16, 0), (0x17, 0)]

theorem trapClass_of_mem : ∀ p ∈ trapClasses, trapClass p.1 = p.2 := by decide

/-- Settles O8: TRAP and SYSCALL are issued, and their trap is then taken; a trap is delivered to a resident thread by the writes to its
handler bank, or its gang is killed. -/
theorem trapsAreDeliveredOrKill : Obligations.TrapsAreDeliveredOrKill := by
  unfold Obligations.TrapsAreDeliveredOrKill
  refine ⟨fun h b x w s => ?issued, fun cause cls pc addr info w s hw hcls => ?taken⟩
  case issued =>
    intro u hi hb hd
    exact ⟨delivered_of_after (u := u) rfl hi (by simp only [hb.src32]; rfl) (by decide) hd,
      delivered_of_after (u := u) rfl hi (by simp only [hb.src32]; rfl) (by decide) hd⟩
  case taken =>
    have hwho := (who?_spec hw).1
    have hk : (s.who w.t).k = w.k := congrArg Who.k hwho.symm
    obtain rfl : trapClass cause = cls := trapClass_of_mem _ hcls
    rw [← trapCount_eq hk]
    refine ⟨delivered_takeTrap pc addr info hw, fun hd _ => ?_⟩
    rw [takeTrap_of_not_deliverable pc addr info hk hd]
    obtain ⟨f, hf⟩ : ∃ f, trapCount s w.t cause info = { s with fns := f } := ⟨_, trapCount_machine ..⟩
    rw [hf]
    exact killFinal_spec (s := { s with fns := f }) hwho cause pc addr info

end Sys2Proof.Machine
end
